-- ==== Sys2Proof/Word.lean ====
section
/-! DEFINITION. The bit-vector types of RCCM's registers, ports and fields (10_state.md R20 to R41, 30_encoding.md R80 to R83). -/

namespace Sys2Proof

/-- A byte of the input or output stream (10_state.md R27, R28). -/
abbrev Byte := BitVec 8

/-- A 64-bit command or response word (30_encoding.md R80, R86). -/
abbrev Word64 := BitVec 64

/-- A 32-bit register, CSR value or response DATA field (10_state.md R44, 30_encoding.md R86). -/
abbrev Word32 := BitVec 32

/-- An opcode field, bits [63:58] of a command word (30_encoding.md R81, R82). -/
abbrev OpcodeField := BitVec 6

/-- A 17-bit operand A, B or C of format F3 (30_encoding.md R81). -/
abbrev Operand := BitVec 17

/-- A 16-bit CSR index of format FC (30_encoding.md R82). -/
abbrev CsrIndex := BitVec 16

/-- A frequency, a running sum or an escape count (10_state.md R41). -/
abbrev Count := BitVec 16

/-- The index of a context record, or 0 for an absent successor link (10_state.md R33, R42). -/
abbrev CtxIndex := BitVec 17

/-- The depth of a context, or the model order (10_state.md R35, R41). -/
abbrev Order := BitVec 5

/-- A symbol of the alphabet: 0 to 255 are the byte values, 256 is the terminator (41_contextmodel.md R140). -/
abbrev Sym := Fin 257

end Sys2Proof
end

