-- ==== Sys2Proof/Config.lean ====
section
/-! DEFINITION. The fixed constants of 00_scope.md R7 and the one implementation parameter of R8. -/

namespace Sys2Proof.Config

/-- `RANGE_INIT` (00_scope.md R7). -/
def rangeInit : Word32 := 0xFFFFFFFF

/-- `THRESH`: normalise while `RANGE < THRESH` (00_scope.md R7, 92_eei_decisions.md D40). -/
def thresh : Nat := 0x00800000

/-- `TERM`, the terminator symbol (00_scope.md R7). -/
def term : Sym := 256

/-- `RESCALE_LIMIT` (00_scope.md R7). -/
def rescaleLimit : Nat := 0x7FFF

/-- `UNIFORM_TOTAL`, the order-(-1) total (00_scope.md R7). -/
def uniformTotal : Nat := 256

/-- `FLUSH_SHIFTS` (00_scope.md R7, 92_eei_decisions.md D4). -/
def flushShifts : Nat := 5

/-- `ZERO_FILL`, the byte a starved decoder reads (00_scope.md R7). -/
def zeroFill : Byte := 0x00

/-- `ESC_MAX`, where the escape count saturates (00_scope.md R7). -/
def escMax : Nat := 0xFFFF

/-- The value of CSR `ID` (00_scope.md R2, 10_state.md R45). -/
def idValue : Word32 := 0x52430007

/-- `ARENA_CTX` less one. 00_scope.md R8 leaves the parameter open in 1 .. 2^17, so nothing here fixes it (log entry 1). -/
opaque arenaCtxPred : BitVec 17

/-- `ARENA_CTX`, the number of context records the arena holds, in 1 .. 2^17 (00_scope.md R8). -/
def arenaCtx : Nat := arenaCtxPred.toNat + 1

end Sys2Proof.Config
end

