-- ==== Sys2Proof/Syntax.lean ====
section
/-! DEFINITION. The commands of RCCM (30_encoding.md R85), the CSR names (10_state.md R44) and the assembler lines of 30_encoding.md R95 and R96. -/

namespace Sys2Proof

/-- One constructor per row of spec/opcode_table.json, with the operand fields the row uses (30_encoding.md R83, R85).
Every operand is a bit vector of its field's width, so every term of this type has an encoding (log entry 20). -/
inductive Instr where
  /-- `NOP` (42_control.md R181). -/
  | nop
  /-- `BLK_RESET` (42_control.md R182). -/
  | blkReset
  /-- `CSR_RD csr` (42_control.md R183). -/
  | csrRd (csr : CsrIndex)
  /-- `CSR_WR csr, data` (42_control.md R184). -/
  | csrWr (csr : CsrIndex) (data : Word32)
  /-- `DBG_RD ctxi, off` (42_control.md R189). -/
  | dbgRd (ctxi off : Operand)
  /-- `RC_INIT_ENC` (40_rangecoder.md R109). -/
  | rcInitEnc
  /-- `RC_ENCODE start, size, total` (40_rangecoder.md R110). -/
  | rcEncode (start size total : Operand)
  /-- `RC_FLUSH` (40_rangecoder.md R111). -/
  | rcFlush
  /-- `RC_INIT_DEC` (40_rangecoder.md R112). -/
  | rcInitDec
  /-- `RC_GETFREQ total` (40_rangecoder.md R113). -/
  | rcGetFreq (total : Operand)
  /-- `RC_UPDATE start, size` (40_rangecoder.md R114). -/
  | rcUpdate (start size : Operand)
  /-- `CM_RESET` (41_contextmodel.md R156). -/
  | cmReset
  /-- `CM_START_ENC` (41_contextmodel.md R157). -/
  | cmStartEnc
  /-- `CM_START_DEC` (41_contextmodel.md R158). -/
  | cmStartDec
  /-- `CM_ENCODE sym` (41_contextmodel.md R159). -/
  | cmEncode (sym : Operand)
  /-- `CM_DECODE` (41_contextmodel.md R160). -/
  | cmDecode
  deriving DecidableEq, Repr

/-- The assigned CSRs, by name (10_state.md R44). -/
inductive Csr where
  | id | status | err | ctrl | modelOrder | maxCtx | ctxCount | activeCtx
  | rcLow | rcLowHi | rcRange | rcCode | rcCache | rcCacheSize | rcDtot
  | cntOut | cntIn | cntSym | cntZfill | arenaCap
  deriving DecidableEq, Repr

/-- A CSR operand of an assembler line: an index, or a name of 10_state.md R44 (30_encoding.md R95). -/
inductive CsrOperand where
  | index (n : Nat)
  | name (c : Csr)
  deriving DecidableEq, Repr

/-- An assembler line: a command of 30_encoding.md R95 with its operands as plain numbers, or a pseudo-instruction of R96. -/
inductive AsmLine where
  | nop
  | blkReset
  | csrRd (csr : CsrOperand)
  | csrWr (csr : CsrOperand) (imm : Nat)
  | dbgRd (ctx off : Nat)
  | rcIenc
  | rcEnc (start size total : Nat)
  | rcFlush
  | rcIdec
  | rcGfreq (total : Nat)
  | rcUpd (start size : Nat)
  | cmReset
  | cmSenc
  | cmSdec
  | cmEnc (sym : Nat)
  | cmDec
  /-- `cm.term`: `cm.enc 256`. -/
  | cmTerm
  /-- `rc.byte b`: `rc.enc b, 1, 256`. -/
  | rcByte (b : Nat)
  /-- `cfg.order n`: `csr.wr MODEL_ORDER, n`. -/
  | cfgOrder (n : Nat)
  /-- `cfg.maxctx m`: `csr.wr MAX_CTX, m`. -/
  | cfgMaxctx (m : Nat)
  /-- `eng.penc`: `rc.ienc ; cm.reset ; cm.senc`. -/
  | engPenc
  /-- `eng.pdec`: `rc.idec ; cm.reset ; cm.sdec`. -/
  | engPdec
  deriving DecidableEq, Repr

end Sys2Proof
end

