-- ==== Sys2Proof/WellFormed.lean ====
section
/-! DEFINITION. Well-formed assembler lines and their assembly into commands (30_encoding.md R95, R96).
An `Instr` needs no check: its operands have the widths of their fields (log entry 20). -/

namespace Sys2Proof

/-- The index of a CSR (10_state.md R44). -/
def Csr.index : Csr → CsrIndex
  | .id => 0x000
  | .status => 0x001
  | .err => 0x002
  | .ctrl => 0x003
  | .modelOrder => 0x004
  | .maxCtx => 0x005
  | .ctxCount => 0x006
  | .activeCtx => 0x007
  | .rcLow => 0x010
  | .rcLowHi => 0x011
  | .rcRange => 0x012
  | .rcCode => 0x013
  | .rcCache => 0x014
  | .rcCacheSize => 0x015
  | .rcDtot => 0x016
  | .cntOut => 0x020
  | .cntIn => 0x021
  | .cntSym => 0x022
  | .cntZfill => 0x023
  | .arenaCap => 0x030

/-- The number a CSR operand stands for (30_encoding.md R95). -/
def CsrOperand.toNat : CsrOperand → Nat
  | .index n => n
  | .name c => c.index.toNat

/-- The number fits a 17-bit operand field (30_encoding.md R95). -/
def fitsOperand (n : Nat) : Bool := decide (n < 2 ^ 17)

/-- The number fits the 16-bit CSR field (30_encoding.md R95). -/
def fitsCsr (n : Nat) : Bool := decide (n < 2 ^ 16)

/-- The number fits the 32-bit DATA field (30_encoding.md R95). -/
def fitsData (n : Nat) : Bool := decide (n < 2 ^ 32)

/-- An assembler must refuse an operand that does not fit its field rather than truncate it (30_encoding.md R95). -/
def AsmLine.wellFormed : AsmLine → Bool
  | .nop | .blkReset | .rcIenc | .rcFlush | .rcIdec | .cmReset | .cmSenc | .cmSdec | .cmDec => true
  | .cmTerm | .engPenc | .engPdec => true
  | .csrRd c => fitsCsr c.toNat
  | .csrWr c d => fitsCsr c.toNat && fitsData d
  | .dbgRd a b => fitsOperand a && fitsOperand b
  | .rcEnc a b c => fitsOperand a && fitsOperand b && fitsOperand c
  | .rcGfreq c => fitsOperand c
  | .rcUpd a b => fitsOperand a && fitsOperand b
  | .cmEnc a => fitsOperand a
  | .rcByte b => fitsOperand b
  | .cfgOrder n => fitsData n
  | .cfgMaxctx m => fitsData m

/-- The commands a line stands for, were its operands to fit: R95 for a command, the expansion of R96 for a pseudo-instruction. -/
def AsmLine.commands : AsmLine → List Instr
  | .nop => [.nop]
  | .blkReset => [.blkReset]
  | .csrRd c => [.csrRd (.ofNat 16 c.toNat)]
  | .csrWr c d => [.csrWr (.ofNat 16 c.toNat) (.ofNat 32 d)]
  | .dbgRd a b => [.dbgRd (.ofNat 17 a) (.ofNat 17 b)]
  | .rcIenc => [.rcInitEnc]
  | .rcEnc a b c => [.rcEncode (.ofNat 17 a) (.ofNat 17 b) (.ofNat 17 c)]
  | .rcFlush => [.rcFlush]
  | .rcIdec => [.rcInitDec]
  | .rcGfreq c => [.rcGetFreq (.ofNat 17 c)]
  | .rcUpd a b => [.rcUpdate (.ofNat 17 a) (.ofNat 17 b)]
  | .cmReset => [.cmReset]
  | .cmSenc => [.cmStartEnc]
  | .cmSdec => [.cmStartDec]
  | .cmEnc a => [.cmEncode (.ofNat 17 a)]
  | .cmDec => [.cmDecode]
  | .cmTerm => [.cmEncode 256]
  | .rcByte b => [.rcEncode (.ofNat 17 b) 1 256]
  | .cfgOrder n => [.csrWr Csr.modelOrder.index (.ofNat 32 n)]
  | .cfgMaxctx m => [.csrWr Csr.maxCtx.index (.ofNat 32 m)]
  | .engPenc => [.rcInitEnc, .cmReset, .cmStartEnc]
  | .engPdec => [.rcInitDec, .cmReset, .cmStartDec]

/-- Assembly: the commands of a well-formed line, in order; a line with an operand that does not fit is refused (30_encoding.md R95, R96). -/
def assemble (l : AsmLine) : Option (List Instr) :=
  if l.wellFormed then some l.commands else none

end Sys2Proof
end

