-- ==== Sys2Proof/Decode.lean ====
section
/-! DEFINITION. The opcode map, the total decoder and the encoder of command words (30_encoding.md R80 to R90). -/

namespace Sys2Proof

/-! ### Opcodes (30_encoding.md R85) -/

def Opc.nop : OpcodeField := 0x00
def Opc.blkReset : OpcodeField := 0x01
def Opc.csrRd : OpcodeField := 0x02
def Opc.csrWr : OpcodeField := 0x03
def Opc.dbgRd : OpcodeField := 0x04
def Opc.rcInitEnc : OpcodeField := 0x08
def Opc.rcEncode : OpcodeField := 0x09
def Opc.rcFlush : OpcodeField := 0x0A
def Opc.rcInitDec : OpcodeField := 0x0C
def Opc.rcGetFreq : OpcodeField := 0x0D
def Opc.rcUpdate : OpcodeField := 0x0E
def Opc.cmReset : OpcodeField := 0x10
def Opc.cmStartEnc : OpcodeField := 0x11
def Opc.cmStartDec : OpcodeField := 0x12
def Opc.cmEncode : OpcodeField := 0x13
def Opc.cmDecode : OpcodeField := 0x14

/-- The opcode of a command (30_encoding.md R85). -/
def Instr.opcode : Instr → OpcodeField
  | .nop => Opc.nop
  | .blkReset => Opc.blkReset
  | .csrRd _ => Opc.csrRd
  | .csrWr _ _ => Opc.csrWr
  | .dbgRd _ _ => Opc.dbgRd
  | .rcInitEnc => Opc.rcInitEnc
  | .rcEncode _ _ _ => Opc.rcEncode
  | .rcFlush => Opc.rcFlush
  | .rcInitDec => Opc.rcInitDec
  | .rcGetFreq _ => Opc.rcGetFreq
  | .rcUpdate _ _ => Opc.rcUpdate
  | .cmReset => Opc.cmReset
  | .cmStartEnc => Opc.cmStartEnc
  | .cmStartDec => Opc.cmStartDec
  | .cmEncode _ => Opc.cmEncode
  | .cmDecode => Opc.cmDecode

/-! ### Fields of a command word (30_encoding.md R81, R82) -/

/-- `OPC`, bits [63:58]. -/
def fieldOpc (w : Word64) : OpcodeField := w.extractLsb' 58 6
/-- `A`, bits [50:34]. -/
def fieldA (w : Word64) : Operand := w.extractLsb' 34 17
/-- `B`, bits [33:17]. -/
def fieldB (w : Word64) : Operand := w.extractLsb' 17 17
/-- `C`, bits [16:0]. -/
def fieldC (w : Word64) : Operand := w.extractLsb' 0 17
/-- `CSR`, bits [47:32]. -/
def fieldCsr (w : Word64) : CsrIndex := w.extractLsb' 32 16
/-- `DATA`, bits [31:0]. -/
def fieldData (w : Word64) : Word32 := w.extractLsb' 0 32

/-- A row of the opcode map: a word `w` with opcode `opc` is this command when `w & mask = pattern` (30_encoding.md R85);
`read` takes the operands the command uses out of the word. -/
structure OpRow where
  opc : OpcodeField
  pattern : Word64
  mask : Word64
  read : Word64 → Instr

/-- The opcode map (30_encoding.md R85). -/
def opTable : List OpRow := [
  ⟨Opc.nop,        0x0000000000000000, 0xFFFFFFFFFFFFFFFF, fun _ => .nop⟩,
  ⟨Opc.blkReset,   0x0400000000000000, 0xFFFFFFFFFFFFFFFF, fun _ => .blkReset⟩,
  ⟨Opc.csrRd,      0x0800000000000000, 0xFFFF0000FFFFFFFF, fun w => .csrRd (fieldCsr w)⟩,
  ⟨Opc.csrWr,      0x0C00000000000000, 0xFFFF000000000000, fun w => .csrWr (fieldCsr w) (fieldData w)⟩,
  ⟨Opc.dbgRd,      0x1000000000000000, 0xFFF800000001FFFF, fun w => .dbgRd (fieldA w) (fieldB w)⟩,
  ⟨Opc.rcInitEnc,  0x2000000000000000, 0xFFFFFFFFFFFFFFFF, fun _ => .rcInitEnc⟩,
  ⟨Opc.rcEncode,   0x2400000000000000, 0xFFF8000000000000, fun w => .rcEncode (fieldA w) (fieldB w) (fieldC w)⟩,
  ⟨Opc.rcFlush,    0x2800000000000000, 0xFFFFFFFFFFFFFFFF, fun _ => .rcFlush⟩,
  ⟨Opc.rcInitDec,  0x3000000000000000, 0xFFFFFFFFFFFFFFFF, fun _ => .rcInitDec⟩,
  ⟨Opc.rcGetFreq,  0x3400000000000000, 0xFFFFFFFFFFFE0000, fun w => .rcGetFreq (fieldC w)⟩,
  ⟨Opc.rcUpdate,   0x3800000000000000, 0xFFF800000001FFFF, fun w => .rcUpdate (fieldA w) (fieldB w)⟩,
  ⟨Opc.cmReset,    0x4000000000000000, 0xFFFFFFFFFFFFFFFF, fun _ => .cmReset⟩,
  ⟨Opc.cmStartEnc, 0x4400000000000000, 0xFFFFFFFFFFFFFFFF, fun _ => .cmStartEnc⟩,
  ⟨Opc.cmStartDec, 0x4800000000000000, 0xFFFFFFFFFFFFFFFF, fun _ => .cmStartDec⟩,
  ⟨Opc.cmEncode,   0x4C00000000000000, 0xFFF80003FFFFFFFF, fun w => .cmEncode (fieldA w)⟩,
  ⟨Opc.cmDecode,   0x5000000000000000, 0xFFFFFFFFFFFFFFFF, fun _ => .cmDecode⟩]

/-- Why a word is ILLEGAL (30_encoding.md R88): both reasons raise `E_ILLEGAL`. -/
inductive Illegal where
  /-- The opcode field names no row of the opcode map. -/
  | unassignedOpcode (opc : OpcodeField)
  /-- The opcode is assigned, but an `RSV` bit or a field the command does not use is not zero (30_encoding.md R84). -/
  | strayBits (opc : OpcodeField)
  deriving DecidableEq, Repr

/-- The decode procedure, total on every 64-bit word (30_encoding.md R90). -/
def decode (w : Word64) : Except Illegal Instr :=
  match opTable.find? (fun row => row.opc == fieldOpc w) with
  | none => .error (.unassignedOpcode (fieldOpc w))
  | some row => if w &&& row.mask = row.pattern then .ok (row.read w) else .error (.strayBits (fieldOpc w))

/-- A word of format F3 with `RSV` = 0 (30_encoding.md R81). -/
def wordF3 (opc : OpcodeField) (a b c : Operand) : Word64 := opc ++ 0#7 ++ a ++ b ++ c

/-- A word of format FC with `RSV` = 0 (30_encoding.md R82). -/
def wordFC (opc : OpcodeField) (csr : CsrIndex) (data : Word32) : Word64 := opc ++ 0#10 ++ csr ++ data

/-- The word of a command; a field the command does not use is 0 (30_encoding.md R81, R82, R84, R85). -/
def encode : Instr → Word64
  | .nop => wordF3 Opc.nop 0 0 0
  | .blkReset => wordF3 Opc.blkReset 0 0 0
  | .csrRd csr => wordFC Opc.csrRd csr 0
  | .csrWr csr data => wordFC Opc.csrWr csr data
  | .dbgRd ctxi off => wordF3 Opc.dbgRd ctxi off 0
  | .rcInitEnc => wordF3 Opc.rcInitEnc 0 0 0
  | .rcEncode start size total => wordF3 Opc.rcEncode start size total
  | .rcFlush => wordF3 Opc.rcFlush 0 0 0
  | .rcInitDec => wordF3 Opc.rcInitDec 0 0 0
  | .rcGetFreq total => wordF3 Opc.rcGetFreq 0 0 total
  | .rcUpdate start size => wordF3 Opc.rcUpdate start size 0
  | .cmReset => wordF3 Opc.cmReset 0 0 0
  | .cmStartEnc => wordF3 Opc.cmStartEnc 0 0 0
  | .cmStartDec => wordF3 Opc.cmStartDec 0 0 0
  | .cmEncode sym => wordF3 Opc.cmEncode sym 0 0
  | .cmDecode => wordF3 Opc.cmDecode 0 0 0

/-- The word that `nbits` bits `w` of an opcode-table row stand for: one 64-bit word, moved whole (30_encoding.md R80,
20_memory.md R63), with every bit above `nbits` zero (log entry 21). -/
def wordOfTableBits (nbits w : Nat) : Word64 := BitVec.ofNat 64 (w % 2 ^ nbits)

/-- The instruction the decoder reads from an opcode-table row's bits. -/
def decodeTableWord (nbits w : Nat) : Option Instr :=
  match decode (wordOfTableBits nbits w) with
  | .ok i => some i
  | .error _ => none

end Sys2Proof
end

