-- ==== Sys2Proof/Machine/State.lean ====
section
/-! DEFINITION. The state of RCCM as plain data (10_state.md R57), the machine's stops, and the state after hardware reset. -/

namespace Sys2Proof.Machine

/-- `RC_MODE` (10_state.md R22). The value 3 is never held, so it has no constructor (log entry 3). -/
inductive RcMode where
  | idle
  | enc
  | dec
  deriving DecidableEq, Repr

/-- `CM_MODE` (10_state.md R32). The values 5 to 7 are never held, so they have no constructors (log entry 3). -/
inductive CmMode where
  | idle
  | fresh
  | enc
  | dec
  | term
  deriving DecidableEq, Repr

/-- A context record `CTX[c]` (10_state.md R41). `succ[s]` = 0 means the link is absent (R42). -/
structure Context where
  freq : Vector Count 257
  sum : Count
  esc : Count
  order : Order
  succ : Vector CtxIndex 257
  deriving DecidableEq, Repr

/-- RCCM's one addressable store that only RCCM writes: the context arena (10_state.md R40, 20_memory.md R65), as pairs of a
record's index and the record. Only allocated records are listed (10_state.md R43 lets a model omit the others; log entry 2). -/
abbrev Memory := List (Nat × Context)

/-- The canonical form: indices strictly rising. An unlisted index holds no value, so no entry can equal what it reads as. -/
def Memory.wf : Memory → Bool
  | [] => true
  | [_] => true
  | (a, _) :: (b, y) :: rest => decide (a < b) && Memory.wf ((b, y) :: rest)

/-- The coder's registers (10_state.md R22 to R26 and R31). -/
structure Coder where
  /-- `RC_MODE` -/
  mode : RcMode
  /-- `LOW`: 32 value bits and the carry in bit 32 -/
  low : BitVec 33
  /-- `RANGE` -/
  range : Word32
  /-- `CODE` -/
  code : Word32
  /-- `CACHE` -/
  cache : Byte
  /-- `CACHESIZE`: how many bytes are held back -/
  cacheSize : Word32
  /-- `DROP`: the next byte to be sent is the dummy -/
  drop : Bool
  /-- `DPEND`: an `rc_getfreq` waits for its `rc_update` -/
  dpend : Bool
  /-- `DTOT`: the total of the last `rc_getfreq` -/
  dtot : BitVec 17
  deriving DecidableEq, Repr

/-- The context model's registers and its arena (10_state.md R32 to R34, R40). -/
structure Model where
  /-- `CM_MODE` -/
  mode : CmMode
  /-- `ACTIVE` -/
  active : CtxIndex
  /-- `CTX_COUNT` -/
  ctxCount : BitVec 18
  /-- `CTX[0 .. CTX_COUNT-1]` -/
  arena : Memory
  deriving DecidableEq, Repr

/-- The configuration registers the host writes, which `BLK_RESET` keeps (10_state.md R35, R39). -/
structure Setup where
  /-- `MODEL_ORDER`; 0 means not configured -/
  modelOrder : Order
  /-- `MAX_CTX` -/
  maxCtx : BitVec 18
  /-- `CTRL.FAULT_IE` -/
  faultIE : Bool
  deriving DecidableEq, Repr

/-- The fault record (10_state.md R36). -/
structure FaultRecord where
  /-- `FAULT` -/
  raised : Bool
  /-- `ERR_CODE` -/
  code : BitVec 8
  /-- `ERR_OPC` -/
  opc : OpcodeField
  deriving DecidableEq, Repr

/-- The starvation flag and the event counters (10_state.md R37, R38). -/
structure Events where
  /-- `ZFILL` -/
  zfill : Bool
  /-- `CNT_OUT` -/
  cntOut : Word32
  /-- `CNT_IN` -/
  cntIn : Word32
  /-- `CNT_ZFILL` -/
  cntZfill : Word32
  /-- `CNT_SYM` -/
  cntSym : Word32
  deriving DecidableEq, Repr

/-- What the host can do at RCCM's ports (70_reset_and_hazards.md R249). -/
inductive HostEvent where
  /-- Write one word to the command port (10_state.md R29). -/
  | command (w : Word64)
  /-- Put one byte on the input port (10_state.md R27). -/
  | byte (b : Byte)
  /-- Set the level of `EOD` (10_state.md R27). -/
  | eod (level : Bool)
  /-- Assert `RST` (10_state.md R30), at once: a command in progress, executing or holding, is cut off
  (70_reset_and_hazards.md R240, log entry 6). -/
  | rst
  /-- Wait for the response of the command in progress (70_reset_and_hazards.md R249), so that what follows comes after it
  (log entry 5). -/
  | awaitResponse
  /-- Take away the bytes still on the input port, with no command in progress, before the next chunk's payload
  (70_reset_and_hazards.md R248). -/
  | clearInput
  deriving DecidableEq, Repr

/-- The ports (10_state.md R27 to R29) and what the host does next. -/
structure Ports where
  /-- The word on the command port that has no response yet. -/
  cmd : Option Word64
  /-- The bytes on the input port, the next one first. -/
  input : List Byte
  /-- The level of `EOD`. -/
  eod : Bool
  /-- The bytes sent on the output port, in the order they left. -/
  output : List Byte
  /-- The responses written, in order. -/
  responses : List Word64
  /-- The host's remaining actions, the next one first: the host's position in its command sequence
  (10_state.md R21) and everything else it does at the ports (log entry 5). -/
  host : List HostEvent
  deriving DecidableEq, Repr

/-- All of RCCM's state (10_state.md R57, R58), with its ports. -/
structure State where
  coder : Coder
  model : Model
  setup : Setup
  fault : FaultRecord
  events : Events
  ports : Ports
  deriving DecidableEq, Repr

/-- The stops of the model. None is a fault of RCCM (those are responses, 60_exceptions.md R204); each stands where the
spec's pseudocode would leave its own requirements, in states that the spec's derived rules say never occur. -/
inductive Fault where
  /-- `rc_getfreq` would divide by a per-unit value of 0, which 40_rangecoder.md R116 rules out. Safe (log entry 10). -/
  | divisionByZero
  /-- A normalisation loop would never end: `RANGE` = 0, which 40_rangecoder.md R116 rules out. Safe (log entry 9). -/
  | endlessNormalisation
  /-- A command would read a context record that is not allocated, which 10_state.md R43 rules out. Safe (log entry 2). -/
  | unallocatedContext
  deriving DecidableEq, Repr

/-- The instructions without a meaning. There is none: every arm of exec has its meaning. -/
inductive Refusal where
  /-- Raised by an arm of exec whose instruction has no meaning yet. Safe: the machine stops. -/
  | notModelled (mnemonic : String)
  deriving DecidableEq, Repr

/-- The coder after hardware reset (10_state.md R57). -/
def Coder.reset : Coder where
  mode := .idle
  low := 0
  range := Config.rangeInit
  code := 0
  cache := 0
  cacheSize := 1
  drop := true
  dpend := false
  dtot := 0

/-- The model after hardware reset: no record is allocated (10_state.md R57). -/
def Model.reset : Model where
  mode := .idle
  active := 0
  ctxCount := 0
  arena := []

/-- The configuration registers after hardware reset: `MAX_CTX` = `ARENA_CTX` (10_state.md R57). -/
def Setup.reset : Setup where
  modelOrder := 0
  maxCtx := BitVec.ofNat 18 Config.arenaCtx
  faultIE := false

/-- The fault record after hardware reset (10_state.md R57). -/
def FaultRecord.reset : FaultRecord where
  raised := false
  code := 0
  opc := 0

/-- The flag and the counters after hardware reset (10_state.md R57). -/
def Events.reset : Events where
  zfill := false
  cntOut := 0
  cntIn := 0
  cntZfill := 0
  cntSym := 0

/-- Ports nobody has used yet. Reset does not touch the ports (10_state.md R57); that they are empty in `State.reset` is the
model's own choice (DESIGN CHOICE, log entry 7). -/
def Ports.unused : Ports where
  cmd := none
  input := []
  eod := false
  output := []
  responses := []
  host := []

/-- The machine right after hardware reset (70_reset_and_hazards.md R240, 10_state.md R57). -/
def State.reset : State where
  coder := Coder.reset
  model := Model.reset
  setup := Setup.reset
  fault := FaultRecord.reset
  events := Events.reset
  ports := Ports.unused

end Sys2Proof.Machine
end

