-- ==== Sys2Proof/Machine/Ops.lean ====
section
/-! DEFINITION. The operations the meanings share: the actions of a command and how it ends, fault entry and the return from it
(60_exceptions.md R204, R207, R211), the ports (10_state.md R27, R28), and the context arena (20_memory.md R66). -/

namespace Sys2Proof.Machine

/-! ### Updates of the state, one per group of registers -/

/-- Update the coder's registers. -/
def State.withCoder (f : Coder → Coder) (s : State) : State := { s with coder := f s.coder }
/-- Update the context model. -/
def State.withModel (f : Model → Model) (s : State) : State := { s with model := f s.model }
/-- Update the configuration registers. -/
def State.withSetup (f : Setup → Setup) (s : State) : State := { s with setup := f s.setup }
/-- Update the fault record. -/
def State.withFault (f : FaultRecord → FaultRecord) (s : State) : State := { s with fault := f s.fault }
/-- Update the flag and the counters. -/
def State.withEvents (f : Events → Events) (s : State) : State := { s with events := f s.events }
/-- Update the ports. -/
def State.withPorts (f : Ports → Ports) (s : State) : State := { s with ports := f s.ports }

/-! ### Error codes and responses -/

/-- RCCM's errors (60_exceptions.md R201). -/
inductive ErrCode where
  /-- `E_ILLEGAL` -/
  | illegal
  /-- `E_ARG` -/
  | arg
  /-- `E_SEQ` -/
  | seq
  /-- `E_DESYNC` -/
  | desync
  /-- `E_CSR` -/
  | csr
  /-- `E_RANGE` -/
  | range
  /-- `E_OVF` -/
  | ovf
  /-- `E_BLOCKED` -/
  | blocked
  deriving DecidableEq, Repr

/-- The number of an error (60_exceptions.md R201). -/
def ErrCode.number : ErrCode → BitVec 8
  | .illegal => 1
  | .arg => 2
  | .seq => 3
  | .desync => 4
  | .csr => 5
  | .range => 6
  | .ovf => 7
  | .blocked => 8

/-- A response word: `ERR` [63], 0 [62:56], `CODE` [55:48], 0 [47:32], `DATA` [31:0] (30_encoding.md R86). -/
def responseWord (err : Bool) (code : BitVec 8) (data : Word32) : Word64 :=
  BitVec.ofBool err ++ 0#7 ++ code ++ 0#16 ++ data

/-- Write a command's one response word; the command port is then free for the next word (10_state.md R29). -/
def State.endCommand (w : Word64) (s : State) : State :=
  s.withPorts fun p => { p with cmd := none, responses := p.responses ++ [w] }

/-- `respond(d)` (30_encoding.md R86). -/
def State.respond (d : Word32) (s : State) : State := s.endCommand (responseWord false 0 d)

/-! ### Fault entry and the return from the fault state -/

/-- Fault entry: only the first fault is recorded, and the error is the command's response (60_exceptions.md R204, R208). -/
def State.faultEntry (e : ErrCode) (opc : OpcodeField) (s : State) : State :=
  State.endCommand (responseWord true e.number 0) <|
    if s.fault.raised then s else s.withFault fun _ => { raised := true, code := e.number, opc := opc }

/-- A command refused while `FAULT` = 1: its response is `E_BLOCKED`, and nothing else changes (60_exceptions.md R207). -/
def State.blocked (s : State) : State := s.endCommand (responseWord true ErrCode.blocked.number 0)

/-- `soft_reset()`: every register but the configuration goes to its reset value, and no record stays allocated
(70_reset_and_hazards.md R242). With hardware reset it is the only way out of the fault state (60_exceptions.md R211). -/
def State.softReset (s : State) : State :=
  { s with coder := Coder.reset, model := Model.reset, fault := FaultRecord.reset, events := Events.reset }

/-- Hardware reset: every register goes to its reset value; the command in progress is abandoned without a response; the bytes
on the ports and `EOD` are the host's and stay (70_reset_and_hazards.md R240, log entry 6). -/
def State.hardReset (s : State) : State :=
  { State.reset with ports := { s.ports with cmd := none } }

/-! ### A command's actions -/

/-- Why a command does not run to its `respond`. -/
inductive Stop where
  /-- `raise E_X` (60_exceptions.md R205) -/
  | raise (e : ErrCode)
  /-- `hold` (00_scope.md R14) -/
  | hold
  /-- a stop of the model itself -/
  | fault (f : Fault)
  deriving DecidableEq, Repr

/-- A piece of a command's pseudocode: it changes the state and answers a value, or stops. At a stop the state is the one the
writes before it left. -/
abbrev Act (α : Type) := EStateM Stop State α

/-- A check of a command's rule: it raises `e` unless `ok` (60_exceptions.md R203). -/
def check (e : ErrCode) (ok : Bool) : Act Unit := if ok then pure () else throw (.raise e)

/-- How a command with opcode `opc` ends: with its response; with fault entry, the writes before the raise standing
(00_scope.md R13, 60_exceptions.md R205); or, where it holds, with nothing committed (00_scope.md R14). -/
def runCommand (opc : OpcodeField) (body : Act Word32) (s : State) : Host.Outcome State Fault Refusal :=
  match body.run s with
  | .ok d t => .next (t.respond d)
  | .error (.raise e) t => .next (t.faultEntry e opc)
  | .error .hold _ => .next s
  | .error (.fault f) _ => .fault f

/-- A command that is blocked while `FAULT` = 1 (60_exceptions.md R203 step 1, R207). -/
def runUnlessBlocked (opc : OpcodeField) (body : Act Word32) (s : State) : Host.Outcome State Fault Refusal :=
  if s.fault.raised then .next s.blocked else runCommand opc body s

/-- The opcodes that run even while `FAULT` = 1: `NOP`, `BLK_RESET`, `CSR_RD`, `DBG_RD` (60_exceptions.md R203 step 1). -/
def neverBlocked (opc : OpcodeField) : Bool :=
  opc == Opc.nop || opc == Opc.blkReset || opc == Opc.csrRd || opc == Opc.dbgRd

/-- A word that decodes to no command: blocked first, by its opcode field alone, and illegal otherwise
(60_exceptions.md R203 steps 1 and 2, 30_encoding.md R88). -/
def illegalWord (w : Word64) (s : State) : Host.Outcome State Fault Refusal :=
  if s.fault.raised && !neverBlocked (fieldOpc w) then .next s.blocked
  else .next (s.faultEntry .illegal (fieldOpc w))

/-! ### The byte ports -/

/-- `ReadIn()` (10_state.md R27). -/
def readIn : Act Byte := do
  let s ← get
  match s.ports.input with
  | b :: rest =>
    set ((s.withPorts fun p => { p with input := rest }).withEvents fun v => { v with cntIn := v.cntIn + 1 })
    return b
  | [] =>
    if s.ports.eod then
      set (s.withEvents fun v => { v with zfill := true, cntZfill := v.cntZfill + 1 })
      return Config.zeroFill
    else throw .hold

/-- `WriteOut(b)` (10_state.md R28). -/
def State.writeOut (b : Byte) (s : State) : State :=
  (s.withPorts fun p => { p with output := p.output ++ [b] }).withEvents fun v => { v with cntOut := v.cntOut + 1 }

/-- `Emit(b)`: the dummy byte is discarded, every other byte is sent (40_rangecoder.md R102). -/
def State.emit (b : Byte) (s : State) : State :=
  if s.coder.drop then s.withCoder fun c => { c with drop := false } else s.writeOut b

/-- `Emit(b)`, `n` times. -/
def State.emitTimes (b : Byte) : Nat → State → State
  | 0, s => s
  | n + 1, s => State.emitTimes b n (s.emit b)

/-! ### The context arena -/

/-- The record at index `c`, if it is listed. -/
def Memory.read : Memory → Nat → Option Context
  | [], _ => none
  | (a, x) :: rest, c => if a = c then some x else Memory.read rest c

/-- Write the record at index `c`; the canonical form is kept. -/
def Memory.write : Memory → Nat → Context → Memory
  | [], c, x => [(c, x)]
  | (a, y) :: rest, c, x =>
    if c < a then (c, x) :: (a, y) :: rest
    else if c = a then (c, x) :: rest
    else (a, y) :: Memory.write rest c x

/-- `CTX[c]`; an index that is not allocated stops the model (10_state.md R43, log entry 2). -/
def readCtx (c : Nat) : Act Context := do
  match (← get).model.arena.read c with
  | some x => return x
  | none => throw (.fault .unallocatedContext)

/-- `CTX[c] <- x`. -/
def writeCtx (c : Nat) (x : Context) : Act Unit :=
  modify (State.withModel fun m => { m with arena := m.arena.write c x })

/-- `ACTIVE <- c`. -/
def setActive (c : CtxIndex) : Act Unit :=
  modify (State.withModel fun m => { m with active := c })

end Sys2Proof.Machine
end

