-- ==== Sys2Proof/Machine/Operands.lean ====
section
/-! DEFINITION. How the operands of the commands are read and checked: intervals, symbols, CSR indices and arena offsets
(30_encoding.md R83, R91 to R94). -/

namespace Sys2Proof.Machine

/-- An interval `[start, start+size)` out of `total` that the coder accepts, `total` not being 0
(40_rangecoder.md R110 and R114). -/
def intervalFits (start size total : Nat) : Bool :=
  decide (size ≠ 0) && decide (start < total) && decide (start + size ≤ total)

/-- `start * r <= CODE < (start + size) * r`: the code point lies in the interval (40_rangecoder.md R108, R114). -/
def codePointInside (start size r code : Nat) : Bool :=
  decide (start * r ≤ code) && decide (code < (start + size) * r)

/-- The symbol operand `SYM` of `CM_ENCODE`: 0 to 256 are legal (30_encoding.md R93). -/
def symOperand (sym : Operand) : Option Sym :=
  if h : sym.toNat < 257 then some ⟨sym.toNat, h⟩ else none

/-- The CSR an index names; `none` for an unassigned index (10_state.md R44, R56). -/
def csrAt (i : CsrIndex) : Option Csr :=
  [Csr.id, .status, .err, .ctrl, .modelOrder, .maxCtx, .ctxCount, .activeCtx, .rcLow, .rcLowHi, .rcRange, .rcCode,
    .rcCache, .rcCacheSize, .rcDtot, .cntOut, .cntIn, .cntSym, .cntZfill, .arenaCap].find? fun c => c.index == i

/-- `ArenaRead(c, off)` of a record: the field at an offset, zero-extended; `none` for an unassigned offset
(20_memory.md R65, R66). -/
def Context.fieldAt (x : Context) (off : Nat) : Option Word32 :=
  if h : off < 257 then some ((x.freq[off]).setWidth 32)
  else if off = 0x101 then some (x.sum.setWidth 32)
  else if off = 0x102 then some (x.esc.setWidth 32)
  else if off = 0x103 then some (x.order.setWidth 32)
  else if h : 0x200 ≤ off ∧ off < 0x200 + 257 then some ((x.succ[off - 0x200]'(by omega)).setWidth 32)
  else none

end Sys2Proof.Machine
end

