-- ==== Sys2Proof/Machine/Flags.lean ====
section
/-! DEFINITION. What the CSRs show: the STATUS and ERR registers, the interrupt line and every other CSR's value
(10_state.md R44 to R55). -/

namespace Sys2Proof.Machine

/-- The 2-bit value of `RC_MODE` (10_state.md R22). -/
def RcMode.bits : RcMode → BitVec 2
  | .idle => 0
  | .enc => 1
  | .dec => 2

/-- The 3-bit value of `CM_MODE` (10_state.md R32). -/
def CmMode.bits : CmMode → BitVec 3
  | .idle => 0
  | .fresh => 1
  | .enc => 2
  | .dec => 3
  | .term => 4

/-- The interrupt output: `IRQ = FAULT and CTRL.FAULT_IE` (10_state.md R30, 60_exceptions.md R209). -/
def State.irq (s : State) : Bool := s.fault.raised && s.setup.faultIE

/-- `STATUS.CTX_FULL`: `CM_MODE` is not `CM_IDLE` and `CTX_COUNT >= MAX_CTX` (10_state.md R46). -/
def State.ctxFull (s : State) : Bool :=
  s.model.mode != .idle && decide (s.setup.maxCtx.toNat ≤ s.model.ctxCount.toNat)

/-- `STATUS`: [1:0] `RC_MODE`, [6:4] `CM_MODE`, [8] `DPEND`, [9] `FAULT`, [10] `ZFILL`, [11] `CTX_FULL`, [12] `IRQ`,
all other bits 0 (10_state.md R46). -/
def State.statusWord (s : State) : Word32 :=
  0#19 ++ BitVec.ofBool s.irq ++ BitVec.ofBool s.ctxFull ++ BitVec.ofBool s.events.zfill ++ BitVec.ofBool s.fault.raised
    ++ BitVec.ofBool s.coder.dpend ++ 0#1 ++ s.model.mode.bits ++ 0#2 ++ s.coder.mode.bits

/-- `ERR`: [7:0] `ERR_CODE`, [13:8] `ERR_OPC`, [31:14] 0 (10_state.md R47). -/
def State.errWord (s : State) : Word32 := 0#18 ++ s.fault.opc ++ s.fault.code

/-- `RC_CACHE`: [7:0] `CACHE`, [8] `DROP`, [31:9] 0 (10_state.md R53). -/
def State.cacheWord (s : State) : Word32 := 0#23 ++ BitVec.ofBool s.coder.drop ++ s.coder.cache

/-- The value column of the CSR map (10_state.md R44). -/
def State.csrValue (s : State) : Csr → Word32
  | .id => Config.idValue
  | .status => s.statusWord
  | .err => s.errWord
  | .ctrl => (BitVec.ofBool s.setup.faultIE).setWidth 32
  | .modelOrder => s.setup.modelOrder.setWidth 32
  | .maxCtx => s.setup.maxCtx.setWidth 32
  | .ctxCount => s.model.ctxCount.setWidth 32
  | .activeCtx => s.model.active.setWidth 32
  | .rcLow => s.coder.low.extractLsb' 0 32
  | .rcLowHi => (s.coder.low.extractLsb' 32 1).setWidth 32
  | .rcRange => s.coder.range
  | .rcCode => s.coder.code
  | .rcCache => s.cacheWord
  | .rcCacheSize => s.coder.cacheSize
  | .rcDtot => s.coder.dtot.setWidth 32
  | .cntOut => s.events.cntOut
  | .cntIn => s.events.cntIn
  | .cntSym => s.events.cntSym
  | .cntZfill => s.events.cntZfill
  | .arenaCap => BitVec.ofNat 32 Config.arenaCtx

end Sys2Proof.Machine
end

