-- ==== Sys2Proof/Machine/RangeCoder.lean ====
section
/-! DEFINITION. The range coder's primitives and its six commands (40_rangecoder.md). -/

namespace Sys2Proof.Machine

/-! ### The carry cache (encode side) -/

/-- The first branch of `ShiftLow`: send the cached byte plus the carry, then every buffered `0xFF` plus the carry; the byte
`LOW[31:24]` becomes the cached byte (40_rangecoder.md R103). -/
def State.releaseRun (s : State) : State :=
  let carry : Byte := (s.coder.low.extractLsb' 32 1).setWidth 8
  let sent := (s.emit (s.coder.cache + carry)).emitTimes (0xFF + carry) (s.coder.cacheSize.toNat - 1)
  sent.withCoder fun c => { c with cacheSize := 0, cache := s.coder.low.extractLsb' 24 8 }

/-- The held-back run can no longer change: the byte shifted out is below `0xFF`, or a carry resolves the run
(40_rangecoder.md R101, R103). -/
def Coder.runSettled (c : Coder) : Bool :=
  decide ((c.low.extractLsb' 0 32).toNat < 0xFF000000) || c.low.getLsbD 32

/-- `ShiftLow()` (40_rangecoder.md R103). -/
def shiftLow : Act Unit := do
  modify fun s => if s.coder.runSettled then s.releaseRun else s
  let s ← get
  check .ovf (s.coder.cacheSize != 0xFFFFFFFF)
  modify (State.withCoder fun c =>
    { c with cacheSize := c.cacheSize + 1, low := 0#1 ++ c.low.extractLsb' 0 24 ++ 0#8 })

/-- `ShiftLow()`, `n` times. -/
def shiftLowTimes : Nat → Act Unit
  | 0 => pure ()
  | n + 1 => do shiftLow; shiftLowTimes n

/-- `RANGE <- trunc_32(RANGE * 256)` (40_rangecoder.md R104, R108). -/
def Coder.widenRange (c : Coder) : Coder := { c with range := c.range <<< 8 }

/-- The loop of `enc_normalize()`, for at most `fuel` more shifts. The loop of 40_rangecoder.md R104 needs 3 for every `RANGE`
but 0, and for 0 it never ends: then the model stops (log entry 9). -/
def encNormalizeLoop : Nat → Act Unit
  | 0 => do
    if (← get).coder.range.toNat < Config.thresh then throw (.fault .endlessNormalisation)
  | fuel + 1 => do
    if (← get).coder.range.toNat < Config.thresh then
      modify (State.withCoder Coder.widenRange)
      shiftLow
      encNormalizeLoop fuel

/-- `enc_normalize()` (40_rangecoder.md R104). -/
def encNormalize : Act Unit := encNormalizeLoop 3

/-- The three assignments of `rc_encode` (40_rangecoder.md R105). -/
def Coder.narrow (start size total : Nat) (c : Coder) : Coder :=
  let r := c.range.toNat / total
  { c with low := BitVec.ofNat 33 (c.low.toNat + start * r), range := BitVec.ofNat 32 (r * size) }

/-- `rc_encode(start, size, total)` (40_rangecoder.md R105). -/
def rcEncode (start size total : Nat) : Act Unit := do
  modify (State.withCoder (Coder.narrow start size total))
  encNormalize

/-! ### Decode side -/

/-- `rc_getfreq(total)` (40_rangecoder.md R107). A per-unit value of 0 would divide by zero: the model stops (log entry 10). -/
def rcGetFreq (total : Nat) : Act Nat := do
  let s ← get
  let r := s.coder.range.toNat / total
  modify (State.withCoder fun c =>
    { c with range := BitVec.ofNat 32 r, dtot := BitVec.ofNat 17 total, dpend := true })
  if r = 0 then throw (.fault .divisionByZero)
  return s.coder.code.toNat / r

/-- `CODE <- trunc_32(CODE * 256 + ReadIn())` (40_rangecoder.md R108, R112). -/
def shiftInByte : Act Unit := do
  let b ← readIn
  modify (State.withCoder fun c => { c with code := BitVec.ofNat 32 (c.code.toNat * 256 + b.toNat) })

/-- `shiftInByte`, `n` times. -/
def shiftInBytes : Nat → Act Unit
  | 0 => pure ()
  | n + 1 => do shiftInByte; shiftInBytes n

/-- The normalisation loop of `rc_update`, for at most `fuel` more bytes (40_rangecoder.md R108; log entry 9). -/
def decNormalizeLoop : Nat → Act Unit
  | 0 => do
    if (← get).coder.range.toNat < Config.thresh then throw (.fault .endlessNormalisation)
  | fuel + 1 => do
    if (← get).coder.range.toNat < Config.thresh then
      shiftInByte
      modify (State.withCoder Coder.widenRange)
      decNormalizeLoop fuel

/-- `dec_normalize` (40_rangecoder.md R108). -/
def decNormalize : Act Unit := decNormalizeLoop 3

/-- The four assignments of `rc_update` (40_rangecoder.md R108). -/
def Coder.takeInterval (start size : Nat) (c : Coder) : Coder :=
  let r := c.range.toNat
  { c with code := BitVec.ofNat 32 (c.code.toNat - start * r), range := BitVec.ofNat 32 (r * size), dpend := false }

/-- `rc_update(start, size)` (40_rangecoder.md R108). -/
def rcUpdate (start size : Nat) : Act Unit := do
  modify (State.withCoder (Coder.takeInterval start size))
  decNormalize

/-! ### Commands -/

/-- What `RC_INIT_ENC` leaves in the coder (40_rangecoder.md R109). -/
def Coder.startEncode : Coder := { Coder.reset with mode := .enc }

/-- What `RC_INIT_DEC` leaves in the coder before it reads the first 4 bytes; `RC_MODE` follows them (40_rangecoder.md R112). -/
def Coder.startDecode (c : Coder) : Coder := { Coder.reset with mode := c.mode }

/-- `RC_INIT_ENC` (40_rangecoder.md R109). -/
def execRcInitEnc (s : State) : Host.Outcome State Fault Refusal :=
  runUnlessBlocked Opc.rcInitEnc (do
    modify (State.withCoder fun _ => Coder.startEncode)
    modify (State.withEvents fun v => { v with cntOut := 0 })
    return 0) s

/-- `RC_ENCODE start, size, total` (40_rangecoder.md R110). -/
def execRcEncode (start size total : Operand) (s : State) : Host.Outcome State Fault Refusal :=
  runUnlessBlocked Opc.rcEncode (do
    let s ← get
    check .seq (s.coder.mode == .enc)
    check .arg (total != 0)
    check .arg (intervalFits start.toNat size.toNat total.toNat)
    rcEncode start.toNat size.toNat total.toNat
    return 0) s

/-- `RC_FLUSH` (40_rangecoder.md R111). -/
def execRcFlush (s : State) : Host.Outcome State Fault Refusal :=
  runUnlessBlocked Opc.rcFlush (do
    let s ← get
    check .seq (s.coder.mode == .enc)
    shiftLowTimes Config.flushShifts
    modify (State.withCoder fun c => { c with mode := .idle })
    return (← get).events.cntOut) s

/-- `RC_INIT_DEC` (40_rangecoder.md R112). -/
def execRcInitDec (s : State) : Host.Outcome State Fault Refusal :=
  runUnlessBlocked Opc.rcInitDec (do
    modify (State.withCoder Coder.startDecode)
    modify (State.withEvents fun v => { v with cntIn := 0, cntZfill := 0, zfill := false })
    shiftInBytes 4
    modify (State.withCoder fun c => { c with mode := .dec })
    return 0) s

/-- `RC_GETFREQ total` (40_rangecoder.md R113). -/
def execRcGetFreq (total : Operand) (s : State) : Host.Outcome State Fault Refusal :=
  runUnlessBlocked Opc.rcGetFreq (do
    let s ← get
    check .seq (s.coder.mode == .dec && !s.coder.dpend)
    check .arg (total != 0)
    let v ← rcGetFreq total.toNat
    return BitVec.ofNat 32 v) s

/-- `RC_UPDATE start, size` (40_rangecoder.md R114). -/
def execRcUpdate (start size : Operand) (s : State) : Host.Outcome State Fault Refusal :=
  runUnlessBlocked Opc.rcUpdate (do
    let s ← get
    check .seq (s.coder.mode == .dec && s.coder.dpend)
    check .arg (intervalFits start.toNat size.toNat s.coder.dtot.toNat)
    check .desync (codePointInside start.toNat size.toNat s.coder.range.toNat s.coder.code.toNat)
    rcUpdate start.toNat size.toNat
    return 0) s

end Sys2Proof.Machine
end

