-- ==== Sys2Proof/Machine/ContextModel.lean ====
section
/-! DEFINITION. The context model: records, rescale, update, the symbol procedures and the five commands
(41_contextmodel.md). -/

namespace Sys2Proof.Machine

/-! ### A context record -/

/-- The record `init_ctx` writes, of order `k`: every frequency 1, every link absent (41_contextmodel.md R141). -/
def Context.fresh (k : Order) : Context where
  freq := Vector.replicate 257 1
  sum := 257
  esc := 0
  order := k
  succ := Vector.replicate 257 0

/-- The frequencies as naturals, in symbol order. -/
def Context.counts (x : Context) : List Nat := x.freq.toList.map BitVec.toNat

/-- `cum(c, s)`: the frequencies of all symbols below `s` together (41_contextmodel.md R142). -/
def Context.cum (x : Context) (s : Nat) : Nat := (x.counts.take s).sum

/-- `total(c)` = `sum + esc + 1`, the total of every coding step at the context (41_contextmodel.md R143). -/
def Context.total (x : Context) : Nat := x.sum.toNat + x.esc.toNat + 1

/-- `ceil(f/2)`, the round-up halving (41_contextmodel.md R144). -/
def halveUp (f : Count) : Count := BitVec.ofNat 16 ((f.toNat + 1) / 2)

/-- Apply `f` to every entry of a table. -/
def mapTable (f : Count → Count) (v : Vector Count 257) : Vector Count 257 :=
  ⟨⟨v.toList.map f⟩, by simp⟩

/-- `rescale(c)` (41_contextmodel.md R144). -/
def Context.rescale (x : Context) : Context :=
  let halved := { x with freq := mapTable halveUp x.freq, esc := halveUp x.esc }
  { halved with sum := BitVec.ofNat 16 halved.counts.sum }

/-- The first part of `update_model`: count the symbol, and rescale if the sum passes the limit (41_contextmodel.md R145). -/
def Context.hit (x : Context) (s : Sym) : Context :=
  let y := { x with freq := x.freq.set s (x.freq[s] + 1), sum := x.sum + 1 }
  if Config.rescaleLimit < y.sum.toNat then y.rescale else y

/-- `esc <- min(esc + 1, ESC_MAX)` (41_contextmodel.md R151, R166). -/
def Context.raiseEsc (x : Context) : Context :=
  { x with esc := BitVec.ofNat 16 (min (x.esc.toNat + 1) Config.escMax) }

/-- The smallest symbol from `i` on whose cumulative end lies above `v`, where `below` counts the symbols before `i`. -/
def scanFrom (v : Nat) : List Nat → (i below : Nat) → Option Nat
  | [], _, _ => none
  | f :: rest, i, below => if v < below + f then some i else scanFrom v rest (i + 1) (below + f)

/-- `scan(c, v)`: the smallest `s` with `v < cum(c, s+1)` (41_contextmodel.md R153); `none` where there is none, which
R162 rules out for `v < sum`. -/
def Context.scan (x : Context) (v : Nat) : Option Sym :=
  match scanFrom v x.counts 0 0 with
  | none => none
  | some i => if h : i < 257 then some ⟨i, h⟩ else none

/-! ### Model update -/

/-- `init_ctx(n, k)` (41_contextmodel.md R141). -/
def initCtx (n : Nat) (k : Order) : Act Unit := writeCtx n (Context.fresh k)

/-- Whether `update_model` may create a child of a context of order `k`: budget and order (41_contextmodel.md R145, R146). -/
def State.mayCreate (s : State) (k : Order) : Bool :=
  decide (s.model.ctxCount.toNat < s.setup.maxCtx.toNat) && decide (k.toNat < s.setup.modelOrder.toNat)

/-- `update_model(c, s)` (41_contextmodel.md R145). -/
def updateModel (c : Nat) (sym : Sym) : Act Unit := do
  let x := (← readCtx c).hit sym
  writeCtx c x
  let s ← get
  let n := x.succ[sym]
  if n != 0 then setActive n
  else if s.mayCreate x.order then
    let child : CtxIndex := s.model.ctxCount.setWidth 17
    initCtx s.model.ctxCount.toNat (x.order + 1)
    writeCtx c { x with succ := x.succ.set sym child }
    modify (State.withModel fun m => { m with ctxCount := m.ctxCount + 1 })
    setActive child
  else setActive 0

/-! ### The symbol procedures -/

/-- The contexts a symbol is tried at, before order -1: the active one, then the root (41_contextmodel.md R147, R151). -/
def Model.ladder (m : Model) : List Nat :=
  if m.active = 0 then [0] else [m.active.toNat, 0]

/-- An escape at context `c` codes `[sum, sum + esc + 1)` and then raises `esc` (41_contextmodel.md R147, R150). -/
def noteEscape (c : Nat) (x : Context) : Act Unit := writeCtx c x.raiseEsc

/-- The loop of `model_encode(s)`, at the contexts that remain; none remaining is order -1 (41_contextmodel.md R148, R151). -/
def modelEncodeFrom (sym : Sym) : List Nat → Act Unit
  | [] => do
    check .arg (sym != Config.term)
    rcEncode sym.val 1 Config.uniformTotal
    setActive 0
  | c :: lower => do
    let x ← readCtx c
    if x.freq[sym] != 0 then
      rcEncode (x.cum sym.val) (x.freq[sym]).toNat x.total
      updateModel c sym
    else
      rcEncode x.sum.toNat (x.esc.toNat + 1) x.total
      noteEscape c x
      modelEncodeFrom sym lower

/-- `model_encode(s)` (41_contextmodel.md R151). -/
def modelEncode (sym : Sym) : Act Unit := do
  modelEncodeFrom sym (← get).model.ladder

/-- The loop of `model_decode()`, at the contexts that remain; none remaining is order -1 (41_contextmodel.md R148, R152).
A value below `sum` that lies in no symbol's interval is a decoded value in no interval, `E_DESYNC`
(60_exceptions.md R201; R162 rules it out; log entry 11). -/
def modelDecodeFrom : List Nat → Act Nat
  | [] => do
    let v ← rcGetFreq Config.uniformTotal
    check .desync (decide (v < Config.uniformTotal))
    rcUpdate v 1
    setActive 0
    return v
  | c :: lower => do
    let x ← readCtx c
    let v ← rcGetFreq x.total
    check .desync (decide (v < x.total))
    if x.sum.toNat ≤ v then
      rcUpdate x.sum.toNat (x.esc.toNat + 1)
      noteEscape c x
      modelDecodeFrom lower
    else
      match x.scan v with
      | none => throw (.raise .desync)
      | some sym =>
        rcUpdate (x.cum sym.val) (x.freq[sym]).toNat
        updateModel c sym
        return sym.val

/-- `model_decode()` (41_contextmodel.md R152). -/
def modelDecode : Act Nat := do
  modelDecodeFrom (← get).model.ladder

/-- One more symbol coded; after the terminator the chunk has ended (41_contextmodel.md R159, R160). -/
def symbolDone (sym : Nat) : Act Unit := do
  modify (State.withEvents fun v => { v with cntSym := v.cntSym + 1 })
  if sym = Config.term.val then modify (State.withModel fun m => { m with mode := .term })

/-! ### Commands -/

/-- `CM_RESET` (41_contextmodel.md R156): the root is rewritten, and it alone stays allocated. -/
def execCmReset (s : State) : Host.Outcome State Fault Refusal :=
  runUnlessBlocked Opc.cmReset (do
    let s ← get
    check .seq (s.setup.modelOrder != 0)
    modify (State.withModel fun m => { m with arena := [] })
    initCtx 0 0
    modify (State.withModel fun m => { m with ctxCount := 1, active := 0 })
    modify (State.withEvents fun v => { v with cntSym := 0 })
    modify (State.withModel fun m => { m with mode := .fresh })
    return 0) s

/-- `CM_START_ENC` (41_contextmodel.md R157). -/
def execCmStartEnc (s : State) : Host.Outcome State Fault Refusal :=
  runUnlessBlocked Opc.cmStartEnc (do
    let s ← get
    check .seq (s.model.mode == .fresh || s.model.mode == .enc)
    modify (State.withModel fun m => { m with active := 0, mode := .enc })
    return 0) s

/-- `CM_START_DEC` (41_contextmodel.md R158). -/
def execCmStartDec (s : State) : Host.Outcome State Fault Refusal :=
  runUnlessBlocked Opc.cmStartDec (do
    let s ← get
    check .seq (s.model.mode == .fresh || s.model.mode == .dec)
    modify (State.withModel fun m => { m with active := 0, mode := .dec })
    return 0) s

/-- `CM_ENCODE sym` (41_contextmodel.md R159). -/
def execCmEncode (sym : Operand) (s : State) : Host.Outcome State Fault Refusal :=
  runUnlessBlocked Opc.cmEncode (do
    let s ← get
    check .seq (s.model.mode == .enc && s.coder.mode == .enc)
    match symOperand sym with
    | none => throw (.raise .arg)
    | some a =>
      modelEncode a
      symbolDone a.val
      return 0) s

/-- `CM_DECODE` (41_contextmodel.md R160). -/
def execCmDecode (s : State) : Host.Outcome State Fault Refusal :=
  runUnlessBlocked Opc.cmDecode (do
    let s ← get
    check .seq (s.model.mode == .dec && s.coder.mode == .dec && !s.coder.dpend)
    let sym ← modelDecode
    symbolDone sym
    return BitVec.ofNat 32 sym) s

end Sys2Proof.Machine
end

