-- ==== Sys2Proof/Machine/Control.lean ====
section
/-! DEFINITION. The control, CSR and debug commands: NOP, BLK_RESET, CSR_RD, CSR_WR, DBG_RD (42_control.md). -/

namespace Sys2Proof.Machine

/-- `write_model_order(d)`: not in the middle of a chunk's coding, and only 2 to 16 (42_control.md R185, R188). -/
def writeModelOrder (d : Word32) : Act Unit := do
  let s ← get
  check .csr (s.model.mode != .enc && s.model.mode != .dec)
  check .csr (decide (2 ≤ d.toNat) && decide (d.toNat ≤ 16))
  modify (State.withSetup fun u => { u with modelOrder := d.setWidth 5 })

/-- `write_max_ctx(d)`: not in the middle of a chunk's coding, and only 1 to `ARENA_CTX` (42_control.md R186, R188). -/
def writeMaxCtx (d : Word32) : Act Unit := do
  let s ← get
  check .csr (s.model.mode != .enc && s.model.mode != .dec)
  check .csr (decide (1 ≤ d.toNat) && decide (d.toNat ≤ Config.arenaCtx))
  modify (State.withSetup fun u => { u with maxCtx := d.setWidth 18 })

/-- `write_ctrl(d)`: bits [31:1] must be 0 (42_control.md R187). -/
def writeCtrl (d : Word32) : Act Unit := do
  check .csr (d.extractLsb' 1 31 == 0)
  modify (State.withSetup fun u => { u with faultIE := d.getLsbD 0 })

/-- `NOP` (42_control.md R181). -/
def execNop (s : State) : Host.Outcome State Fault Refusal :=
  runCommand Opc.nop (pure 0) s

/-- `BLK_RESET` (42_control.md R182). -/
def execBlkReset (s : State) : Host.Outcome State Fault Refusal :=
  runCommand Opc.blkReset (do modify State.softReset; return 0) s

/-- `CSR_RD csr` (42_control.md R183). -/
def execCsrRd (csr : CsrIndex) (s : State) : Host.Outcome State Fault Refusal :=
  runCommand Opc.csrRd (do
    match csrAt csr with
    | none => throw (.raise .csr)
    | some c => return (← get).csrValue c) s

/-- `CSR_WR csr, data`: only `CTRL`, `MODEL_ORDER` and `MAX_CTX` are writable (42_control.md R184). -/
def execCsrWr (csr : CsrIndex) (data : Word32) (s : State) : Host.Outcome State Fault Refusal :=
  runUnlessBlocked Opc.csrWr (do
    match csrAt csr with
    | some .ctrl => writeCtrl data
    | some .modelOrder => writeModelOrder data
    | some .maxCtx => writeMaxCtx data
    | _ => throw (.raise .csr)
    return 0) s

/-- `DBG_RD ctxi, off` (42_control.md R189). -/
def execDbgRd (ctxi off : Operand) (s : State) : Host.Outcome State Fault Refusal :=
  runCommand Opc.dbgRd (do
    let s ← get
    check .range (decide (ctxi.toNat < s.model.ctxCount.toNat))
    let x ← readCtx ctxi.toNat
    match x.fieldAt off.toNat with
    | none => throw (.raise .range)
    | some v => return v) s

end Sys2Proof.Machine
end

