-- ==== Sys2Proof/Machine/Dispatch.lean ====
section
/-! DEFINITION. The meaning of every command: one arm per row of the opcode map (30_encoding.md R85). -/

namespace Sys2Proof.Machine

def exec (i : Instr) (s : State) : Host.Outcome State Fault Refusal :=
  match i with
  | .nop => Sys2Proof.Machine.execNop s
  | .blkReset => Sys2Proof.Machine.execBlkReset s
  | .csrRd csr => Sys2Proof.Machine.execCsrRd csr s
  | .csrWr csr data => Sys2Proof.Machine.execCsrWr csr data s
  | .dbgRd ctxi off => Sys2Proof.Machine.execDbgRd ctxi off s
  | .rcInitEnc => Sys2Proof.Machine.execRcInitEnc s
  | .rcEncode start size total => Sys2Proof.Machine.execRcEncode start size total s
  | .rcFlush => Sys2Proof.Machine.execRcFlush s
  | .rcInitDec => Sys2Proof.Machine.execRcInitDec s
  | .rcGetFreq total => Sys2Proof.Machine.execRcGetFreq total s
  | .rcUpdate start size => Sys2Proof.Machine.execRcUpdate start size s
  | .cmReset => Sys2Proof.Machine.execCmReset s
  | .cmStartEnc => Sys2Proof.Machine.execCmStartEnc s
  | .cmStartDec => Sys2Proof.Machine.execCmStartDec s
  | .cmEncode sym => Sys2Proof.Machine.execCmEncode sym s
  | .cmDecode => Sys2Proof.Machine.execCmDecode s

end Sys2Proof.Machine
end

