-- ==== Sys2Proof/Machine/HostPort.lean ====
section
/-! DEFINITION. The host's side of the ports: where the next command word is taken from, when the host may act, and what each of
its actions does (10_state.md R27 to R30, 70_reset_and_hazards.md R240, R249, R253). -/

namespace Sys2Proof.Machine

/-- The command word in progress, if the host has written one that has no response yet (10_state.md R29). -/
def fetch (s : State) : Option Word64 := s.ports.cmd

/-- The host does the next thing on its list. It cannot write a command word while one is in progress (70_reset_and_hazards.md
R249, R253): that action then waits, as do the wait for a response and the taking away of unread bytes, which comes between two
chunks (R248). Bytes taken away are not consumed: no counter moves. With nothing on the list, RCCM is idle or keeps holding
(42_control.md R192, 60_exceptions.md R223). -/
def hostMove (s : State) : State :=
  match s.ports.host with
  | [] => s
  | .command w :: rest =>
    if s.ports.cmd.isSome then s else s.withPorts fun p => { p with cmd := some w, host := rest }
  | .byte b :: rest => s.withPorts fun p => { p with input := p.input ++ [b], host := rest }
  | .eod level :: rest => s.withPorts fun p => { p with eod := level, host := rest }
  | .rst :: rest => (s.withPorts fun p => { p with host := rest }).hardReset
  | .awaitResponse :: rest => if s.ports.cmd.isSome then s else s.withPorts fun p => { p with host := rest }
  | .clearInput :: rest => if s.ports.cmd.isSome then s else s.withPorts fun p => { p with input := [], host := rest }

/-- The host asserts `RST` now. It does not wait for the command in progress (70_reset_and_hazards.md R240, R249). -/
def State.rstAsserted (s : State) : Bool :=
  match s.ports.host with
  | .rst :: _ => true
  | _ => false

/-- After a command's attempt: a command that has its response is over; while a command holds (its word is still on the
port), the host acts, and the next step takes the command up again from its start (00_scope.md R14). -/
def afterCommand : Host.Outcome State Fault Refusal → Host.Outcome State Fault Refusal
  | .next s => .next (if s.ports.cmd.isSome then hostMove s else s)
  | .fault f => .fault f
  | .refused r => .refused r

/-- Put a word on the command port, where `fetch` finds it. -/
def State.putCommand (w : Word64) (s : State) : State := s.withPorts fun p => { p with cmd := some w }

end Sys2Proof.Machine
end

