-- ==== Sys2Proof/Machine/Step.lean ====
section
/-! DEFINITION. One step of the machine: the command on the command port runs, or the host acts (20_memory.md R70, R75). -/

namespace Sys2Proof.Machine

/-- Run one command word: decode it (30_encoding.md R90) and give it its meaning, or refuse it as illegal
(60_exceptions.md R203). -/
def runWord (w : Word64) (s : State) : Host.Outcome State Fault Refusal :=
  match decode w with
  | .ok i => exec i s
  | .error _ => illegalWord w s

/-- One step. An asserted `RST` comes first: it cuts off the command in progress, so that none of its writes stand and it gets
no response (70_reset_and_hazards.md R240). Otherwise, with a word on the command port, the command runs to its response or
holds; with none, the host acts. -/
def step (s : State) : Host.Outcome State Fault Refusal :=
  if s.rstAsserted then .next (hostMove s)
  else match fetch s with
    | none => .next (hostMove s)
    | some w => afterCommand (runWord w s)

/-- The state with an opcode-table row's word on the command port, where `step` takes its next instruction from. -/
def State.withFetchWord (s : State) (nbits w : Nat) : State := s.putCommand (wordOfTableBits nbits w)

end Sys2Proof.Machine
end

