-- ==== Sys2Proof/Safety.lean ====
section
/-! DEFINITION. What a safe state and a safe run are, in the terms the statements use: the invariant that the spec's derived rules
describe (40_rangecoder.md R116 to R119, 41_contextmodel.md R162 to R167, 10_state.md R33 to R36), and the number that the
encoder's bytes spell. -/

namespace Sys2Proof.Machine

/-! ### The arena (41_contextmodel.md section 6) -/

/-- A record as every command leaves it: `sum` is the total of the table (R162), no entry is 0 (R163), `sum` is at most the
rescale limit (R165), and the order is at most 16 (10_state.md R41). -/
structure Context.Sound (x : Context) : Prop where
  sum_eq : x.sum.toNat = x.counts.sum
  freq_ne_zero : ∀ s : Sym, x.freq[s] ≠ 0
  sum_le : x.sum.toNat ≤ Config.rescaleLimit
  order_le : x.order.toNat ≤ 16

/-- The modes in which a chunk is under way: `CM_FRESH`, `CM_ENC`, `CM_DEC` (41_contextmodel.md R146). -/
def CmMode.inChunk (m : CmMode) : Prop := m = .fresh ∨ m = .enc ∨ m = .dec

/-- The configuration registers hold legal values (10_state.md R35, 42_control.md R185, R186). -/
structure Setup.Sound (u : Setup) : Prop where
  order_legal : u.modelOrder = 0 ∨ (2 ≤ u.modelOrder.toNat ∧ u.modelOrder.toNat ≤ 16)
  max_pos : 1 ≤ u.maxCtx.toNat
  max_le : u.maxCtx.toNat ≤ Config.arenaCtx

/-- The model's invariant under a configuration. -/
structure Model.Sound (m : Model) (u : Setup) : Prop where
  /-- The arena is in canonical form. -/
  arena_wf : m.arena.wf = true
  /-- Exactly the records below `CTX_COUNT` are allocated (10_state.md R34). -/
  listed_iff : ∀ c, (m.arena.read c).isSome = true ↔ c < m.ctxCount.toNat
  /-- No model, no record (10_state.md R34). -/
  idle_empty : m.mode = .idle → m.ctxCount = 0
  /-- A fresh model has the root and nothing else (41_contextmodel.md R156). -/
  fresh_root : m.mode = .fresh → m.ctxCount = 1
  /-- `ACTIVE < CTX_COUNT` (10_state.md R33). -/
  active_lt : m.mode ≠ .idle → m.active.toNat < m.ctxCount.toNat
  /-- The arena has the size of the arena (00_scope.md R8). -/
  count_le : m.ctxCount.toNat ≤ Config.arenaCtx
  /-- A model exists only under a configured order (41_contextmodel.md R156). -/
  configured : m.mode ≠ .idle → u.modelOrder ≠ 0
  /-- Within a chunk the budget holds (41_contextmodel.md R146). -/
  budget : m.mode.inChunk → m.ctxCount.toNat ≤ u.maxCtx.toNat
  /-- Within a chunk no context is deeper than the model order (41_contextmodel.md R146). -/
  depth : m.mode.inChunk → ∀ c x, m.arena.read c = some x → x.order.toNat ≤ u.modelOrder.toNat
  /-- The root has order 0 (00_scope.md R16). -/
  root_order : ∀ x, m.arena.read 0 = some x → x.order = 0
  /-- Every record is sound. -/
  records : ∀ c x, m.arena.read c = some x → x.Sound
  /-- Every link that is present points to a record of order one more than its owner (41_contextmodel.md R164). -/
  links : ∀ c x (s : Sym), m.arena.read c = some x → x.succ[s] ≠ 0 →
    ∃ y, m.arena.read (x.succ[s]).toNat = some y ∧ y.order.toNat = x.order.toNat + 1

/-- No record is the child of two links (41_contextmodel.md R164). -/
def Memory.LinksInjective (m : Memory) : Prop :=
  ∀ (c d : Nat) (x y : Context) (s t : Sym), m.read c = some x → m.read d = some y →
    x.succ[s] ≠ 0 → x.succ[s] = y.succ[t] → c = d ∧ s = t

/-- Every record but the root is the child of some link (41_contextmodel.md R164). -/
def Memory.LinksCover (m : Memory) : Prop :=
  ∀ (c : Nat) (y : Context), m.read c = some y → c ≠ 0 → ∃ (d : Nat) (x : Context) (s : Sym),
    m.read d = some x ∧ (x.succ[s]).toNat = c

/-! ### The coder (40_rangecoder.md section 5) -/

/-- How many `0xFF` bytes follow the cached byte: `P` = `CACHESIZE - 1` (40_rangecoder.md R118). -/
def Coder.buffered (c : Coder) : Nat := c.cacheSize.toNat - 1

/-- The number the held-back bytes spell: `N` = `CACHE * 256^P + (256^P - 1)` (40_rangecoder.md R118). -/
def Coder.heldNumber (c : Coder) : Nat := c.cache.toNat * 256 ^ c.buffered + (256 ^ c.buffered - 1)

/-- The carry bounds of the encode side: one carry bit is enough (40_rangecoder.md R117), and a carry never overflows the cache
nor reaches the dummy byte (R118 (a) and (b)). -/
structure Coder.CarrySafe (c : Coder) : Prop where
  held_pos : 1 ≤ c.cacheSize.toNat
  low_range : c.low.toNat + c.range.toNat < 2 ^ 33
  sent : c.drop = false → c.heldNumber * 2 ^ 32 + c.low.toNat + c.range.toNat ≤ 256 ^ (c.buffered + 1) * 2 ^ 32
  dummy : c.drop = true → c.cache = 0 ∧ c.low.toNat + c.range.toNat ≤ 2 ^ 32

/-- The coder's invariant while no fault is recorded. -/
structure Coder.Sound (c : Coder) : Prop where
  /-- A query is pending only while decoding (10_state.md R31). -/
  pending_dec : c.dpend = true → c.mode = .dec
  /-- `RANGE >= THRESH` between commands (40_rangecoder.md R116). -/
  range_ge : c.mode ≠ .idle → c.dpend = false → Config.thresh ≤ c.range.toNat
  /-- A pending per-unit value is at least 64 (40_rangecoder.md R116), and its whole interval fits 32 bits (R120). -/
  unit_ge : c.dpend = true → 64 ≤ c.range.toNat
  unit_fits : c.dpend = true → c.range.toNat * c.dtot.toNat < 2 ^ 32
  /-- The carry bounds hold while encoding (40_rangecoder.md R117, R118). -/
  carry : c.mode = .enc → c.CarrySafe
  /-- `CODE <= RANGE` while decoding with no query pending (40_rangecoder.md R119). -/
  code_le : c.mode = .dec → c.dpend = false → c.code.toNat ≤ c.range.toNat

/-- The fault record: clear, or one of the recordable errors 1 to 7 (10_state.md R36, 60_exceptions.md R201, R208). -/
structure FaultRecord.Sound (f : FaultRecord) : Prop where
  clear : f.raised = false → f.code = 0 ∧ f.opc = 0
  named : f.raised = true → 1 ≤ f.code.toNat ∧ f.code.toNat ≤ 7

/-- The invariant of the machine. The coder's part is asked for only while no fault is recorded: an `E_OVF` in the middle of a
normalisation leaves `RANGE` below `THRESH`, and RCCM then codes no more before a reset (60_exceptions.md R206, R207). -/
structure State.Inv (s : State) : Prop where
  setup : s.setup.Sound
  model : s.model.Sound s.setup
  fault : s.fault.Sound
  coder : s.fault.raised = false → s.coder.Sound

/-! ### The number the encoder's bytes spell (40_rangecoder.md R118, R121) -/

/-- The number that bytes spell, the first byte most significant (20_memory.md R62). -/
def bytesNumber (bs : List Byte) : Nat := bs.foldl (fun n b => n * 256 + b.toNat) 0

/-- How many of the held-back bytes will be sent: all of them but the dummy (40_rangecoder.md R102). -/
def Coder.heldBytes (c : Coder) : Nat := c.buffered + if c.drop then 0 else 1

/-- The bytes sent, the bytes held back and `LOW`, as one number. -/
def State.codeNumber (s : State) : Nat :=
  (bytesNumber s.ports.output * 256 ^ s.coder.heldBytes + s.coder.heldNumber) * 2 ^ 32 + s.coder.low.toNat

/-! ### What a group of commands leaves alone -/

/-- `t` differs from `s` at most in what the encode primitives write: `LOW`, `RANGE`, the cache, the bytes sent and `CNT_OUT`
(40_rangecoder.md R102 to R105). -/
structure EncodeFrame (s t : State) : Prop where
  mode : t.coder.mode = s.coder.mode
  code : t.coder.code = s.coder.code
  dpend : t.coder.dpend = s.coder.dpend
  dtot : t.coder.dtot = s.coder.dtot
  model : t.model = s.model
  setup : t.setup = s.setup
  fault : t.fault = s.fault
  zfill : t.events.zfill = s.events.zfill
  cntIn : t.events.cntIn = s.events.cntIn
  cntZfill : t.events.cntZfill = s.events.cntZfill
  cntSym : t.events.cntSym = s.events.cntSym
  cmd : t.ports.cmd = s.ports.cmd
  input : t.ports.input = s.ports.input
  eod : t.ports.eod = s.ports.eod
  responses : t.ports.responses = s.ports.responses
  host : t.ports.host = s.ports.host
  output : ∃ sent, t.ports.output = s.ports.output ++ sent ∧
    t.events.cntOut = s.events.cntOut + BitVec.ofNat 32 sent.length

/-- `t` differs from `s` at most in what the decode primitives write: `RANGE`, `CODE`, `DPEND`, `DTOT`, the bytes consumed,
`ZFILL`, `CNT_IN` and `CNT_ZFILL` (10_state.md R27, 40_rangecoder.md R107, R108). -/
structure DecodeFrame (s t : State) : Prop where
  mode : t.coder.mode = s.coder.mode
  low : t.coder.low = s.coder.low
  cache : t.coder.cache = s.coder.cache
  cacheSize : t.coder.cacheSize = s.coder.cacheSize
  drop : t.coder.drop = s.coder.drop
  model : t.model = s.model
  setup : t.setup = s.setup
  fault : t.fault = s.fault
  cntOut : t.events.cntOut = s.events.cntOut
  cntSym : t.events.cntSym = s.events.cntSym
  cmd : t.ports.cmd = s.ports.cmd
  eod : t.ports.eod = s.ports.eod
  output : t.ports.output = s.ports.output
  responses : t.ports.responses = s.ports.responses
  host : t.ports.host = s.ports.host
  input : ∃ taken, s.ports.input = taken ++ t.ports.input ∧
    t.events.cntIn = s.events.cntIn + BitVec.ofNat 32 taken.length

/-- Enough input for `n` reads: no `ReadIn` among them holds (10_state.md R27). -/
def State.inputReady (s : State) (n : Nat) : Prop := s.ports.eod = true ∨ n ≤ s.ports.input.length

/-- What `n` reads return: the next bytes of the input port, and `ZERO_FILL` for every byte that is missing
(10_state.md R27). -/
def State.nextBytes (s : State) (n : Nat) : List Byte :=
  s.ports.input.take n ++ List.replicate (n - s.ports.input.length) Config.zeroFill

/-- What `n` reads leave: the bytes are consumed and counted, and a missing byte sets `ZFILL` (10_state.md R27). -/
def State.afterReads (n : Nat) (s : State) : State :=
  (s.withPorts fun p => { p with input := p.input.drop n }).withEvents fun v =>
    { v with
      cntIn := v.cntIn + BitVec.ofNat 32 (min n s.ports.input.length)
      cntZfill := v.cntZfill + BitVec.ofNat 32 (n - s.ports.input.length)
      zfill := v.zfill || decide (s.ports.input.length < n) }

/-- A normalisation loop that starts at `RANGE` = `r` runs exactly `k` times and ends at `r'`
(40_rangecoder.md R104, R108). -/
structure Widened (r k r' : Nat) : Prop where
  value : r' = r * 256 ^ k
  enough : Config.thresh ≤ r'
  least : k = 0 ∨ r * 256 ^ (k - 1) < Config.thresh

/-- The model `n` is the model `m` after `update_model(c, sym)`, where `x` is the record at `c`
(41_contextmodel.md R145). -/
structure HitUpdate (u : Setup) (m n : Model) (c : Nat) (x : Context) (sym : Sym) : Prop where
  /-- The symbol's successor exists: it becomes the active context. -/
  linked : (x.hit sym).succ[sym] ≠ 0 →
    n.active = (x.hit sym).succ[sym] ∧ n.ctxCount = m.ctxCount ∧ n.arena = m.arena.write c (x.hit sym)
  /-- There is none, and the budget and the order allow one: it is created, linked and made active. -/
  created : (x.hit sym).succ[sym] = 0 → m.ctxCount.toNat < u.maxCtx.toNat →
    x.order.toNat < u.modelOrder.toNat →
    n.active.toNat = m.ctxCount.toNat ∧ n.ctxCount.toNat = m.ctxCount.toNat + 1 ∧
    n.arena.read m.ctxCount.toNat = some (Context.fresh (x.order + 1)) ∧
    n.arena.read c = some { x.hit sym with succ := (x.hit sym).succ.set sym n.active } ∧
    ∀ d, d ≠ c → d ≠ m.ctxCount.toNat → n.arena.read d = m.arena.read d
  /-- There is none and none may be created: back to the root. -/
  fallback : (x.hit sym).succ[sym] = 0 →
    (u.maxCtx.toNat ≤ m.ctxCount.toNat ∨ u.modelOrder.toNat ≤ x.order.toNat) →
    n.active = 0 ∧ n.ctxCount = m.ctxCount ∧ n.arena = m.arena.write c (x.hit sym)

/-! ### Runs of commands -/

/-- Commands executed in order, each to its response (70_reset_and_hazards.md R257), for a host that keeps `EOD` raised, so that
no command holds; a stop of the model ends the run. -/
def execAll : List Instr → State → Host.Outcome State Fault Refusal
  | [], s => .next s
  | i :: rest, s =>
    match exec i s with
    | .next t => execAll rest t
    | .fault f => .fault f
    | .refused r => .refused r

/-- An interval `[start, start + size)` out of `total` (40_rangecoder.md R105). -/
structure Interval where
  start : Operand
  size : Operand
  total : Operand
  deriving DecidableEq, Repr

/-- The interval is not empty and lies inside its total (40_rangecoder.md R105). -/
def Interval.Valid (v : Interval) : Prop := 1 ≤ v.size.toNat ∧ v.start.toNat + v.size.toNat ≤ v.total.toNat

/-- The commands that encode a list of intervals (40_rangecoder.md R121). -/
def encodeCommands (vs : List Interval) : List Instr :=
  .rcInitEnc :: (vs.map fun v => .rcEncode v.start v.size v.total) ++ [.rcFlush]

/-- The commands that decode them (40_rangecoder.md R121). -/
def decodeCommands (vs : List Interval) : List Instr :=
  .rcInitDec :: vs.flatMap fun v => [.rcGetFreq v.total, .rcUpdate v.start v.size]

/-- The commands that compress one chunk (70_reset_and_hazards.md R245). -/
def compressCommands (bytes : List Byte) : List Instr :=
  [.rcInitEnc, .cmReset, .cmStartEnc] ++ (bytes.map fun b => .cmEncode (b.setWidth 17)) ++ [.cmEncode 256, .rcFlush]

/-- The commands that decompress a chunk of `n` bytes up to its terminator (70_reset_and_hazards.md R247). -/
def decompressCommands (n : Nat) : List Instr :=
  [.rcInitDec, .cmReset, .cmStartDec] ++ List.replicate (n + 1) .cmDecode

end Sys2Proof.Machine
end

