-- ==== Sys2Proof/Certificates/Slice0/Obligations.lean ====
section
/-! DEFINITION. The statements for the provers, in the order of the spec: encoding, the step, what every command has in common, each
command, the context model, and the properties of the whole machine. -/

section

open Sys2Proof Sys2Proof.Machine

/-! ### Encoding (30_encoding.md) -/

/-- Decoding the encoding of any command, with any operands, gives the command back (R81, R82, R84, R85, R90). -/
def Obligations.DecodeEncode : Prop := ∀ i : Instr, decode (encode i) = .ok i

/-- A word that decodes is the encoding of the command it decodes to: no bit of it is dropped, and every field the command does not
use is 0 (R84, R90). -/
def Obligations.EncodeDecode : Prop := ∀ (w : Word64) (i : Instr), decode w = .ok i → encode i = w

/-- The opcode map, row by row, with the masks and matches of R85 and the fields of R81 and R82 written out; a word whose opcode is
not in the map is no command. -/
def Obligations.OpcodeMap : Prop := ∀ w : Word64,
  (∀ i, decode w = .ok i → fieldOpc w ∈ ([0x00, 0x01, 0x02, 0x03, 0x04, 0x08, 0x09, 0x0A, 0x0C, 0x0D, 0x0E, 0x10, 0x11, 0x12, 0x13,
    0x14] : List OpcodeField)) ∧
  (decode w = .ok .nop ↔ w &&& 0xFFFFFFFFFFFFFFFF = 0x0000000000000000) ∧
  (decode w = .ok .blkReset ↔ w &&& 0xFFFFFFFFFFFFFFFF = 0x0400000000000000) ∧
  (decode w = .ok (.csrRd (w.extractLsb' 32 16)) ↔ w &&& 0xFFFF0000FFFFFFFF = 0x0800000000000000) ∧
  (decode w = .ok (.csrWr (w.extractLsb' 32 16) (w.extractLsb' 0 32)) ↔ w &&& 0xFFFF000000000000 = 0x0C00000000000000) ∧
  (decode w = .ok (.dbgRd (w.extractLsb' 34 17) (w.extractLsb' 17 17)) ↔ w &&& 0xFFF800000001FFFF = 0x1000000000000000) ∧
  (decode w = .ok .rcInitEnc ↔ w &&& 0xFFFFFFFFFFFFFFFF = 0x2000000000000000) ∧
  (decode w = .ok (.rcEncode (w.extractLsb' 34 17) (w.extractLsb' 17 17) (w.extractLsb' 0 17)) ↔
    w &&& 0xFFF8000000000000 = 0x2400000000000000) ∧
  (decode w = .ok .rcFlush ↔ w &&& 0xFFFFFFFFFFFFFFFF = 0x2800000000000000) ∧
  (decode w = .ok .rcInitDec ↔ w &&& 0xFFFFFFFFFFFFFFFF = 0x3000000000000000) ∧
  (decode w = .ok (.rcGetFreq (w.extractLsb' 0 17)) ↔ w &&& 0xFFFFFFFFFFFE0000 = 0x3400000000000000) ∧
  (decode w = .ok (.rcUpdate (w.extractLsb' 34 17) (w.extractLsb' 17 17)) ↔ w &&& 0xFFF800000001FFFF = 0x3800000000000000) ∧
  (decode w = .ok .cmReset ↔ w &&& 0xFFFFFFFFFFFFFFFF = 0x4000000000000000) ∧
  (decode w = .ok .cmStartEnc ↔ w &&& 0xFFFFFFFFFFFFFFFF = 0x4400000000000000) ∧
  (decode w = .ok .cmStartDec ↔ w &&& 0xFFFFFFFFFFFFFFFF = 0x4800000000000000) ∧
  (decode w = .ok (.cmEncode (w.extractLsb' 34 17)) ↔ w &&& 0xFFF80003FFFFFFFF = 0x4C00000000000000) ∧
  (decode w = .ok .cmDecode ↔ w &&& 0xFFFFFFFFFFFFFFFF = 0x5000000000000000)

/-- The words R88 calls illegal, and what they do: a word whose opcode is unassigned decodes to nothing, so does a word with a stray
bit, and while no fault is recorded a word that is no command's encoding ends in `E_ILLEGAL` and changes nothing else (R84, R88, R90). -/
def Obligations.IllegalWords : Prop :=
  (∀ w : Word64, decode w = .error (.unassignedOpcode (fieldOpc w)) ↔
    (5 ≤ (fieldOpc w).toNat ∧ (fieldOpc w).toNat ≤ 7) ∨ (fieldOpc w).toNat = 0x0B ∨ (fieldOpc w).toNat = 0x0F ∨
      0x15 ≤ (fieldOpc w).toNat) ∧
  (∀ (w : Word64) (s : State), (∀ i, w ≠ encode i) → s.fault.raised = false →
    runWord w s = .next (s.faultEntry .illegal (fieldOpc w)))

/-- The sample encodings of R97, from assembler line to word and back, and its two words that decode and fail, or do not decode. -/
def Obligations.SampleEncodings : Prop :=
  (∀ p ∈ [(AsmLine.rcIenc, (0x2000000000000000 : Word64)), (.rcEnc 3 1 4, 0x2400000C00020004),
      (.rcEnc 104 1 258, 0x240001A000020102), (.rcGfreq 258, 0x3400000000000102), (.rcUpd 257 1, 0x3800040400020000),
      (.cmEnc 0x68, 0x4C0001A000000000), (.cmTerm, 0x4C00040000000000), (.cmDec, 0x5000000000000000),
      (.dbgRd 1 0x101, 0x1000000402020000), (.csrWr (.name .modelOrder) 8, 0x0C00000400000008),
      (.csrWr (.name .maxCtx) 16, 0x0C00000500000010), (.csrRd (.name .status), 0x0800000100000000)],
    (assemble p.1).map (List.map encode) = some [p.2]) ∧
  decode 0x2400000000000001 = .ok (.rcEncode 0 0 1) ∧
  (∀ s : State, s.fault.raised = false → s.coder.mode = .enc →
    runWord 0x2400000000000001 s = .next (s.faultEntry .arg Opc.rcEncode)) ∧
  (∀ s : State, s.fault.raised = false → runWord 0x2000000000000001 s = .next (s.faultEntry .illegal Opc.rcInitEnc))

/-- The expansions of the pseudo-instructions (R96), for operands that fit their fields. -/
def Obligations.PseudoExpansions : Prop :=
  assemble .cmTerm = assemble (.cmEnc 256) ∧
  (∀ b, assemble (.rcByte b) = assemble (.rcEnc b 1 256)) ∧
  (∀ n, assemble (.cfgOrder n) = assemble (.csrWr (.name .modelOrder) n)) ∧
  (∀ m, assemble (.cfgMaxctx m) = assemble (.csrWr (.name .maxCtx) m)) ∧
  assemble .engPenc = some [.rcInitEnc, .cmReset, .cmStartEnc] ∧
  assemble .engPdec = some [.rcInitDec, .cmReset, .cmStartDec]

/-- A response word, field by field (R86), and the response of a raised error as one number (R87). -/
def Obligations.ResponseWords : Prop :=
  (∀ (err : Bool) (code : BitVec 8) (data : Word32),
    (responseWord err code data).getLsbD 63 = err ∧
    (responseWord err code data).extractLsb' 56 7 = 0 ∧
    (responseWord err code data).extractLsb' 48 8 = code ∧
    (responseWord err code data).extractLsb' 32 16 = 0 ∧
    (responseWord err code data).extractLsb' 0 32 = data) ∧
  (∀ e : ErrCode, responseWord true e.number 0 = 0x8000000000000000 ||| (e.number.setWidth 64 <<< 48)) ∧
  responseWord true ErrCode.arg.number 0 = 0x8002000000000000 ∧
  responseWord true ErrCode.blocked.number 0 = 0x8008000000000000 ∧
  (∀ (e : ErrCode) (opc : OpcodeField) (s : State),
    (s.faultEntry e opc).ports.responses = s.ports.responses ++ [responseWord true e.number 0])

/-! ### The step and the ports (10_state.md R21, R29, 20_memory.md R70, 70_reset_and_hazards.md) -/

/-- A step with a word on the command port and no `RST` runs the word. A word that decodes runs as its command: if the command has
its response (the port is free again), that is the step; if it holds, the host acts. A word that decodes to no command is
blocked by its opcode field while a fault is recorded, and is illegal otherwise (60_exceptions.md R203). What the host may do
while a command holds is the model's choice (log entry 5). -/
def Obligations.StepRunsCommand : Prop := ∀ (s : State) (w : Word64), fetch s = some w → s.rstAsserted = false →
  (∀ i : Instr, decode w = .ok i →
    (∀ t, exec i s = .next t → t.ports.cmd = none → step s = .next t) ∧
    (∀ t, exec i s = .next t → t.ports.cmd.isSome = true → step s = .next (hostMove t)) ∧
    (∀ f, exec i s = .fault f → step s = .fault f)) ∧
  (∀ t, runWord w s = .next t → t.ports.cmd = none → step s = .next t) ∧
  (∀ e, decode w = .error e →
    (s.fault.raised = false ∨ fieldOpc w = 0x00 ∨ fieldOpc w = 0x01 ∨ fieldOpc w = 0x02 ∨ fieldOpc w = 0x04 →
      step s = .next (s.faultEntry .illegal (fieldOpc w))) ∧
    (s.fault.raised = true → fieldOpc w ≠ 0x00 → fieldOpc w ≠ 0x01 → fieldOpc w ≠ 0x02 → fieldOpc w ≠ 0x04 →
      step s = .next s.blocked))

/-- What the host's actions do. With nothing on the command port RCCM is idle and the host acts; with nothing left for the host to
do, nothing changes (42_control.md R192, 60_exceptions.md R221). While a command holds, a byte or `EOD` reaches its port, and the
next command word waits (70_reset_and_hazards.md R249, R253). Between two chunks the host takes the unread bytes off the input port,
and nothing else changes (R248); that it does so with no command in progress only is log entry 5. With no input to come the
hold goes on (60_exceptions.md R223). `RST` lands at any time, in the middle of a command too: every register takes its reset value, the command has no response and
none of its writes stand, and the bytes, `EOD` and what was sent stay (R240). That the host's actions are a list is the model's
choice (log entry 5); what an `RST` leaves of a command's bytes is log entry 6. -/
def Obligations.HostActions : Prop := ∀ (s : State) (rest : List HostEvent),
  (fetch s = none →
    (s.ports.host = [] → step s = .next s) ∧
    (∀ w, s.ports.host = .command w :: rest →
      step s = .next { s with ports := { s.ports with cmd := some w, host := rest } }) ∧
    (∀ b, s.ports.host = .byte b :: rest →
      step s = .next { s with ports := { s.ports with input := s.ports.input ++ [b], host := rest } }) ∧
    (∀ level, s.ports.host = .eod level :: rest →
      step s = .next { s with ports := { s.ports with eod := level, host := rest } }) ∧
    (s.ports.host = .awaitResponse :: rest → step s = .next { s with ports := { s.ports with host := rest } }) ∧
    (s.ports.host = .clearInput :: rest → step s = .next { s with ports := { s.ports with input := [], host := rest } })) ∧
  (∀ w, fetch s = some w → runWord w s = .next s →
    (s.ports.host = [] → step s = .next s) ∧
    (∀ v, s.ports.host = .command v :: rest → step s = .next s) ∧
    (∀ b, s.ports.host = .byte b :: rest →
      step s = .next { s with ports := { s.ports with input := s.ports.input ++ [b], host := rest } }) ∧
    (∀ level, s.ports.host = .eod level :: rest →
      step s = .next { s with ports := { s.ports with eod := level, host := rest } }) ∧
    (s.ports.host = .awaitResponse :: rest → step s = .next s) ∧
    (s.ports.host = .clearInput :: rest → step s = .next s)) ∧
  (s.ports.host = .rst :: rest → step s = .next { State.reset with ports := { s.ports with cmd := none, host := rest } })

/-- Every register at its reset value (10_state.md R57). That the arena lists nothing is the model's choice (log entry 2). -/
def Obligations.ResetValues : Prop :=
  State.reset.coder = { mode := .idle, low := 0, range := 0xFFFFFFFF, code := 0, cache := 0, cacheSize := 1, drop := true,
                        dpend := false, dtot := 0 } ∧
  State.reset.model = { mode := .idle, active := 0, ctxCount := 0, arena := [] } ∧
  State.reset.setup.modelOrder = 0 ∧ State.reset.setup.maxCtx.toNat = Config.arenaCtx ∧ State.reset.setup.faultIE = false ∧
  State.reset.fault = { raised := false, code := 0, opc := 0 } ∧
  State.reset.events = { zfill := false, cntOut := 0, cntIn := 0, cntZfill := 0, cntSym := 0 } ∧
  State.reset.irq = false

/-! ### What every command has in common (60_exceptions.md) -/

/-- While `FAULT` = 1 every word but those of the four inspection opcodes gets `E_BLOCKED`, whatever its other bits, and changes no
register; the four run: a `NOP`, a `CSR_RD` and a `DBG_RD` give a response of their own and leave the state, and `BLK_RESET`
completes (R207). -/
def Obligations.BlockedWhileFault : Prop :=
  (∀ (w : Word64) (s : State), s.fault.raised = true →
    fieldOpc w ≠ 0x00 → fieldOpc w ≠ 0x01 → fieldOpc w ≠ 0x02 → fieldOpc w ≠ 0x04 →
    runWord w s = .next { s with ports := { s.ports with
      cmd := none, responses := s.ports.responses ++ [0x8008000000000000] } }) ∧
  (∀ (i : Instr) (s : State), s.Inv → s.fault.raised = true →
    (i = .nop ∨ (∃ c, i = .csrRd c) ∨ ∃ c o, i = .dbgRd c o) →
    ∃ err code data, (code : BitVec 8) ≠ 8 ∧ exec i s = .next { s with ports := { s.ports with
      cmd := none, responses := s.ports.responses ++ [responseWord err code data] } }) ∧
  (∀ s : State, s.fault.raised = true → ∃ t, exec .blkReset s = .next t ∧ t.fault.raised = false ∧
    t.ports.responses = s.ports.responses ++ [0])

/-- A word on the command port is answered exactly once, with a well-formed response that frees the port, or it holds and nothing
changes (30_encoding.md R86, 00_scope.md R14). No command is refused by the model. -/
def Obligations.OneResponse : Prop := ∀ (w : Word64) (s : State),
  (∀ r, runWord w s ≠ .refused r) ∧
  (∀ t, runWord w s = .next t → t = s ∨
    (t.ports.cmd = none ∧ ∃ err code data, t.ports.responses = s.ports.responses ++ [responseWord err code data] ∧
      (err = false → code = 0) ∧ (err = true → 1 ≤ (code : BitVec 8).toNat ∧ code.toNat ≤ 8 ∧ data = 0)))

/-- Only `RC_INIT_DEC`, `RC_UPDATE` and `CM_DECODE` hold, only while `EOD` is low, and a hold commits nothing (42_control.md R193,
00_scope.md R14). -/
def Obligations.HoldCommitsNothing : Prop := ∀ (i : Instr) (s t : State), exec i s = .next t →
  t.ports.responses = s.ports.responses →
  t = s ∧ s.ports.eod = false ∧ s.fault.raised = false ∧
  (i = .rcInitDec ∨ (∃ a b, i = .rcUpdate a b) ∨ i = .cmDecode)

/-- Fault entry (R204). The operation records the code and the opcode field if no fault is recorded, keeps the record if one is,
responds the error, and changes nothing else; and every word whose response carries a code other than `E_BLOCKED` has recorded
exactly that, with its own opcode field, and has changed neither mode. -/
def Obligations.FaultEntry : Prop :=
  (∀ (e : ErrCode) (opc : OpcodeField) (s : State), s.faultEntry e opc = { s with
    fault := if s.fault.raised then s.fault else { raised := true, code := e.number, opc := opc }
    ports := { s.ports with
      cmd := none, responses := s.ports.responses ++ [0x8000000000000000 ||| (e.number.setWidth 64 <<< 48)] } }) ∧
  (∀ (w : Word64) (s t : State) (e : ErrCode), runWord w s = .next t →
    t.ports.responses = s.ports.responses ++ [responseWord true e.number 0] → e ≠ .blocked →
    t.fault = (if s.fault.raised then s.fault else { raised := true, code := e.number, opc := fieldOpc w }) ∧
    t.coder.mode = s.coder.mode ∧ t.model.mode = s.model.mode)

/-- Only the first fault is recorded: while `FAULT` = 1 no word but `BLK_RESET` changes the record, whatever it raises; and no word
gets `E_BLOCKED` while `FAULT` = 0 (R208). -/
def Obligations.FirstFaultKept : Prop :=
  (∀ (w : Word64) (s t : State), s.fault.raised = true → runWord w s = .next t → w ≠ encode .blkReset → t.fault = s.fault) ∧
  (∀ (w : Word64) (s t : State), s.fault.raised = false → runWord w s = .next t →
    t.ports.responses ≠ s.ports.responses ++ [responseWord true ErrCode.blocked.number 0]) ∧
  (∀ (c : CsrIndex) (s : State), s.fault.raised = true → (∀ r : Csr, r.index ≠ c) →
    ∃ t, exec (.csrRd c) s = .next t ∧ t.ports.responses = s.ports.responses ++ [0x8005000000000000] ∧ t.fault = s.fault)

/-- A fault found by a check comes before any write: `E_SEQ`, `E_ARG`, `E_CSR`, `E_RANGE`, and the `E_DESYNC` of `RC_UPDATE`, change
nothing but the fault record and the response (R206). -/
def Obligations.PreciseFaults : Prop := ∀ (i : Instr) (s t : State) (e : ErrCode), s.Inv → s.fault.raised = false →
  exec i s = .next t → t.ports.responses = s.ports.responses ++ [responseWord true e.number 0] →
  (e = .seq ∨ e = .arg ∨ e = .csr ∨ e = .range ∨ (e = .desync ∧ ∃ a b, i = .rcUpdate a b)) →
  t = s.faultEntry e i.opcode

/-- After any error `CNT_SYM`, `ACTIVE`, `CTX_COUNT` and both modes are what they were (R206). -/
def Obligations.FaultKeepsModes : Prop := ∀ (w : Word64) (s t : State) (code : BitVec 8), runWord w s = .next t →
  t.ports.responses = s.ports.responses ++ [responseWord true code 0] →
  t.events.cntSym = s.events.cntSym ∧ t.model.active = s.model.active ∧ t.model.ctxCount = s.model.ctxCount ∧
  t.model.mode = s.model.mode ∧ t.coder.mode = s.coder.mode

/-- The interrupt line is `FAULT and CTRL.FAULT_IE`, and once it is up only `BLK_RESET` takes it down: no command masks it (R209,
42_control.md R187). -/
def Obligations.InterruptLine : Prop :=
  (∀ s : State, s.irq = (s.fault.raised && s.setup.faultIE)) ∧
  (∀ (i : Instr) (s t : State), exec i s = .next t → s.irq = true → i ≠ .blkReset → t.irq = true)

/-! ### What changes what -/

/-- The commands that change `RC_MODE`, and what they set (10_state.md R22). -/
def Obligations.RcModeChanges : Prop := ∀ (i : Instr) (s t : State), exec i s = .next t → t.coder.mode ≠ s.coder.mode →
  (i = .rcInitEnc ∧ t.coder.mode = .enc) ∨ (i = .rcInitDec ∧ t.coder.mode = .dec) ∨
  (i = .rcFlush ∧ s.coder.mode = .enc ∧ t.coder.mode = .idle) ∨ (i = .blkReset ∧ t.coder.mode = .idle)

/-- The model's state machine (41_contextmodel.md R161): the transitions of its table are the only ones, and the commands that each
mode refuses get `E_SEQ`. -/
def Obligations.CmModeMachine : Prop :=
  (∀ (i : Instr) (s t : State), exec i s = .next t → t.model.mode ≠ s.model.mode →
    (i = .blkReset ∧ t.model.mode = .idle) ∨
    (i = .cmReset ∧ s.setup.modelOrder ≠ 0 ∧ t.model.mode = .fresh) ∨
    (i = .cmStartEnc ∧ (s.model.mode = .fresh ∨ s.model.mode = .enc) ∧ t.model.mode = .enc) ∨
    (i = .cmStartDec ∧ (s.model.mode = .fresh ∨ s.model.mode = .dec) ∧ t.model.mode = .dec) ∨
    (i = .cmEncode 256 ∧ s.model.mode = .enc ∧ t.model.mode = .term) ∨
    (i = .cmDecode ∧ s.model.mode = .dec ∧ t.model.mode = .term ∧
      t.ports.responses = s.ports.responses ++ [responseWord false 0 256])) ∧
  (∀ (i : Instr) (s : State), s.fault.raised = false →
    (match i with
      | .cmReset => s.setup.modelOrder = 0
      | .cmStartEnc => s.model.mode = .idle ∨ s.model.mode = .dec ∨ s.model.mode = .term
      | .cmStartDec => s.model.mode = .idle ∨ s.model.mode = .enc ∨ s.model.mode = .term
      | .cmEncode _ => s.model.mode ≠ .enc ∨ s.coder.mode ≠ .enc
      | .cmDecode => s.model.mode ≠ .dec ∨ s.coder.mode ≠ .dec ∨ s.coder.dpend = true
      | _ => False) →
    exec i s = .next (s.faultEntry .seq i.opcode))

/-- The configuration changes only by `CSR_WR` with no fault recorded, and `MODEL_ORDER` and `MAX_CTX` never in the middle of a
chunk's coding (42_control.md R188, 10_state.md R35). -/
def Obligations.ConfigurationWindow : Prop := ∀ (i : Instr) (s t : State), exec i s = .next t → t.setup ≠ s.setup →
  (∃ c d, i = .csrWr c d) ∧ s.fault.raised = false ∧
  (t.setup.modelOrder ≠ s.setup.modelOrder ∨ t.setup.maxCtx ≠ s.setup.maxCtx → s.model.mode ≠ .enc ∧ s.model.mode ≠ .dec)

/-- No `RC_*` command reads or writes the context arena, `CM_MODE`, `ACTIVE`, `CTX_COUNT` or `CNT_SYM`: with any others in their
place it does the same, and leaves them (40_rangecoder.md R115). -/
def Obligations.RcIgnoresModel : Prop := ∀ (i : Instr) (s t : State) (m : Model) (n : Word32),
  (i = .rcInitEnc ∨ (∃ a b c, i = .rcEncode a b c) ∨ i = .rcFlush ∨ i = .rcInitDec ∨ (∃ c, i = .rcGetFreq c) ∨
    ∃ a b, i = .rcUpdate a b) →
  exec i s = .next t →
  t.model = s.model ∧ t.events.cntSym = s.events.cntSym ∧
  exec i { s with model := m, events := { s.events with cntSym := n } } =
    .next { t with model := m, events := { t.events with cntSym := n } }

/-- The bytes: the encode commands alone send, behind what was sent before; the decode commands alone consume, from the front
of the input; and no command moves `EOD` or the host (20_memory.md R72, 42_control.md R191). -/
def Obligations.ByteTraffic : Prop := ∀ (i : Instr) (s t : State), exec i s = .next t →
  t.ports.eod = s.ports.eod ∧ t.ports.host = s.ports.host ∧
  (∃ sent, t.ports.output = s.ports.output ++ sent ∧
    (sent ≠ [] → (∃ a b c, i = .rcEncode a b c) ∨ i = .rcFlush ∨ ∃ a, i = .cmEncode a)) ∧
  (∃ taken, s.ports.input = taken ++ t.ports.input ∧
    (taken ≠ [] → i = .rcInitDec ∨ (∃ a b, i = .rcUpdate a b) ∨ i = .cmDecode))

/-- The four event counters count what R38 says, modulo 2^32: `CNT_OUT` the bytes sent, `CNT_IN` the bytes consumed, `CNT_ZFILL` the
zeros read for missing bytes, `CNT_SYM` the symbols coded without fault; the commands that clear each are those of its row.
`ZFILL` is set exactly when a zero was read, and cleared by `RC_INIT_DEC` (R37). What `BLK_RESET` clears is BlkResetResult. -/
def Obligations.EventCounters : Prop := ∀ (i : Instr) (s t : State), exec i s = .next t → i ≠ .blkReset →
  (i ≠ .rcInitEnc → t.events.cntOut = s.events.cntOut + BitVec.ofNat 32 (t.ports.output.length - s.ports.output.length)) ∧
  (i = .rcInitEnc → t.events.cntOut = if s.fault.raised then s.events.cntOut else 0) ∧
  (i ≠ .rcInitDec → t.events.cntIn = s.events.cntIn + BitVec.ofNat 32 (s.ports.input.length - t.ports.input.length)) ∧
  (i = .rcInitDec → t.ports.responses = s.ports.responses ++ [0] →
    t.events.cntIn = BitVec.ofNat 32 (s.ports.input.length - t.ports.input.length)) ∧
  (i = .cmReset → t.ports.responses = s.ports.responses ++ [0] → t.events.cntSym = 0) ∧
  ((∃ a, i = .cmEncode a) ∨ i = .cmDecode → (∃ d, t.ports.responses = s.ports.responses ++ [responseWord false 0 d]) →
    t.events.cntSym = s.events.cntSym + 1) ∧
  (i ≠ .cmReset → (¬ ((∃ a, i = .cmEncode a) ∨ i = .cmDecode) ∨
      ¬ ∃ d, t.ports.responses = s.ports.responses ++ [responseWord false 0 d]) → t.events.cntSym = s.events.cntSym) ∧
  (i ≠ .rcInitDec → ∃ n ≤ 9, t.events.cntZfill = s.events.cntZfill + BitVec.ofNat 32 n ∧
    t.events.zfill = (s.events.zfill || decide (n ≠ 0)) ∧
    (n ≠ 0 → ((∃ a b, i = .rcUpdate a b) ∨ i = .cmDecode) ∧ s.ports.eod = true ∧ t.ports.input = [])) ∧
  (i = .rcInitDec → t.ports.responses = s.ports.responses ++ [0] →
    t.events.cntZfill.toNat = 4 - s.ports.input.length ∧ t.events.zfill = decide (s.ports.input.length < 4)) ∧
  (i = .rcInitDec → t.ports.responses ≠ s.ports.responses ++ [0] → t.events = s.events)

/-! ### Control commands (42_control.md) -/

/-- `NOP` changes no register and responds 0, with or without a fault recorded; a word with its opcode and any other bit set is not
one (R181). -/
def Obligations.NopResult : Prop :=
  (∀ s : State, exec .nop s = .next { s with ports := { s.ports with cmd := none, responses := s.ports.responses ++ [0] } }) ∧
  decode 0x0000000000000000 = .ok .nop ∧
  (∀ (w : Word64) (s : State), fieldOpc w = 0 → w ≠ 0 → runWord w s = .next (s.faultEntry .illegal 0))

/-- `BLK_RESET` completes in every state: every register but the three of the configuration goes to its reset value, the ports
stay, and it responds 0 (R182, 70_reset_and_hazards.md R242). That the arena then lists nothing is the model's choice (log
entry 2). -/
def Obligations.BlkResetResult : Prop := ∀ s : State, exec .blkReset s = .next {
  coder := { mode := .idle, low := 0, range := 0xFFFFFFFF, code := 0, cache := 0, cacheSize := 1, drop := true,
             dpend := false, dtot := 0 }
  model := { mode := .idle, active := 0, ctxCount := 0, arena := [] }
  setup := s.setup
  fault := { raised := false, code := 0, opc := 0 }
  events := { zfill := false, cntOut := 0, cntIn := 0, cntZfill := 0, cntSym := 0 }
  ports := { s.ports with cmd := none, responses := s.ports.responses ++ [0] } }

/-- `CSR_RD` of every assigned index responds its value and changes no register, with or without a fault recorded (R183; the map of
10_state.md R44). -/
def Obligations.CsrReadResult : Prop := ∀ (s : State),
  ∀ p ∈ [((0x000 : CsrIndex), (0x52430007 : Word32)), (0x001, s.statusWord), (0x002, s.errWord),
      (0x003, (BitVec.ofBool s.setup.faultIE).setWidth 32), (0x004, s.setup.modelOrder.setWidth 32),
      (0x005, s.setup.maxCtx.setWidth 32), (0x006, s.model.ctxCount.setWidth 32), (0x007, s.model.active.setWidth 32),
      (0x010, s.coder.low.extractLsb' 0 32), (0x011, (BitVec.ofBool (s.coder.low.getLsbD 32)).setWidth 32),
      (0x012, s.coder.range), (0x013, s.coder.code), (0x014, s.cacheWord), (0x015, s.coder.cacheSize),
      (0x016, s.coder.dtot.setWidth 32), (0x020, s.events.cntOut), (0x021, s.events.cntIn), (0x022, s.events.cntSym),
      (0x023, s.events.cntZfill), (0x030, BitVec.ofNat 32 Config.arenaCtx)],
    exec (.csrRd p.1) s = .next { s with ports := { s.ports with
      cmd := none, responses := s.ports.responses ++ [responseWord false 0 p.2] } }

/-- `STATUS`, `ERR` and `RC_CACHE`, field by field, `RC_CACHESIZE` and `RC_DTOT`; their values after hardware reset; and a write of
any of the five is refused (10_state.md R46, R47, R53). -/
def Obligations.StatusFields : Prop :=
  (∀ s : State,
    s.statusWord.extractLsb' 0 2 = (match s.coder.mode with | .idle => 0 | .enc => 1 | .dec => 2) ∧
    s.statusWord.extractLsb' 2 2 = 0 ∧
    s.statusWord.extractLsb' 4 3 = (match s.model.mode with | .idle => 0 | .fresh => 1 | .enc => 2 | .dec => 3 | .term => 4) ∧
    s.statusWord.getLsbD 7 = false ∧
    s.statusWord.getLsbD 8 = s.coder.dpend ∧
    s.statusWord.getLsbD 9 = s.fault.raised ∧
    s.statusWord.getLsbD 10 = s.events.zfill ∧
    (s.statusWord.getLsbD 11 = true ↔ s.model.mode ≠ .idle ∧ s.setup.maxCtx.toNat ≤ s.model.ctxCount.toNat) ∧
    s.statusWord.getLsbD 12 = (s.fault.raised && s.setup.faultIE) ∧
    s.statusWord.extractLsb' 13 19 = 0 ∧
    s.errWord.extractLsb' 0 8 = s.fault.code ∧ s.errWord.extractLsb' 8 6 = s.fault.opc ∧ s.errWord.extractLsb' 14 18 = 0 ∧
    s.cacheWord.extractLsb' 0 8 = s.coder.cache ∧ s.cacheWord.getLsbD 8 = s.coder.drop ∧ s.cacheWord.extractLsb' 9 23 = 0 ∧
    s.csrValue .rcCacheSize = s.coder.cacheSize ∧ (s.csrValue .rcDtot).toNat = s.coder.dtot.toNat) ∧
  State.reset.statusWord = 0x00000000 ∧ State.reset.errWord = 0x00000000 ∧ State.reset.cacheWord = 0x00000100 ∧
  State.reset.csrValue .rcCacheSize = 0x00000001 ∧ State.reset.csrValue .rcDtot = 0 ∧
  (∀ c ∈ ([0x001, 0x002, 0x014, 0x015, 0x016] : List CsrIndex), ∀ (d : Word32) (s : State), s.fault.raised = false →
    exec (.csrWr c d) s = .next (s.faultEntry .csr Opc.csrWr))

/-- A read or a write of an unassigned index, and a write of a read-only register, raise `E_CSR` and change nothing but the fault
record (10_state.md R56); a read does so with or without a fault recorded. -/
def Obligations.CsrRefusals : Prop := ∀ (c : CsrIndex) (d : Word32) (s : State),
  ((∀ r : Csr, r.index ≠ c) → exec (.csrRd c) s = .next (s.faultEntry .csr Opc.csrRd)) ∧
  ((∀ r : Csr, r.index ≠ c) → s.fault.raised = false → exec (.csrWr c d) s = .next (s.faultEntry .csr Opc.csrWr)) ∧
  (∀ r : Csr, r.index = c → r ≠ .ctrl → r ≠ .modelOrder → r ≠ .maxCtx → s.fault.raised = false →
    exec (.csrWr c d) s = .next (s.faultEntry .csr Opc.csrWr))

/-- `CSR_WR MODEL_ORDER`: outside a chunk's coding a value from 2 to 16 is taken whole, and any other value, or a write within the
coding, raises `E_CSR` and leaves the old one (R185). -/
def Obligations.WriteModelOrder : Prop := ∀ (d : Word32) (s : State), s.fault.raised = false →
  (s.model.mode ≠ .enc ∧ s.model.mode ≠ .dec ∧ 2 ≤ d.toNat ∧ d.toNat ≤ 16 →
    ∃ k : Order, k.toNat = d.toNat ∧ exec (.csrWr 0x004 d) s = .next { s with
      setup := { s.setup with modelOrder := k }
      ports := { s.ports with cmd := none, responses := s.ports.responses ++ [0] } }) ∧
  (s.model.mode = .enc ∨ s.model.mode = .dec ∨ d.toNat < 2 ∨ 16 < d.toNat →
    exec (.csrWr 0x004 d) s = .next (s.faultEntry .csr Opc.csrWr))

/-- `CSR_WR MAX_CTX`: outside a chunk's coding a value from 1 to `ARENA_CTX` is taken whole, and any other value, or a write within
the coding, raises `E_CSR` (R186). -/
def Obligations.WriteMaxCtx : Prop := ∀ (d : Word32) (s : State), s.fault.raised = false →
  (s.model.mode ≠ .enc ∧ s.model.mode ≠ .dec ∧ 1 ≤ d.toNat ∧ d.toNat ≤ Config.arenaCtx →
    ∃ m : BitVec 18, m.toNat = d.toNat ∧ exec (.csrWr 0x005 d) s = .next { s with
      setup := { s.setup with maxCtx := m }
      ports := { s.ports with cmd := none, responses := s.ports.responses ++ [0] } }) ∧
  (s.model.mode = .enc ∨ s.model.mode = .dec ∨ d.toNat < 1 ∨ Config.arenaCtx < d.toNat →
    exec (.csrWr 0x005 d) s = .next (s.faultEntry .csr Opc.csrWr))

/-- `CSR_WR CTRL`: in every mode, 0 and 1 are taken and every other value raises `E_CSR`; while `FAULT` = 1 the write is blocked
(R187). -/
def Obligations.WriteCtrl : Prop := ∀ (d : Word32) (s : State),
  (s.fault.raised = false → d = 0 ∨ d = 1 → exec (.csrWr 0x003 d) s = .next { s with
    setup := { s.setup with faultIE := d == 1 }
    ports := { s.ports with cmd := none, responses := s.ports.responses ++ [0] } }) ∧
  (s.fault.raised = false → d ≠ 0 ∧ d ≠ 1 → exec (.csrWr 0x003 d) s = .next (s.faultEntry .csr Opc.csrWr)) ∧
  (s.fault.raised = true → exec (.csrWr 0x003 d) s = .next s.blocked)

/-- `DBG_RD` of an allocated record responds the field at the offset (20_memory.md R65), changes no register, and runs while
`FAULT` = 1; an unallocated index or an unassigned offset raises `E_RANGE` (R189). -/
def Obligations.DebugReadResult : Prop := ∀ (c off : Operand) (s : State),
  (∀ x : Context, s.model.arena.read c.toNat = some x → c.toNat < s.model.ctxCount.toNat →
    (∀ v : Word32,
      (∃ a : Sym, off.toNat = a.val ∧ v = (x.freq[a]).setWidth 32) ∨
      (off.toNat = 0x101 ∧ v = x.sum.setWidth 32) ∨ (off.toNat = 0x102 ∧ v = x.esc.setWidth 32) ∨
      (off.toNat = 0x103 ∧ v = x.order.setWidth 32) ∨
      (∃ a : Sym, off.toNat = 0x200 + a.val ∧ v = (x.succ[a]).setWidth 32) →
      exec (.dbgRd c off) s = .next { s with ports := { s.ports with
        cmd := none, responses := s.ports.responses ++ [responseWord false 0 v] } }) ∧
    ((0x104 ≤ off.toNat ∧ off.toNat < 0x200) ∨ 0x301 ≤ off.toNat →
      exec (.dbgRd c off) s = .next (s.faultEntry .range Opc.dbgRd))) ∧
  (s.model.ctxCount.toNat ≤ c.toNat → exec (.dbgRd c off) s = .next (s.faultEntry .range Opc.dbgRd))

/-! ### Range-coder commands (40_rangecoder.md) -/

/-- `RC_INIT_ENC` sets up the encode side in every mode, abandons the decode side, clears `CNT_OUT` and touches nothing else
(R109). -/
def Obligations.InitEncodeResult : Prop := ∀ s : State, s.fault.raised = false → exec .rcInitEnc s = .next { s with
  coder := { mode := .enc, low := 0, range := 0xFFFFFFFF, code := 0, cache := 0, cacheSize := 1, drop := true,
             dpend := false, dtot := 0 }
  events := { s.events with cntOut := 0 }
  ports := { s.ports with cmd := none, responses := s.ports.responses ++ [0] } }

/-- `ShiftLow`, case by case (R103): a settled run is sent, the carry added to every byte of it, and the byte shifted out becomes the
cached one; an `0xFF` with no carry is one more buffered byte; a full count raises `E_OVF` and changes nothing. -/
def Obligations.ShiftLowRule : Prop := ∀ (s : State) (carry : Byte), carry.toNat = s.coder.low.toNat / 2 ^ 32 →
  (s.coder.low.toNat % 2 ^ 32 < 0xFF000000 ∨ carry = 1 →
    ∃ t, shiftLow.run s = .ok () t ∧ EncodeFrame s t ∧ t.coder.range = s.coder.range ∧ t.coder.drop = false ∧
      t.coder.cache.toNat = s.coder.low.toNat / 2 ^ 24 % 256 ∧ t.coder.cacheSize = 1 ∧
      t.coder.low.toNat = s.coder.low.toNat % 2 ^ 24 * 256 ∧
      t.ports.output = s.ports.output ++ (if s.coder.drop then [] else [s.coder.cache + carry]) ++
        List.replicate (s.coder.cacheSize.toNat - 1) (0xFF + carry)) ∧
  (0xFF000000 ≤ s.coder.low.toNat % 2 ^ 32 → carry = 0 → s.coder.cacheSize ≠ 0xFFFFFFFF →
    ∃ t, shiftLow.run s = .ok () t ∧ EncodeFrame s t ∧ t.coder.range = s.coder.range ∧ t.coder.drop = s.coder.drop ∧
      t.coder.cache = s.coder.cache ∧ t.coder.cacheSize.toNat = s.coder.cacheSize.toNat + 1 ∧
      t.coder.low.toNat = s.coder.low.toNat % 2 ^ 24 * 256 ∧ t.ports.output = s.ports.output) ∧
  (0xFF000000 ≤ s.coder.low.toNat % 2 ^ 32 → carry = 0 → s.coder.cacheSize = 0xFFFFFFFF →
    shiftLow.run s = .error (.raise .ovf) s)

/-- Where the encode side traps: the checks of `RC_ENCODE` in their order (R110), `RC_FLUSH` outside `RC_ENC` (R111), and the `E_OVF`
of a `ShiftLow` that finds the count of held bytes full, after `j` shifts of a flush or of the normalisation of `RC_ENCODE` or
`CM_ENCODE` (R103, R104). The narrowed `LOW`, the widened `RANGE` and the `j` shifts with their bytes stand (60_exceptions.md R206);
the context model stays as it was. -/
def Obligations.EncodeSideTraps : Prop := ∀ (start size total : Operand) (s : State), s.fault.raised = false →
  (s.coder.mode ≠ .enc → exec (.rcEncode start size total) s = .next (s.faultEntry .seq Opc.rcEncode)) ∧
  (s.coder.mode = .enc → (total = 0 ∨ size = 0 ∨ total.toNat ≤ start.toNat ∨ total.toNat < start.toNat + size.toNat) →
    exec (.rcEncode start size total) s = .next (s.faultEntry .arg Opc.rcEncode)) ∧
  (s.coder.mode ≠ .enc → exec .rcFlush s = .next (s.faultEntry .seq Opc.rcFlush)) ∧
  (∀ (j : Nat) (u : State), s.coder.mode = .enc → j < 5 → (shiftLowTimes j).run s = .ok () u →
    u.coder.cacheSize = 0xFFFFFFFF → 0xFF000000 ≤ u.coder.low.toNat → u.coder.low.toNat < 2 ^ 32 →
    EncodeFrame s u ∧ exec .rcFlush s = .next (u.faultEntry .ovf Opc.rcFlush)) ∧
  (∀ (j : Nat) (low : BitVec 33) (u : State), s.coder.mode = .enc → 1 ≤ size.toNat → start.toNat + size.toNat ≤ total.toNat →
    j < 3 → low.toNat = s.coder.low.toNat + start.toNat * (s.coder.range.toNat / total.toNat) →
    s.coder.range.toNat / total.toNat * size.toNat * 256 ^ j < Config.thresh →
    (shiftLowTimes j).run (s.withCoder fun c => { c with low := low }) = .ok () u →
    u.coder.cacheSize = 0xFFFFFFFF → 0xFF000000 ≤ u.coder.low.toNat → u.coder.low.toNat < 2 ^ 32 →
    ∃ range : Word32, range.toNat = s.coder.range.toNat / total.toNat * size.toNat * 256 ^ (j + 1) ∧ EncodeFrame s u ∧
      exec (.rcEncode start size total) s =
        .next ((u.withCoder fun c => { c with range := range }).faultEntry .ovf Opc.rcEncode) ∧
      (∀ (sym : Operand) (a : Sym) (x : Context), s.model.mode = .enc → sym.toNat = a.val →
        s.model.arena.read s.model.active.toNat = some x → x.freq[a] ≠ 0 → start.toNat = x.cum a.val →
        size.toNat = (x.freq[a]).toNat → total.toNat = x.total →
        exec (.cmEncode sym) s =
          .next ((u.withCoder fun c => { c with range := range }).faultEntry .ovf Opc.cmEncode)))

/-- `RC_ENCODE` in `RC_ENC` of an interval inside its total completes: `LOW` grows by `start * r` with `r = RANGE / total`, then as
many `ShiftLow`s run (at most 3) as `r * size` needs to reach `THRESH` when it is multiplied by 256 for each, and that product is
the new `RANGE`; nothing else changes (R104, R105, R110). The premises are those of R116 to R118, with room for 3 more held bytes. -/
def Obligations.EncodeResult : Prop := ∀ (start size total : Operand) (s : State), s.fault.raised = false →
  s.coder.mode = .enc → 1 ≤ size.toNat → start.toNat + size.toNat ≤ total.toNat →
  Config.thresh ≤ s.coder.range.toNat → s.coder.CarrySafe → s.coder.cacheSize.toNat + 3 ≤ 0xFFFFFFFF →
  ∃ (k : Nat) (u : State) (low : BitVec 33) (range : Word32), k ≤ 3 ∧
    low.toNat = s.coder.low.toNat + start.toNat * (s.coder.range.toNat / total.toNat) ∧
    Widened (s.coder.range.toNat / total.toNat * size.toNat) k range.toNat ∧
    (shiftLowTimes k).run (s.withCoder fun c => { c with low := low }) = .ok () u ∧
    exec (.rcEncode start size total) s = .next ((u.withCoder fun c => { c with range := range }).respond 0) ∧
    EncodeFrame s u

/-- What an encode does to the number that the sent bytes, the held bytes and `LOW` spell: it moves to the start of the subinterval,
on the scale of the bytes shifted out, the width follows, and the carry bounds hold again (R105, R117, R118). -/
def Obligations.EncodeNarrows : Prop := ∀ (start size total : Operand) (s t : State), s.fault.raised = false →
  s.coder.mode = .enc → 1 ≤ size.toNat → start.toNat + size.toNat ≤ total.toNat →
  Config.thresh ≤ s.coder.range.toNat → s.coder.CarrySafe →
  exec (.rcEncode start size total) s = .next t → t.fault.raised = false →
  ∃ k, k ≤ 3 ∧ t.codeNumber = (s.codeNumber + start.toNat * (s.coder.range.toNat / total.toNat)) * 256 ^ k ∧
    t.coder.range.toNat = s.coder.range.toNat / total.toNat * size.toNat * 256 ^ k ∧
    Config.thresh ≤ t.coder.range.toNat ∧ t.coder.CarrySafe

/-- `RC_FLUSH` in `RC_ENC` completes: it sends every byte, so that the bytes sent spell the number that the sent bytes, the held bytes
and `LOW` spelled; it sends the held bytes (but the dummy) and 4 more; `RC_MODE` becomes `RC_IDLE`, `RANGE` stays, and the response is
`CNT_OUT` (R111, R122). The premises are those of R116 to R118, with room for 5 more held bytes. -/
def Obligations.FlushResult : Prop := ∀ s : State, s.fault.raised = false → s.coder.mode = .enc →
  Config.thresh ≤ s.coder.range.toNat → s.coder.CarrySafe → s.coder.cacheSize.toNat + 5 ≤ 0xFFFFFFFF →
  ∃ (t : State) (sent : List Byte), exec .rcFlush s = .next (t.respond t.events.cntOut) ∧
    EncodeFrame (s.withCoder fun c => { c with mode := .idle }) t ∧ t.coder.range = s.coder.range ∧
    t.coder.low = 0 ∧ t.coder.cache = 0 ∧ t.coder.cacheSize = 1 ∧ t.coder.drop = false ∧
    t.ports.output = s.ports.output ++ sent ∧ sent.length = s.coder.heldBytes + 4 ∧
    bytesNumber t.ports.output = s.codeNumber

/-- `RC_INIT_DEC`: with 4 bytes on the port, or with `EOD` raised and zeros for the missing ones, it completes with those bytes in
`CODE`, the first one on top, and sets up the decode side; with fewer than 4 bytes and `EOD` low it holds and changes nothing
(R112). -/
def Obligations.InitDecodeResult : Prop := ∀ (s : State) (b0 b1 b2 b3 : Byte), s.fault.raised = false →
  (s.inputReady 4 → s.nextBytes 4 = [b0, b1, b2, b3] → exec .rcInitDec s = .next { s with
    coder := { mode := .dec, low := 0, range := 0xFFFFFFFF, code := b0 ++ b1 ++ b2 ++ b3, cache := 0, cacheSize := 1,
               drop := true, dpend := false, dtot := 0 }
    events := { s.events with
      cntIn := BitVec.ofNat 32 (min 4 s.ports.input.length)
      cntZfill := BitVec.ofNat 32 (4 - s.ports.input.length)
      zfill := decide (s.ports.input.length < 4) }
    ports := { s.ports with
      input := s.ports.input.drop 4, cmd := none, responses := s.ports.responses ++ [0] } }) ∧
  (¬ s.inputReady 4 → exec .rcInitDec s = .next s)

/-- `RC_GETFREQ` in `RC_DEC` with no query pending: it leaves the per-unit value in `RANGE`, the total in `DTOT`, sets `DPEND`, and
responds `CODE / r`; its checks come first, in their order (R113). `TOTAL <= RANGE` holds between commands by R116. -/
def Obligations.GetFreqResult : Prop := ∀ (total : Operand) (s : State), s.fault.raised = false →
  (s.coder.mode = .dec → s.coder.dpend = false → total ≠ 0 → total.toNat ≤ s.coder.range.toNat →
    ∃ (r v : Word32), r.toNat = s.coder.range.toNat / total.toNat ∧ v.toNat = s.coder.code.toNat / r.toNat ∧
      exec (.rcGetFreq total) s = .next { s with
        coder := { s.coder with range := r, dtot := total, dpend := true }
        ports := { s.ports with cmd := none, responses := s.ports.responses ++ [responseWord false 0 v] } }) ∧
  (s.coder.mode ≠ .dec ∨ s.coder.dpend = true →
    exec (.rcGetFreq total) s = .next (s.faultEntry .seq Opc.rcGetFreq)) ∧
  (s.coder.mode = .dec → s.coder.dpend = false → total = 0 →
    exec (.rcGetFreq total) s = .next (s.faultEntry .arg Opc.rcGetFreq))

/-- `RC_UPDATE` of the interval that contains the code point: with `k` the number of bytes that `r * size` needs to reach `THRESH`, it
completes if `k` bytes can be read (with `EOD` raised, zeros for the missing ones) and holds otherwise; it leaves `CODE - start * r`
with the bytes shifted in, `RANGE` = `r * size * 256^k` and `DPEND` = 0 (R108, R114). -/
def Obligations.UpdateResult : Prop := ∀ (start size : Operand) (s : State), s.fault.raised = false →
  s.coder.mode = .dec → s.coder.dpend = true → 1 ≤ size.toNat → start.toNat + size.toNat ≤ s.coder.dtot.toNat →
  64 ≤ s.coder.range.toNat → s.coder.range.toNat * s.coder.dtot.toNat < 2 ^ 32 →
  start.toNat * s.coder.range.toNat ≤ s.coder.code.toNat →
  s.coder.code.toNat < (start.toNat + size.toNat) * s.coder.range.toNat →
  ∃ (k : Nat) (code range : Word32), k ≤ 3 ∧ Widened (s.coder.range.toNat * size.toNat) k range.toNat ∧
    (s.inputReady k → code.toNat =
        (s.coder.code.toNat - start.toNat * s.coder.range.toNat) * 256 ^ k + bytesNumber (s.nextBytes k) ∧
      exec (.rcUpdate start size) s = .next (((s.afterReads k).withCoder fun c =>
        { c with code := code, range := range, dpend := false }).respond 0)) ∧
    (¬ s.inputReady k → exec (.rcUpdate start size) s = .next s)

/-- The checks of `RC_UPDATE`, in their order; a fault leaves `DPEND`, `RANGE` and all else as they were (R114). -/
def Obligations.UpdateChecks : Prop := ∀ (start size : Operand) (s : State), s.fault.raised = false →
  (s.coder.mode ≠ .dec ∨ s.coder.dpend = false →
    exec (.rcUpdate start size) s = .next (s.faultEntry .seq Opc.rcUpdate)) ∧
  (s.coder.mode = .dec → s.coder.dpend = true →
    (size = 0 ∨ s.coder.dtot.toNat ≤ start.toNat ∨ s.coder.dtot.toNat < start.toNat + size.toNat) →
    exec (.rcUpdate start size) s = .next (s.faultEntry .arg Opc.rcUpdate)) ∧
  (s.coder.mode = .dec → s.coder.dpend = true → 1 ≤ size.toNat → start.toNat + size.toNat ≤ s.coder.dtot.toNat →
    (s.coder.code.toNat < start.toNat * s.coder.range.toNat ∨
      (start.toNat + size.toNat) * s.coder.range.toNat ≤ s.coder.code.toNat) →
    exec (.rcUpdate start size) s = .next (s.faultEntry .desync Opc.rcUpdate))

/-! ### Context-model commands (41_contextmodel.md) -/

/-- `init_ctx(n, k)` writes record `n` and nothing else, and the record it writes is fresh (R141): every frequency is 1, every link is
absent, `sum` is 257, `esc` is 0 and the order is `k`. -/
def Obligations.FreshRecord : Prop := ∀ k : Order,
  (∀ (n : Nat) (s : State), ∃ t, (initCtx n k).run s = .ok () t ∧
    t = { s with model := { s.model with arena := t.model.arena } } ∧
    t.model.arena.read n = some (Context.fresh k) ∧ ∀ m, m ≠ n → t.model.arena.read m = s.model.arena.read m) ∧
  (∀ s : Sym, (Context.fresh k).freq[s] = 1 ∧ (Context.fresh k).succ[s] = 0) ∧
  (Context.fresh k).sum = 257 ∧ (Context.fresh k).esc = 0 ∧ (Context.fresh k).order = k ∧
  (k.toNat ≤ 16 → (Context.fresh k).Sound)

/-- `rescale` (R144): every count and `esc` are halved, rounding up; `sum` is the total of the halved table; no link and no order
changes; no count becomes 0, and no two counts change places. -/
def Obligations.RescaleRule : Prop := ∀ x : Context,
  (∀ s : Sym, (x.rescale.freq[s]).toNat = ((x.freq[s]).toNat + 1) / 2) ∧
  x.rescale.esc.toNat = (x.esc.toNat + 1) / 2 ∧
  x.rescale.sum = BitVec.ofNat 16 x.rescale.counts.sum ∧
  (x.counts.sum ≤ 0x8000 → x.rescale.sum.toNat = x.rescale.counts.sum ∧ x.rescale.sum.toNat ≤ 16512) ∧
  x.rescale.succ = x.succ ∧ x.rescale.order = x.order ∧
  (∀ s : Sym, x.freq[s] ≠ 0 → x.rescale.freq[s] ≠ 0) ∧
  (∀ s t : Sym, (x.freq[s]).toNat ≤ (x.freq[t]).toNat → (x.rescale.freq[s]).toNat ≤ (x.rescale.freq[t]).toNat)

/-- The count of a hit at a sound record (R145): one more for the symbol and for `sum`, rescaled if `sum` passes `RESCALE_LIMIT`; the
record stays sound (R162, R163, R165) and its links and order stay. -/
def Obligations.HitCount : Prop := ∀ (x : Context) (s : Sym), x.Sound →
  (x.hit s).Sound ∧ (x.hit s).succ = x.succ ∧ (x.hit s).order = x.order ∧
  (x.sum.toNat < 0x7FFF → ((x.hit s).freq[s]).toNat = (x.freq[s]).toNat + 1 ∧ (x.hit s).sum.toNat = x.sum.toNat + 1 ∧
    (x.hit s).esc = x.esc ∧ ∀ t : Sym, t ≠ s → (x.hit s).freq[t] = x.freq[t]) ∧
  (x.sum.toNat = 0x7FFF → ((x.hit s).freq[s]).toNat = ((x.freq[s]).toNat + 2) / 2 ∧
    (x.hit s).esc.toNat = (x.esc.toNat + 1) / 2 ∧
    ∀ t : Sym, t ≠ s → ((x.hit s).freq[t]).toNat = ((x.freq[t]).toNat + 1) / 2)

/-- At a sound record the symbols' intervals tile `[0, sum)` in symbol order, none is empty, and the escape's follows them up to the
total (R142, R143, R149, R150); the scan of a value below `sum` finds the one symbol whose interval contains it (R153). -/
def Obligations.ScanFinds : Prop := ∀ x : Context, x.Sound →
  (x.cum 0 = 0 ∧ (∀ s : Sym, x.cum (s.val + 1) = x.cum s.val + (x.freq[s]).toNat ∧ 1 ≤ (x.freq[s]).toNat) ∧
    x.cum 257 = x.sum.toNat ∧ x.sum.toNat + (x.esc.toNat + 1) = x.total ∧ x.total ≤ 0x17FFF) ∧
  (∀ v, v < x.sum.toNat → ∃ s : Sym, x.scan v = some s ∧ x.cum s.val ≤ v ∧ v < x.cum s.val + (x.freq[s]).toNat ∧
    ∀ t : Sym, x.cum t.val ≤ v → v < x.cum t.val + (x.freq[t]).toNat → t = s)

/-- `CM_RESET` once an order is configured, in every mode: the root is a fresh record of order 0, it alone is allocated and it is
active, `CNT_SYM` is 0, the mode is `CM_FRESH`, and nothing else changes; with no order it raises `E_SEQ` (R156). That the arena
lists nothing but the root is the model's choice (log entry 2). -/
def Obligations.ModelResetResult : Prop := ∀ s : State, s.fault.raised = false →
  (s.setup.modelOrder ≠ 0 → exec .cmReset s = .next { s with
    model := { mode := .fresh, active := 0, ctxCount := 1, arena := [(0, Context.fresh 0)] }
    events := { s.events with cntSym := 0 }
    ports := { s.ports with cmd := none, responses := s.ports.responses ++ [0] } }) ∧
  (s.setup.modelOrder = 0 → exec .cmReset s = .next (s.faultEntry .seq Opc.cmReset))

/-- `CM_START_ENC` from `CM_FRESH` or `CM_ENC`, and `CM_START_DEC` from `CM_FRESH` or `CM_DEC`: the root is active, the mode is `CM_ENC`
or `CM_DEC`, every statistic stays; from any other mode `E_SEQ` (R157, R158). -/
def Obligations.StartResults : Prop := ∀ s : State, s.fault.raised = false →
  (s.model.mode = .fresh ∨ s.model.mode = .enc → exec .cmStartEnc s = .next { s with
    model := { s.model with active := 0, mode := .enc }
    ports := { s.ports with cmd := none, responses := s.ports.responses ++ [0] } }) ∧
  (s.model.mode ≠ .fresh → s.model.mode ≠ .enc → exec .cmStartEnc s = .next (s.faultEntry .seq Opc.cmStartEnc)) ∧
  (s.model.mode = .fresh ∨ s.model.mode = .dec → exec .cmStartDec s = .next { s with
    model := { s.model with active := 0, mode := .dec }
    ports := { s.ports with cmd := none, responses := s.ports.responses ++ [0] } }) ∧
  (s.model.mode ≠ .fresh → s.model.mode ≠ .dec → exec .cmStartDec s = .next (s.faultEntry .seq Opc.cmStartDec))

/-- `CM_ENCODE` of a symbol in `CM_ENC` and `RC_ENC` completes: it is the `RC_ENCODE` of the symbol's interval at the active record,
followed by `update_model`, one more `CNT_SYM`, and `CM_TERM` after the terminator; no escape and no order -1 is ever coded
(R151, R154, R159). The premises are the invariant and room for 3 more held bytes. -/
def Obligations.ModelEncodeResult : Prop := ∀ (sym : Operand) (a : Sym) (s : State), s.Inv → s.fault.raised = false →
  s.model.mode = .enc → s.coder.mode = .enc → sym.toNat = a.val → s.coder.cacheSize.toNat + 3 ≤ 0xFFFFFFFF →
  ∃ (x : Context) (start size total : Operand) (u t : State), s.model.arena.read s.model.active.toNat = some x ∧
    start.toNat = x.cum a.val ∧ size.toNat = (x.freq[a]).toNat ∧ total.toNat = x.total ∧
    exec (.rcEncode start size total) s = .next u ∧ exec (.cmEncode sym) s = .next t ∧
    t.coder = u.coder ∧ t.setup = s.setup ∧ t.fault = s.fault ∧ t.ports = u.ports ∧
    t.events = { u.events with cntSym := s.events.cntSym + 1 } ∧
    t.model.mode = (if sym = 256 then .term else .enc) ∧
    HitUpdate s.setup s.model t.model s.model.active.toNat x a

/-- `CM_DECODE` of a value below `sum`: it is the `RC_GETFREQ` of the active record's total, then the `RC_UPDATE` of the interval of
the symbol found, then `update_model`, one more `CNT_SYM`, and the symbol in the response; after the terminator `CM_TERM` (R152,
R160). With `k` the number of bytes that the update needs, it completes if `k` bytes can be read, and the whole command holds
otherwise (42_control.md R193, 60_exceptions.md R223). -/
def Obligations.ModelDecodeResult : Prop := ∀ (s : State), s.Inv → s.fault.raised = false → s.model.mode = .dec →
  s.coder.mode = .dec → s.coder.dpend = false →
  ∃ x : Context, s.model.arena.read s.model.active.toNat = some x ∧
    (s.coder.code.toNat / (s.coder.range.toNat / x.total) < x.sum.toNat →
      ∃ (a : Sym) (start size total : Operand) (k : Nat) (u : State),
        x.cum a.val ≤ s.coder.code.toNat / (s.coder.range.toNat / x.total) ∧
        s.coder.code.toNat / (s.coder.range.toNat / x.total) < x.cum a.val + (x.freq[a]).toNat ∧
        start.toNat = x.cum a.val ∧ size.toNat = (x.freq[a]).toNat ∧ total.toNat = x.total ∧
        k ≤ 3 ∧ Widened (s.coder.range.toNat / x.total * size.toNat) k (s.coder.range.toNat / x.total * size.toNat * 256 ^ k) ∧
        exec (.rcGetFreq total) s = .next u ∧
        (s.inputReady k → ∃ v t : State, exec (.rcUpdate start size) u = .next v ∧ v.fault = s.fault ∧
          exec .cmDecode s = .next t ∧ t.coder = v.coder ∧ t.setup = s.setup ∧ t.fault = s.fault ∧
          t.ports = { v.ports with responses := s.ports.responses ++ [responseWord false 0 (BitVec.ofNat 32 a.val)] } ∧
          t.events = { v.events with cntSym := s.events.cntSym + 1 } ∧
          t.model.mode = (if a.val = 256 then .term else .dec) ∧
          HitUpdate s.setup s.model t.model s.model.active.toNat x a) ∧
        (¬ s.inputReady k → exec (.rcUpdate start size) u = .next u ∧ exec .cmDecode s = .next s))

/-- `CM_DECODE` of an escape, from the active context down to order -1 (R147, R148, R152, R166). With the root active: the escape is
decoded, `esc` rises by 1 up to `ESC_MAX`, and the byte is decoded as 1 of 256; no frequency changes, no record is created and the
root is active; a value of 256 or more there is `E_DESYNC`, and the escape stands. With another context active: the escape is decoded
and the active record's `esc` rises, and the command then does what it does with the root active in the state `r` that this leaves
(a hit, an escape or a value of no interval, as ModelDecodeResult, the first part and SymbolTraps say of `r`), but that after an
`E_DESYNC` there `ACTIVE` is what it was, and that where the retry holds the whole command holds and the escape does not stand
(00_scope.md R14). The escape needs `k` bytes and the byte of order -1 `j` more; where they cannot be read the command holds. The
second part asks for the invariant of the coder and of the two records alone. -/
def Obligations.ModelDecodeOrderMinusOne : Prop :=
 (∀ (s u v : State) (x : Context) (total start size : Operand), s.Inv →
  s.fault.raised = false → s.model.mode = .dec → s.coder.mode = .dec → s.coder.dpend = false →
  s.model.active = 0 → s.model.arena.read 0 = some x → total.toNat = x.total → start.toNat = x.sum.toNat →
  size.toNat = x.esc.toNat + 1 →
  x.sum.toNat ≤ s.coder.code.toNat / (s.coder.range.toNat / x.total) →
  s.coder.code.toNat / (s.coder.range.toNat / x.total) < x.total →
  exec (.rcGetFreq total) s = .next u → exec (.rcUpdate start size) u = .next v →
  ∃ (k : Nat) (y : Context), k ≤ 3 ∧
    Widened (s.coder.range.toNat / x.total * size.toNat) k (s.coder.range.toNat / x.total * size.toNat * 256 ^ k) ∧
    y.freq = x.freq ∧ y.sum = x.sum ∧ y.order = x.order ∧ y.succ = x.succ ∧ y.esc.toNat = min (x.esc.toNat + 1) 0xFFFF ∧
    (¬ s.inputReady k → v = u ∧ exec .cmDecode s = .next s) ∧
    (s.inputReady k → (∀ n, v.inputReady n ↔ s.inputReady (k + n)) ∧
      (∀ b : Byte, v.coder.code.toNat / (v.coder.range.toNat / 256) = b.toNat →
        ∃ (j : Nat) (w : State), j ≤ 3 ∧
          Widened (v.coder.range.toNat / 256) j (v.coder.range.toNat / 256 * 256 ^ j) ∧
          exec (.rcGetFreq 256) v = .next w ∧
          (v.inputReady j → ∃ z t : State, exec (.rcUpdate (b.setWidth 17) 1) w = .next z ∧
            exec .cmDecode s = .next t ∧ t.coder = z.coder ∧ t.setup = s.setup ∧ t.fault = s.fault ∧
            t.model = { s.model with arena := s.model.arena.write 0 y, active := 0 } ∧
            t.ports = { z.ports with responses := s.ports.responses ++ [responseWord false 0 (b.setWidth 32)] } ∧
            t.events = { z.events with cntSym := s.events.cntSym + 1 }) ∧
          (¬ v.inputReady j → exec (.rcUpdate (b.setWidth 17) 1) w = .next w ∧ exec .cmDecode s = .next s)) ∧
      (256 ≤ v.coder.code.toNat / (v.coder.range.toNat / 256) →
        ∃ w : State, exec (.rcGetFreq 256) v = .next w ∧
          exec .cmDecode s = .next (State.faultEntry .desync Opc.cmDecode { w with
            model := { s.model with arena := s.model.arena.write 0 y }
            ports := { w.ports with responses := s.ports.responses } })))) ∧
 (∀ (s u v : State) (x z : Context) (total start size : Operand), s.coder.Sound →
  s.fault.raised = false → s.model.mode = .dec → s.coder.mode = .dec → s.coder.dpend = false →
  s.model.active ≠ 0 → s.model.arena.read s.model.active.toNat = some x → x.Sound → s.model.arena.read 0 = some z → z.Sound →
  total.toNat = x.total → start.toNat = x.sum.toNat → size.toNat = x.esc.toNat + 1 →
  x.sum.toNat ≤ s.coder.code.toNat / (s.coder.range.toNat / x.total) →
  s.coder.code.toNat / (s.coder.range.toNat / x.total) < x.total →
  exec (.rcGetFreq total) s = .next u → exec (.rcUpdate start size) u = .next v →
  ∃ (k : Nat) (y : Context), k ≤ 3 ∧
    Widened (s.coder.range.toNat / x.total * size.toNat) k (s.coder.range.toNat / x.total * size.toNat * 256 ^ k) ∧
    y.freq = x.freq ∧ y.sum = x.sum ∧ y.order = x.order ∧ y.succ = x.succ ∧ y.esc.toNat = min (x.esc.toNat + 1) 0xFFFF ∧
    (¬ s.inputReady k → v = u ∧ exec .cmDecode s = .next s) ∧
    (s.inputReady k → ∃ r t : State,
      r = { v with
        model := { s.model with arena := s.model.arena.write s.model.active.toNat y, active := 0 }
        ports := { v.ports with responses := s.ports.responses } } ∧
      (s.Inv → r.Inv) ∧ r.fault = s.fault ∧ r.setup = s.setup ∧ r.coder.mode = .dec ∧ r.coder.dpend = false ∧
      (∀ n, r.inputReady n ↔ s.inputReady (k + n)) ∧
      r.model.arena.read 0 = some z ∧ exec .cmDecode r = .next t ∧
      ((∃ d, t.ports.responses = s.ports.responses ++ [responseWord false 0 d]) ∧ exec .cmDecode s = .next t ∨
        t.ports.responses = s.ports.responses ++ [responseWord true ErrCode.desync.number 0] ∧
          exec .cmDecode s = .next { t with model := { t.model with active := s.model.active } } ∨
        t = r ∧ exec .cmDecode s = .next s)))

/-- Where the symbol commands trap: `CM_ENCODE` outside `CM_ENC` with `RC_ENC`, and for a symbol above 256 (R159); `CM_DECODE` outside
`CM_DEC` with `RC_DEC` and no query pending, before any write, and, with its own query left pending, for a value of `total` or more
(R152, R160). -/
def Obligations.SymbolTraps : Prop := ∀ (sym : Operand) (s : State), s.fault.raised = false →
  (s.model.mode ≠ .enc ∨ s.coder.mode ≠ .enc → exec (.cmEncode sym) s = .next (s.faultEntry .seq Opc.cmEncode)) ∧
  (s.model.mode = .enc → s.coder.mode = .enc → 256 < sym.toNat →
    exec (.cmEncode sym) s = .next (s.faultEntry .arg Opc.cmEncode)) ∧
  (s.model.mode ≠ .dec ∨ s.coder.mode ≠ .dec ∨ s.coder.dpend = true →
    exec .cmDecode s = .next (s.faultEntry .seq Opc.cmDecode)) ∧
  (s.Inv → s.model.mode = .dec → s.coder.mode = .dec → s.coder.dpend = false →
    ∃ x : Context, s.model.arena.read s.model.active.toNat = some x ∧
      (x.total ≤ s.coder.code.toNat / (s.coder.range.toNat / x.total) →
        ∃ (r : Word32) (total : BitVec 17), r.toNat = s.coder.range.toNat / x.total ∧ total.toNat = x.total ∧
          exec .cmDecode s = .next ((s.withCoder fun c =>
            { c with range := r, dtot := total, dpend := true }).faultEntry .desync Opc.cmDecode)))

/-! ### Invariants -/

/-- The invariant holds after hardware reset. -/
def Obligations.ResetInv : Prop := State.reset.Inv

/-- The machine never stops: from every state that meets the invariant a step gives a next state, and that state meets it
(40_rangecoder.md R116 to R119, 41_contextmodel.md R162 to R165, 10_state.md R33 to R36). -/
def Obligations.StepKeepsInv : Prop := ∀ s : State, s.Inv → ∃ t, step s = .next t ∧ t.Inv

/-- Every step keeps the arena in its canonical form, from any state that has it. The form (a list with strictly rising indices) is
the model's choice (log entry 2). -/
def Obligations.StepKeepsArenaCanonical : Prop := ∀ s t : State, s.model.arena.wf = true → step s = .next t →
  t.model.arena.wf = true

/-- The successor links stay a tree: no record becomes the child of two links, and every record but the root stays the child of one;
after reset there is no record (41_contextmodel.md R164). -/
def Obligations.StepKeepsLinkTree : Prop :=
  (∀ s t : State, s.Inv → step s = .next t →
    (s.model.arena.LinksInjective → t.model.arena.LinksInjective) ∧
    (s.model.arena.LinksCover → t.model.arena.LinksCover)) ∧
  State.reset.model.arena.LinksInjective ∧ State.reset.model.arena.LinksCover

/-- A link that is present is never written again, and no record is freed, before `CM_RESET` or `BLK_RESET`
(41_contextmodel.md R164). -/
def Obligations.LinksAppendOnly : Prop := ∀ (i : Instr) (s t : State) (c : Nat) (x : Context), s.Inv → exec i s = .next t →
  i ≠ .cmReset → i ≠ .blkReset → s.model.arena.read c = some x →
  ∃ y, t.model.arena.read c = some y ∧ y.order = x.order ∧ ∀ a : Sym, x.succ[a] ≠ 0 → y.succ[a] = x.succ[a]

/-! ### Round trips -/

/-- Decoding what was encoded (40_rangecoder.md R121): for any list of intervals, the stream that the encode commands send lets the
decode commands run with no fault, and every `RC_GETFREQ` returns a value in its interval. The stream is used up and nothing is
zero-filled (R122). The premises: no fault is recorded, the encode ends without one, and the host keeps `EOD` raised. -/
def Obligations.CoderRoundTrip : Prop := ∀ (vs : List Interval) (s t d : State) (stream rest : List Byte),
  (∀ v ∈ vs, v.Valid) → s.fault.raised = false → execAll (encodeCommands vs) s = .next t → t.fault.raised = false →
  t.ports.output = s.ports.output ++ stream → d.fault.raised = false → d.ports.eod = true → d.ports.input = stream ++ rest →
  ∃ (e : State) (values : List Nat), execAll (decodeCommands vs) d = .next e ∧ e.fault.raised = false ∧
    values.length = vs.length ∧
    (∀ p ∈ vs.zip values, p.1.start.toNat ≤ p.2 ∧ p.2 < p.1.start.toNat + p.1.size.toNat) ∧
    e.ports.responses = d.ports.responses ++ 0 :: values.flatMap (fun v => [responseWord false 0 (BitVec.ofNat 32 v), 0]) ∧
    e.ports.input = rest ∧ e.events.zfill = false ∧ e.events.cntZfill = 0

/-- Decompressing what was compressed (41_contextmodel.md R168, 70_reset_and_hazards.md R247): with the same configuration, the
responses are the bytes and then the terminator, the stream is used up with nothing zero-filled, and the decoder's arena,
`CTX_COUNT` and `ACTIVE` are the encoder's. The premises: both machines meet the invariant with no fault recorded and an order
configured, the encode ends without a fault, and the host keeps `EOD` raised. -/
def Obligations.ChunkRoundTrip : Prop := ∀ (bytes stream rest : List Byte) (s t d : State),
  s.Inv → d.Inv → s.fault.raised = false → d.fault.raised = false → s.setup = d.setup → s.setup.modelOrder ≠ 0 →
  execAll (compressCommands bytes) s = .next t → t.fault.raised = false → t.ports.output = s.ports.output ++ stream →
  d.ports.eod = true → d.ports.input = stream ++ rest →
  ∃ e : State, execAll (decompressCommands bytes.length) d = .next e ∧ e.fault.raised = false ∧
    e.ports.responses = d.ports.responses ++ [0, 0, 0] ++
      bytes.map (fun b => responseWord false 0 (b.setWidth 32)) ++ [responseWord false 0 256] ∧
    e.ports.input = rest ∧ e.events.zfill = false ∧
    e.model.arena = t.model.arena ∧ e.model.ctxCount = t.model.ctxCount ∧ e.model.active = t.model.active

end
end

