-- ==== Sys2Proof/Laws/State.lean ====
section
/-! SUPPORT. One lemma per group of registers per update of the state: what each update reads and what it leaves alone. -/

namespace Sys2Proof.Machine

@[simp] theorem State.withCoder_coder (f : Coder → Coder) (s : State) : (s.withCoder f).coder = f s.coder := rfl
@[simp] theorem State.withCoder_model (f : Coder → Coder) (s : State) : (s.withCoder f).model = s.model := rfl
@[simp] theorem State.withCoder_setup (f : Coder → Coder) (s : State) : (s.withCoder f).setup = s.setup := rfl
@[simp] theorem State.withCoder_fault (f : Coder → Coder) (s : State) : (s.withCoder f).fault = s.fault := rfl
@[simp] theorem State.withCoder_events (f : Coder → Coder) (s : State) : (s.withCoder f).events = s.events := rfl
@[simp] theorem State.withCoder_ports (f : Coder → Coder) (s : State) : (s.withCoder f).ports = s.ports := rfl

@[simp] theorem State.withModel_coder (f : Model → Model) (s : State) : (s.withModel f).coder = s.coder := rfl
@[simp] theorem State.withModel_model (f : Model → Model) (s : State) : (s.withModel f).model = f s.model := rfl
@[simp] theorem State.withModel_setup (f : Model → Model) (s : State) : (s.withModel f).setup = s.setup := rfl
@[simp] theorem State.withModel_fault (f : Model → Model) (s : State) : (s.withModel f).fault = s.fault := rfl
@[simp] theorem State.withModel_events (f : Model → Model) (s : State) : (s.withModel f).events = s.events := rfl
@[simp] theorem State.withModel_ports (f : Model → Model) (s : State) : (s.withModel f).ports = s.ports := rfl

@[simp] theorem State.withSetup_coder (f : Setup → Setup) (s : State) : (s.withSetup f).coder = s.coder := rfl
@[simp] theorem State.withSetup_model (f : Setup → Setup) (s : State) : (s.withSetup f).model = s.model := rfl
@[simp] theorem State.withSetup_setup (f : Setup → Setup) (s : State) : (s.withSetup f).setup = f s.setup := rfl
@[simp] theorem State.withSetup_fault (f : Setup → Setup) (s : State) : (s.withSetup f).fault = s.fault := rfl
@[simp] theorem State.withSetup_events (f : Setup → Setup) (s : State) : (s.withSetup f).events = s.events := rfl
@[simp] theorem State.withSetup_ports (f : Setup → Setup) (s : State) : (s.withSetup f).ports = s.ports := rfl

@[simp] theorem State.withFault_coder (f : FaultRecord → FaultRecord) (s : State) : (s.withFault f).coder = s.coder := rfl
@[simp] theorem State.withFault_model (f : FaultRecord → FaultRecord) (s : State) : (s.withFault f).model = s.model := rfl
@[simp] theorem State.withFault_setup (f : FaultRecord → FaultRecord) (s : State) : (s.withFault f).setup = s.setup := rfl
@[simp] theorem State.withFault_fault (f : FaultRecord → FaultRecord) (s : State) : (s.withFault f).fault = f s.fault := rfl
@[simp] theorem State.withFault_events (f : FaultRecord → FaultRecord) (s : State) : (s.withFault f).events = s.events := rfl
@[simp] theorem State.withFault_ports (f : FaultRecord → FaultRecord) (s : State) : (s.withFault f).ports = s.ports := rfl

@[simp] theorem State.withEvents_coder (f : Events → Events) (s : State) : (s.withEvents f).coder = s.coder := rfl
@[simp] theorem State.withEvents_model (f : Events → Events) (s : State) : (s.withEvents f).model = s.model := rfl
@[simp] theorem State.withEvents_setup (f : Events → Events) (s : State) : (s.withEvents f).setup = s.setup := rfl
@[simp] theorem State.withEvents_fault (f : Events → Events) (s : State) : (s.withEvents f).fault = s.fault := rfl
@[simp] theorem State.withEvents_events (f : Events → Events) (s : State) : (s.withEvents f).events = f s.events := rfl
@[simp] theorem State.withEvents_ports (f : Events → Events) (s : State) : (s.withEvents f).ports = s.ports := rfl

@[simp] theorem State.withPorts_coder (f : Ports → Ports) (s : State) : (s.withPorts f).coder = s.coder := rfl
@[simp] theorem State.withPorts_model (f : Ports → Ports) (s : State) : (s.withPorts f).model = s.model := rfl
@[simp] theorem State.withPorts_setup (f : Ports → Ports) (s : State) : (s.withPorts f).setup = s.setup := rfl
@[simp] theorem State.withPorts_fault (f : Ports → Ports) (s : State) : (s.withPorts f).fault = s.fault := rfl
@[simp] theorem State.withPorts_events (f : Ports → Ports) (s : State) : (s.withPorts f).events = s.events := rfl
@[simp] theorem State.withPorts_ports (f : Ports → Ports) (s : State) : (s.withPorts f).ports = f s.ports := rfl

/-! ### Ending a command (30_encoding.md R86, 10_state.md R29) -/

@[simp] theorem State.endCommand_coder (w : Word64) (s : State) : (s.endCommand w).coder = s.coder := rfl
@[simp] theorem State.endCommand_model (w : Word64) (s : State) : (s.endCommand w).model = s.model := rfl
@[simp] theorem State.endCommand_setup (w : Word64) (s : State) : (s.endCommand w).setup = s.setup := rfl
@[simp] theorem State.endCommand_fault (w : Word64) (s : State) : (s.endCommand w).fault = s.fault := rfl
@[simp] theorem State.endCommand_events (w : Word64) (s : State) : (s.endCommand w).events = s.events := rfl
@[simp] theorem State.endCommand_ports (w : Word64) (s : State) :
    (s.endCommand w).ports = { s.ports with cmd := none, responses := s.ports.responses ++ [w] } := rfl

@[simp] theorem State.respond_coder (d : Word32) (s : State) : (s.respond d).coder = s.coder := rfl
@[simp] theorem State.respond_model (d : Word32) (s : State) : (s.respond d).model = s.model := rfl
@[simp] theorem State.respond_setup (d : Word32) (s : State) : (s.respond d).setup = s.setup := rfl
@[simp] theorem State.respond_fault (d : Word32) (s : State) : (s.respond d).fault = s.fault := rfl
@[simp] theorem State.respond_events (d : Word32) (s : State) : (s.respond d).events = s.events := rfl
@[simp] theorem State.respond_ports (d : Word32) (s : State) :
    (s.respond d).ports =
      { s.ports with cmd := none, responses := s.ports.responses ++ [responseWord false 0 d] } := rfl

@[simp] theorem State.blocked_coder (s : State) : (s.blocked).coder = s.coder := rfl
@[simp] theorem State.blocked_model (s : State) : (s.blocked).model = s.model := rfl
@[simp] theorem State.blocked_setup (s : State) : (s.blocked).setup = s.setup := rfl
@[simp] theorem State.blocked_fault (s : State) : (s.blocked).fault = s.fault := rfl
@[simp] theorem State.blocked_events (s : State) : (s.blocked).events = s.events := rfl
@[simp] theorem State.blocked_ports (s : State) :
    s.blocked.ports =
      { s.ports with cmd := none, responses := s.ports.responses ++ [responseWord true 8 0] } := rfl

/-! ### Fault entry (60_exceptions.md R204, R208) -/

@[simp] theorem State.faultEntry_coder (e : ErrCode) (opc : OpcodeField) (s : State) :
    (s.faultEntry e opc).coder = s.coder := by
  unfold State.faultEntry; split <;> rfl
@[simp] theorem State.faultEntry_model (e : ErrCode) (opc : OpcodeField) (s : State) :
    (s.faultEntry e opc).model = s.model := by
  unfold State.faultEntry; split <;> rfl
@[simp] theorem State.faultEntry_setup (e : ErrCode) (opc : OpcodeField) (s : State) :
    (s.faultEntry e opc).setup = s.setup := by
  unfold State.faultEntry; split <;> rfl
@[simp] theorem State.faultEntry_events (e : ErrCode) (opc : OpcodeField) (s : State) :
    (s.faultEntry e opc).events = s.events := by
  unfold State.faultEntry; split <;> rfl

@[simp] theorem State.faultEntry_fault (e : ErrCode) (opc : OpcodeField) (s : State) :
    (s.faultEntry e opc).fault =
      if s.fault.raised then s.fault else { raised := true, code := e.number, opc := opc } := by
  unfold State.faultEntry; split <;> simp_all

@[simp] theorem State.faultEntry_ports (e : ErrCode) (opc : OpcodeField) (s : State) :
    (s.faultEntry e opc).ports =
      { s.ports with cmd := none, responses := s.ports.responses ++ [responseWord true e.number 0] } := by
  unfold State.faultEntry; split <;> rfl

/-! ### The two resets (70_reset_and_hazards.md R240, R242) -/

@[simp] theorem State.softReset_coder (s : State) : s.softReset.coder = Coder.reset := rfl
@[simp] theorem State.softReset_model (s : State) : s.softReset.model = Model.reset := rfl
@[simp] theorem State.softReset_setup (s : State) : s.softReset.setup = s.setup := rfl
@[simp] theorem State.softReset_fault (s : State) : s.softReset.fault = FaultRecord.reset := rfl
@[simp] theorem State.softReset_events (s : State) : s.softReset.events = Events.reset := rfl
@[simp] theorem State.softReset_ports (s : State) : s.softReset.ports = s.ports := rfl

@[simp] theorem State.hardReset_coder (s : State) : s.hardReset.coder = Coder.reset := rfl
@[simp] theorem State.hardReset_model (s : State) : s.hardReset.model = Model.reset := rfl
@[simp] theorem State.hardReset_setup (s : State) : s.hardReset.setup = Setup.reset := rfl
@[simp] theorem State.hardReset_fault (s : State) : s.hardReset.fault = FaultRecord.reset := rfl
@[simp] theorem State.hardReset_events (s : State) : s.hardReset.events = Events.reset := rfl
@[simp] theorem State.hardReset_ports (s : State) : s.hardReset.ports = { s.ports with cmd := none } := rfl

/-! ### Sending a byte (10_state.md R28, 40_rangecoder.md R102) -/

@[simp] theorem State.writeOut_coder (b : Byte) (s : State) : (s.writeOut b).coder = s.coder := rfl
@[simp] theorem State.writeOut_model (b : Byte) (s : State) : (s.writeOut b).model = s.model := rfl
@[simp] theorem State.writeOut_setup (b : Byte) (s : State) : (s.writeOut b).setup = s.setup := rfl
@[simp] theorem State.writeOut_fault (b : Byte) (s : State) : (s.writeOut b).fault = s.fault := rfl
@[simp] theorem State.writeOut_events (b : Byte) (s : State) :
    (s.writeOut b).events = { s.events with cntOut := s.events.cntOut + 1 } := rfl
@[simp] theorem State.writeOut_ports (b : Byte) (s : State) :
    (s.writeOut b).ports = { s.ports with output := s.ports.output ++ [b] } := rfl

@[simp] theorem State.emit_model (b : Byte) (s : State) : (s.emit b).model = s.model := by
  unfold State.emit; split <;> rfl
@[simp] theorem State.emit_setup (b : Byte) (s : State) : (s.emit b).setup = s.setup := by
  unfold State.emit; split <;> rfl
@[simp] theorem State.emit_fault (b : Byte) (s : State) : (s.emit b).fault = s.fault := by
  unfold State.emit; split <;> rfl

@[simp] theorem State.emit_coder (b : Byte) (s : State) : (s.emit b).coder = { s.coder with drop := false } := by
  unfold State.emit
  split
  · rfl
  · rename_i h
    simp only [Bool.not_eq_true] at h
    simp [← h]

/-- `Emit` sends the byte and counts it, unless it is the dummy (40_rangecoder.md R102). -/
theorem State.emit_sent (b : Byte) (s : State) :
    (s.emit b).ports = { s.ports with output := s.ports.output ++ if s.coder.drop then [] else [b] } ∧
    (s.emit b).events =
      { s.events with cntOut := s.events.cntOut + if s.coder.drop then 0 else 1 } := by
  unfold State.emit; split <;> simp_all

end Sys2Proof.Machine
end

