-- ==== Sys2Proof/Laws/Act.lean ====
section
/-! SUPPORT. How a command's actions compose: one equation per construct of the pseudocode, and what a composed action that
completes has done. -/

namespace Sys2Proof.Machine

variable {α β : Type}

/-! ### Composition -/

theorem act_ite (p : Prop) [Decidable p] (x y : Act α) (s : State) :
    (if p then x else y).run s = if p then x.run s else y.run s := by split <;> rfl

/-- A composed action completes exactly when both parts do. -/
theorem act_bind_ok {x : Act α} {f : α → Act β} {s t : State} {b : β} :
    (x >>= f).run s = .ok b t ↔ ∃ a u, x.run s = .ok a u ∧ (f a).run u = .ok b t := by
  rw [EStateM.run_bind]
  cases x.run s <;> simp

/-- A composed action stops where its first part stops, or where its second does after the first completed. -/
theorem act_bind_error {x : Act α} {f : α → Act β} {s t : State} {e : Stop} :
    (x >>= f).run s = .error e t ↔ x.run s = .error e t ∨ ∃ a u, x.run s = .ok a u ∧ (f a).run u = .error e t := by
  rw [EStateM.run_bind]
  cases x.run s <;> simp

/-- A composed action whose first part completes goes on with the second. -/
theorem act_bind_of_ok {x : Act α} {f : α → Act β} {s u : State} {a : α} (h : x.run s = .ok a u) :
    (x >>= f).run s = (f a).run u := by
  rw [EStateM.run_bind, h]

/-- A composed action whose first part stops stops there. -/
theorem act_bind_of_error {x : Act α} {f : α → Act β} {s u : State} {e : Stop} (h : x.run s = .error e u) :
    (x >>= f).run s = .error e u := by
  rw [EStateM.run_bind, h]

/-- The state a result carries, whether the action completed or stopped. -/
def resultState : EStateM.Result Stop State α → State
  | .ok _ t => t
  | .error _ t => t

/-- An action keeps `R` from a state to the one it leaves, whether it completes or stops. -/
def Act.Keeps (R : State → State → Prop) (x : Act α) : Prop := ∀ s, R s (resultState (x.run s))

/-- Composition of actions that keep a transitive relation. -/
theorem Act.Keeps.bind {R : State → State → Prop} (trans : ∀ a b c, R a b → R b c → R a c)
    {x : Act α} {f : α → Act β} (hx : x.Keeps R) (hf : ∀ a, (f a).Keeps R) : Act.Keeps R (x >>= f) := by
  intro s
  have h := hx s
  cases e : x.run s with
  | ok a u =>
    rw [act_bind_of_ok e]
    rw [e] at h
    exact trans _ _ _ h (hf a u)
  | error x u =>
    rw [act_bind_of_error e]
    rw [e] at h
    exact h

/-! ### Checks (60_exceptions.md R203) -/

@[simp] theorem check_true (e : ErrCode) (s : State) : (check e true).run s = .ok () s := rfl

@[simp] theorem check_false (e : ErrCode) (s : State) : (check e false).run s = .error (.raise e) s := rfl

/-- A check either passes and changes nothing, or raises its error and changes nothing. -/
theorem check_run (e : ErrCode) (ok : Bool) (s : State) :
    (check e ok).run s = if ok then .ok () s else .error (.raise e) s := by
  cases ok <;> rfl

/-! ### How a command ends (60_exceptions.md R205, 00_scope.md R14) -/

/-- A command body that completes ends in its response. -/
theorem runCommand_ok {opc : OpcodeField} {body : Act Word32} {s t : State} {d : Word32}
    (h : body.run s = .ok d t) : runCommand opc body s = .next (t.respond d) := by simp [runCommand, h]

/-- A command body that raises ends in fault entry; the writes before the raise stand. -/
theorem runCommand_raise {opc : OpcodeField} {body : Act Word32} {s t : State} {e : ErrCode}
    (h : body.run s = .error (.raise e) t) : runCommand opc body s = .next (t.faultEntry e opc) := by simp [runCommand, h]

/-- A command body that holds commits nothing. -/
theorem runCommand_hold {opc : OpcodeField} {body : Act Word32} {s t : State}
    (h : body.run s = .error .hold t) : runCommand opc body s = .next s := by simp [runCommand, h]

/-- A stop of the model is a stop of the command. -/
theorem runCommand_fault {opc : OpcodeField} {body : Act Word32} {s t : State} {f : Fault}
    (h : body.run s = .error (.fault f) t) : runCommand opc body s = .fault f := by simp [runCommand, h]

/-- All that running a command can do: respond, enter a fault, or hold. -/
theorem runCommand_next {opc : OpcodeField} {body : Act Word32} {s t : State}
    (h : runCommand opc body s = .next t) :
    (∃ d u, body.run s = .ok d u ∧ t = u.respond d) ∨
    (∃ e u, body.run s = .error (.raise e) u ∧ t = u.faultEntry e opc) ∨
    (∃ u, body.run s = .error .hold u ∧ t = s) := by
  unfold runCommand at h
  split at h
  · rename_i d u e; exact .inl ⟨d, u, e, by simpa using h.symm⟩
  · rename_i x u e; exact .inr (.inl ⟨x, u, e, by simpa using h.symm⟩)
  · rename_i u e; exact .inr (.inr ⟨u, e, by simpa using h.symm⟩)
  · cases h

/-- A command never refuses. -/
theorem runCommand_not_refused (opc : OpcodeField) (body : Act Word32) (s : State) (r : Refusal) :
    runCommand opc body s ≠ .refused r := by
  unfold runCommand; split <;> simp

/-- While a fault is recorded a command that can be blocked is (60_exceptions.md R207). -/
theorem runUnlessBlocked_fault {opc : OpcodeField} {body : Act Word32} {s : State} (h : s.fault.raised = true) :
    runUnlessBlocked opc body s = .next s.blocked := by simp [runUnlessBlocked, h]

/-- With no fault recorded it runs. -/
theorem runUnlessBlocked_clear {opc : OpcodeField} {body : Act Word32} {s : State} (h : s.fault.raised = false) :
    runUnlessBlocked opc body s = runCommand opc body s := by simp [runUnlessBlocked, h]

end Sys2Proof.Machine
end

