-- ==== Sys2Proof/Laws/Memory.lean ====
section
/-! SUPPORT. The context arena as a map from indices to records (20_memory.md R66): reads after writes, and the canonical form. -/

namespace Sys2Proof.Machine

@[simp] theorem Memory.read_nil (c : Nat) : Memory.read [] c = none := rfl

theorem Memory.read_cons (a : Nat) (x : Context) (m : Memory) (c : Nat) :
    Memory.read ((a, x) :: m) c = if a = c then some x else Memory.read m c := rfl

/-- Every index listed in a canonical arena is above a bound that is below its first index. -/
theorem Memory.wf_cons {a : Nat} {x : Context} {m : Memory} :
    Memory.wf ((a, x) :: m) = true ↔ (∀ p ∈ m, a < p.1) ∧ Memory.wf m = true := by
  induction m generalizing a x with
  | nil => simp [Memory.wf]
  | cons p rest ih =>
    obtain ⟨b, y⟩ := p
    simp only [Memory.wf, Bool.and_eq_true, decide_eq_true_eq, List.mem_cons, forall_eq_or_imp]
    constructor
    · rintro ⟨hab, hw⟩
      refine ⟨⟨hab, fun q hq => ?_⟩, hw⟩
      have := (ih.mp hw).1 q hq
      omega
    · rintro ⟨⟨hab, _⟩, hw⟩
      exact ⟨hab, hw⟩

/-- An index below every listed one reads as nothing. -/
theorem Memory.read_none_of_lt {m : Memory} {c : Nat} (h : ∀ p ∈ m, c < p.1) : m.read c = none := by
  induction m with
  | nil => rfl
  | cons p rest ih =>
    obtain ⟨a, x⟩ := p
    have ha : c < a := h (a, x) (by simp)
    rw [Memory.read_cons, if_neg (by omega)]
    exact ih fun q hq => h q (by simp [hq])

/-- A read of the index just written gives the record written. -/
@[simp] theorem Memory.read_write_same (m : Memory) (c : Nat) (x : Context) : (m.write c x).read c = some x := by
  induction m with
  | nil => simp [Memory.write, Memory.read_cons]
  | cons p rest ih =>
    obtain ⟨a, y⟩ := p
    unfold Memory.write
    split
    · simp [Memory.read_cons]
    · split
      · simp [Memory.read_cons]
      · rw [Memory.read_cons, if_neg (by omega)]; exact ih

/-- A write leaves every other index alone. -/
theorem Memory.read_write_other (m : Memory) {c d : Nat} (x : Context) (h : d ≠ c) :
    (m.write c x).read d = m.read d := by
  induction m with
  | nil => simp [Memory.write, Memory.read_cons, h.symm]
  | cons p rest ih =>
    obtain ⟨a, y⟩ := p
    unfold Memory.write
    split
    · rw [Memory.read_cons, if_neg (by omega)]
    · split
      · rename_i _ hca
        subst hca
        simp [Memory.read_cons, h.symm]
      · simp only [Memory.read_cons, ih]

theorem Memory.read_write (m : Memory) (c d : Nat) (x : Context) :
    (m.write c x).read d = if d = c then some x else m.read d := by
  split
  · rename_i h; rw [h]; exact m.read_write_same c x
  · rename_i h; exact m.read_write_other x h

theorem Memory.mem_write {m : Memory} {c : Nat} {x : Context} {p : Nat × Context} (h : p ∈ m.write c x) :
    p.1 = c ∨ p ∈ m := by
  induction m with
  | nil => simp [Memory.write] at h; exact .inl (by simp [h])
  | cons q rest ih =>
    obtain ⟨a, y⟩ := q
    unfold Memory.write at h
    split at h
    · simp only [List.mem_cons] at h ⊢
      rcases h with h | h | h
      · exact .inl (by simp [h])
      · exact .inr (.inl h)
      · exact .inr (.inr h)
    · split at h
      · simp only [List.mem_cons] at h ⊢
        rcases h with h | h
        · exact .inl (by simp [h])
        · exact .inr (.inr h)
      · simp only [List.mem_cons] at h ⊢
        rcases h with h | h
        · exact .inr (.inl h)
        · exact (ih h).imp id .inr

/-- A write keeps the canonical form. -/
theorem Memory.write_wf {m : Memory} (h : m.wf = true) (c : Nat) (x : Context) : (m.write c x).wf = true := by
  induction m with
  | nil => rfl
  | cons p rest ih =>
    obtain ⟨a, y⟩ := p
    have hw := Memory.wf_cons.mp h
    unfold Memory.write
    split
    · rename_i hca
      refine Memory.wf_cons.mpr ⟨fun q hq => ?_, h⟩
      rcases List.mem_cons.mp hq with rfl | hq
      · exact hca
      · have := hw.1 q hq; omega
    · split
      · rename_i _ hca
        subst hca
        exact Memory.wf_cons.mpr hw
      · refine Memory.wf_cons.mpr ⟨fun q hq => ?_, ih hw.2⟩
        rcases Memory.mem_write hq with h' | h'
        · omega
        · exact hw.1 q h'

/-- Two canonical arenas that read alike are the same list. -/
theorem Memory.ext_read {m n : Memory} (hm : m.wf = true) (hn : n.wf = true) (h : ∀ c, m.read c = n.read c) : m = n := by
  induction m generalizing n with
  | nil =>
    cases n with
    | nil => rfl
    | cons q n =>
      obtain ⟨b, y⟩ := q
      have := h b
      simp [Memory.read_cons] at this
  | cons p m ih =>
    obtain ⟨a, x⟩ := p
    have ⟨hlt, hm'⟩ := Memory.wf_cons.mp hm
    cases n with
    | nil =>
      have := h a
      simp [Memory.read_cons] at this
    | cons q n =>
      obtain ⟨b, y⟩ := q
      have ⟨hlt', hn'⟩ := Memory.wf_cons.mp hn
      have hab : a = b := by
        rcases Nat.lt_trichotomy a b with hl | he | hg
        · have := h a
          rw [Memory.read_cons, if_pos rfl, Memory.read_none_of_lt] at this
          · cases this
          · intro q hq
            rcases List.mem_cons.mp hq with rfl | hq
            · exact hl
            · have := hlt' q hq; omega
        · exact he
        · have := h b
          rw [Memory.read_cons b y, if_pos rfl, Memory.read_none_of_lt] at this
          · cases this
          · intro q hq
            rcases List.mem_cons.mp hq with rfl | hq
            · exact hg
            · have := hlt q hq; omega
      subst hab
      have hx : x = y := by simpa [Memory.read_cons] using h a
      subst hx
      congr 1
      refine ih hm' hn' fun c => ?_
      have hc := h c
      by_cases hac : a = c
      · subst hac
        rw [Memory.read_none_of_lt hlt, Memory.read_none_of_lt hlt']
      · simpa [Memory.read_cons, hac] using hc

/-- All that reading a record can do: answer the listed record and change nothing, or stop (10_state.md R43). -/
theorem readCtx_run (c : Nat) (s : State) :
    (readCtx c).run s = match s.model.arena.read c with
      | some x => .ok x s
      | none => .error (.fault .unallocatedContext) s := by
  simp only [readCtx, EStateM.run_bind, EStateM.run_get]
  cases s.model.arena.read c <;> rfl

@[simp] theorem readCtx_some {c : Nat} {s : State} {x : Context} (h : s.model.arena.read c = some x) :
    (readCtx c).run s = .ok x s := by simp [readCtx_run, h]

@[simp] theorem writeCtx_run (c : Nat) (x : Context) (s : State) :
    (writeCtx c x).run s = .ok () (s.withModel fun m => { m with arena := m.arena.write c x }) := rfl

@[simp] theorem setActive_run (c : CtxIndex) (s : State) :
    (setActive c).run s = .ok () (s.withModel fun m => { m with active := c }) := rfl

end Sys2Proof.Machine
end

