-- ==== Sys2Proof/Laws/Coder.lean ====
section
/-! SUPPORT. What the range coder's primitives do, one lemma each (40_rangecoder.md R102 to R108): the provers cite these instead
of unfolding the primitives. -/

namespace Sys2Proof.Machine

/-! ### The bits of LOW (40_rangecoder.md R103) -/

/-- The carry is bit 32 of `LOW`. -/
theorem carry_toNat (x : BitVec 33) : ((x.extractLsb' 32 1).setWidth 8).toNat = x.toNat / 2 ^ 32 := by
  have := x.isLt
  simp only [BitVec.toNat_setWidth, BitVec.extractLsb'_toNat, Nat.shiftRight_eq_div_pow]
  omega

theorem carryBit_iff (x : BitVec 33) : x.getLsbD 32 = true ↔ 2 ^ 32 ≤ x.toNat := by
  have := x.isLt
  rw [BitVec.getLsbD, Nat.testBit, Nat.shiftRight_eq_div_pow, Nat.one_and_eq_mod_two]
  simp only [bne_iff_ne, ne_eq]
  omega

/-- The byte shifted out is `LOW[31:24]`. -/
theorem topByte_toNat (x : BitVec 33) : (x.extractLsb' 24 8).toNat = x.toNat / 2 ^ 24 % 256 := by
  simp [Nat.shiftRight_eq_div_pow]

theorem lowWord_toNat (x : BitVec 33) : (x.extractLsb' 0 32).toNat = x.toNat % 2 ^ 32 := by
  simp

/-- `LOW <- LOW[23:0] ++ 0x00` is `(LOW mod 2^24) * 256`. -/
theorem shiftedLow_toNat (x : BitVec 33) :
    (0#1 ++ x.extractLsb' 0 24 ++ 0#8 : BitVec 33).toNat = x.toNat % 2 ^ 24 * 256 := by
  simp only [BitVec.toNat_append, BitVec.extractLsb'_toNat, Nat.shiftRight_eq_div_pow, BitVec.toNat_ofNat,
    Nat.shiftLeft_eq]
  rw [Nat.or_zero]
  norm_num

/-! ### Sending the held-back run -/

theorem State.emitTimes_rest (b : Byte) (n : Nat) (s : State) :
    (s.emitTimes b n).model = s.model ∧ (s.emitTimes b n).setup = s.setup ∧ (s.emitTimes b n).fault = s.fault := by
  induction n generalizing s with
  | zero => exact ⟨rfl, rfl, rfl⟩
  | succ n ih => simpa [State.emitTimes] using ih (s.emit b)

/-- Once the dummy is gone, `Emit` repeated sends every byte. -/
theorem State.emitTimes_sent (b : Byte) (n : Nat) {s : State} (h : s.coder.drop = false) :
    (s.emitTimes b n).coder = s.coder ∧
    (s.emitTimes b n).ports = { s.ports with output := s.ports.output ++ List.replicate n b } ∧
    (s.emitTimes b n).events = { s.events with cntOut := s.events.cntOut + BitVec.ofNat 32 n } := by
  induction n generalizing s with
  | zero => simp [State.emitTimes]
  | succ n ih =>
    have he := State.emit_sent b s
    simp only [h, Bool.false_eq_true, if_false] at he
    have hc : (s.emit b).coder = s.coder := by rw [State.emit_coder, ← h]
    obtain ⟨h1, h2, h3⟩ := ih (s := s.emit b) (by rw [hc, h])
    refine ⟨by rw [State.emitTimes, h1, hc], ?_, ?_⟩
    · rw [State.emitTimes, h2, he.1]
      simp [List.replicate_succ]
    · rw [State.emitTimes, h3, he.2]
      simp only [BitVec.add_assoc]
      congr 2
      rw [Nat.add_comm n 1, BitVec.ofNat_add]
      rfl

/-- The bytes that leave when the held-back run is settled: the cached byte plus the carry, unless it is the dummy, and every
buffered `0xFF` plus the carry (40_rangecoder.md R101, R103). -/
def Coder.runBytes (c : Coder) : List Byte :=
  (if c.drop then [] else [c.cache + (c.low.extractLsb' 32 1).setWidth 8]) ++
    List.replicate c.buffered (0xFF + (c.low.extractLsb' 32 1).setWidth 8)

/-- All that releasing the run does. -/
theorem State.releaseRun_spec (s : State) :
    s.releaseRun.coder = { s.coder with drop := false, cacheSize := 0, cache := s.coder.low.extractLsb' 24 8 } ∧
    s.releaseRun.model = s.model ∧ s.releaseRun.setup = s.setup ∧ s.releaseRun.fault = s.fault ∧
    s.releaseRun.ports = { s.ports with output := s.ports.output ++ s.coder.runBytes } ∧
    s.releaseRun.events =
      { s.events with cntOut := s.events.cntOut + BitVec.ofNat 32 s.coder.runBytes.length } := by
  have hd : ∀ b, (s.emit b).coder.drop = false := fun b => by simp
  have ht := fun b c n => State.emitTimes_sent c n (hd b)
  have hr := fun b c n => State.emitTimes_rest c n (s.emit b)
  have he := fun b => State.emit_sent b s
  refine ⟨?_, ?_, ?_, ?_, ?_, ?_⟩
  · simp [State.releaseRun, ht]
  · simp [State.releaseRun, hr]
  · simp [State.releaseRun, hr]
  · simp [State.releaseRun, hr]
  · simp [State.releaseRun, ht, he, Coder.runBytes, Coder.buffered]
  · simp only [State.releaseRun, State.withCoder_events, ht, he, Coder.runBytes, Coder.buffered]
    cases s.coder.drop
    · simp [BitVec.add_assoc, Nat.add_comm, BitVec.ofNat_add]
    · simp

/-! ### ShiftLow (40_rangecoder.md R103) -/

/-- The last two assignments of `ShiftLow`. -/
def Coder.pushByte (c : Coder) : Coder :=
  { c with cacheSize := c.cacheSize + 1, low := 0#1 ++ c.low.extractLsb' 0 24 ++ 0#8 }

/-- What a `ShiftLow` that completes leaves. -/
def State.shifted (s : State) : State :=
  (if s.coder.runSettled then s.releaseRun else s).withCoder Coder.pushByte

/-- All that `ShiftLow` can do: shift, or raise `E_OVF` and change nothing. -/
theorem shiftLow_run (s : State) :
    shiftLow.run s =
      if s.coder.runSettled = true ∨ s.coder.cacheSize ≠ 0xFFFFFFFF then .ok () s.shifted
      else .error (.raise .ovf) s := by
  have hs := (State.releaseRun_spec s).1
  unfold shiftLow State.shifted
  by_cases h : s.coder.runSettled = true
  · simp only [EStateM.run_bind, EStateM.run_modify, EStateM.run_get, h, if_true, true_or, hs]
    rfl
  · simp only [Bool.not_eq_true] at h
    simp only [EStateM.run_bind, EStateM.run_modify, EStateM.run_get, h, Bool.false_eq_true, if_false, false_or,
      check_run]
    by_cases h' : s.coder.cacheSize = 0xFFFFFFFF
    · simp [h']
    · have hb : (s.coder.cacheSize != 0xFFFFFFFF) = true := by simpa using h'
      rw [hb, if_pos rfl, if_pos h']
      rfl

theorem Coder.runSettled_iff (c : Coder) :
    c.runSettled = true ↔ c.low.toNat % 2 ^ 32 < 0xFF000000 ∨ 2 ^ 32 ≤ c.low.toNat := by
  rw [Coder.runSettled, Bool.or_eq_true, decide_eq_true_eq, lowWord_toNat, carryBit_iff]

/-! ### The encode primitives leave everything else alone -/

theorem EncodeFrame.refl (s : State) : EncodeFrame s s := by
  constructor <;> first | rfl | exact ⟨[], by simp⟩

theorem EncodeFrame.trans (a b c : State) (h : EncodeFrame a b) (k : EncodeFrame b c) : EncodeFrame a c := by
  obtain ⟨sent, ho, hn⟩ := h.output
  obtain ⟨sent', ho', hn'⟩ := k.output
  exact {
    mode := k.mode.trans h.mode, code := k.code.trans h.code, dpend := k.dpend.trans h.dpend, dtot := k.dtot.trans h.dtot
    model := k.model.trans h.model, setup := k.setup.trans h.setup, fault := k.fault.trans h.fault
    zfill := k.zfill.trans h.zfill, cntIn := k.cntIn.trans h.cntIn, cntZfill := k.cntZfill.trans h.cntZfill
    cntSym := k.cntSym.trans h.cntSym, cmd := k.cmd.trans h.cmd, input := k.input.trans h.input, eod := k.eod.trans h.eod
    responses := k.responses.trans h.responses, host := k.host.trans h.host
    output := ⟨sent ++ sent', by rw [ho', ho, List.append_assoc],
      by rw [hn', hn, List.length_append, BitVec.ofNat_add, BitVec.add_assoc]⟩ }

theorem State.shifted_frame (s : State) : EncodeFrame s s.shifted := by
  unfold State.shifted
  split
  · obtain ⟨hc, hm, hu, hf, hp, he⟩ := State.releaseRun_spec s
    constructor <;>
      simp [hc, hm, hu, hf, hp, he, Coder.pushByte]
  · constructor <;> first | rfl | exact ⟨[], by simp⟩

theorem shiftLow_frame : shiftLow.Keeps EncodeFrame := by
  intro s
  rw [shiftLow_run]
  split
  · exact s.shifted_frame
  · exact EncodeFrame.refl s

theorem shiftLowTimes_frame (n : Nat) : (shiftLowTimes n).Keeps EncodeFrame := by
  induction n with
  | zero => exact fun s => EncodeFrame.refl s
  | succ n ih => exact Act.Keeps.bind EncodeFrame.trans shiftLow_frame fun _ => ih

theorem withCoder_encodeFrame {f : Coder → Coder}
    (hf : ∀ c, (f c).mode = c.mode ∧ (f c).code = c.code ∧ (f c).dpend = c.dpend ∧ (f c).dtot = c.dtot) :
    Act.Keeps EncodeFrame (modify (State.withCoder f) : Act PUnit) := by
  intro s
  simp only [EStateM.run_modify, resultState]
  obtain ⟨h1, h2, h3, h4⟩ := hf s.coder
  constructor <;> simp [h1, h2, h3, h4]

/-- One round of the encode-side loop (40_rangecoder.md R104). -/
theorem encNormalizeLoop_succ (n : Nat) (s : State) :
    (encNormalizeLoop (n + 1)).run s =
      if s.coder.range.toNat < Config.thresh then
        (do modify (State.withCoder Coder.widenRange); shiftLow; encNormalizeLoop n : Act Unit).run s
      else .ok () s := by
  simp only [encNormalizeLoop, EStateM.run_bind, EStateM.run_get, act_ite]
  split <;> rfl

theorem encNormalizeLoop_zero (s : State) :
    (encNormalizeLoop 0).run s =
      if s.coder.range.toNat < Config.thresh then .error (.fault .endlessNormalisation) s else .ok () s := by
  simp only [encNormalizeLoop, EStateM.run_bind, EStateM.run_get, act_ite]
  split <;> rfl

theorem encNormalizeLoop_frame (n : Nat) : (encNormalizeLoop n).Keeps EncodeFrame := by
  induction n with
  | zero =>
    intro s
    rw [encNormalizeLoop_zero]
    split <;> exact EncodeFrame.refl s
  | succ n ih =>
    intro s
    rw [encNormalizeLoop_succ]
    split
    · exact Act.Keeps.bind EncodeFrame.trans (withCoder_encodeFrame (f := Coder.widenRange) fun _ => ⟨rfl, rfl, rfl, rfl⟩)
        (fun _ => Act.Keeps.bind EncodeFrame.trans shiftLow_frame fun _ => ih) s
    · exact EncodeFrame.refl s

/-- `rc_encode` writes only what the encode primitives write (40_rangecoder.md R105, R115). -/
theorem rcEncode_frame (start size total : Nat) : (rcEncode start size total).Keeps EncodeFrame :=
  Act.Keeps.bind EncodeFrame.trans (withCoder_encodeFrame fun _ => ⟨rfl, rfl, rfl, rfl⟩)
    fun _ => encNormalizeLoop_frame 3

end Sys2Proof.Machine
end

