-- ==== Sys2Proof/Laws/Carry.lean ====
section
/-! SUPPORT. The arithmetic of the carry cache: what a `ShiftLow` does to the number the bytes spell and to the carry bounds
(40_rangecoder.md R101, R103, R117, R118). -/

namespace Sys2Proof.Machine

/-! ### Numbers that bytes spell (20_memory.md R62) -/

theorem bytesNumber_foldl (bs : List Byte) (n : Nat) :
    bs.foldl (fun n b => n * 256 + b.toNat) n = n * 256 ^ bs.length + bytesNumber bs := by
  induction bs generalizing n with
  | nil => simp [bytesNumber]
  | cons b bs ih =>
    have hb : bytesNumber (b :: bs) = b.toNat * 256 ^ bs.length + bytesNumber bs := by
      rw [bytesNumber, List.foldl_cons, ih]
      simp
    rw [List.foldl_cons, ih, hb, List.length_cons, Nat.pow_succ]
    ring

@[simp] theorem bytesNumber_nil : bytesNumber [] = 0 := rfl

theorem bytesNumber_append (a b : List Byte) :
    bytesNumber (a ++ b) = bytesNumber a * 256 ^ b.length + bytesNumber b := by
  rw [bytesNumber, List.foldl_append, bytesNumber_foldl]
  rfl

@[simp] theorem bytesNumber_singleton (b : Byte) : bytesNumber [b] = b.toNat := by simp [bytesNumber]

theorem bytesNumber_replicate_ff (n : Nat) : bytesNumber (List.replicate n 0xFF) = 256 ^ n - 1 := by
  induction n with
  | zero => rfl
  | succ n ih =>
    have : 0 < 256 ^ n := by positivity
    rw [List.replicate_succ', bytesNumber_append, ih, bytesNumber_singleton, Nat.pow_succ]
    simp only [List.length_singleton, Nat.pow_one, BitVec.ofNat_eq_ofNat, BitVec.toNat_ofNat]
    omega

theorem bytesNumber_replicate_zero (n : Nat) : bytesNumber (List.replicate n 0) = 0 := by
  induction n with
  | zero => rfl
  | succ n ih =>
    rw [List.replicate_succ', bytesNumber_append, ih, bytesNumber_singleton]
    simp

theorem bytesNumber_lt (bs : List Byte) : bytesNumber bs < 256 ^ bs.length := by
  induction bs with
  | nil => simp
  | cons b bs ih =>
    have hb := b.isLt
    rw [show b :: bs = [b] ++ bs from rfl, bytesNumber_append, bytesNumber_singleton]
    simp only [List.length_append, List.length_singleton]
    calc b.toNat * 256 ^ bs.length + bytesNumber bs
        < (b.toNat + 1) * 256 ^ bs.length := by rw [Nat.add_mul]; omega
      _ ≤ 256 * 256 ^ bs.length := Nat.mul_le_mul_right _ hb
      _ = 256 ^ (1 + bs.length) := by rw [Nat.add_comm, Nat.pow_succ]; ring

/-! ### The run that a `ShiftLow` settles -/

/-- What keeps a carry inside the cache: it meets a cached byte below `0xFF` that is not the dummy, and the dummy is 0
(40_rangecoder.md R118). -/
structure Coder.CarryFits (c : Coder) : Prop where
  held_pos : 1 ≤ c.cacheSize.toNat
  carry_fits : 2 ^ 32 ≤ c.low.toNat → c.cache.toNat < 255 ∧ c.drop = false
  dummy_zero : c.drop = true → c.cache = 0

/-- The carry bounds of R117 and R118 keep a carry inside the cache, as long as the interval is not empty. -/
theorem Coder.CarrySafe.fits {c : Coder} (h : c.CarrySafe) (hr : 1 ≤ c.range.toNat) : c.CarryFits := by
  refine ⟨h.held_pos, fun hc => ?_, fun hd => (h.dummy hd).1⟩
  have hdrop : c.drop = false := by
    by_contra hd
    have := (h.dummy (by simpa using hd)).2
    omega
  refine ⟨?_, hdrop⟩
  have hs := h.sent hdrop
  have hk : 0 < 256 ^ c.buffered := by positivity
  have e : 256 ^ (c.buffered + 1) = 256 ^ c.buffered * 256 := pow_succ _ _
  rw [Coder.heldNumber, e] at hs
  generalize 256 ^ c.buffered = k at hs hk
  by_contra hlt
  have h255 : 255 * k ≤ c.cache.toNat * k := Nat.mul_le_mul_right _ (by omega)
  generalize c.cache.toNat * k = m at hs h255
  omega

theorem Coder.pushByte_buffered {c : Coder} (hp : 1 ≤ c.cacheSize.toNat) (hn : c.cacheSize ≠ 0xFFFFFFFF) :
    c.pushByte.buffered = c.buffered + 1 := by
  have hne : c.cacheSize.toNat ≠ 0xFFFFFFFF := fun h => hn (BitVec.eq_of_toNat_eq h)
  have := c.cacheSize.isLt
  simp only [Coder.buffered, Coder.pushByte, BitVec.toNat_add, BitVec.ofNat_eq_ofNat, BitVec.toNat_ofNat]
  omega

/-- The bytes of a settled run spell the held number, plus the carry. -/
theorem Coder.runBytes_number {c : Coder} (h : c.CarryFits) :
    bytesNumber c.runBytes = c.heldNumber + c.low.toNat / 2 ^ 32 := by
  have hk : 0 < 256 ^ c.buffered := by positivity
  have hl := c.low.isLt
  have hcarry := carry_toNat c.low
  rw [Coder.runBytes, Coder.heldNumber]
  by_cases hc : 2 ^ 32 ≤ c.low.toNat
  · obtain ⟨h255, hd⟩ := h.carry_fits hc
    have h1 : c.low.toNat / 2 ^ 32 = 1 := by omega
    have hb : (c.low.extractLsb' 32 1).setWidth 8 = (1 : Byte) := BitVec.eq_of_toNat_eq (by rw [hcarry, h1]; rfl)
    have hz : (0xFF + 1 : Byte) = 0 := by decide
    rw [hb, hd, hz, bytesNumber_append, bytesNumber_replicate_zero, h1]
    simp only [Bool.false_eq_true, if_false, bytesNumber_singleton, List.length_replicate, BitVec.toNat_add,
      BitVec.ofNat_eq_ofNat, BitVec.toNat_ofNat]
    rw [Nat.mod_eq_of_lt (by omega)]
    have : (c.cache.toNat + 1 % 2 ^ 8) * 256 ^ c.buffered = c.cache.toNat * 256 ^ c.buffered + 256 ^ c.buffered := by
      ring
    omega
  · have h0 : c.low.toNat / 2 ^ 32 = 0 := by omega
    have hb : (c.low.extractLsb' 32 1).setWidth 8 = (0 : Byte) := BitVec.eq_of_toNat_eq (by rw [hcarry, h0]; rfl)
    have hz : (0xFF + 0 : Byte) = 0xFF := by decide
    rw [hb, hz, bytesNumber_append, bytesNumber_replicate_ff, h0]
    cases hd : c.drop
    · simp [bytesNumber]
    · simp [h.dummy_zero hd]

theorem Coder.runBytes_length (c : Coder) : c.runBytes.length = c.heldBytes := by
  rw [Coder.runBytes, Coder.heldBytes]
  cases c.drop <;> simp [Nat.add_comm]

/-- The dummy is not part of the number: the held bytes that will be sent spell it. -/
theorem Coder.heldNumber_lt {c : Coder} (h : c.CarryFits) : c.heldNumber < 256 ^ c.heldBytes := by
  have hk : 0 < 256 ^ c.buffered := by positivity
  have hb := c.cache.isLt
  rw [Coder.heldNumber, Coder.heldBytes]
  cases hd : c.drop
  · have : c.cache.toNat * 256 ^ c.buffered ≤ 255 * 256 ^ c.buffered := Nat.mul_le_mul_right _ (by omega)
    simp only [Bool.false_eq_true, if_false, Nat.pow_succ]
    omega
  · simp [h.dummy_zero hd]

/-! ### One `ShiftLow` -/

/-- A `ShiftLow` that completes multiplies the number of all the bytes by 256: it moves the top byte of `LOW` behind the
held-back bytes and loses nothing, the carry included (40_rangecoder.md R101, R103). -/
theorem State.shifted_codeNumber {s : State} (h : s.coder.CarryFits)
    (hok : s.coder.runSettled = true ∨ s.coder.cacheSize ≠ 0xFFFFFFFF) :
    s.shifted.codeNumber = s.codeNumber * 256 := by
  have hl := s.coder.low.isLt
  have hsl := shiftedLow_toNat s.coder.low
  unfold State.shifted
  by_cases hset : s.coder.runSettled = true
  · obtain ⟨hc, -, -, -, hp, -⟩ := State.releaseRun_spec s
    have hnum := Coder.runBytes_number h
    have hlen := Coder.runBytes_length s.coder
    have htop := topByte_toNat s.coder.low
    simp only [hset, if_true, State.codeNumber, State.withCoder_coder, State.withCoder_ports, hc, hp, Coder.pushByte,
      Coder.heldBytes, Coder.heldNumber, Coder.buffered, hsl, htop, bytesNumber_append, hnum, hlen]
    have e1 : (0 + 1 : Word32).toNat - 1 = 0 := rfl
    simp only [e1, Bool.false_eq_true, if_false, Nat.pow_zero, Nat.zero_add, Nat.pow_one, Nat.mul_one, Nat.sub_self,
      Nat.add_zero]
    generalize bytesNumber s.ports.output * 256 ^ _ = a
    generalize s.coder.cache.toNat * 256 ^ _ = b
    generalize 256 ^ (s.coder.cacheSize.toNat - 1) = k
    omega
  · have hn : s.coder.cacheSize ≠ 0xFFFFFFFF := hok.resolve_left hset
    have hnot := mt (Coder.runSettled_iff s.coder).mpr hset
    have hb := Coder.pushByte_buffered h.held_pos hn
    have hk : 0 < 256 ^ s.coder.buffered := by positivity
    have hh : s.coder.pushByte.heldNumber = s.coder.heldNumber * 256 + 255 := by
      rw [Coder.heldNumber, hb, Coder.heldNumber, Nat.pow_succ]
      have : s.coder.pushByte.cache.toNat * (256 ^ s.coder.buffered * 256)
          = s.coder.cache.toNat * 256 ^ s.coder.buffered * 256 := by rw [Coder.pushByte]; ring
      omega
    have hbytes : s.coder.pushByte.heldBytes = s.coder.heldBytes + 1 := by
      rw [Coder.heldBytes, hb, Coder.heldBytes]
      rw [show s.coder.pushByte.drop = s.coder.drop from rfl]
      omega
    have hlow : s.coder.pushByte.low.toNat = s.coder.low.toNat % 2 ^ 24 * 256 := hsl
    rw [if_neg hset, State.codeNumber, State.withCoder_coder, State.withCoder_ports, hh, hbytes, hlow, State.codeNumber,
      Nat.pow_succ]
    have e : bytesNumber s.ports.output * (256 ^ s.coder.heldBytes * 256)
        = bytesNumber s.ports.output * 256 ^ s.coder.heldBytes * 256 := by ring
    rw [e]
    generalize bytesNumber s.ports.output * 256 ^ s.coder.heldBytes = a
    omega

/-- A round of the encode-side loop keeps the carry bounds (40_rangecoder.md R117, R118). -/
theorem Coder.CarrySafe.normalized {s : State} (h : s.coder.CarrySafe) (hr : s.coder.range.toNat < Config.thresh)
    (hok : s.coder.runSettled = true ∨ s.coder.cacheSize ≠ 0xFFFFFFFF) :
    (s.withCoder Coder.widenRange).shifted.coder.CarrySafe := by
  have hl := s.coder.low.isLt
  have hsl := shiftedLow_toNat s.coder.low
  have hrange : (s.coder.range <<< 8).toNat = s.coder.range.toNat * 256 := by
    rw [BitVec.toNat_shiftLeft, Nat.shiftLeft_eq]
    simp only [Config.thresh] at hr
    omega
  simp only [Config.thresh] at hr
  have hlr := h.low_range
  by_cases hset : s.coder.runSettled = true
  · have hset' : (s.withCoder Coder.widenRange).coder.runSettled = true := hset
    obtain ⟨hc, -⟩ := State.releaseRun_spec (s.withCoder Coder.widenRange)
    have hse := (Coder.runSettled_iff s.coder).mp hset
    have hx : s.coder.low.toNat % 2 ^ 32 + s.coder.range.toNat ≤ 2 ^ 32 := by omega
    have htop := topByte_toNat s.coder.low
    have e : (s.withCoder Coder.widenRange).shifted.coder
        = { s.coder with range := s.coder.range <<< 8, drop := false, cacheSize := 1
                         cache := s.coder.low.extractLsb' 24 8
                         low := 0#1 ++ s.coder.low.extractLsb' 0 24 ++ 0#8 } := by
      rw [State.shifted, if_pos hset', State.withCoder_coder, hc]
      rfl
    rw [e]
    constructor
    · show 1 ≤ (1 : Word32).toNat
      decide
    · simp only [hsl, hrange]
      omega
    · intro _
      have e1 : (1 : Word32).toNat - 1 = 0 := rfl
      simp only [Coder.heldNumber, Coder.buffered, hsl, hrange, htop, e1, Nat.pow_zero]
      omega
    · intro hd
      cases hd
  · have hn : s.coder.cacheSize ≠ 0xFFFFFFFF := hok.resolve_left hset
    have hnot := mt (Coder.runSettled_iff s.coder).mpr hset
    have hset' : ¬ (s.withCoder Coder.widenRange).coder.runSettled = true := hset
    have hne : s.coder.cacheSize.toNat ≠ 0xFFFFFFFF := fun h => hn (BitVec.eq_of_toNat_eq h)
    have hcs := s.coder.cacheSize.isLt
    have hp := h.held_pos
    have hb := Coder.pushByte_buffered hp hn
    have e : (s.withCoder Coder.widenRange).shifted.coder
        = { s.coder.pushByte with range := s.coder.range <<< 8 } := by
      rw [State.shifted, if_neg hset']
      rfl
    rw [e]
    have hb' : Coder.buffered { s.coder.pushByte with range := s.coder.range <<< 8 } = s.coder.buffered + 1 := hb
    constructor
    · show 1 ≤ (s.coder.cacheSize + 1).toNat
      have e1 : (1 : Word32).toNat = 1 := rfl
      rw [BitVec.toNat_add, e1]
      omega
    · show (0#1 ++ s.coder.low.extractLsb' 0 24 ++ 0#8 : BitVec 33).toNat + (s.coder.range <<< 8).toNat < _
      rw [hsl, hrange]
      omega
    · intro hd
      have hsent := h.sent hd
      have hk : 0 < 256 ^ s.coder.buffered := by positivity
      show Coder.heldNumber _ * 2 ^ 32 + (0#1 ++ s.coder.low.extractLsb' 0 24 ++ 0#8 : BitVec 33).toNat
        + (s.coder.range <<< 8).toNat ≤ _
      rw [Coder.heldNumber, hb', hsl, hrange]
      show (s.coder.cache.toNat * _ + _) * _ + _ + _ ≤ _
      rw [Coder.heldNumber] at hsent
      have e2 : 256 ^ (s.coder.buffered + 1) = 256 ^ s.coder.buffered * 256 := pow_succ _ _
      have e3 : 256 ^ (s.coder.buffered + 1 + 1) = 256 ^ s.coder.buffered * 256 * 256 := by rw [pow_succ, pow_succ]
      rw [e2] at hsent
      rw [e2, e3]
      have e1 : s.coder.cache.toNat * (256 ^ s.coder.buffered * 256)
          = s.coder.cache.toNat * 256 ^ s.coder.buffered * 256 := by ring
      rw [e1]
      generalize s.coder.cache.toNat * 256 ^ s.coder.buffered = a at hsent ⊢
      generalize 256 ^ s.coder.buffered = k at hsent hk ⊢
      clear e e1 e2 e3 hb hb' hrange hsl hne hcs hp hn hset hset' hok
      obtain ⟨x, hx⟩ : ∃ x, s.coder.low.toNat = 0xFF000000 + x := ⟨s.coder.low.toNat - 0xFF000000, by omega⟩
      obtain ⟨k', rfl⟩ : ∃ k', k = k' + 1 := ⟨k - 1, by omega⟩
      have hmod : s.coder.low.toNat % 2 ^ 24 = x := by omega
      rw [hmod]
      rw [hx] at hsent
      generalize s.coder.range.toNat = r at hsent hr ⊢
      have h1 : k' + 1 - 1 = k' := rfl
      have h2 : (k' + 1) * 256 - 1 = k' * 256 + 255 := by omega
      rw [h1] at hsent
      rw [h2]
      linarith only [hsent]
    · intro hd
      obtain ⟨hc0, hle⟩ := h.dummy hd
      refine ⟨hc0, ?_⟩
      show (0#1 ++ s.coder.low.extractLsb' 0 24 ++ 0#8 : BitVec 33).toNat + (s.coder.range <<< 8).toNat ≤ _
      rw [hsl, hrange]
      omega

/-- The narrowing of an encode keeps the carry bounds: `LOW + RANGE` does not grow, and nothing is truncated
(40_rangecoder.md R105, R117, R118, R120). -/
theorem Coder.CarrySafe.narrowed {c : Coder} (h : c.CarrySafe) {start size total : Nat} (hfit : start + size ≤ total) :
    (c.narrow start size total).CarrySafe ∧
    (c.narrow start size total).low.toNat = c.low.toNat + start * (c.range.toNat / total) ∧
    (c.narrow start size total).range.toNat = c.range.toNat / total * size := by
  have hlr := h.low_range
  have hr := c.range.isLt
  have hmul : start * (c.range.toNat / total) + c.range.toNat / total * size ≤ c.range.toNat := by
    calc start * (c.range.toNat / total) + c.range.toNat / total * size
        = (start + size) * (c.range.toNat / total) := by ring
      _ ≤ total * (c.range.toNat / total) := Nat.mul_le_mul_right _ hfit
      _ ≤ c.range.toNat := Nat.mul_div_le _ _
  have hlow : (c.narrow start size total).low.toNat = c.low.toNat + start * (c.range.toNat / total) := by
    simp only [Coder.narrow, BitVec.toNat_ofNat]
    omega
  have hrange : (c.narrow start size total).range.toNat = c.range.toNat / total * size := by
    simp only [Coder.narrow, BitVec.toNat_ofNat]
    omega
  refine ⟨⟨h.held_pos, by omega, fun hd => ?_, fun hd => ?_⟩, hlow, hrange⟩
  · have := h.sent hd
    have e1 : (c.narrow start size total).heldNumber = c.heldNumber := rfl
    have e2 : (c.narrow start size total).buffered = c.buffered := rfl
    rw [hlow, hrange, e1, e2]
    omega
  · have := h.dummy hd
    refine ⟨this.1, ?_⟩
    omega

end Sys2Proof.Machine
end

