-- ==== Sys2Proof/Laws/Encode.lean ====
section
/-! SUPPORT. What a whole normalisation, a whole `rc_encode` and a whole flush do (40_rangecoder.md R104, R105, R111). -/

namespace Sys2Proof.Machine

/-! ### States by their parts -/

/-- Two states with the same parts are the same. -/
theorem State.eq_of_parts {s t : State} (hc : s.coder = t.coder) (hm : s.model = t.model) (hu : s.setup = t.setup)
    (hf : s.fault = t.fault) (he : s.events = t.events) (hp : s.ports = t.ports) : s = t := by
  cases s; cases t; simp_all

/-! ### The shifts of `LOW` do not read `RANGE` (40_rangecoder.md R104) -/

/-- Only `RANGE` changes. -/
def Coder.setRange (r : Word32) (c : Coder) : Coder := { c with range := r }

theorem State.setRange_setRange (s : State) (q r : Word32) :
    (s.withCoder (Coder.setRange q)).withCoder (Coder.setRange r) = s.withCoder (Coder.setRange r) := rfl

theorem State.setRange_same (s : State) : s.withCoder (Coder.setRange s.coder.range) = s := rfl

theorem State.setRange_codeNumber (s : State) (r : Word32) : (s.withCoder (Coder.setRange r)).codeNumber = s.codeNumber := rfl

theorem State.widenRange_eq (s : State) :
    s.withCoder Coder.widenRange = s.withCoder (Coder.setRange (s.coder.range <<< 8)) := rfl

theorem State.shifted_setRange (s : State) (r : Word32) :
    (s.withCoder (Coder.setRange r)).shifted = s.shifted.withCoder (Coder.setRange r) := by
  have h1 := State.releaseRun_spec s
  have h2 := State.releaseRun_spec (s.withCoder (Coder.setRange r))
  have hset : (s.withCoder (Coder.setRange r)).coder.runSettled = s.coder.runSettled := rfl
  unfold State.shifted
  rw [hset]
  split
  · obtain ⟨c1, m1, u1, f1, p1, e1⟩ := h1
    obtain ⟨c2, m2, u2, f2, p2, e2⟩ := h2
    apply State.eq_of_parts
    · simp only [State.withCoder_coder, c1, c2]; rfl
    · simp only [State.withCoder_model, m1, m2]
    · simp only [State.withCoder_setup, u1, u2]
    · simp only [State.withCoder_fault, f1, f2]
    · simp only [State.withCoder_events, e1, e2]; rfl
    · simp only [State.withCoder_ports, p1, p2]; rfl
  · rfl

theorem State.shifted_range (s : State) : s.shifted.coder.range = s.coder.range := by
  have h1 := (State.releaseRun_spec s).1
  unfold State.shifted
  split
  · simp only [State.withCoder_coder, h1]; rfl
  · rfl

theorem shiftLowTimes_succ (n : Nat) (s : State) :
    (shiftLowTimes (n + 1)).run s =
      if s.coder.runSettled = true ∨ s.coder.cacheSize ≠ 0xFFFFFFFF then (shiftLowTimes n).run s.shifted
      else .error (.raise .ovf) s := by
  simp only [shiftLowTimes, EStateM.run_bind, shiftLow_run]
  by_cases hc : s.coder.runSettled = true ∨ s.coder.cacheSize ≠ 0xFFFFFFFF
  · simp only [if_pos hc]
  · simp only [if_neg hc]

theorem shiftLowTimes_setRange {n : Nat} {s u : State} (h : (shiftLowTimes n).run s = .ok () u) (r : Word32) :
    (shiftLowTimes n).run (s.withCoder (Coder.setRange r)) = .ok () (u.withCoder (Coder.setRange r)) := by
  induction n generalizing s with
  | zero => cases h; rfl
  | succ n ih =>
    rw [shiftLowTimes_succ] at h
    split at h
    · rename_i hc
      have hc' : (s.withCoder (Coder.setRange r)).coder.runSettled = true ∨
          (s.withCoder (Coder.setRange r)).coder.cacheSize ≠ 0xFFFFFFFF := hc
      rw [shiftLowTimes_succ, State.shifted_setRange, if_pos hc']
      exact ih h
    · cases h

/-! ### Normalisation -/

/-- A completed shift leaves at most one byte more held back. -/
theorem State.shifted_cacheSize (s : State) (n : Nat) (h : s.coder.cacheSize.toNat + (n + 1) ≤ 0xFFFFFFFF) :
    s.shifted.coder.cacheSize.toNat + n ≤ 0xFFFFFFFF := by
  have h1 := (State.releaseRun_spec s).1
  have e1 : (1 : Word32).toNat = 1 := rfl
  unfold State.shifted
  split
  · simp only [State.withCoder_coder, h1, Coder.pushByte, BitVec.toNat_add, e1]
    simp only [BitVec.ofNat_eq_ofNat, BitVec.toNat_ofNat]
    omega
  · simp only [State.withCoder_coder, Coder.pushByte, BitVec.toNat_add, e1]
    omega

theorem Coder.cacheSize_ne {c : Coder} {n : Nat} (h : c.cacheSize.toNat + (n + 1) ≤ 0xFFFFFFFF) :
    c.cacheSize ≠ 0xFFFFFFFF := by
  intro e
  rw [e] at h
  have : (0xFFFFFFFF : Word32).toNat = 0xFFFFFFFF := rfl
  omega

/-- What a completed encode-side loop has done: `k` shifts, and `RANGE` widened to match. -/
structure Normalized (s : State) (k : Nat) (t : State) : Prop where
  widened : Widened s.coder.range.toNat k t.coder.range.toNat
  shifts : ∃ u, (shiftLowTimes k).run s = .ok () u ∧ t = u.withCoder (Coder.setRange t.coder.range)
  carrySafe : t.coder.CarrySafe
  number : t.codeNumber = s.codeNumber * 256 ^ k

/-- All that the encode-side loop can do from a state that keeps the carry bounds: complete, or raise `E_OVF`
(40_rangecoder.md R104, R116). -/
theorem encNormalizeLoop_spec (fuel : Nat) {s : State} (h : s.coder.CarrySafe) (hr : 1 ≤ s.coder.range.toNat)
    (hf : Config.thresh ≤ s.coder.range.toNat * 256 ^ fuel) :
    (∃ k t, k ≤ fuel ∧ (encNormalizeLoop fuel).run s = .ok () t ∧ Normalized s k t) ∨
    (¬ s.coder.cacheSize.toNat + fuel ≤ 0xFFFFFFFF ∧ ∃ t, (encNormalizeLoop fuel).run s = .error (.raise .ovf) t) := by
  induction fuel generalizing s with
  | zero =>
    rw [Nat.pow_zero, Nat.mul_one] at hf
    refine .inl ⟨0, s, Nat.le_refl _, ?_, ⟨⟨by simp, hf, .inl rfl⟩, ⟨s, rfl, rfl⟩, h, by simp⟩⟩
    rw [encNormalizeLoop_zero, if_neg (by omega)]
  | succ n ih =>
    rw [encNormalizeLoop_succ]
    by_cases hlt : s.coder.range.toNat < Config.thresh
    · rw [if_pos hlt]
      have hrun : (do modify (State.withCoder Coder.widenRange); shiftLow; encNormalizeLoop n : Act Unit).run s =
          if s.coder.runSettled = true ∨ s.coder.cacheSize ≠ 0xFFFFFFFF then
            (encNormalizeLoop n).run (s.withCoder Coder.widenRange).shifted
          else .error (.raise .ovf) (s.withCoder Coder.widenRange) := by
        simp only [EStateM.run_bind, EStateM.run_modify, shiftLow_run]
        have e : (s.withCoder Coder.widenRange).coder.runSettled = s.coder.runSettled := rfl
        have e' : (s.withCoder Coder.widenRange).coder.cacheSize = s.coder.cacheSize := rfl
        rw [e, e']
        by_cases hc : s.coder.runSettled = true ∨ s.coder.cacheSize ≠ 0xFFFFFFFF
        · simp only [if_pos hc]
        · simp only [if_neg hc]
      rw [hrun]
      by_cases hc : s.coder.runSettled = true ∨ s.coder.cacheSize ≠ 0xFFFFFFFF
      · rw [if_pos hc]
        have hsafe := Coder.CarrySafe.normalized h hlt hc
        have hwr : (s.coder.range <<< 8).toNat = s.coder.range.toNat * 256 := by
          rw [BitVec.toNat_shiftLeft, Nat.shiftLeft_eq]
          simp only [Config.thresh] at hlt
          omega
        have hrange : (s.withCoder Coder.widenRange).shifted.coder.range.toNat = s.coder.range.toNat * 256 := by
          rw [State.shifted_range]; exact hwr
        have hnum : (s.withCoder Coder.widenRange).shifted.codeNumber = s.codeNumber * 256 := by
          rw [State.shifted_codeNumber (s := s.withCoder Coder.widenRange) ?_ hc]
          · rfl
          · have hx := h.fits hr
            exact ⟨hx.held_pos, hx.carry_fits, hx.dummy_zero⟩
        have hpow : s.coder.range.toNat * 256 ^ (n + 1) = s.coder.range.toNat * 256 * 256 ^ n := by
          rw [Nat.pow_succ]; ring
        rcases ih hsafe (by omega) (by rw [hrange, ← hpow]; exact hf) with ⟨k, t, hk, hok, hN⟩ | ⟨hcs, t, he⟩
        · refine .inl ⟨k + 1, t, by omega, hok, ⟨⟨?_, hN.widened.enough, .inr ?_⟩, ?_, hN.carrySafe, ?_⟩⟩
          · rw [hN.widened.value, hrange, Nat.pow_succ]; ring
          · rcases hN.widened.least with h0 | hl
            · subst h0; simpa using hlt
            · rw [hrange] at hl
              cases k with
              | zero => simpa using hlt
              | succ k =>
                have : s.coder.range.toNat * 256 ^ (k + 1 + 1 - 1) = s.coder.range.toNat * 256 * 256 ^ (k + 1 - 1) := by
                  simp only [Nat.add_sub_cancel, Nat.pow_succ]; ring
                omega
          · obtain ⟨u, hu, ht⟩ := hN.shifts
            refine ⟨u.withCoder (Coder.setRange s.coder.range), ?_, ?_⟩
            · rw [shiftLowTimes_succ, if_pos hc]
              rw [State.widenRange_eq, State.shifted_setRange] at hu
              have := shiftLowTimes_setRange hu s.coder.range
              rw [State.setRange_setRange, ← State.shifted_range s, State.setRange_same] at this
              rw [this, State.shifted_range]
            · rw [State.setRange_setRange]; exact ht
          · rw [hN.number, hnum, Nat.pow_succ]; ring
        · refine .inr ⟨fun hle => hcs ?_, t, he⟩
          exact State.shifted_cacheSize (s.withCoder Coder.widenRange) n hle
      · rw [if_neg hc]
        simp only [not_or, ne_eq, Decidable.not_not] at hc
        exact .inr ⟨fun hle => Coder.cacheSize_ne hle hc.2, _, rfl⟩
    · rw [if_neg hlt]
      exact .inl ⟨0, s, by omega, rfl, ⟨⟨by simp, by omega, .inl rfl⟩, ⟨s, rfl, rfl⟩, h, by simp⟩⟩

/-- The interval coded by `rc_encode` is not too small for three rounds (40_rangecoder.md R116). -/
theorem unit_pos {range total size : Nat} (hr : Config.thresh ≤ range) (ht : total < 2 ^ 17) (h1 : 1 ≤ size) (hst : size ≤ total) :
    64 ≤ range / total ∧ 64 ≤ range / total * size ∧ Config.thresh ≤ range / total * size * 256 ^ 3 := by
  simp only [Config.thresh] at *
  have h64 : 64 ≤ range / total := by
    rw [Nat.le_div_iff_mul_le (by omega)]
    omega
  have : 64 ≤ range / total * size := Nat.le_trans h64 (Nat.le_mul_of_pos_right _ h1)
  refine ⟨h64, this, ?_⟩
  omega

/-- All that `rc_encode` can do from a state that keeps the carry bounds (40_rangecoder.md R105). -/
theorem rcEncode_spec {s : State} (h : s.coder.CarrySafe) (hr : Config.thresh ≤ s.coder.range.toNat) {start size total : Nat}
    (ht : total < 2 ^ 17) (h1 : 1 ≤ size) (hfit : start + size ≤ total) :
    (∃ k t, k ≤ 3 ∧ (rcEncode start size total).run s = .ok () t ∧
      Normalized (s.withCoder (Coder.narrow start size total)) k t) ∨
    (¬ s.coder.cacheSize.toNat + 3 ≤ 0xFFFFFFFF ∧ ∃ t, (rcEncode start size total).run s = .error (.raise .ovf) t) := by
  obtain ⟨hsafe, -, hrange⟩ := h.narrowed hfit
  obtain ⟨-, h64, h3⟩ := unit_pos hr ht h1 (by omega)
  have hrun : (rcEncode start size total).run s =
      (encNormalizeLoop 3).run (s.withCoder (Coder.narrow start size total)) := rfl
  rw [hrun]
  exact encNormalizeLoop_spec 3 hsafe (by rw [State.withCoder_coder, hrange]; omega)
    (by rw [State.withCoder_coder, hrange]; exact h3)

/-- The number of the narrowed state: `start * r` was added (40_rangecoder.md R105). -/
theorem State.narrow_codeNumber {s : State} (h : s.coder.CarrySafe) {start size total : Nat} (hfit : start + size ≤ total) :
    (s.withCoder (Coder.narrow start size total)).codeNumber =
      s.codeNumber + start * (s.coder.range.toNat / total) := by
  obtain ⟨-, hlow, -⟩ := h.narrowed hfit
  have e : (s.withCoder (Coder.narrow start size total)).coder.low = (s.coder.narrow start size total).low := rfl
  rw [State.codeNumber, e, hlow, State.codeNumber, ← Nat.add_assoc]
  rfl

/-! ### Flush -/

theorem Coder.pushByte_low (c : Coder) : c.pushByte.low.toNat = c.low.toNat % 2 ^ 24 * 256 := shiftedLow_toNat c.low

theorem State.shifted_low (s : State) : s.shifted.coder.low.toNat = s.coder.low.toNat % 2 ^ 24 * 256 := by
  have h1 := (State.releaseRun_spec s).1
  unfold State.shifted
  split
  · rw [State.withCoder_coder, Coder.pushByte_low, h1]
  · rw [State.withCoder_coder, Coder.pushByte_low]

/-- After any shift no carry is left, so the carry fits the cache again. -/
theorem State.shifted_fits {s : State} (h : s.coder.CarryFits)
    (hok : s.coder.runSettled = true ∨ s.coder.cacheSize ≠ 0xFFFFFFFF) : s.shifted.coder.CarryFits := by
  have hl := State.shifted_low s
  have h1 := (State.releaseRun_spec s).1
  refine ⟨?_, fun hc => by omega, ?_⟩
  · have e1 : (1 : Word32).toNat = 1 := rfl
    unfold State.shifted
    split
    · simp only [State.withCoder_coder, h1, Coder.pushByte]; decide
    · rename_i hset
      have hn := hok.resolve_left hset
      have hne : s.coder.cacheSize.toNat ≠ 0xFFFFFFFF := fun h => hn (BitVec.eq_of_toNat_eq h)
      have := s.coder.cacheSize.isLt
      simp only [State.withCoder_coder, Coder.pushByte, BitVec.toNat_add, e1]
      omega
  · unfold State.shifted
    split
    · intro hd; simp only [State.withCoder_coder, h1, Coder.pushByte] at hd; cases hd
    · exact h.dummy_zero

/-- `n` shifts: they complete if there is room, and multiply the number by `256^n`. -/
theorem shiftLowTimes_spec (n : Nat) {s : State} (h : s.coder.CarryFits) :
    (∃ t, (shiftLowTimes n).run s = .ok () t ∧ t.codeNumber = s.codeNumber * 256 ^ n ∧ t.coder.CarryFits) ∨
    (¬ s.coder.cacheSize.toNat + n ≤ 0xFFFFFFFF ∧ ∃ t, (shiftLowTimes n).run s = .error (.raise .ovf) t) := by
  induction n generalizing s with
  | zero => exact .inl ⟨s, rfl, by simp, h⟩
  | succ n ih =>
    rw [shiftLowTimes_succ]
    by_cases hc : s.coder.runSettled = true ∨ s.coder.cacheSize ≠ 0xFFFFFFFF
    · rw [if_pos hc]
      rcases ih (State.shifted_fits h hc) with ⟨t, ht, hn, hf⟩ | ⟨hcs, t, ht⟩
      · refine .inl ⟨t, ht, ?_, hf⟩
        rw [hn, State.shifted_codeNumber h hc, Nat.pow_succ]; ring
      · exact .inr ⟨fun hle => hcs (State.shifted_cacheSize s n hle), t, ht⟩
    · rw [if_neg hc]
      simp only [not_or, ne_eq, Decidable.not_not] at hc
      exact .inr ⟨fun hle => Coder.cacheSize_ne hle hc.2, s, rfl⟩

/-- Once `LOW` is 0, a shift sends all that is held back and holds one `0x00`. -/
theorem State.shifted_of_low_zero {s : State} (h : s.coder.low.toNat = 0) :
    s.shifted.coder.cacheSize = 1 ∧ s.shifted.coder.cache = 0 ∧ s.shifted.coder.drop = false ∧
    s.shifted.coder.low.toNat = 0 := by
  have hset : s.coder.runSettled = true := (Coder.runSettled_iff _).mpr (.inl (by omega))
  have h1 := (State.releaseRun_spec s).1
  have ht : s.coder.low.extractLsb' 24 8 = 0 := BitVec.eq_of_toNat_eq (by rw [topByte_toNat, h]; rfl)
  have hl := State.shifted_low s
  refine ⟨?_, ?_, ?_, by omega⟩ <;> simp only [State.shifted, hset, if_true, State.withCoder_coder, h1, Coder.pushByte]
  · decide
  · exact ht

/-- The state after the five shifts of a flush: nothing is left in `LOW`, and one `0x00` is held back (40_rangecoder.md R111,
R122). -/
theorem shiftLowTimes_five {s t : State} (h : (shiftLowTimes 5).run s = .ok () t) :
    t.coder.cacheSize = 1 ∧ t.coder.cache = 0 ∧ t.coder.drop = false ∧ t.coder.low.toNat = 0 := by
  have step {n : Nat} {u t : State} (h : (shiftLowTimes (n + 1)).run u = .ok () t) :
      (shiftLowTimes n).run u.shifted = .ok () t := by
    rw [shiftLowTimes_succ] at h
    split at h
    · exact h
    · cases h
  have h5 := step (step (step (step (step h))))
  cases h5
  apply State.shifted_of_low_zero
  have l1 := State.shifted_low s
  have l2 := State.shifted_low s.shifted
  have l3 := State.shifted_low s.shifted.shifted
  have l4 := State.shifted_low s.shifted.shifted.shifted
  omega

/-- After a flush the bytes sent spell the number: the final `LOW`, after any carry, is out (40_rangecoder.md R111). -/
theorem flushed_output {s t : State} (h : s.coder.CarryFits) (hrun : (shiftLowTimes 5).run s = .ok () t) :
    bytesNumber t.ports.output = s.codeNumber := by
  obtain ⟨hcs, hca, hd, hlow⟩ := shiftLowTimes_five hrun
  have hn : t.codeNumber = s.codeNumber * 256 ^ 5 := by
    rcases shiftLowTimes_spec 5 h with ⟨t', ht, hn, -⟩ | ⟨-, t', ht⟩
    · rw [hrun] at ht; cases ht; exact hn
    · rw [hrun] at ht; cases ht
  have hb : t.coder.buffered = 0 := by rw [Coder.buffered, hcs]; rfl
  have hh : t.coder.heldNumber = 0 := by rw [Coder.heldNumber, hb, hca]; rfl
  have hb1 : t.coder.heldBytes = 1 := by rw [Coder.heldBytes, hb, hd]; rfl
  rw [State.codeNumber, hh, hb1, hlow] at hn
  omega

/-! ### How many bytes (40_rangecoder.md R122) -/

/-- The bytes sent and the bytes held back. -/
def State.byteCount (s : State) : Nat := s.ports.output.length + s.coder.heldBytes

theorem State.shifted_byteCount {s : State} (hp : 1 ≤ s.coder.cacheSize.toNat)
    (hok : s.coder.runSettled = true ∨ s.coder.cacheSize ≠ 0xFFFFFFFF) : s.shifted.byteCount = s.byteCount + 1 := by
  obtain ⟨hc, -, -, -, hpo, -⟩ := State.releaseRun_spec s
  unfold State.byteCount State.shifted
  by_cases hset : s.coder.runSettled = true
  · rw [if_pos hset, State.withCoder_coder, State.withCoder_ports, hc, hpo]
    simp only [Coder.pushByte, Coder.heldBytes, Coder.buffered, List.length_append, Coder.runBytes_length]
    have e1 : (0 + 1 : Word32).toNat - 1 = 0 := rfl
    rw [e1]
    simp [Nat.add_assoc]
  · have hn := hok.resolve_left hset
    have hb := Coder.pushByte_buffered hp hn
    rw [if_neg hset, State.withCoder_coder, State.withCoder_ports]
    rw [Coder.heldBytes, hb, Coder.heldBytes]
    rw [show s.coder.pushByte.drop = s.coder.drop from rfl]
    omega

theorem shiftLowTimes_byteCount {n : Nat} {s t : State} (h : s.coder.CarryFits)
    (hrun : (shiftLowTimes n).run s = .ok () t) : t.byteCount = s.byteCount + n := by
  induction n generalizing s with
  | zero => cases hrun; rfl
  | succ n ih =>
    rw [shiftLowTimes_succ] at hrun
    split at hrun
    · rename_i hc
      rw [ih (State.shifted_fits h hc) hrun, State.shifted_byteCount h.held_pos hc]
      omega
    · cases hrun

end Sys2Proof.Machine
end

