-- ==== Sys2Proof/Laws/Decode.lean ====
section
/-! SUPPORT. What the decode primitives do: reads of the input port, `rc_getfreq`, `rc_update` and its normalisation
(10_state.md R27, 40_rangecoder.md R107, R108). -/

namespace Sys2Proof.Machine

/-! ### Reads of the input port (10_state.md R27) -/

/-- The byte that one read returns. -/
def State.nextByte (s : State) : Byte := s.ports.input.head?.getD Config.zeroFill

@[simp] theorem State.afterReads_coder (n : Nat) (s : State) : (s.afterReads n).coder = s.coder := rfl
@[simp] theorem State.afterReads_model (n : Nat) (s : State) : (s.afterReads n).model = s.model := rfl
@[simp] theorem State.afterReads_setup (n : Nat) (s : State) : (s.afterReads n).setup = s.setup := rfl
@[simp] theorem State.afterReads_fault (n : Nat) (s : State) : (s.afterReads n).fault = s.fault := rfl
@[simp] theorem State.afterReads_ports (n : Nat) (s : State) :
    (s.afterReads n).ports = { s.ports with input := s.ports.input.drop n } := rfl

@[simp] theorem State.afterReads_zero (s : State) : s.afterReads 0 = s := by
  apply State.eq_of_parts <;> simp [State.afterReads]

theorem State.afterReads_succ (n : Nat) (s : State) : (s.afterReads 1).afterReads n = s.afterReads (n + 1) := by
  apply State.eq_of_parts
  · rfl
  · rfl
  · rfl
  · rfl
  · simp only [State.afterReads, State.withEvents_events, State.withPorts_events, State.withPorts_ports,
      State.withEvents_ports, List.length_drop]
    cases hi : s.ports.input with
    | nil =>
      simp only [List.length_nil, Nat.zero_sub, Nat.sub_zero, Nat.min_zero, BitVec.add_zero, BitVec.add_assoc,
        ← BitVec.ofNat_add]
      have h1 : (0 < 1) := by omega
      have h2 : 0 < n + 1 := by omega
      simp [Nat.add_comm 1 n]
    | cons b rest =>
      simp only [List.length_cons, BitVec.add_assoc, ← BitVec.ofNat_add]
      have h1 : min 1 (rest.length + 1) + min n (rest.length + 1 - 1) = min (n + 1) (rest.length + 1) := by omega
      have h2 : 1 - (rest.length + 1) + (n - (rest.length + 1 - 1)) = n + 1 - (rest.length + 1) := by omega
      rw [h1, h2]
      have h3 : ¬ rest.length + 1 < 1 := by omega
      simp [h3]
  · simp

/-- One read, when a byte is there or `EOD` is raised. -/
theorem readIn_ready {s : State} (h : s.inputReady 1) : readIn.run s = .ok s.nextByte (s.afterReads 1) := by
  have hrun : readIn.run s = (match s.ports.input with
      | b :: rest => EStateM.Result.ok b
          ((s.withPorts fun p => { p with input := rest }).withEvents fun v => { v with cntIn := v.cntIn + 1 })
      | [] => if s.ports.eod then
          EStateM.Result.ok Config.zeroFill (s.withEvents fun v => { v with zfill := true, cntZfill := v.cntZfill + 1 })
          else EStateM.Result.error Stop.hold s : EStateM.Result Stop State Byte) := by
    simp only [readIn, EStateM.run_bind, EStateM.run_get]
    cases s.ports.input with
    | nil => simp only [act_ite]; split <;> rfl
    | cons b rest => rfl
  rw [hrun]
  cases hi : s.ports.input with
  | nil =>
    have he : s.ports.eod = true := by
      rcases h with h | h
      · exact h
      · simp [hi] at h
    have e : (s.afterReads 1) = s.withEvents fun v => { v with zfill := true, cntZfill := v.cntZfill + 1 } := by
      apply State.eq_of_parts <;> simp [State.afterReads, hi]
      cases hp : s.ports; simp_all
    simp only [he, if_true, e]
    simp [State.nextByte, hi]
  | cons b rest =>
    have e : (s.afterReads 1) =
        (s.withPorts fun p => { p with input := rest }).withEvents fun v => { v with cntIn := v.cntIn + 1 } := by
      apply State.eq_of_parts <;> simp [State.afterReads, hi]
    simp only [e]
    simp [State.nextByte, hi]

/-- A read of an empty port holds while `EOD` is low. -/
theorem readIn_starved {s : State} (h : ¬ s.inputReady 1) : readIn.run s = .error .hold s := by
  simp only [State.inputReady, not_or, Bool.not_eq_true, Nat.not_le] at h
  obtain ⟨he, hl⟩ := h
  have hi : s.ports.input = [] := List.eq_nil_of_length_eq_zero (by omega)
  simp only [readIn, EStateM.run_bind, EStateM.run_get, hi, act_ite, he]
  rfl

theorem State.inputReady_zero (s : State) : s.inputReady 0 := .inr (Nat.zero_le _)

theorem State.inputReady_succ {s : State} {n : Nat} :
    s.inputReady (n + 1) ↔ s.inputReady 1 ∧ (s.afterReads 1).inputReady n := by
  simp only [State.inputReady, State.afterReads_ports, List.length_drop]
  constructor
  · rintro (h | h)
    · exact ⟨.inl h, .inl h⟩
    · exact ⟨.inr (by omega), .inr (by omega)⟩
  · rintro ⟨h1, h2⟩
    rcases h1 with h | h
    · exact .inl h
    · rcases h2 with h' | h'
      · exact .inl h'
      · exact .inr (by omega)

theorem State.inputReady_mono {s : State} {m n : Nat} (h : s.inputReady n) (hmn : m ≤ n) : s.inputReady m :=
  h.imp id (Nat.le_trans hmn)

@[simp] theorem State.inputReady_withCoder (f : Coder → Coder) (s : State) (n : Nat) :
    (s.withCoder f).inputReady n ↔ s.inputReady n := Iff.rfl

@[simp] theorem State.nextBytes_withCoder (f : Coder → Coder) (s : State) (n : Nat) :
    (s.withCoder f).nextBytes n = s.nextBytes n := rfl

theorem State.afterReads_withCoder (f : Coder → Coder) (s : State) (n : Nat) :
    (s.withCoder f).afterReads n = (s.afterReads n).withCoder f := rfl

@[simp] theorem State.nextBytes_zero (s : State) : s.nextBytes 0 = [] := by simp [State.nextBytes]

theorem State.nextBytes_succ (s : State) (n : Nat) : s.nextBytes (n + 1) = s.nextByte :: (s.afterReads 1).nextBytes n := by
  simp only [State.nextBytes, State.nextByte, State.afterReads_ports, List.length_drop]
  cases s.ports.input with
  | nil => simp [List.replicate_succ]
  | cons b rest =>
    have : n + 1 - (rest.length + 1) = n - rest.length := by omega
    simp [this]

@[simp] theorem State.nextBytes_length (s : State) (n : Nat) : (s.nextBytes n).length = n := by
  simp only [State.nextBytes, List.length_append, List.length_take, List.length_replicate]
  omega

theorem bytesNumber_cons (b : Byte) (bs : List Byte) :
    bytesNumber (b :: bs) = b.toNat * 256 ^ bs.length + bytesNumber bs := by
  rw [show b :: bs = [b] ++ bs from rfl, bytesNumber_append, bytesNumber_singleton]

/-! ### Shifting bytes into CODE (40_rangecoder.md R108, R112) -/

/-- `CODE` after `bs` is shifted in. -/
def Coder.shiftIn (bs : List Byte) (c : Coder) : Coder :=
  { c with code := BitVec.ofNat 32 (c.code.toNat * 256 ^ bs.length + bytesNumber bs) }

theorem shiftInByte_ready {s : State} (h : s.inputReady 1) :
    shiftInByte.run s = .ok () ((s.afterReads 1).withCoder (Coder.shiftIn [s.nextByte])) := by
  have e : Coder.shiftIn [s.nextByte] = fun c => { c with code := BitVec.ofNat 32 (c.code.toNat * 256 + s.nextByte.toNat) } := by
    funext c
    simp only [Coder.shiftIn, bytesNumber_singleton, List.length_singleton, Nat.pow_one]
  simp only [shiftInByte, EStateM.run_bind, readIn_ready h, EStateM.run_modify, e]

theorem shiftInByte_starved {s : State} (h : ¬ s.inputReady 1) : shiftInByte.run s = .error .hold s := by
  simp only [shiftInByte, EStateM.run_bind, readIn_starved h]

theorem Coder.shiftIn_shiftIn (c : Coder) (b : Byte) (bs : List Byte) :
    (c.shiftIn [b]).shiftIn bs = c.shiftIn (b :: bs) := by
  rw [Coder.shiftIn, Coder.shiftIn, Coder.shiftIn]
  congr 1
  apply BitVec.eq_of_toNat_eq
  simp only [BitVec.toNat_ofNat, bytesNumber_singleton, List.length_cons, List.length_nil, Nat.zero_add,
    Nat.pow_one, bytesNumber_cons b bs]
  have e : (c.code.toNat * 256 + b.toNat) * 256 ^ bs.length + bytesNumber bs
      = c.code.toNat * 256 ^ (bs.length + 1) + (b.toNat * 256 ^ bs.length + bytesNumber bs) := by
    rw [Nat.pow_succ]; ring
  rw [← e, Nat.add_mod, Nat.mul_mod, Nat.mod_mod, ← Nat.mul_mod, ← Nat.add_mod]

@[simp] theorem Coder.shiftIn_nil (c : Coder) : c.shiftIn [] = c := by
  simp [Coder.shiftIn]

/-- `n` bytes shifted in, when no read holds. -/
theorem shiftInBytes_ready (n : Nat) {s : State} (h : s.inputReady n) :
    (shiftInBytes n).run s = .ok () ((s.afterReads n).withCoder (Coder.shiftIn (s.nextBytes n))) := by
  induction n generalizing s with
  | zero =>
    have : s.withCoder (Coder.shiftIn []) = s := by
      apply State.eq_of_parts <;> simp
    simp only [shiftInBytes, State.nextBytes_zero, State.afterReads_zero, this]
    rfl
  | succ n ih =>
    obtain ⟨h1, h2⟩ := State.inputReady_succ.mp h
    have hh : ((s.afterReads 1).withCoder (Coder.shiftIn [s.nextByte])).inputReady n := h2
    simp only [shiftInBytes, EStateM.run_bind, shiftInByte_ready h1]
    have e : (shiftInBytes n).run ((s.afterReads 1).withCoder (Coder.shiftIn [s.nextByte])) = _ := ih hh
    rw [e, State.afterReads_withCoder, State.afterReads_succ, State.nextBytes_withCoder, State.nextBytes_succ]
    congr 1
    apply State.eq_of_parts <;> simp [Coder.shiftIn_shiftIn]

/-- Otherwise the command holds. -/
theorem shiftInBytes_starved (n : Nat) {s : State} (h : ¬ s.inputReady n) :
    ∃ t, (shiftInBytes n).run s = .error .hold t := by
  induction n generalizing s with
  | zero => exact absurd s.inputReady_zero h
  | succ n ih =>
    simp only [shiftInBytes, EStateM.run_bind]
    by_cases h1 : s.inputReady 1
    · rw [shiftInByte_ready h1]
      exact ih fun h2 => h (State.inputReady_succ.mpr ⟨h1, h2⟩)
    · rw [shiftInByte_starved h1]
      exact ⟨s, rfl⟩

/-! ### The decode-side loop (40_rangecoder.md R108) -/

theorem decNormalizeLoop_succ (n : Nat) (s : State) :
    (decNormalizeLoop (n + 1)).run s =
      if s.coder.range.toNat < Config.thresh then
        (do shiftInByte; modify (State.withCoder Coder.widenRange); decNormalizeLoop n : Act Unit).run s
      else .ok () s := by
  simp only [decNormalizeLoop, EStateM.run_bind, EStateM.run_get, act_ite]
  split <;> rfl

theorem decNormalizeLoop_zero (s : State) :
    (decNormalizeLoop 0).run s =
      if s.coder.range.toNat < Config.thresh then .error (.fault .endlessNormalisation) s else .ok () s := by
  simp only [decNormalizeLoop, EStateM.run_bind, EStateM.run_get, act_ite]
  split <;> rfl

/-- What a decode-side loop of `k` rounds leaves in the coder. -/
def Coder.normalized (bs : List Byte) (c : Coder) : Coder :=
  { c.shiftIn bs with range := BitVec.ofNat 32 (c.range.toNat * 256 ^ bs.length) }

/-- What a decode-side loop of `k` rounds leaves. -/
def State.normalized (k : Nat) (s : State) : State := (s.afterReads k).withCoder (Coder.normalized (s.nextBytes k))

theorem State.normalized_zero (s : State) : s.normalized 0 = s := by
  apply State.eq_of_parts <;> simp [State.normalized, Coder.normalized]

theorem State.normalized_succ {s : State} (hlt : s.coder.range.toNat < Config.thresh) (k : Nat) :
    (((s.afterReads 1).withCoder (Coder.shiftIn [s.nextByte])).withCoder Coder.widenRange).normalized k
      = s.normalized (k + 1) := by
  have hwr : (s.coder.range <<< 8).toNat = s.coder.range.toNat * 256 := by
    rw [BitVec.toNat_shiftLeft, Nat.shiftLeft_eq]
    simp only [Config.thresh] at hlt
    omega
  have e : ∀ c : Coder, c.range = s.coder.range → ∀ bs,
      Coder.normalized bs ((c.shiftIn [s.nextByte]).widenRange) = c.normalized (s.nextByte :: bs) := by
    intro c hc bs
    have h1 : ((c.shiftIn [s.nextByte]).widenRange).shiftIn bs = ((c.shiftIn [s.nextByte]).shiftIn bs).widenRange := rfl
    have h2 : ((c.shiftIn [s.nextByte]).widenRange).range = s.coder.range <<< 8 := by
      show c.range <<< 8 = _
      rw [hc]
    have h3 : s.coder.range.toNat * 256 * 256 ^ bs.length = s.coder.range.toNat * 256 ^ (bs.length + 1) := by
      rw [Nat.pow_succ]; ring
    simp only [Coder.normalized, h1, h2, hwr, hc, Coder.shiftIn_shiftIn, List.length_cons, h3]
    rfl
  apply State.eq_of_parts
  · show Coder.normalized _ ((s.coder.shiftIn [s.nextByte]).widenRange) = _
    rw [e _ rfl, State.normalized, State.withCoder_coder, State.nextBytes_succ]
    rfl
  · rfl
  · rfl
  · rfl
  · show ((s.afterReads 1).afterReads k).events = (s.afterReads (k + 1)).events
    rw [State.afterReads_succ]
  · show ((s.afterReads 1).afterReads k).ports = (s.afterReads (k + 1)).ports
    rw [State.afterReads_succ]

/-- All that the decode-side loop can do: read `k` bytes and finish, or hold (40_rangecoder.md R108, R116, R119). -/
theorem decNormalizeLoop_spec (fuel : Nat) {s : State} (hr : 1 ≤ s.coder.range.toNat)
    (hf : Config.thresh ≤ s.coder.range.toNat * 256 ^ fuel) :
    ∃ k, k ≤ fuel ∧ Widened s.coder.range.toNat k (s.coder.range.toNat * 256 ^ k) ∧
      s.coder.range.toNat * 256 ^ k < 2 ^ 32 ∧
      (s.inputReady k → (decNormalizeLoop fuel).run s = .ok () (s.normalized k)) ∧
      (¬ s.inputReady k → ∃ t, (decNormalizeLoop fuel).run s = .error .hold t) := by
  induction fuel generalizing s with
  | zero =>
    rw [Nat.pow_zero, Nat.mul_one] at hf
    refine ⟨0, Nat.le_refl _, ⟨rfl, by simpa using hf, .inl rfl⟩, by simpa using s.coder.range.isLt, fun _ => ?_,
      fun h => absurd s.inputReady_zero h⟩
    rw [decNormalizeLoop_zero, if_neg (by omega), State.normalized_zero]
  | succ n ih =>
    rw [decNormalizeLoop_succ]
    by_cases hlt : s.coder.range.toNat < Config.thresh
    · simp only [if_pos hlt]
      have hwr : (s.coder.range <<< 8).toNat = s.coder.range.toNat * 256 := by
        rw [BitVec.toNat_shiftLeft, Nat.shiftLeft_eq]
        simp only [Config.thresh] at hlt
        omega
      have hpow : ∀ m, s.coder.range.toNat * 256 * 256 ^ m = s.coder.range.toNat * 256 ^ (m + 1) := by
        intro m; rw [Nat.pow_succ]; ring
      let s1 := ((s.afterReads 1).withCoder (Coder.shiftIn [s.nextByte])).withCoder Coder.widenRange
      have h1r : s1.coder.range.toNat = s.coder.range.toNat * 256 := hwr
      obtain ⟨k, hk, hw, hb, hok, hno⟩ := ih (s := s1) (by omega) (by rw [h1r, hpow]; exact hf)
      rw [h1r, hpow] at hw hb
      refine ⟨k + 1, by omega, ⟨rfl, hw.enough, .inr ?_⟩, hb, fun h => ?_, fun h => ?_⟩
      · rcases hw.least with h0 | hl
        · subst h0; simpa using hlt
        · cases k with
          | zero => simpa using hlt
          | succ k => simp only [Nat.add_sub_cancel] at hl ⊢; rw [← hpow]; exact hl
      · obtain ⟨h1, h2⟩ := State.inputReady_succ.mp h
        have hrun : (do shiftInByte; modify (State.withCoder Coder.widenRange); decNormalizeLoop n : Act Unit).run s
            = (decNormalizeLoop n).run s1 := by
          simp only [EStateM.run_bind, shiftInByte_ready h1, EStateM.run_modify]
          rfl
        rw [hrun, hok h2, State.normalized_succ hlt]
      · by_cases h1 : s.inputReady 1
        · have hrun : (do shiftInByte; modify (State.withCoder Coder.widenRange); decNormalizeLoop n : Act Unit).run s
              = (decNormalizeLoop n).run s1 := by
            simp only [EStateM.run_bind, shiftInByte_ready h1, EStateM.run_modify]
            rfl
          rw [hrun]
          exact hno fun h2 => h (State.inputReady_succ.mpr ⟨h1, h2⟩)
        · exact ⟨s, by simp only [EStateM.run_bind, shiftInByte_starved h1]⟩
    · simp only [if_neg hlt]
      refine ⟨0, by omega, ⟨rfl, by simp; omega, .inl rfl⟩, by simpa using s.coder.range.isLt, fun _ => ?_,
        fun h => absurd s.inputReady_zero h⟩
      rw [State.normalized_zero]

/-- The registers after `k` rounds, where nothing is truncated: `CODE` stays below `RANGE` (40_rangecoder.md R119). -/
theorem State.normalized_coder {s : State} {k : Nat} (hc : s.coder.code.toNat < s.coder.range.toNat)
    (hb : s.coder.range.toNat * 256 ^ k < 2 ^ 32) :
    (s.normalized k).coder.range.toNat = s.coder.range.toNat * 256 ^ k ∧
    (s.normalized k).coder.code.toNat = s.coder.code.toNat * 256 ^ k + bytesNumber (s.nextBytes k) ∧
    (s.normalized k).coder.code.toNat < (s.normalized k).coder.range.toNat := by
  have hlt := bytesNumber_lt (s.nextBytes k)
  rw [State.nextBytes_length] at hlt
  have hle : (s.coder.code.toNat + 1) * 256 ^ k ≤ s.coder.range.toNat * 256 ^ k := Nat.mul_le_mul_right _ hc
  rw [Nat.add_mul, Nat.one_mul] at hle
  have e1 : (s.normalized k).coder.range.toNat = s.coder.range.toNat * 256 ^ k := by
    simp only [State.normalized, State.withCoder_coder, Coder.normalized, State.nextBytes_length, State.afterReads_coder,
      BitVec.toNat_ofNat]
    exact Nat.mod_eq_of_lt hb
  have e2 : (s.normalized k).coder.code.toNat = s.coder.code.toNat * 256 ^ k + bytesNumber (s.nextBytes k) := by
    simp only [State.normalized, State.withCoder_coder, Coder.normalized, Coder.shiftIn, State.nextBytes_length,
      State.afterReads_coder, BitVec.toNat_ofNat]
    exact Nat.mod_eq_of_lt (by omega)
  exact ⟨e1, e2, by omega⟩

/-! ### rc_getfreq and rc_update -/

/-- What `rc_getfreq` leaves in the coder (40_rangecoder.md R107). -/
def Coder.queried (total : Nat) (c : Coder) : Coder :=
  { c with range := BitVec.ofNat 32 (c.range.toNat / total), dtot := BitVec.ofNat 17 total, dpend := true }

/-- All that `rc_getfreq` does, when the per-unit value is not 0. -/
theorem rcGetFreq_run (total : Nat) (s : State) :
    (rcGetFreq total).run s = if s.coder.range.toNat / total = 0
      then .error (.fault .divisionByZero) (s.withCoder (Coder.queried total))
      else .ok (s.coder.code.toNat / (s.coder.range.toNat / total)) (s.withCoder (Coder.queried total)) := by
  simp only [rcGetFreq, EStateM.run_bind, EStateM.run_get, EStateM.run_modify, act_ite]
  split <;> rfl

/-- All that `rc_update` can do when its requirement holds (40_rangecoder.md R108). -/
theorem rcUpdate_spec {s : State} {start size : Nat} (hr : 64 ≤ s.coder.range.toNat) (h1 : 1 ≤ size)
    (hfit : s.coder.range.toNat * size < 2 ^ 32) :
    ∃ k, k ≤ 3 ∧ Widened (s.coder.range.toNat * size) k (s.coder.range.toNat * size * 256 ^ k) ∧
      s.coder.range.toNat * size * 256 ^ k < 2 ^ 32 ∧
      (s.inputReady k → (rcUpdate start size).run s =
        .ok () ((s.withCoder (Coder.takeInterval start size)).normalized k)) ∧
      (¬ s.inputReady k → ∃ t, (rcUpdate start size).run s = .error .hold t) := by
  have hrun : (rcUpdate start size).run s = (decNormalizeLoop 3).run (s.withCoder (Coder.takeInterval start size)) := rfl
  have hrange : (s.withCoder (Coder.takeInterval start size)).coder.range.toNat = s.coder.range.toNat * size := by
    simp only [State.withCoder_coder, Coder.takeInterval, BitVec.toNat_ofNat]
    exact Nat.mod_eq_of_lt hfit
  have h64 : 64 ≤ s.coder.range.toNat * size := Nat.le_trans hr (Nat.le_mul_of_pos_right _ h1)
  have := decNormalizeLoop_spec 3 (s := s.withCoder (Coder.takeInterval start size)) (by omega)
    (by rw [hrange]; simp only [Config.thresh]; omega)
  rw [hrange] at this
  rw [hrun]
  exact this

/-! ### The decode primitives leave everything else alone -/

theorem DecodeFrame.refl (s : State) : DecodeFrame s s := by
  constructor <;> first | rfl | exact ⟨[], by simp⟩

theorem DecodeFrame.trans (a b c : State) (h : DecodeFrame a b) (k : DecodeFrame b c) : DecodeFrame a c := by
  obtain ⟨taken, ho, hn⟩ := h.input
  obtain ⟨taken', ho', hn'⟩ := k.input
  exact {
    mode := k.mode.trans h.mode, low := k.low.trans h.low, cache := k.cache.trans h.cache
    cacheSize := k.cacheSize.trans h.cacheSize, drop := k.drop.trans h.drop
    model := k.model.trans h.model, setup := k.setup.trans h.setup, fault := k.fault.trans h.fault
    cntOut := k.cntOut.trans h.cntOut, cntSym := k.cntSym.trans h.cntSym, cmd := k.cmd.trans h.cmd
    eod := k.eod.trans h.eod, output := k.output.trans h.output, responses := k.responses.trans h.responses
    host := k.host.trans h.host
    input := ⟨taken ++ taken', by rw [ho, ho', List.append_assoc],
      by rw [hn', hn, List.length_append, BitVec.ofNat_add, BitVec.add_assoc]⟩ }

theorem State.afterReads_frame (n : Nat) (s : State) : DecodeFrame s (s.afterReads n) := by
  constructor <;> first | rfl | skip
  refine ⟨s.ports.input.take n, by simp, ?_⟩
  simp [State.afterReads]

theorem withCoder_decodeFrame {f : Coder → Coder}
    (hf : ∀ c, (f c).mode = c.mode ∧ (f c).low = c.low ∧ (f c).cache = c.cache ∧ (f c).cacheSize = c.cacheSize ∧
      (f c).drop = c.drop) :
    Act.Keeps DecodeFrame (modify (State.withCoder f) : Act PUnit) := by
  intro s
  simp only [EStateM.run_modify, resultState]
  obtain ⟨h1, h2, h3, h4, h5⟩ := hf s.coder
  constructor <;> simp [h1, h2, h3, h4, h5]

theorem shiftInByte_frame : shiftInByte.Keeps DecodeFrame := by
  intro s
  by_cases h : s.inputReady 1
  · rw [shiftInByte_ready h]
    exact DecodeFrame.trans _ _ _ (s.afterReads_frame 1)
      (withCoder_decodeFrame (f := Coder.shiftIn [s.nextByte]) (fun _ => ⟨rfl, rfl, rfl, rfl, rfl⟩) (s.afterReads 1))
  · rw [shiftInByte_starved h]
    exact DecodeFrame.refl s

theorem shiftInBytes_frame (n : Nat) : (shiftInBytes n).Keeps DecodeFrame := by
  induction n with
  | zero => exact fun s => DecodeFrame.refl s
  | succ n ih => exact Act.Keeps.bind DecodeFrame.trans shiftInByte_frame fun _ => ih

theorem decNormalizeLoop_frame (n : Nat) : (decNormalizeLoop n).Keeps DecodeFrame := by
  induction n with
  | zero =>
    intro s
    rw [decNormalizeLoop_zero]
    split <;> exact DecodeFrame.refl s
  | succ n ih =>
    intro s
    rw [decNormalizeLoop_succ]
    split
    · exact Act.Keeps.bind DecodeFrame.trans shiftInByte_frame (fun _ => Act.Keeps.bind DecodeFrame.trans
        (withCoder_decodeFrame (f := Coder.widenRange) fun _ => ⟨rfl, rfl, rfl, rfl, rfl⟩) fun _ => ih) s
    · exact DecodeFrame.refl s

/-- `rc_update` writes only what the decode primitives write (40_rangecoder.md R108, R115). -/
theorem rcUpdate_frame (start size : Nat) : (rcUpdate start size).Keeps DecodeFrame :=
  Act.Keeps.bind DecodeFrame.trans
    (withCoder_decodeFrame (f := Coder.takeInterval start size) fun _ => ⟨rfl, rfl, rfl, rfl, rfl⟩)
    fun _ => decNormalizeLoop_frame 3

/-- So does `rc_getfreq` (40_rangecoder.md R107, R115). -/
theorem rcGetFreq_frame (total : Nat) : (rcGetFreq total).Keeps DecodeFrame := by
  intro s
  have := withCoder_decodeFrame (f := Coder.queried total) (fun _ => ⟨rfl, rfl, rfl, rfl, rfl⟩) s
  rw [rcGetFreq_run]
  split <;> exact this

end Sys2Proof.Machine
end

