-- ==== Sys2Proof/Laws/Records.lean ====
section
/-! SUPPORT. Context records: cumulative frequencies, the scan, rescale and the count of a hit keep a record sound
(41_contextmodel.md R142 to R145, R153, R162 to R167). -/

namespace Sys2Proof.Machine

/-! ### Tables (41_contextmodel.md R142) -/

@[simp] theorem Context.counts_length (x : Context) : x.counts.length = 257 := by simp [Context.counts]

theorem Context.counts_get (x : Context) {i : Nat} (h : i < 257) :
    x.counts[i]'(by simpa using h) = (x.freq[i]).toNat := by
  simp [Context.counts]

theorem Context.cum_zero (x : Context) : x.cum 0 = 0 := by simp [Context.cum]

theorem Context.cum_succ (x : Context) {i : Nat} (h : i < 257) : x.cum (i + 1) = x.cum i + (x.freq[i]).toNat := by
  rw [Context.cum, Context.cum, List.take_succ_eq_append_getElem (by simpa using h), List.sum_append, x.counts_get h]
  simp

theorem Context.cum_all (x : Context) : x.cum 257 = x.counts.sum := by
  rw [Context.cum, List.take_of_length_le (by simp)]

theorem Context.cum_mono (x : Context) {i j : Nat} (h : i ≤ j) : x.cum i ≤ x.cum j := by
  rw [Context.cum, Context.cum]
  obtain ⟨k, rfl⟩ := Nat.exists_eq_add_of_le h
  rw [List.take_add, List.sum_append]
  omega

/-- A symbol's interval lies inside `[0, sum)` (41_contextmodel.md R149). -/
theorem Context.cum_add_le (x : Context) (s : Sym) : x.cum s.val + (x.freq[s]).toNat ≤ x.counts.sum := by
  have h := x.cum_succ s.isLt
  have h' := x.cum_mono (i := s.val + 1) (j := 257) (by have := s.isLt; omega)
  rw [x.cum_all] at h'
  show x.cum s.val + (x.freq[s.val]).toNat ≤ _
  omega

/-! ### The scan (41_contextmodel.md R153) -/

theorem scanFrom_some {v : Nat} {l : List Nat} {i below j : Nat} (hb : below ≤ v) (h : scanFrom v l i below = some j) :
    ∃ k, j = i + k ∧ k < l.length ∧ below + (l.take k).sum ≤ v ∧ v < below + (l.take (k + 1)).sum := by
  induction l generalizing i below with
  | nil => simp [scanFrom] at h
  | cons f rest ih =>
    rw [scanFrom] at h
    split at h
    · rename_i hv
      refine ⟨0, by simpa using h.symm, by simp, by simpa using hb, by simpa using hv⟩
    · rename_i hv
      obtain ⟨k, hj, hk, h1, h2⟩ := ih (by omega) h
      refine ⟨k + 1, by omega, by simpa using hk, ?_, ?_⟩
      · simp only [List.take_succ_cons, List.sum_cons]; omega
      · simp only [List.take_succ_cons, List.sum_cons] at h2 ⊢; omega

theorem scanFrom_isSome {v : Nat} {l : List Nat} {i below : Nat} (hb : below ≤ v) (h : v < below + l.sum) :
    (scanFrom v l i below).isSome = true := by
  induction l generalizing i below with
  | nil =>
    simp only [List.sum_nil, Nat.add_zero] at h
    omega
  | cons f rest ih =>
    rw [scanFrom]
    split
    · rfl
    · exact ih (by omega) (by simp only [List.sum_cons] at h; omega)

/-- What the scan finds contains the value. -/
theorem Context.scan_some {x : Context} {v : Nat} {s : Sym} (h : x.scan v = some s) :
    x.cum s.val ≤ v ∧ v < x.cum s.val + (x.freq[s]).toNat := by
  unfold Context.scan at h
  cases hs : scanFrom v x.counts 0 0 with
  | none => simp [hs] at h
  | some j =>
    obtain ⟨k, hj, hk, h1, h2⟩ := scanFrom_some (Nat.zero_le v) hs
    rw [Nat.zero_add] at hj h1 h2
    subst hj
    rw [Context.counts_length] at hk
    simp only [hs, hk, dite_true, Option.some.injEq] at h
    subst h
    refine ⟨h1, ?_⟩
    have := x.cum_succ hk
    rw [Context.cum] at this
    show v < x.cum j + (x.freq[j]).toNat
    rw [← this]
    exact h2

/-- The scan finds a symbol for every value below the table's total. -/
theorem Context.scan_isSome {x : Context} {v : Nat} (h : v < x.counts.sum) : ∃ s, x.scan v = some s := by
  have h1 := scanFrom_isSome (v := v) (l := x.counts) (i := 0) (below := 0) (Nat.zero_le _) (by omega)
  obtain ⟨j, hj⟩ := Option.isSome_iff_exists.mp h1
  obtain ⟨k, hjk, hk, -, -⟩ := scanFrom_some (Nat.zero_le v) hj
  rw [Context.counts_length] at hk
  have hjl : j < 257 := by omega
  exact ⟨⟨j, hjl⟩, by simp [Context.scan, hj, hjl]⟩

/-- At most one symbol's interval contains a value. -/
theorem Context.interval_unique {x : Context} {v : Nat} {s t : Sym} (hs : x.cum s.val ≤ v ∧ v < x.cum s.val + (x.freq[s]).toNat)
    (ht : x.cum t.val ≤ v ∧ v < x.cum t.val + (x.freq[t]).toNat) : s = t := by
  have es : x.cum (s.val + 1) = x.cum s.val + (x.freq[s]).toNat := x.cum_succ s.isLt
  have et : x.cum (t.val + 1) = x.cum t.val + (x.freq[t]).toNat := x.cum_succ t.isLt
  rcases Nat.lt_trichotomy s.val t.val with h | h | h
  · have := x.cum_mono (i := s.val + 1) (j := t.val) h; omega
  · exact Fin.ext h
  · have := x.cum_mono (i := t.val + 1) (j := s.val) h; omega

/-- A value in a symbol's interval scans to that symbol. -/
theorem Context.scan_of_inside {x : Context} {v : Nat} {s : Sym} (h : x.cum s.val ≤ v ∧ v < x.cum s.val + (x.freq[s]).toNat) :
    x.scan v = some s := by
  have := x.cum_add_le s
  obtain ⟨t, ht⟩ := x.scan_isSome (v := v) (by omega)
  rw [ht, Context.interval_unique (Context.scan_some ht) h]

/-! ### Rescale (41_contextmodel.md R144) -/

theorem halveUp_toNat (f : Count) : (halveUp f).toNat = (f.toNat + 1) / 2 := by
  have := f.isLt
  rw [halveUp, BitVec.toNat_ofNat]
  omega

theorem mapTable_get (f : Count → Count) (v : Vector Count 257) {i : Nat} (h : i < 257) : (mapTable f v)[i] = f v[i] := by
  simp [mapTable]

theorem Context.rescale_freq (x : Context) {i : Nat} (h : i < 257) : (x.rescale.freq[i]).toNat = ((x.freq[i]).toNat + 1) / 2 := by
  show ((mapTable halveUp x.freq)[i]).toNat = _
  rw [mapTable_get, halveUp_toNat]

theorem Context.rescale_counts (x : Context) : x.rescale.counts = x.counts.map fun f => (f + 1) / 2 := by
  apply List.ext_getElem
  · simp
  · intro i h1 h2
    have hi : i < 257 := by simpa using h1
    rw [x.rescale.counts_get hi, x.rescale_freq hi, List.getElem_map, x.counts_get hi]

theorem sum_halved_le (l : List Nat) : 2 * (l.map fun f => (f + 1) / 2).sum ≤ l.sum + l.length := by
  induction l with
  | nil => simp
  | cons f rest ih => simp only [List.map_cons, List.sum_cons, List.length_cons]; omega

theorem Context.rescale_sum (x : Context) : x.rescale.sum = BitVec.ofNat 16 x.rescale.counts.sum := rfl

@[simp] theorem Context.rescale_succ (x : Context) : x.rescale.succ = x.succ := rfl
@[simp] theorem Context.rescale_order (x : Context) : x.rescale.order = x.order := rfl
theorem Context.rescale_esc (x : Context) : x.rescale.esc.toNat = (x.esc.toNat + 1) / 2 := halveUp_toNat x.esc

/-! ### A hit (41_contextmodel.md R145) -/

/-- The record with the symbol counted, before any rescale. -/
def Context.counted (x : Context) (s : Sym) : Context := { x with freq := x.freq.set s (x.freq[s] + 1), sum := x.sum + 1 }

theorem Context.hit_eq (x : Context) (s : Sym) :
    x.hit s = if Config.rescaleLimit < (x.counted s).sum.toNat then (x.counted s).rescale else x.counted s := rfl

@[simp] theorem Context.hit_succ (x : Context) (s : Sym) : (x.hit s).succ = x.succ := by
  rw [Context.hit_eq]; split <;> rfl

@[simp] theorem Context.hit_order (x : Context) (s : Sym) : (x.hit s).order = x.order := by
  rw [Context.hit_eq]; split <;> rfl

theorem Context.freq_le_sum (x : Context) (s : Sym) : (x.freq[s]).toNat ≤ x.counts.sum := by
  have := x.cum_add_le s; omega

theorem Context.counted_freq (x : Context) (s : Sym) {i : Nat} (h : i < 257) :
    (x.counted s).freq[i] = if s.val = i then x.freq[s] + 1 else x.freq[i] := by
  show (x.freq.set s.val (x.freq[s] + 1))[i] = _
  rw [Vector.getElem_set]

theorem Context.counted_counts (x : Context) (s : Sym) (h : (x.freq[s]).toNat + 1 < 2 ^ 16) :
    (x.counted s).counts = x.counts.set s.val ((x.freq[s]).toNat + 1) := by
  have e1 : (1 : Count).toNat = 1 := rfl
  apply List.ext_getElem
  · simp
  · intro i h1 h2
    have hi : i < 257 := by simpa using h1
    rw [(x.counted s).counts_get hi, x.counted_freq s hi, List.getElem_set, x.counts_get hi]
    split
    · rw [BitVec.toNat_add, e1, Nat.mod_eq_of_lt h]
    · rfl

theorem list_sum_set (l : List Nat) (i : Nat) (h : i < l.length) : (l.set i (l[i] + 1)).sum = l.sum + 1 := by
  induction l generalizing i with
  | nil => simp at h
  | cons f rest ih =>
    cases i with
    | zero => simp; omega
    | succ i =>
      simp only [List.set_cons_succ, List.sum_cons, List.getElem_cons_succ]
      rw [ih i (by simpa using h)]
      omega

theorem Context.counted_sum (x : Context) (s : Sym) (h : (x.freq[s]).toNat + 1 < 2 ^ 16) :
    (x.counted s).counts.sum = x.counts.sum + 1 := by
  rw [x.counted_counts s h]
  have := list_sum_set x.counts s.val (by simp)
  rw [x.counts_get s.isLt] at this
  exact this

/-! ### Sound records (41_contextmodel.md R162, R163, R165) -/

theorem Context.Sound.sum_toNat_lt {x : Context} (h : x.Sound) : x.counts.sum ≤ 0x7FFF := by
  have := h.sum_le
  rw [h.sum_eq] at this
  exact this

theorem Context.Sound.freq_pos {x : Context} (h : x.Sound) (s : Sym) : 1 ≤ (x.freq[s]).toNat := by
  have hne := h.freq_ne_zero s
  by_contra hlt
  exact hne (BitVec.eq_of_toNat_eq (by simpa using hlt))

/-- A fresh record is sound (41_contextmodel.md R141). -/
theorem Context.fresh_sound {k : Order} (hk : k.toNat ≤ 16) : (Context.fresh k).Sound := by
  have hc : (Context.fresh k).counts = List.replicate 257 1 := by
    apply List.ext_getElem
    · rw [Context.counts_length, List.length_replicate]
    · intro i h1 h2
      have hi : i < 257 := Nat.lt_of_lt_of_eq h1 (Context.counts_length _)
      rw [(Context.fresh k).counts_get hi, List.getElem_replicate]
      show ((Vector.replicate 257 (1 : Count))[i]).toNat = _
      rw [Vector.getElem_replicate]
      rfl
  refine ⟨?_, ?_, ?_, hk⟩
  · rw [hc, List.sum_replicate]; rfl
  · intro s
    show (Vector.replicate 257 (1 : Count))[s.val] ≠ 0
    rw [Vector.getElem_replicate]
    decide
  · show (257 : Count).toNat ≤ _
    decide

theorem Context.counted_sum_toNat {x : Context} (h : x.Sound) (s : Sym) :
    (x.counted s).sum.toNat = x.counts.sum + 1 ∧ (x.counted s).counts.sum = x.counts.sum + 1 := by
  have hle := h.sum_toNat_lt
  have hf := x.freq_le_sum s
  have e1 : (1 : Count).toNat = 1 := rfl
  refine ⟨?_, x.counted_sum s (by omega)⟩
  show (x.sum + 1).toNat = _
  rw [BitVec.toNat_add, e1, h.sum_eq, Nat.mod_eq_of_lt (by omega)]

theorem Context.counted_ne_zero {x : Context} (h : x.Sound) (s t : Sym) : (x.counted s).freq[t] ≠ 0 := by
  show (x.counted s).freq[t.val] ≠ 0
  rw [x.counted_freq s t.isLt]
  split
  · intro he
    have hf := x.freq_le_sum s
    have hle := h.sum_toNat_lt
    have e1 : (1 : Count).toNat = 1 := rfl
    have := congrArg BitVec.toNat he
    rw [BitVec.toNat_add, e1, Nat.mod_eq_of_lt (by omega)] at this
    simp at this
  · exact h.freq_ne_zero t

/-- Counting a hit keeps a record sound. -/
theorem Context.hit_sound {x : Context} (h : x.Sound) (s : Sym) : (x.hit s).Sound := by
  obtain ⟨h1, h2⟩ := Context.counted_sum_toNat h s
  have hle := h.sum_toNat_lt
  rw [Context.hit_eq]
  split
  · have hs := sum_halved_le (x.counted s).counts
    rw [← (x.counted s).rescale_counts, Context.counts_length, h2] at hs
    refine ⟨?_, fun t => ?_, ?_, h.order_le⟩
    · rw [Context.rescale_sum, BitVec.toNat_ofNat, Nat.mod_eq_of_lt (by omega)]
    · intro he
      have hne := Context.counted_ne_zero h s t
      have h0 : ((x.counted s).rescale.freq[t.val]).toNat = 0 := by
        have := congrArg BitVec.toNat he
        simpa using this
      rw [(x.counted s).rescale_freq t.isLt] at h0
      exact hne (BitVec.eq_of_toNat_eq (by show ((x.counted s).freq[t.val]).toNat = _; simp; omega))
    · rw [Context.rescale_sum, BitVec.toNat_ofNat, Nat.mod_eq_of_lt (by omega)]
      show _ ≤ 0x7FFF
      omega
  · rename_i hn
    exact ⟨by rw [h1, h2], Context.counted_ne_zero h s, by omega, h.order_le⟩

/-- Raising the escape count keeps a record sound. -/
theorem Context.raiseEsc_sound {x : Context} (h : x.Sound) : x.raiseEsc.Sound :=
  ⟨h.sum_eq, h.freq_ne_zero, h.sum_le, h.order_le⟩

theorem Context.raiseEsc_toNat (x : Context) : x.raiseEsc.esc.toNat = min (x.esc.toNat + 1) 0xFFFF := by
  have := x.esc.isLt
  show (BitVec.ofNat 16 (min (x.esc.toNat + 1) 0xFFFF)).toNat = _
  rw [BitVec.toNat_ofNat]
  omega

@[simp] theorem Context.raiseEsc_succ (x : Context) : x.raiseEsc.succ = x.succ := rfl
@[simp] theorem Context.raiseEsc_order (x : Context) : x.raiseEsc.order = x.order := rfl

/-- Every total the model passes to the coder fits an operand (41_contextmodel.md R167). -/
theorem Context.Sound.total_lt {x : Context} (h : x.Sound) : x.total < 2 ^ 17 := by
  have := h.sum_le
  have := x.esc.isLt
  simp only [Config.rescaleLimit] at *
  rw [Context.total]
  omega

/-- A hit's interval lies inside the total (41_contextmodel.md R167). -/
theorem Context.Sound.hit_fits {x : Context} (h : x.Sound) (s : Sym) : x.cum s.val + (x.freq[s]).toNat ≤ x.total := by
  have := x.cum_add_le s
  rw [Context.total, h.sum_eq]
  omega

/-- A record that only gains a link stays sound. -/
theorem Context.Sound.link {x : Context} (h : x.Sound) (v : Vector CtxIndex 257) : Context.Sound { x with succ := v } :=
  ⟨h.sum_eq, h.freq_ne_zero, h.sum_le, h.order_le⟩

end Sys2Proof.Machine
end

