-- ==== Sys2Proof/Laws/Model.lean ====
section
/-! SUPPORT. What `update_model` and the symbol procedures do, and that they keep the model's invariant
(41_contextmodel.md R145, R151, R152, R162 to R167). -/

namespace Sys2Proof.Machine

/-! ### update_model (41_contextmodel.md R145) -/

/-- What `update_model(c, sym)` leaves in the model, where `x` is the record at `c`. -/
def Model.afterHit (u : Setup) (c : Nat) (x : Context) (sym : Sym) (m : Model) : Model :=
  if (x.hit sym).succ[sym] ≠ 0 then
    { m with arena := m.arena.write c (x.hit sym), active := (x.hit sym).succ[sym] }
  else if m.ctxCount.toNat < u.maxCtx.toNat ∧ x.order.toNat < u.modelOrder.toNat then
    { m with
      arena := ((m.arena.write c (x.hit sym)).write m.ctxCount.toNat (Context.fresh (x.order + 1))).write c
        { x.hit sym with succ := (x.hit sym).succ.set sym (m.ctxCount.setWidth 17) }
      active := m.ctxCount.setWidth 17
      ctxCount := m.ctxCount + 1 }
  else { m with arena := m.arena.write c (x.hit sym), active := 0 }

theorem State.mayCreate_iff (s : State) (k : Order) :
    s.mayCreate k = true ↔ s.model.ctxCount.toNat < s.setup.maxCtx.toNat ∧ k.toNat < s.setup.modelOrder.toNat := by
  simp [State.mayCreate]

/-- All that `update_model` does at an allocated record. -/
theorem updateModel_run {c : Nat} {s : State} {x : Context} (h : s.model.arena.read c = some x) (sym : Sym) :
    (updateModel c sym).run s = .ok () (s.withModel (Model.afterHit s.setup c x sym)) := by
  have hb : ((x.hit sym).succ[sym] != 0) = decide ((x.hit sym).succ[sym] ≠ 0) := by
    apply Bool.eq_iff_iff.mpr
    simp only [bne_iff_ne, decide_eq_true_eq]
  have hm : (s.withModel fun m => { m with arena := m.arena.write c (x.hit sym) }).mayCreate (x.hit sym).order =
      decide (s.model.ctxCount.toNat < s.setup.maxCtx.toNat ∧ x.order.toNat < s.setup.modelOrder.toNat) := by
    rw [Context.hit_order]
    apply Bool.eq_iff_iff.mpr
    rw [State.mayCreate_iff]
    simp
  simp only [updateModel, EStateM.run_bind, EStateM.run_get, readCtx_some h, writeCtx_run, hb, hm]
  by_cases h1 : (x.hit sym).succ[sym] ≠ 0
  · simp only [decide_eq_true h1, if_true, setActive_run]
    congr 1
    apply State.eq_of_parts <;> first | rfl | skip
    simp only [State.withModel_model, Model.afterHit, if_pos h1]
  · simp only [decide_eq_false h1, Bool.false_eq_true, if_false]
    by_cases h2 : s.model.ctxCount.toNat < s.setup.maxCtx.toNat ∧ x.order.toNat < s.setup.modelOrder.toNat
    · simp only [decide_eq_true h2, if_true, EStateM.run_bind, initCtx, writeCtx_run, EStateM.run_modify, setActive_run]
      congr 1
      apply State.eq_of_parts <;> first | rfl | skip
      simp only [State.withModel_model, Model.afterHit, if_neg h1, if_pos h2, Context.hit_order]
    · simp only [decide_eq_false h2, Bool.false_eq_true, if_false, setActive_run]
      congr 1
      apply State.eq_of_parts <;> first | rfl | skip
      simp only [State.withModel_model, Model.afterHit, if_neg h1, if_neg h2]

/-- An index that is not allocated stops the model. -/
theorem updateModel_none {c : Nat} {s : State} (h : s.model.arena.read c = none) (sym : Sym) :
    (updateModel c sym).run s = .error (.fault .unallocatedContext) s := by
  simp only [updateModel, EStateM.run_bind, readCtx_run, h]

theorem Memory.read_lt_of_some {m : Model} {u : Setup} (h : m.Sound u) {c : Nat} {x : Context} (hr : m.arena.read c = some x) :
    c < m.ctxCount.toNat := (h.listed_iff c).mp (by simp [hr])

/-- A write to an allocated record that keeps its order and its links keeps the model sound, whatever record may then be
active. -/
theorem Model.Sound.rewrite {m : Model} {u : Setup} (h : m.Sound u) {c : Nat} {x y : Context}
    (hr : m.arena.read c = some x) (hy : y.Sound) (ho : y.order = x.order) (hs : y.succ = x.succ) {a : CtxIndex}
    (ha : m.mode ≠ .idle → a.toNat < m.ctxCount.toNat) :
    Model.Sound { m with arena := m.arena.write c y, active := a } u := by
  have hc := Memory.read_lt_of_some h hr
  have key : ∀ d z, (m.arena.write c y).read d = some z → ∃ w, m.arena.read d = some w ∧ z.order = w.order ∧ z.succ = w.succ := by
    intro d z hz
    rw [Memory.read_write] at hz
    split at hz
    · rename_i hd
      cases hz
      exact ⟨x, by rw [hd]; exact hr, ho, hs⟩
    · exact ⟨z, hz, rfl, rfl⟩
  exact {
    arena_wf := Memory.write_wf h.arena_wf c y
    listed_iff := fun d => by
      show ((m.arena.write c y).read d).isSome = true ↔ d < m.ctxCount.toNat
      rw [Memory.read_write]
      split
      · rename_i hd; simp [hd, hc]
      · exact h.listed_iff d
    idle_empty := h.idle_empty
    fresh_root := h.fresh_root
    active_lt := ha
    count_le := h.count_le
    configured := h.configured
    budget := h.budget
    depth := fun hm d z hz => by
      obtain ⟨w, hw, ho', -⟩ := key d z hz
      rw [ho']; exact h.depth hm d w hw
    root_order := fun z hz => by
      obtain ⟨w, hw, ho', -⟩ := key 0 z hz
      rw [ho']; exact h.root_order w hw
    records := fun d z hz => by
      have hz' : (m.arena.write c y).read d = some z := hz
      rw [Memory.read_write] at hz'
      split at hz'
      · cases hz'; exact hy
      · exact h.records d z hz'
    links := fun d z s hz hne => by
      obtain ⟨w, hw, ho', hs'⟩ := key d z hz
      rw [hs'] at hne
      obtain ⟨v, hv, hvo⟩ := h.links d w s hw hne
      have : ∃ v', (m.arena.write c y).read (w.succ[s]).toNat = some v' ∧ v'.order = v.order := by
        rw [Memory.read_write]
        split
        · rename_i hd
          rw [hd, hr] at hv
          cases hv
          exact ⟨y, rfl, ho⟩
        · exact ⟨v, hv, rfl⟩
      obtain ⟨v', hv', hvo'⟩ := this
      refine ⟨v', ?_, ?_⟩
      · rw [hs']; exact hv'
      · rw [hvo', ho', hvo] }

/-- The root is allocated whenever there is a model. -/
theorem Model.Sound.root {m : Model} {u : Setup} (h : m.Sound u) (hm : m.mode ≠ .idle) : ∃ x, m.arena.read 0 = some x :=
  Option.isSome_iff_exists.mp ((h.listed_iff 0).mpr (by have := h.active_lt hm; omega))

/-- So is the active record. -/
theorem Model.Sound.activeRecord {m : Model} {u : Setup} (h : m.Sound u) (hm : m.mode ≠ .idle) :
    ∃ x, m.arena.read m.active.toNat = some x :=
  Option.isSome_iff_exists.mp ((h.listed_iff _).mpr (h.active_lt hm))

/-- The index of a new child fits a link (10_state.md R42). -/
theorem Model.Sound.childIndex {m : Model} {u : Setup} (hu : u.Sound) (hlt : m.ctxCount.toNat < u.maxCtx.toNat) :
    (m.ctxCount.setWidth 17 : CtxIndex).toNat = m.ctxCount.toNat := by
  have h1 := hu.max_le
  have h2 : Config.arenaCtx ≤ 2 ^ 17 := by
    have := Config.arenaCtxPred.isLt
    unfold Config.arenaCtx
    omega
  rw [BitVec.toNat_setWidth, Nat.mod_eq_of_lt (by omega)]

theorem Order.succ_toNat {k : Order} {n : Nat} (h : k.toNat < n) (hn : n ≤ 16) : (k + 1).toNat = k.toNat + 1 := by
  have e1 : (1 : Order).toNat = 1 := rfl
  rw [BitVec.toNat_add, e1, Nat.mod_eq_of_lt (by omega)]

theorem ctxCount_succ {n : BitVec 18} {m : Nat} (h : n.toNat < m) (hm : m ≤ 2 ^ 17) : (n + 1).toNat = n.toNat + 1 := by
  have e1 : (1 : BitVec 18).toNat = 1 := rfl
  rw [BitVec.toNat_add, e1, Nat.mod_eq_of_lt (by omega)]

theorem Config.arenaCtx_le : Config.arenaCtx ≤ 2 ^ 17 := by
  have := Config.arenaCtxPred.isLt
  unfold Config.arenaCtx
  omega

theorem Setup.Sound.order_le {u : Setup} (hu : u.Sound) : u.modelOrder.toNat ≤ 16 := by
  rcases hu.order_legal with h | h
  · rw [h]; decide
  · exact h.2

/-- `update_model` in a chunk keeps the model sound (41_contextmodel.md R162 to R165, R146). -/
theorem Model.Sound.afterHit {m : Model} {u : Setup} (hu : u.Sound) (h : m.Sound u) (hm : m.mode.inChunk) {c : Nat}
    (hf : m.mode ≠ .fresh) {x : Context} (hr : m.arena.read c = some x) (sym : Sym) : (m.afterHit u c x sym).Sound u := by
  have hx := h.records c x hr
  have hy := Context.hit_sound hx sym
  have hidle : m.mode ≠ .idle := by
    rcases hm with h | h | h <;> rw [h] <;> decide
  have hc := Memory.read_lt_of_some h hr
  unfold Model.afterHit
  by_cases h1 : (x.hit sym).succ[sym] ≠ 0
  · rw [if_pos h1]
    refine h.rewrite hr hy (by simp) (by simp) fun _ => ?_
    rw [Context.hit_succ] at h1 ⊢
    obtain ⟨z, hz, -⟩ := h.links c x sym hr h1
    exact Memory.read_lt_of_some h hz
  · rw [if_neg h1]
    by_cases h2 : m.ctxCount.toNat < u.maxCtx.toNat ∧ x.order.toNat < u.modelOrder.toNat
    · rw [if_pos h2]
      obtain ⟨hlt, hord⟩ := h2
      have hci := Model.Sound.childIndex hu hlt
      have hcc := ctxCount_succ hlt (Nat.le_trans hu.max_le Config.arenaCtx_le)
      have hox := Order.succ_toNat hord hu.order_le
      have hne : c ≠ m.ctxCount.toNat := by omega
      have hread : ∀ d, (((m.arena.write c (x.hit sym)).write m.ctxCount.toNat (Context.fresh (x.order + 1))).write c
          { x.hit sym with succ := (x.hit sym).succ.set sym (m.ctxCount.setWidth 17) }).read d =
          if d = c then some { x.hit sym with succ := (x.hit sym).succ.set sym (m.ctxCount.setWidth 17) }
          else if d = m.ctxCount.toNat then some (Context.fresh (x.order + 1)) else m.arena.read d := by
        intro d
        rw [Memory.read_write, Memory.read_write, Memory.read_write]
        by_cases h1 : d = c
        · simp only [if_pos h1]
        · simp only [if_neg h1]
      have hfs : (Context.fresh (x.order + 1)).Sound := Context.fresh_sound (by rw [hox]; have := hu.order_le; omega)
      exact {
        arena_wf := Memory.write_wf (Memory.write_wf (Memory.write_wf h.arena_wf _ _) _ _) _ _
        listed_iff := fun d => by
          show (Memory.read _ d).isSome = true ↔ d < (m.ctxCount + 1).toNat
          rw [hread, hcc]
          split
          · rename_i hd; simp; omega
          · split
            · rename_i hd; simp; omega
            · rw [h.listed_iff]; omega
        idle_empty := fun hi => absurd hi hidle
        fresh_root := fun hi => absurd hi hf
        active_lt := fun _ => by
          show (m.ctxCount.setWidth 17 : CtxIndex).toNat < (m.ctxCount + 1).toNat
          rw [hci, hcc]; omega
        count_le := by
          show (m.ctxCount + 1).toNat ≤ _
          rw [hcc]; have := hu.max_le; omega
        configured := h.configured
        budget := fun _ => by
          show (m.ctxCount + 1).toNat ≤ _
          rw [hcc]; omega
        depth := fun hmm d z hz => by
          rw [hread] at hz
          split at hz
          · cases hz; simpa using h.depth hm c x hr
          · split at hz
            · cases hz
              show (x.order + 1).toNat ≤ _
              rw [hox]; omega
            · exact h.depth hm d z hz
        root_order := fun z hz => by
          rw [hread] at hz
          split at hz
          · rename_i h0
            cases hz
            rw [← h0] at hr
            simpa using h.root_order x hr
          · split at hz
            · omega
            · exact h.root_order z hz
        records := fun d z hz => by
          rw [hread] at hz
          split at hz
          · cases hz; exact hy.link _
          · split at hz
            · cases hz; exact hfs
            · exact h.records d z hz
        links := fun d z t hz hne0 => by
          have hold : ∀ e (w : Context), m.arena.read e = some w → ∃ w', (((m.arena.write c (x.hit sym)).write m.ctxCount.toNat
              (Context.fresh (x.order + 1))).write c
              { x.hit sym with succ := (x.hit sym).succ.set sym (m.ctxCount.setWidth 17) }).read e = some w' ∧
              w'.order = w.order := by
            intro e w hw
            rw [hread]
            split
            · rename_i he
              rw [he, hr] at hw
              cases hw
              exact ⟨_, rfl, by simp⟩
            · rw [if_neg (by have := Memory.read_lt_of_some h hw; omega)]
              exact ⟨w, hw, rfl⟩
          have hz' := hz
          rw [hread] at hz'
          split at hz'
          · cases hz'
            have hget : ((x.hit sym).succ.set sym (m.ctxCount.setWidth 17))[t] =
                if sym.val = t.val then m.ctxCount.setWidth 17 else x.succ[t] := by
              show ((x.hit sym).succ.set sym.val (m.ctxCount.setWidth 17))[t.val] = _
              rw [Vector.getElem_set]
              simp
            show ∃ y, Memory.read _ (((x.hit sym).succ.set sym (m.ctxCount.setWidth 17))[t]).toNat = some y ∧
              y.order.toNat = (x.hit sym).order.toNat + 1
            have hne1 : ((x.hit sym).succ.set sym (m.ctxCount.setWidth 17))[t] ≠ 0 := hne0
            rw [hget] at hne1 ⊢
            split
            · rw [hci, hread, if_neg (by omega), if_pos rfl]
              exact ⟨_, rfl, by simpa [Context.fresh] using hox⟩
            · rename_i hts
              rw [if_neg hts] at hne1
              obtain ⟨v, hv, hvo⟩ := h.links c x t hr hne1
              obtain ⟨v', hv', hvo'⟩ := hold _ v hv
              exact ⟨v', hv', by rw [hvo', hvo]; simp⟩
          · split at hz'
            · cases hz'
              have : (Context.fresh (x.order + 1)).succ[t.val] = 0 := by
                show (Vector.replicate 257 (0 : CtxIndex))[t.val] = 0
                rw [Vector.getElem_replicate]
              exact absurd this hne0
            · obtain ⟨v, hv, hvo⟩ := h.links d z t hz' hne0
              obtain ⟨v', hv', hvo'⟩ := hold _ v hv
              exact ⟨v', hv', by rw [hvo', hvo]⟩ }
    · rw [if_neg h2]
      exact h.rewrite hr hy (by simp) (by simp) fun _ => by
        have := h.active_lt hidle
        show (0 : CtxIndex).toNat < _
        simp; omega

/-- What `update_model` did, stated case by case (41_contextmodel.md R145). -/
theorem Model.afterHit_hitUpdate {m : Model} {u : Setup} (hu : u.Sound) (h : m.Sound u) {c : Nat}
    {x : Context} (hr : m.arena.read c = some x) (sym : Sym) : HitUpdate u m (m.afterHit u c x sym) c x sym := by
  have hc := Memory.read_lt_of_some h hr
  constructor
  · intro h1
    rw [Model.afterHit, if_pos h1]
    exact ⟨rfl, rfl, rfl⟩
  · intro h1 h2 h3
    have h1' : ¬ (x.hit sym).succ[sym] ≠ 0 := not_not.mpr h1
    have hci := Model.Sound.childIndex hu h2
    have hcc := ctxCount_succ h2 (Nat.le_trans hu.max_le Config.arenaCtx_le)
    have hne : m.ctxCount.toNat ≠ c := by omega
    simp only [Model.afterHit, if_neg h1', if_pos (And.intro h2 h3)]
    refine ⟨hci, hcc, ?_, ?_, fun d hd1 hd2 => ?_⟩
    · rw [Memory.read_write, if_neg hne, Memory.read_write, if_pos rfl]
    · rw [Memory.read_write, if_pos rfl]
    · rw [Memory.read_write, if_neg hd1, Memory.read_write, if_neg hd2, Memory.read_write, if_neg hd1]
  · intro h1 h2
    have h1' : ¬ (x.hit sym).succ[sym] ≠ 0 := not_not.mpr h1
    have h2' : ¬ (m.ctxCount.toNat < u.maxCtx.toNat ∧ x.order.toNat < u.modelOrder.toNat) := by omega
    rw [Model.afterHit, if_neg h1', if_neg h2']
    exact ⟨rfl, rfl, rfl⟩

end Sys2Proof.Machine
end

