-- ==== Sys2Proof/Laws/Symbols.lean ====
section
/-! SUPPORT. What the symbol procedures can do: what they leave alone, whether they complete, raise or hold
(41_contextmodel.md R151, R152; 60_exceptions.md R206). -/

namespace Sys2Proof.Machine

variable {α β : Type}

/-! ### How actions stop -/

/-- The stops an action can end in. -/
def Act.Stops (E : Stop → Prop) (x : Act α) : Prop := ∀ s e t, x.run s = .error e t → E e

theorem Act.Stops.bind {E : Stop → Prop} {x : Act α} {f : α → Act β} (hx : x.Stops E) (hf : ∀ a, (f a).Stops E) :
    Act.Stops E (x >>= f) := by
  intro s e t h
  rcases act_bind_error.mp h with h | ⟨a, u, -, h⟩
  · exact hx s e t h
  · exact hf a u e t h

theorem Act.Stops.mono {E F : Stop → Prop} {x : Act α} (h : x.Stops E) (hEF : ∀ e, E e → F e) : x.Stops F :=
  fun s e t he => hEF e (h s e t he)

theorem Act.Stops.ite {E : Stop → Prop} {p : Prop} [Decidable p] {x y : Act α} (hx : x.Stops E) (hy : y.Stops E) :
    Act.Stops E (if p then x else y) := by split <;> assumption

theorem stops_pure {E : Stop → Prop} (a : α) : Act.Stops E (pure a) := by
  intro s e t h; cases h

theorem stops_modify {E : Stop → Prop} (f : State → State) : Act.Stops E (modify f : Act PUnit) := by
  intro s e t h; cases h

theorem stops_get {E : Stop → Prop} : Act.Stops E (get : Act State) := by
  intro s e t h; cases h

theorem stops_throw {E : Stop → Prop} {e : Stop} (he : E e) : Act.Stops E (throw e : Act α) := by
  intro s e' t h; cases h; exact he

theorem stops_check {E : Stop → Prop} {e : ErrCode} (he : E (.raise e)) (ok : Bool) : (check e ok).Stops E := by
  intro s e' t h
  rw [check_run] at h
  split at h
  · cases h
  · cases h; exact he

/-- What the encode primitives can end in. -/
def Stop.encoding (e : Stop) : Prop := e = .raise .ovf ∨ ∃ f, e = .fault f

/-- What the decode primitives can end in. -/
def Stop.decoding (e : Stop) : Prop := e = .hold ∨ ∃ f, e = .fault f

theorem shiftLow_stops : shiftLow.Stops Stop.encoding :=
  (stops_modify _).bind fun _ => stops_get.bind fun _ => (stops_check (.inl rfl) _).bind fun _ => stops_modify _

theorem shiftLowTimes_stops (n : Nat) : (shiftLowTimes n).Stops Stop.encoding := by
  induction n with
  | zero => exact stops_pure _
  | succ n ih => exact shiftLow_stops.bind fun _ => ih

theorem encNormalizeLoop_stops (n : Nat) : (encNormalizeLoop n).Stops Stop.encoding := by
  induction n with
  | zero => exact stops_get.bind fun _ => .ite (stops_throw (.inr ⟨_, rfl⟩)) (stops_pure _)
  | succ n ih =>
    exact stops_get.bind fun _ => .ite ((stops_modify _).bind fun _ => shiftLow_stops.bind fun _ => ih) (stops_pure _)

theorem rcEncode_stops (start size total : Nat) : (rcEncode start size total).Stops Stop.encoding :=
  (stops_modify _).bind fun _ => encNormalizeLoop_stops 3

theorem rcGetFreq_stops (total : Nat) : (rcGetFreq total).Stops fun e => ∃ f, e = .fault f := by
  intro s e t h
  rw [rcGetFreq_run] at h
  split at h
  · cases h; exact ⟨_, rfl⟩
  · cases h

theorem readIn_stops : readIn.Stops (· = .hold) := by
  intro s e t h
  by_cases hr : s.inputReady 1
  · rw [readIn_ready hr] at h; cases h
  · rw [readIn_starved hr] at h; cases h; rfl

theorem shiftInByte_stops : shiftInByte.Stops (· = .hold) := readIn_stops.bind fun _ => stops_modify _

theorem shiftInBytes_stops (n : Nat) : (shiftInBytes n).Stops (· = .hold) := by
  induction n with
  | zero => exact stops_pure _
  | succ n ih => exact shiftInByte_stops.bind fun _ => ih

theorem decNormalizeLoop_stops (n : Nat) : (decNormalizeLoop n).Stops Stop.decoding := by
  induction n with
  | zero => exact stops_get.bind fun _ => .ite (stops_throw (.inr ⟨_, rfl⟩)) (stops_pure _)
  | succ n ih =>
    exact stops_get.bind fun _ =>
      .ite ((shiftInByte_stops.mono fun _ h => .inl h).bind fun _ => (stops_modify _).bind fun _ => ih) (stops_pure _)

theorem rcUpdate_stops (start size : Nat) : (rcUpdate start size).Stops Stop.decoding :=
  (stops_modify _).bind fun _ => decNormalizeLoop_stops 3

theorem readCtx_stops (c : Nat) : (readCtx c).Stops fun e => ∃ f, e = .fault f := by
  intro s e t h
  rw [readCtx_run] at h
  split at h
  · cases h
  · cases h; exact ⟨_, rfl⟩

theorem updateModel_stops (c : Nat) (sym : Sym) : (updateModel c sym).Stops fun e => ∃ f, e = .fault f := by
  intro s e t h
  cases hr : s.model.arena.read c with
  | none => rw [updateModel_none hr] at h; cases h; exact ⟨_, rfl⟩
  | some x => rw [updateModel_run hr] at h; cases h

/-- What `model_encode` can end in: `E_OVF`, or the `E_ARG` of order -1 (41_contextmodel.md R151, R206). -/
theorem modelEncodeFrom_stops (sym : Sym) (l : List Nat) :
    (modelEncodeFrom sym l).Stops fun e => e = .raise .arg ∨ Stop.encoding e := by
  have henc (a b c : Nat) : (rcEncode a b c).Stops fun e => e = .raise .arg ∨ Stop.encoding e :=
    (rcEncode_stops a b c).mono fun _ h => .inr h
  induction l with
  | nil =>
    exact (stops_check (.inl rfl) _).bind fun _ => (henc _ _ _).bind fun _ => stops_modify _
  | cons c lower ih =>
    refine ((readCtx_stops c).mono fun _ h => .inr (.inr h)).bind fun x => .ite ?_ ?_
    · exact (henc _ _ _).bind fun _ => (updateModel_stops c sym).mono fun _ h => .inr (.inr h)
    · exact (henc _ _ _).bind fun _ => (stops_modify _).bind fun _ => ih

theorem modelEncode_stops (sym : Sym) : (modelEncode sym).Stops fun e => e = .raise .arg ∨ Stop.encoding e :=
  stops_get.bind fun _ => modelEncodeFrom_stops sym _

/-- What `model_decode` can end in: `E_DESYNC`, or a hold (41_contextmodel.md R152, 60_exceptions.md R206). -/
theorem modelDecodeFrom_stops (l : List Nat) :
    (modelDecodeFrom l).Stops fun e => e = .raise .desync ∨ Stop.decoding e := by
  have hget (t : Nat) : (rcGetFreq t).Stops fun e => e = .raise .desync ∨ Stop.decoding e :=
    (rcGetFreq_stops t).mono fun _ h => .inr (.inr h)
  have hupd (a b : Nat) : (rcUpdate a b).Stops fun e => e = .raise .desync ∨ Stop.decoding e :=
    (rcUpdate_stops a b).mono fun _ h => .inr h
  induction l with
  | nil =>
    exact (hget _).bind fun _ => (stops_check (.inl rfl) _).bind fun _ => (hupd _ _).bind fun _ =>
      (stops_modify _).bind fun _ => stops_pure _
  | cons c lower ih =>
    refine ((readCtx_stops c).mono fun _ h => .inr (.inr h)).bind fun x => (hget _).bind fun v =>
      (stops_check (.inl rfl) _).bind fun _ => .ite ?_ ?_
    · exact (hupd _ _).bind fun _ => (stops_modify _).bind fun _ => ih
    · cases x.scan v with
      | none => exact stops_throw (.inl rfl)
      | some sym =>
        exact (hupd _ _).bind fun _ => ((updateModel_stops c sym).mono fun _ h => .inr (.inr h)).bind fun _ => stops_pure _

theorem modelDecode_stops : modelDecode.Stops fun e => e = .raise .desync ∨ Stop.decoding e :=
  stops_get.bind fun _ => modelDecodeFrom_stops _

/-! ### What the symbol procedures leave alone -/

/-- The model's registers but the arena. -/
def Model.SameRegisters (m n : Model) : Prop := n.mode = m.mode ∧ n.active = m.active ∧ n.ctxCount = m.ctxCount

/-- An action whose completions are related by `Ok` and whose stops, in the state they leave, by `Err`. -/
def Act.Spec (Ok Err : State → State → Prop) (x : Act α) : Prop :=
  ∀ s, match x.run s with
    | .ok _ t => Ok s t
    | .error _ t => Err s t

theorem Act.Spec.bind {Ok₁ Err₁ Ok₂ Err₂ Ok Err : State → State → Prop} {x : Act α} {f : α → Act β}
    (hx : x.Spec Ok₁ Err₁) (hf : ∀ a, (f a).Spec Ok₂ Err₂) (h1 : ∀ s t, Err₁ s t → Err s t)
    (h2 : ∀ s u t, Ok₁ s u → Ok₂ u t → Ok s t) (h3 : ∀ s u t, Ok₁ s u → Err₂ u t → Err s t) : Act.Spec Ok Err (x >>= f) := by
  intro s
  have hs := hx s
  cases e : x.run s with
  | ok a u =>
    rw [e] at hs
    have hu := hf a u
    rw [act_bind_of_ok e]
    revert hu
    cases (f a).run u with
    | ok b t => exact h2 s u t hs
    | error b t => exact h3 s u t hs
  | error e' u =>
    rw [e] at hs
    rw [act_bind_of_error e]
    exact h1 s u hs

theorem Act.Keeps.spec {R : State → State → Prop} {x : Act α} (h : x.Keeps R) : x.Spec R R := by
  intro s
  have := h s
  revert this
  cases x.run s <;> exact id

theorem spec_modify {Ok Err : State → State → Prop} {f : State → State} (h : ∀ s, Ok s (f s)) :
    Act.Spec Ok Err (modify f : Act PUnit) := h

theorem spec_pure {Ok Err : State → State → Prop} (a : α) (h : ∀ s, Ok s s) : Act.Spec Ok Err (pure a) := h

theorem spec_throw {Ok Err : State → State → Prop} (e : Stop) (h : ∀ s, Err s s) : Act.Spec Ok Err (throw e : Act α) := h

theorem spec_check {Ok Err : State → State → Prop} (e : ErrCode) (ok : Bool) (h : ∀ s, Ok s s) (h' : ∀ s, Err s s) :
    Act.Spec Ok Err (check e ok) := by
  intro s
  rw [check_run]
  cases ok
  · exact h' s
  · exact h s

theorem spec_readCtx {Ok Err : State → State → Prop} (c : Nat) (h : ∀ s, Ok s s) (h' : ∀ s, Err s s) :
    Act.Spec Ok Err (readCtx c) := by
  intro s
  rw [readCtx_run]
  cases s.model.arena.read c
  · exact h' s
  · exact h s

/-- The frame of a symbol procedure, for the encode side and the decode side alike: `F` is the frame of the coder's primitives. -/
structure FrameLike (F : State → State → Prop) : Prop where
  refl : ∀ s, F s s
  trans : ∀ a b c, F a b → F b c → F a c
  model : ∀ s t (m : Model), F s t → F (s.withModel fun _ => m) (t.withModel fun _ => m)
  same : ∀ s t, F s t → t.model = s.model

/-- The frame, with the model related by `P`. -/
def FrameWith (F : State → State → Prop) (P : Model → Model → Prop) (s t : State) : Prop :=
  F s (t.withModel fun _ => s.model) ∧ P s.model t.model

theorem FrameWith.trans {F : State → State → Prop} (hF : FrameLike F) {P Q R : Model → Model → Prop}
    (hPQ : ∀ a b c, P a b → Q b c → R a c) {a b c : State} (h : FrameWith F P a b) (k : FrameWith F Q b c) :
    FrameWith F R a c := by
  refine ⟨hF.trans _ _ _ h.1 ?_, hPQ _ _ _ h.2 k.2⟩
  have := hF.model _ _ a.model k.1
  exact this

theorem FrameWith.of_frame {F : State → State → Prop} (hF : FrameLike F) {P : Model → Model → Prop} (hP : ∀ m, P m m)
    {s t : State} (h : F s t) : FrameWith F P s t := by
  have hm := hF.same _ _ h
  have e : (t.withModel fun _ => s.model) = t := by
    apply State.eq_of_parts <;> simp [hm]
  refine ⟨by rw [e]; exact h, by rw [hm]; exact hP _⟩

theorem FrameWith.of_model {F : State → State → Prop} (hF : FrameLike F) {P : Model → Model → Prop} {s : State}
    {f : Model → Model} (h : P s.model (f s.model)) : FrameWith F P s (s.withModel f) :=
  ⟨hF.refl s, h⟩

theorem EncodeFrame.frameLike : FrameLike EncodeFrame where
  refl := EncodeFrame.refl
  trans := EncodeFrame.trans
  model := by
    intro s t m h
    exact { h with model := rfl }
  same := fun _ _ h => h.model

theorem DecodeFrame.frameLike : FrameLike DecodeFrame where
  refl := DecodeFrame.refl
  trans := DecodeFrame.trans
  model := by
    intro s t m h
    exact { h with model := rfl }
  same := fun _ _ h => h.model

/-- What a completed symbol procedure may do to the model: anything but change its mode, and the arena stays canonical. -/
def Model.Coded (m n : Model) : Prop := n.mode = m.mode ∧ (m.arena.wf = true → n.arena.wf = true)

/-- What a symbol procedure that stops has done to the model: only records have changed (60_exceptions.md R206). -/
def Model.Stopped (m n : Model) : Prop := m.SameRegisters n ∧ (m.arena.wf = true → n.arena.wf = true)

theorem Model.Stopped.refl (m : Model) : m.Stopped m := ⟨⟨rfl, rfl, rfl⟩, id⟩

theorem Model.Stopped.trans (a b c : Model) (h : a.Stopped b) (k : b.Stopped c) : a.Stopped c :=
  ⟨⟨k.1.1.trans h.1.1, k.1.2.1.trans h.1.2.1, k.1.2.2.trans h.1.2.2⟩, fun w => k.2 (h.2 w)⟩

theorem Model.Stopped.coded {m n : Model} (h : m.Stopped n) : m.Coded n := ⟨h.1.1, h.2⟩

theorem Model.Stopped.trans_coded (a b c : Model) (h : a.Stopped b) (k : b.Coded c) : a.Coded c :=
  ⟨k.1.trans h.1.1, fun w => k.2 (h.2 w)⟩

theorem Model.afterHit_coded (u : Setup) (c : Nat) (x : Context) (sym : Sym) (m : Model) : m.Coded (m.afterHit u c x sym) := by
  unfold Model.afterHit
  split
  · exact ⟨rfl, fun w => Memory.write_wf w _ _⟩
  · split
    · exact ⟨rfl, fun w => Memory.write_wf (Memory.write_wf (Memory.write_wf w _ _) _ _) _ _⟩
    · exact ⟨rfl, fun w => Memory.write_wf w _ _⟩

section Procedures

variable {F : State → State → Prop} (hF : FrameLike F)
include hF

theorem updateModel_frame (c : Nat) (sym : Sym) :
    (updateModel c sym).Spec (FrameWith F Model.Coded) (FrameWith F Model.Stopped) := by
  intro s
  cases hr : s.model.arena.read c with
  | none =>
    rw [updateModel_none hr]
    exact FrameWith.of_frame hF Model.Stopped.refl (hF.refl s)
  | some x =>
    rw [updateModel_run hr]
    exact FrameWith.of_model hF (Model.afterHit_coded _ _ _ _ _)

theorem setActive_frame (c : CtxIndex) : (setActive c).Spec (FrameWith F Model.Coded) (FrameWith F Model.Stopped) :=
  spec_modify fun _ => FrameWith.of_model hF ⟨rfl, id⟩

theorem noteEscape_frame (c : Nat) (x : Context) :
    (noteEscape c x).Spec (FrameWith F Model.Stopped) (FrameWith F Model.Stopped) :=
  spec_modify fun _ => FrameWith.of_model hF ⟨⟨rfl, rfl, rfl⟩, fun w => Memory.write_wf w _ _⟩

/-- After actions that change no register of the model, an action that completes or stops. -/
theorem frame_bind {x : Act α} {f : α → Act β} (hx : x.Spec (FrameWith F Model.Stopped) (FrameWith F Model.Stopped))
    (hf : ∀ a, (f a).Spec (FrameWith F Model.Coded) (FrameWith F Model.Stopped)) :
    Act.Spec (FrameWith F Model.Coded) (FrameWith F Model.Stopped) (x >>= f) :=
  hx.bind hf (fun _ _ h => h) (fun _ _ _ h k => h.trans hF Model.Stopped.trans_coded k)
    (fun _ _ _ h k => h.trans hF Model.Stopped.trans k)

theorem frame_keeps {x : Act α} (hx : x.Keeps F) : x.Spec (FrameWith F Model.Stopped) (FrameWith F Model.Stopped) := by
  intro s
  have := hx s
  revert this
  cases x.run s <;> exact fun h => FrameWith.of_frame hF Model.Stopped.refl h

theorem frame_check (e : ErrCode) (ok : Bool) :
    (check e ok).Spec (FrameWith F Model.Stopped) (FrameWith F Model.Stopped) :=
  spec_check e ok (fun s => .of_frame hF Model.Stopped.refl (hF.refl s)) fun s => .of_frame hF Model.Stopped.refl (hF.refl s)

theorem frame_readCtx (c : Nat) : (readCtx c).Spec (FrameWith F Model.Stopped) (FrameWith F Model.Stopped) :=
  spec_readCtx c (fun s => .of_frame hF Model.Stopped.refl (hF.refl s)) fun s => .of_frame hF Model.Stopped.refl (hF.refl s)

omit hF in
theorem frame_ite {p : Prop} [Decidable p] {x y : Act α} {Ok Err : State → State → Prop} (hx : x.Spec Ok Err)
    (hy : y.Spec Ok Err) : Act.Spec Ok Err (if p then x else y) := by split <;> assumption

omit hF in
theorem frame_then_pure {x : Act α} {b : β} (hx : x.Spec (FrameWith F Model.Coded) (FrameWith F Model.Stopped)) :
    Act.Spec (FrameWith F Model.Coded) (FrameWith F Model.Stopped) (x >>= fun _ => pure b) := by
  intro s
  have := hx s
  cases e : x.run s with
  | ok a u => rw [act_bind_of_ok e]; rw [e] at this; exact this
  | error a u => rw [act_bind_of_error e]; rw [e] at this; exact this

end Procedures

/-- `model_encode` leaves everything but the encode side and the model; the model's mode stays, and a stop leaves its registers
(60_exceptions.md R206). -/
theorem modelEncodeFrom_frame (sym : Sym) (l : List Nat) :
    (modelEncodeFrom sym l).Spec (FrameWith EncodeFrame Model.Coded) (FrameWith EncodeFrame Model.Stopped) := by
  have hF := EncodeFrame.frameLike
  have henc (a b c : Nat) := frame_keeps hF (rcEncode_frame a b c)
  induction l with
  | nil => exact frame_bind hF (frame_check hF _ _) fun _ => frame_bind hF (henc _ _ _) fun _ => setActive_frame hF _
  | cons c lower ih =>
    refine frame_bind hF (frame_readCtx hF c) fun x => frame_ite ?_ ?_
    · exact frame_bind hF (henc _ _ _) fun _ => updateModel_frame hF c sym
    · exact frame_bind hF (henc _ _ _) fun _ => frame_bind hF (noteEscape_frame hF c x) fun _ => ih

theorem modelEncode_frame (sym : Sym) :
    (modelEncode sym).Spec (FrameWith EncodeFrame Model.Coded) (FrameWith EncodeFrame Model.Stopped) :=
  fun s => modelEncodeFrom_frame sym _ s

/-- `model_decode` leaves everything but the decode side and the model; the model's mode stays, and a stop leaves its registers
(60_exceptions.md R206). -/
theorem modelDecodeFrom_frame (l : List Nat) :
    (modelDecodeFrom l).Spec (FrameWith DecodeFrame Model.Coded) (FrameWith DecodeFrame Model.Stopped) := by
  have hF := DecodeFrame.frameLike
  have hget (t : Nat) := frame_keeps hF (rcGetFreq_frame t)
  have hupd (a b : Nat) := frame_keeps hF (rcUpdate_frame a b)
  induction l with
  | nil =>
    exact frame_bind hF (hget _) fun _ => frame_bind hF (frame_check hF _ _) fun _ => frame_bind hF (hupd _ _) fun _ =>
      frame_then_pure (setActive_frame hF _)
  | cons c lower ih =>
    refine frame_bind hF (frame_readCtx hF c) fun x => frame_bind hF (hget _) fun v => frame_bind hF (frame_check hF _ _)
      fun _ => frame_ite ?_ ?_
    · exact frame_bind hF (hupd _ _) fun _ => frame_bind hF (noteEscape_frame hF c x) fun _ => ih
    · cases x.scan v with
      | none => exact spec_throw _ fun s => .of_frame hF Model.Stopped.refl (hF.refl s)
      | some sym => exact frame_bind hF (hupd _ _) fun _ => frame_then_pure (updateModel_frame hF c sym)

theorem modelDecode_frame :
    modelDecode.Spec (FrameWith DecodeFrame Model.Coded) (FrameWith DecodeFrame Model.Stopped) :=
  fun s => modelDecodeFrom_frame _ s

end Sys2Proof.Machine
end

