-- ==== Sys2Proof/Laws/Commands.lean ====
section
/-! SUPPORT. Every command as one body of actions: when it is blocked, what it can raise, when it holds, and what a raise has left
(60_exceptions.md R203 to R207, 42_control.md R193). -/

namespace Sys2Proof.Machine

/-- The actions of a command, between the check for a recorded fault and its response. -/
def body : Instr → Act Word32
  | .nop => pure 0
  | .blkReset => do modify State.softReset; return 0
  | .csrRd csr => do
    match csrAt csr with
    | none => throw (.raise .csr)
    | some c => return (← get).csrValue c
  | .csrWr csr data => do
    match csrAt csr with
    | some .ctrl => writeCtrl data
    | some .modelOrder => writeModelOrder data
    | some .maxCtx => writeMaxCtx data
    | _ => throw (.raise .csr)
    return 0
  | .dbgRd ctxi off => do
    let s ← get
    check .range (decide (ctxi.toNat < s.model.ctxCount.toNat))
    let x ← readCtx ctxi.toNat
    match x.fieldAt off.toNat with
    | none => throw (.raise .range)
    | some v => return v
  | .rcInitEnc => do
    modify (State.withCoder fun _ => Coder.startEncode)
    modify (State.withEvents fun v => { v with cntOut := 0 })
    return 0
  | .rcEncode start size total => do
    let s ← get
    check .seq (s.coder.mode == .enc)
    check .arg (total != 0)
    check .arg (intervalFits start.toNat size.toNat total.toNat)
    rcEncode start.toNat size.toNat total.toNat
    return 0
  | .rcFlush => do
    let s ← get
    check .seq (s.coder.mode == .enc)
    shiftLowTimes Config.flushShifts
    modify (State.withCoder fun c => { c with mode := .idle })
    return (← get).events.cntOut
  | .rcInitDec => do
    modify (State.withCoder Coder.startDecode)
    modify (State.withEvents fun v => { v with cntIn := 0, cntZfill := 0, zfill := false })
    shiftInBytes 4
    modify (State.withCoder fun c => { c with mode := .dec })
    return 0
  | .rcGetFreq total => do
    let s ← get
    check .seq (s.coder.mode == .dec && !s.coder.dpend)
    check .arg (total != 0)
    let v ← rcGetFreq total.toNat
    return BitVec.ofNat 32 v
  | .rcUpdate start size => do
    let s ← get
    check .seq (s.coder.mode == .dec && s.coder.dpend)
    check .arg (intervalFits start.toNat size.toNat s.coder.dtot.toNat)
    check .desync (codePointInside start.toNat size.toNat s.coder.range.toNat s.coder.code.toNat)
    rcUpdate start.toNat size.toNat
    return 0
  | .cmReset => do
    let s ← get
    check .seq (s.setup.modelOrder != 0)
    modify (State.withModel fun m => { m with arena := [] })
    initCtx 0 0
    modify (State.withModel fun m => { m with ctxCount := 1, active := 0 })
    modify (State.withEvents fun v => { v with cntSym := 0 })
    modify (State.withModel fun m => { m with mode := .fresh })
    return 0
  | .cmStartEnc => do
    let s ← get
    check .seq (s.model.mode == .fresh || s.model.mode == .enc)
    modify (State.withModel fun m => { m with active := 0, mode := .enc })
    return 0
  | .cmStartDec => do
    let s ← get
    check .seq (s.model.mode == .fresh || s.model.mode == .dec)
    modify (State.withModel fun m => { m with active := 0, mode := .dec })
    return 0
  | .cmEncode sym => do
    let s ← get
    check .seq (s.model.mode == .enc && s.coder.mode == .enc)
    match symOperand sym with
    | none => throw (.raise .arg)
    | some a =>
      modelEncode a
      symbolDone a.val
      return 0
  | .cmDecode => do
    let s ← get
    check .seq (s.model.mode == .dec && s.coder.mode == .dec && !s.coder.dpend)
    let sym ← modelDecode
    symbolDone sym
    return BitVec.ofNat 32 sym

/-- A command is refused while a fault is recorded, unless it is one of the four inspection commands, and otherwise runs its body. -/
theorem exec_eq (i : Instr) (s : State) :
    exec i s = if s.fault.raised && !neverBlocked i.opcode then .next s.blocked else runCommand i.opcode (body i) s := by
  have hb (opc : OpcodeField) (b : Act Word32) (h : neverBlocked opc = false) :
      runUnlessBlocked opc b s = if s.fault.raised && !neverBlocked opc then .next s.blocked else runCommand opc b s := by
    rw [h, Bool.not_false, Bool.and_true]
    rfl
  have hn (opc : OpcodeField) (b : Act Word32) (h : neverBlocked opc = true) :
      runCommand opc b s = if s.fault.raised && !neverBlocked opc then .next s.blocked else runCommand opc b s := by
    rw [h, Bool.not_true, Bool.and_false]
    rfl
  cases i with
  | nop => exact hn Opc.nop (body .nop) rfl
  | blkReset => exact hn Opc.blkReset (body .blkReset) rfl
  | csrRd c => exact hn Opc.csrRd _ rfl
  | csrWr c d => exact hb Opc.csrWr _ rfl
  | dbgRd c o => exact hn Opc.dbgRd _ rfl
  | rcInitEnc => exact hb Opc.rcInitEnc _ rfl
  | rcEncode a b c => exact hb Opc.rcEncode _ rfl
  | rcFlush => exact hb Opc.rcFlush _ rfl
  | rcInitDec => exact hb Opc.rcInitDec _ rfl
  | rcGetFreq c => exact hb Opc.rcGetFreq _ rfl
  | rcUpdate a b => exact hb Opc.rcUpdate _ rfl
  | cmReset => exact hb Opc.cmReset _ rfl
  | cmStartEnc => exact hb Opc.cmStartEnc _ rfl
  | cmStartDec => exact hb Opc.cmStartDec _ rfl
  | cmEncode a => exact hb Opc.cmEncode _ rfl
  | cmDecode => exact hb Opc.cmDecode _ rfl

/-- With no fault recorded a command runs its body. -/
theorem exec_clear {i : Instr} {s : State} (h : s.fault.raised = false) : exec i s = runCommand i.opcode (body i) s := by
  rw [exec_eq, h]; rfl

/-- All that a command which gives a next state can have done. -/
theorem exec_next {i : Instr} {s t : State} (h : exec i s = .next t) :
    (s.fault.raised = true ∧ neverBlocked i.opcode = false ∧ t = s.blocked) ∨
    ((s.fault.raised = true → neverBlocked i.opcode = true) ∧
      ((∃ d u, (body i).run s = .ok d u ∧ t = u.respond d) ∨
       (∃ e u, (body i).run s = .error (.raise e) u ∧ t = u.faultEntry e i.opcode) ∨
       (∃ u, (body i).run s = .error .hold u ∧ t = s))) := by
  rw [exec_eq] at h
  split at h
  · rename_i hb
    rw [Bool.and_eq_true, Bool.not_eq_true'] at hb
    exact .inl ⟨hb.1, hb.2, by simpa using h.symm⟩
  · rename_i hb
    refine .inr ⟨fun hf => ?_, runCommand_next h⟩
    rw [hf, Bool.true_and] at hb
    simpa using hb

/-! ### What a raise has left (60_exceptions.md R206) -/

/-- The commands that send bytes (42_control.md R191). -/
def sends : Instr → Prop
  | .rcEncode _ _ _ | .rcFlush | .cmEncode _ => True
  | _ => False

/-- The commands that consume bytes (42_control.md R191). -/
def takes : Instr → Prop
  | .rcInitDec | .rcUpdate _ _ | .cmDecode => True
  | _ => False

/-- `t` differs from `s` at most in the coder but for its mode, in the records, in the bytes the command `i` moves and in what
counts them. -/
structure RaiseFrame (i : Instr) (s t : State) : Prop where
  mode : t.coder.mode = s.coder.mode
  model : s.model.Stopped t.model
  setup : t.setup = s.setup
  fault : t.fault = s.fault
  cntSym : t.events.cntSym = s.events.cntSym
  cmd : t.ports.cmd = s.ports.cmd
  eod : t.ports.eod = s.ports.eod
  responses : t.ports.responses = s.ports.responses
  host : t.ports.host = s.ports.host
  output : ∃ sent, t.ports.output = s.ports.output ++ sent ∧ (sent ≠ [] → sends i) ∧
    t.events.cntOut = s.events.cntOut + BitVec.ofNat 32 sent.length
  input : ∃ taken, s.ports.input = taken ++ t.ports.input ∧ (taken ≠ [] → takes i) ∧
    t.events.cntIn = s.events.cntIn + BitVec.ofNat 32 taken.length

theorem RaiseFrame.refl (i : Instr) (s : State) : RaiseFrame i s s := by
  constructor <;> first | rfl | exact Model.Stopped.refl _ | exact ⟨[], by simp⟩

theorem RaiseFrame.of_encode {i : Instr} (hi : sends i) {s t : State} (h : FrameWith EncodeFrame Model.Stopped s t) :
    RaiseFrame i s t := by
  obtain ⟨h, hm⟩ := h
  obtain ⟨sent, ho, hn⟩ := h.output
  exact { mode := h.mode, model := hm, setup := h.setup, fault := h.fault, cntSym := h.cntSym, cmd := h.cmd, eod := h.eod,
          responses := h.responses, host := h.host, output := ⟨sent, ho, fun _ => hi, hn⟩,
          input := ⟨[], h.input.symm, by simp, by have := h.cntIn; simpa using this⟩ }

theorem RaiseFrame.of_decode {i : Instr} {s t : State} (h : FrameWith DecodeFrame Model.Stopped s t)
    (hi : takes i ∨ t.ports.input = s.ports.input) : RaiseFrame i s t := by
  obtain ⟨h, hm⟩ := h
  obtain ⟨taken, ho, hn⟩ := h.input
  refine { mode := h.mode, model := hm, setup := h.setup, fault := h.fault, cntSym := h.cntSym, cmd := h.cmd, eod := h.eod,
           responses := h.responses, host := h.host, input := ⟨taken, ho, fun hne => ?_, hn⟩,
           output := ⟨[], by have := h.output; simpa using this, by simp, by have := h.cntOut; simpa using this⟩ }
  rcases hi with hi | hi
  · exact hi
  · rw [State.withModel_ports, hi] at ho
    exact absurd (by simpa using ho.symm) hne

/-- The errors a command can raise, and where it can hold (42_control.md R193). -/
def mayStop : Instr → Stop → Prop
  | .nop, _ | .blkReset, _ | .rcInitEnc, _ => False
  | .csrRd _, e | .csrWr _ _, e => e = .raise .csr
  | .dbgRd _ _, e => e = .raise .range ∨ ∃ f, e = .fault f
  | .rcEncode _ _ _, e => e = .raise .seq ∨ e = .raise .arg ∨ Stop.encoding e
  | .rcFlush, e => e = .raise .seq ∨ Stop.encoding e
  | .rcInitDec, e => e = .hold
  | .rcGetFreq _, e => e = .raise .seq ∨ e = .raise .arg ∨ ∃ f, e = .fault f
  | .rcUpdate _ _, e => e = .raise .seq ∨ e = .raise .arg ∨ e = .raise .desync ∨ Stop.decoding e
  | .cmReset, e | .cmStartEnc, e | .cmStartDec, e => e = .raise .seq
  | .cmEncode _, e => e = .raise .seq ∨ e = .raise .arg ∨ Stop.encoding e
  | .cmDecode, e => e = .raise .seq ∨ e = .raise .desync ∨ Stop.decoding e

theorem body_stops (i : Instr) : (body i).Stops (mayStop i) := by
  cases i with
  | nop => exact stops_pure _
  | blkReset => exact (stops_modify _).bind fun _ => stops_pure _
  | csrRd c =>
    show Act.Stops _ (match csrAt c with | none => _ | some r => _)
    cases csrAt c with
    | none => exact stops_throw rfl
    | some r => exact stops_get.bind fun _ => stops_pure _
  | csrWr c d =>
    have hc (ok : Bool) : (check .csr ok).Stops (mayStop (.csrWr c d)) := stops_check (E := (· = .raise .csr)) rfl ok
    have hno : Act.Stops (mayStop (.csrWr c d)) (throw (.raise .csr) >>= fun _ => pure 0 : Act Word32) :=
      (stops_throw (E := mayStop (.csrWr c d)) rfl).bind fun (_ : Unit) => stops_pure _
    simp only [body]
    split
    · exact ((hc _).bind fun _ => stops_modify _).bind fun _ => stops_pure _
    · exact (stops_get.bind fun _ => (hc _).bind fun _ => (hc _).bind fun _ => stops_modify _).bind fun _ => stops_pure _
    · exact (stops_get.bind fun _ => (hc _).bind fun _ => (hc _).bind fun _ => stops_modify _).bind fun _ => stops_pure _
    · exact hno
  | dbgRd c o =>
    refine stops_get.bind fun _ => (stops_check (.inl rfl) _).bind fun _ =>
      ((readCtx_stops _).mono fun _ h => .inr h).bind fun x => ?_
    split
    · exact stops_throw (.inl rfl)
    · exact stops_pure _
  | rcInitEnc => exact (stops_modify _).bind fun _ => (stops_modify _).bind fun _ => stops_pure _
  | rcEncode a b c =>
    exact stops_get.bind fun _ => (stops_check (.inl rfl) _).bind fun _ => (stops_check (.inr (.inl rfl)) _).bind fun _ =>
      (stops_check (.inr (.inl rfl)) _).bind fun _ => ((rcEncode_stops _ _ _).mono fun _ h => .inr (.inr h)).bind fun _ =>
      stops_pure _
  | rcFlush =>
    exact stops_get.bind fun _ => (stops_check (.inl rfl) _).bind fun _ =>
      ((shiftLowTimes_stops _).mono fun _ h => .inr h).bind fun _ => (stops_modify _).bind fun _ => stops_get.bind fun _ =>
      stops_pure _
  | rcInitDec =>
    exact (stops_modify _).bind fun _ => (stops_modify _).bind fun _ => (shiftInBytes_stops 4).bind fun _ =>
      (stops_modify _).bind fun _ => stops_pure _
  | rcGetFreq c =>
    exact stops_get.bind fun _ => (stops_check (.inl rfl) _).bind fun _ => (stops_check (.inr (.inl rfl)) _).bind fun _ =>
      ((rcGetFreq_stops _).mono fun _ h => .inr (.inr h)).bind fun _ => stops_pure _
  | rcUpdate a b =>
    exact stops_get.bind fun _ => (stops_check (.inl rfl) _).bind fun _ => (stops_check (.inr (.inl rfl)) _).bind fun _ =>
      (stops_check (.inr (.inr (.inl rfl))) _).bind fun _ =>
      ((rcUpdate_stops _ _).mono fun _ h => .inr (.inr (.inr h))).bind fun _ => stops_pure _
  | cmReset =>
    exact stops_get.bind fun _ => (stops_check (E := (· = .raise .seq)) rfl _).bind fun _ => (stops_modify _).bind fun _ => (stops_modify _).bind fun _ =>
      (stops_modify _).bind fun _ => (stops_modify _).bind fun _ => (stops_modify _).bind fun _ => stops_pure _
  | cmStartEnc => exact stops_get.bind fun _ => (stops_check (E := (· = .raise .seq)) rfl _).bind fun _ => (stops_modify _).bind fun _ => stops_pure _
  | cmStartDec => exact stops_get.bind fun _ => (stops_check (E := (· = .raise .seq)) rfl _).bind fun _ => (stops_modify _).bind fun _ => stops_pure _
  | cmEncode a =>
    refine stops_get.bind fun _ => (stops_check (.inl rfl) _).bind fun _ => ?_
    split
    · exact stops_throw (.inr (.inl rfl))
    · refine ((modelEncode_stops _).mono fun _ h => .inr h).bind fun _ => Act.Stops.bind ?_ fun _ => stops_pure _
      exact (stops_modify _).bind fun _ => .ite (stops_modify _) (stops_pure _)
  | cmDecode =>
    refine stops_get.bind fun _ => (stops_check (.inl rfl) _).bind fun _ =>
      (modelDecode_stops.mono fun _ h => .inr h).bind fun _ => Act.Stops.bind ?_ fun _ => stops_pure _
    exact (stops_modify _).bind fun _ => .ite (stops_modify _) (stops_pure _)

/-! ### The state a raise leaves -/

/-- Where an action stops, the state it leaves is related to the one it started from. -/
def Act.Fails {α : Type} (R : State → State → Prop) (x : Act α) : Prop := ∀ s e t, x.run s = .error e t → R s t

/-- An action that only reads: where it completes the state is the same. -/
def Act.Reads {α : Type} (x : Act α) : Prop := ∀ s a t, x.run s = .ok a t → t = s

section Fails

variable {α β : Type} {R : State → State → Prop}

theorem Act.Spec.fails {Ok : State → State → Prop} {x : Act α} (h : x.Spec Ok R) : x.Fails R := by
  intro s e t he
  have := h s
  rwa [he] at this

theorem Act.Keeps.fails {x : Act α} (h : x.Keeps R) : x.Fails R := by
  intro s e t he
  have := h s
  rwa [he] at this

theorem Act.Fails.mono {x : Act α} {Q : State → State → Prop} (h : x.Fails R) (hRQ : ∀ s t, R s t → Q s t) : x.Fails Q :=
  fun s e t he => hRQ s t (h s e t he)

theorem Act.Fails.then_total {x : Act α} {f : α → Act β} (hx : x.Fails R) (hf : ∀ a, (f a).Stops fun _ => False) :
    Act.Fails R (x >>= f) := by
  intro s e t h
  rcases act_bind_error.mp h with h | ⟨a, u, -, h⟩
  · exact hx s e t h
  · exact (hf a u e t h).elim

theorem Act.Fails.after {x : Act α} {f : α → Act β} (hx : x.Fails R) (hr : x.Reads) (hf : ∀ a, (f a).Fails R) :
    Act.Fails R (x >>= f) := by
  intro s e t h
  rcases act_bind_error.mp h with h | ⟨a, u, ho, h⟩
  · exact hx s e t h
  · rw [hr s a u ho] at h
    exact hf a s e t h

theorem Act.Fails.of_total {x : Act α} (h : x.Stops fun _ => False) : x.Fails R := fun s e t he => (h s e t he).elim

theorem reads_check (e : ErrCode) (ok : Bool) : (check e ok).Reads := by
  intro s a t h
  rw [check_run] at h
  split at h <;> cases h
  rfl

theorem reads_get : Act.Reads (get : Act State) := by
  intro s a t h; cases h; rfl

theorem reads_readCtx (c : Nat) : (readCtx c).Reads := by
  intro s a t h
  rw [readCtx_run] at h
  split at h <;> cases h
  rfl

theorem fails_check (hR : ∀ s, R s s) (e : ErrCode) (ok : Bool) : (check e ok).Fails R := by
  intro s e' t h
  rw [check_run] at h
  split at h <;> cases h
  exact hR s

theorem fails_throw (hR : ∀ s, R s s) (e : Stop) : Act.Fails R (throw e : Act α) := by
  intro s e' t h; cases h; exact hR s

theorem fails_readCtx (hR : ∀ s, R s s) (c : Nat) : (readCtx c).Fails R := by
  intro s e' t h
  rw [readCtx_run] at h
  split at h <;> cases h
  exact hR s

/-- After a read of the state. -/
theorem fails_get {f : State → Act β} (hf : ∀ a, (f a).Fails R) : Act.Fails R (get >>= f) :=
  Act.Fails.after (.of_total stops_get) reads_get hf

/-- After a check. -/
theorem Act.Fails.checked {f : Unit → Act β} (hR : ∀ s, R s s) (e : ErrCode) (ok : Bool) (hf : ∀ a, (f a).Fails R) :
    Act.Fails R (check e ok >>= f) :=
  Act.Fails.after (fails_check hR e ok) (reads_check e ok) hf

end Fails

theorem symbolDone_total (n : Nat) : (symbolDone n).Stops fun _ => False :=
  (stops_modify _).bind fun _ => .ite (stops_modify _) (stops_pure _)

/-- `rc_getfreq` consumes no byte. -/
theorem rcGetFreq_input {total : Nat} {s t : State} {e : Stop} (h : (rcGetFreq total).run s = .error e t) :
    t.ports.input = s.ports.input := by
  rw [rcGetFreq_run] at h
  split at h <;> cases h
  rfl

/-- What holds wherever a command stops: what its one coder or model procedure leaves where that stops, or what every state is
to itself. `RC_INIT_DEC` never raises. -/
theorem body_fails_of {R : State → State → Prop} (hR : ∀ s, R s s) (i : Instr) (hi : i ≠ .rcInitDec)
    (hencode : ∀ a b c x y z, i = .rcEncode a b c → (rcEncode x y z).Fails R)
    (hflush : ∀ n, i = .rcFlush → (shiftLowTimes n).Fails R)
    (hquery : ∀ a n, i = .rcGetFreq a → (rcGetFreq n).Fails R)
    (hupdate : ∀ a b x y, i = .rcUpdate a b → (rcUpdate x y).Fails R)
    (hsymbol : ∀ a x, i = .cmEncode a → (modelEncode x).Fails R)
    (hdecode : i = .cmDecode → modelDecode.Fails R) : (body i).Fails R := by
  cases i with
  | nop => exact .of_total (body_stops .nop)
  | blkReset => exact .of_total (body_stops .blkReset)
  | rcInitEnc => exact .of_total (body_stops .rcInitEnc)
  | rcInitDec => exact absurd rfl hi
  | csrRd c =>
    simp only [body]
    split
    · exact fails_throw hR _
    · exact .of_total (stops_get.bind fun _ => stops_pure _)
  | csrWr c d =>
    have hp {α : Type} {x : Act α} (h : x.Fails R) : Act.Fails R (x >>= fun _ => pure 0 : Act Word32) :=
      h.then_total fun _ => stops_pure _
    have hno : Act.Fails R (throw (.raise .csr) >>= fun _ => pure 0 : Act Word32) := hp (fails_throw (α := Unit) hR _)
    simp only [body]
    split
    · exact hp (.checked hR _ _ fun _ => .of_total (stops_modify _))
    · exact hp (fails_get fun _ => .checked hR _ _ fun _ => .checked hR _ _ fun _ => .of_total (stops_modify _))
    · exact hp (fails_get fun _ => .checked hR _ _ fun _ => .checked hR _ _ fun _ => .of_total (stops_modify _))
    · exact hno
  | dbgRd c o =>
    refine fails_get fun _ => .checked hR _ _ fun _ => Act.Fails.after (fails_readCtx hR _) (reads_readCtx _) fun x => ?_
    split
    · exact fails_throw hR _
    · exact .of_total (stops_pure _)
  | rcEncode a b c =>
    exact fails_get fun _ => .checked hR _ _ fun _ => .checked hR _ _ fun _ => .checked hR _ _ fun _ =>
      (hencode _ _ _ _ _ _ rfl).then_total fun _ => stops_pure _
  | rcFlush =>
    exact fails_get fun _ => .checked hR _ _ fun _ => (hflush _ rfl).then_total fun _ =>
      (stops_modify _).bind fun _ => stops_get.bind fun _ => stops_pure _
  | rcGetFreq c =>
    exact fails_get fun _ => .checked hR _ _ fun _ => .checked hR _ _ fun _ => (hquery _ _ rfl).then_total fun _ => stops_pure _
  | rcUpdate a b =>
    exact fails_get fun _ => .checked hR _ _ fun _ => .checked hR _ _ fun _ => .checked hR _ _ fun _ =>
      (hupdate _ _ _ _ rfl).then_total fun _ => stops_pure _
  | cmReset =>
    exact fails_get fun _ => .checked hR _ _ fun _ => .of_total <| (stops_modify _).bind fun _ => (stops_modify _).bind fun _ =>
      (stops_modify _).bind fun _ => (stops_modify _).bind fun _ => (stops_modify _).bind fun _ => stops_pure _
  | cmStartEnc =>
    exact fails_get fun _ => .checked hR _ _ fun _ => .of_total <| (stops_modify _).bind fun _ => stops_pure _
  | cmStartDec =>
    exact fails_get fun _ => .checked hR _ _ fun _ => .of_total <| (stops_modify _).bind fun _ => stops_pure _
  | cmEncode a =>
    refine fails_get fun _ => .checked hR _ _ fun _ => ?_
    split
    · exact fails_throw hR _
    · exact (hsymbol _ _ rfl).then_total fun _ => (symbolDone_total _).bind fun _ => stops_pure _
  | cmDecode =>
    exact fails_get fun _ => .checked hR _ _ fun _ => (hdecode rfl).then_total fun _ =>
      (symbolDone_total _).bind fun _ => stops_pure _

/-- What a command that stops has done before it stopped (60_exceptions.md R206). -/
theorem body_fails (i : Instr) (hi : i ≠ .rcInitDec) : (body i).Fails (RaiseFrame i) := by
  have henc {x : Act Unit} (hi : sends i) (h : x.Keeps EncodeFrame) : x.Fails (RaiseFrame i) :=
    (frame_keeps EncodeFrame.frameLike h).fails.mono fun _ _ => RaiseFrame.of_encode hi
  have hdec {x : Act Unit} (hi : takes i) (h : x.Keeps DecodeFrame) : x.Fails (RaiseFrame i) :=
    (frame_keeps DecodeFrame.frameLike h).fails.mono fun _ _ h => RaiseFrame.of_decode h (.inl hi)
  refine body_fails_of (RaiseFrame.refl i) i hi ?_ ?_ ?_ ?_ ?_ ?_
  · rintro _ _ _ x y z rfl; exact henc trivial (rcEncode_frame x y z)
  · rintro n rfl; exact henc trivial (shiftLowTimes_frame n)
  · rintro a n rfl
    exact fun s e t h => RaiseFrame.of_decode ((frame_keeps DecodeFrame.frameLike (rcGetFreq_frame n)).fails s e t h)
      (.inr (rcGetFreq_input h))
  · rintro _ _ x y rfl; exact hdec trivial (rcUpdate_frame x y)
  · rintro a x rfl; exact (modelEncode_frame x).fails.mono fun _ _ => RaiseFrame.of_encode (i := .cmEncode a) trivial
  · rintro rfl; exact modelDecode_frame.fails.mono fun _ _ h => RaiseFrame.of_decode (i := .cmDecode) h (.inl trivial)

/-- What a raise has left, and which errors a command raises. -/
theorem body_raise {i : Instr} {s u : State} {e : ErrCode} (h : (body i).run s = .error (.raise e) u) :
    RaiseFrame i s u ∧ mayStop i (.raise e) ∧ e ≠ .blocked := by
  have hs := body_stops i s _ u h
  have hi : i ≠ .rcInitDec := by
    intro hi; subst hi; exact absurd hs (by simp [mayStop])
  refine ⟨body_fails i hi s _ u h, hs, ?_⟩
  intro he
  subst he
  cases i <;> simp [mayStop, Stop.encoding, Stop.decoding] at hs

/-! ### When a command holds (10_state.md R27) -/

/-- An action keeps the level of `EOD`, and holds only while it is low. -/
def Act.Waits {α : Type} (x : Act α) : Prop :=
  ∀ s, match x.run s with
    | .ok _ t => t.ports.eod = s.ports.eod
    | .error e _ => e = .hold → s.ports.eod = false

theorem Act.Waits.bind {α β : Type} {x : Act α} {f : α → Act β} (hx : x.Waits) (hf : ∀ a, (f a).Waits) :
    Act.Waits (x >>= f) := by
  intro s
  have hs := hx s
  cases e : x.run s with
  | ok a u =>
    rw [e] at hs
    have hu := hf a u
    rw [act_bind_of_ok e]
    revert hu
    rw [← (show u.ports.eod = s.ports.eod from hs)]
    exact id
  | error e' u =>
    rw [e] at hs
    rw [act_bind_of_error e]
    exact hs

theorem Act.Waits.of_stops {α : Type} {x : Act α} {E : Stop → Prop} (h : x.Stops E) (hE : ¬ E .hold)
    (hk : ∀ s a t, x.run s = .ok a t → t.ports.eod = s.ports.eod) : x.Waits := by
  intro s
  cases e : x.run s with
  | ok a t => exact hk s a t e
  | error e' t => exact fun he => absurd (h s e' t e) (by rw [he]; exact hE)

theorem waits_modify {f : State → State} (h : ∀ s, (f s).ports.eod = s.ports.eod := by intro s; rfl) :
    Act.Waits (modify f : Act PUnit) := h

theorem waits_get : Act.Waits (get : Act State) := fun _ => rfl

theorem waits_pure {α : Type} (a : α) : Act.Waits (pure a) := fun _ => rfl

theorem waits_check (e : ErrCode) (ok : Bool) : (check e ok).Waits := by
  intro s
  cases ok
  · exact fun h => nomatch h
  · rfl

theorem waits_raise {α : Type} (e : ErrCode) : Act.Waits (throw (.raise e) : Act α) := fun _ h => nomatch h

theorem waits_fault {α : Type} (f : Fault) : Act.Waits (throw (.fault f) : Act α) := fun _ h => nomatch h

theorem waits_readCtx (c : Nat) : (readCtx c).Waits := by
  intro s
  rw [readCtx_run]
  cases s.model.arena.read c
  · exact fun h => nomatch h
  · rfl

theorem waits_ite {α : Type} {p : Prop} [Decidable p] {x y : Act α} (hx : x.Waits) (hy : y.Waits) :
    Act.Waits (if p then x else y) := by split <;> assumption

theorem readIn_waits : readIn.Waits := by
  intro s
  by_cases h : s.inputReady 1
  · rw [readIn_ready h]; rfl
  · rw [readIn_starved h]
    intro _
    simp only [State.inputReady, not_or, Bool.not_eq_true] at h
    exact h.1

theorem shiftInByte_waits : shiftInByte.Waits := readIn_waits.bind fun _ => waits_modify

theorem shiftInBytes_waits (n : Nat) : (shiftInBytes n).Waits := by
  induction n with
  | zero => exact waits_pure _
  | succ n ih => exact shiftInByte_waits.bind fun _ => ih

theorem decNormalizeLoop_waits (n : Nat) : (decNormalizeLoop n).Waits := by
  induction n with
  | zero => exact waits_get.bind fun _ => waits_ite (waits_fault _) (waits_pure _)
  | succ n ih =>
    exact waits_get.bind fun _ =>
      waits_ite (shiftInByte_waits.bind fun _ => (waits_modify).bind fun _ => ih) (waits_pure _)

theorem rcUpdate_waits (start size : Nat) : (rcUpdate start size).Waits :=
  (waits_modify).bind fun _ => decNormalizeLoop_waits 3

theorem rcGetFreq_waits (total : Nat) : (rcGetFreq total).Waits := by
  intro s
  rw [rcGetFreq_run]
  by_cases h : s.coder.range.toNat / total = 0
  · rw [if_pos h]; exact fun h => nomatch h
  · rw [if_neg h]; rfl

theorem updateModel_waits (c : Nat) (sym : Sym) : (updateModel c sym).Waits := by
  intro s
  cases hr : s.model.arena.read c with
  | none => rw [updateModel_none hr]; exact fun h => nomatch h
  | some x => rw [updateModel_run hr]; rfl

theorem modelDecodeFrom_waits (l : List Nat) : (modelDecodeFrom l).Waits := by
  induction l with
  | nil =>
    exact (rcGetFreq_waits _).bind fun _ => (waits_check _ _).bind fun _ => (rcUpdate_waits _ _).bind fun _ =>
      (waits_modify).bind fun _ => waits_pure _
  | cons c lower ih =>
    refine (waits_readCtx c).bind fun x => (rcGetFreq_waits _).bind fun v => (waits_check _ _).bind fun _ => waits_ite ?_ ?_
    · exact (rcUpdate_waits _ _).bind fun _ => (waits_modify).bind fun _ => ih
    · cases x.scan v with
      | none => exact waits_raise _
      | some sym => exact (rcUpdate_waits _ _).bind fun _ => (updateModel_waits c sym).bind fun _ => waits_pure _

theorem modelDecode_waits : modelDecode.Waits := waits_get.bind fun _ => modelDecodeFrom_waits _

/-- Only three commands hold, and only while `EOD` is low (42_control.md R193, 10_state.md R27). -/
theorem body_hold {i : Instr} {s u : State} (h : (body i).run s = .error .hold u) :
    s.ports.eod = false ∧ (i = .rcInitDec ∨ (∃ a b, i = .rcUpdate a b) ∨ i = .cmDecode) := by
  have hs := body_stops i s _ u h
  have hw : (body i).Waits → s.ports.eod = false := by
    intro hw
    have := hw s
    rw [h] at this
    exact this rfl
  cases i <;> simp [mayStop, Stop.encoding] at hs
  case rcInitDec =>
    refine ⟨hw ?_, .inl rfl⟩
    exact (waits_modify).bind fun _ => (waits_modify).bind fun _ => (shiftInBytes_waits 4).bind fun _ =>
      (waits_modify).bind fun _ => waits_pure _
  case rcUpdate a b =>
    refine ⟨hw ?_, .inr (.inl ⟨a, b, rfl⟩)⟩
    exact waits_get.bind fun _ => (waits_check _ _).bind fun _ => (waits_check _ _).bind fun _ => (waits_check _ _).bind fun _ =>
      (rcUpdate_waits _ _).bind fun _ => waits_pure _
  case cmDecode =>
    refine ⟨hw ?_, .inr (.inr rfl)⟩
    exact waits_get.bind fun _ => (waits_check _ _).bind fun _ => modelDecode_waits.bind fun _ =>
      Act.Waits.bind ((waits_modify).bind fun _ => waits_ite waits_modify (waits_pure _)) fun _ =>
      waits_pure _

/-! ### What a completed command has done -/

/-- A completed command, piece by piece: the checks it passed, the primitive that ran, and what it wrote and responded. -/
def completed : Instr → State → Word32 → State → Prop
  | .nop, s, d, u => d = 0 ∧ u = s
  | .blkReset, s, d, u => d = 0 ∧ u = s.softReset
  | .csrRd csr, s, d, u => ∃ c, csrAt csr = some c ∧ d = s.csrValue c ∧ u = s
  | .csrWr csr data, s, d, u => d = 0 ∧
      ((csrAt csr = some .ctrl ∧ data.extractLsb' 1 31 = 0 ∧ u = s.withSetup fun k => { k with faultIE := data.getLsbD 0 }) ∨
       (s.model.mode ≠ .enc ∧ s.model.mode ≠ .dec ∧
        ((csrAt csr = some .modelOrder ∧ 2 ≤ data.toNat ∧ data.toNat ≤ 16 ∧
            u = s.withSetup fun k => { k with modelOrder := data.setWidth 5 }) ∨
         (csrAt csr = some .maxCtx ∧ 1 ≤ data.toNat ∧ data.toNat ≤ Config.arenaCtx ∧
            u = s.withSetup fun k => { k with maxCtx := data.setWidth 18 }))))
  | .dbgRd ctxi off, s, d, u => ∃ x, s.model.arena.read ctxi.toNat = some x ∧ ctxi.toNat < s.model.ctxCount.toNat ∧
      x.fieldAt off.toNat = some d ∧ u = s
  | .rcInitEnc, s, d, u => d = 0 ∧
      u = (s.withCoder fun _ => Coder.startEncode).withEvents fun v => { v with cntOut := 0 }
  | .rcEncode start size total, s, d, u => d = 0 ∧ s.coder.mode = .enc ∧ total ≠ 0 ∧
      intervalFits start.toNat size.toNat total.toNat = true ∧ (rcEncode start.toNat size.toNat total.toNat).run s = .ok () u
  | .rcFlush, s, d, u => s.coder.mode = .enc ∧ ∃ v, (shiftLowTimes 5).run s = .ok () v ∧ d = v.events.cntOut ∧
      u = v.withCoder fun c => { c with mode := .idle }
  | .rcInitDec, s, d, u => d = 0 ∧ ∃ v, (shiftInBytes 4).run ((s.withCoder Coder.startDecode).withEvents fun v =>
        { v with cntIn := 0, cntZfill := 0, zfill := false }) = .ok () v ∧ u = v.withCoder fun c => { c with mode := .dec }
  | .rcGetFreq total, s, d, u => s.coder.mode = .dec ∧ s.coder.dpend = false ∧ total ≠ 0 ∧
      ∃ v, d = BitVec.ofNat 32 v ∧ (rcGetFreq total.toNat).run s = .ok v u
  | .rcUpdate start size, s, d, u => d = 0 ∧ s.coder.mode = .dec ∧ s.coder.dpend = true ∧
      intervalFits start.toNat size.toNat s.coder.dtot.toNat = true ∧
      codePointInside start.toNat size.toNat s.coder.range.toNat s.coder.code.toNat = true ∧
      (rcUpdate start.toNat size.toNat).run s = .ok () u
  | .cmReset, s, d, u => d = 0 ∧ s.setup.modelOrder ≠ 0 ∧
      u = (s.withModel fun _ => { mode := .fresh, active := 0, ctxCount := 1, arena := [(0, Context.fresh 0)] }).withEvents
        fun v => { v with cntSym := 0 }
  | .cmStartEnc, s, d, u => d = 0 ∧ (s.model.mode = .fresh ∨ s.model.mode = .enc) ∧
      u = s.withModel fun m => { m with active := 0, mode := .enc }
  | .cmStartDec, s, d, u => d = 0 ∧ (s.model.mode = .fresh ∨ s.model.mode = .dec) ∧
      u = s.withModel fun m => { m with active := 0, mode := .dec }
  | .cmEncode sym, s, d, u => d = 0 ∧ s.model.mode = .enc ∧ s.coder.mode = .enc ∧
      ∃ (a : Sym) (v : State), sym.toNat = a.val ∧ (modelEncode a).run s = .ok () v ∧ (symbolDone a.val).run v = .ok () u
  | .cmDecode, s, d, u => s.model.mode = .dec ∧ s.coder.mode = .dec ∧ s.coder.dpend = false ∧
      ∃ (n : Nat) (v : State), d = BitVec.ofNat 32 n ∧ modelDecode.run s = .ok n v ∧ (symbolDone n).run v = .ok () u

theorem check_ok_iff {e : ErrCode} {ok : Bool} {s t : State} {a : Unit} :
    (check e ok).run s = .ok a t ↔ ok = true ∧ t = s := by
  rw [check_run]
  cases ok
  · simp
  · simp [eq_comm]

theorem checked_ok {β : Type} {e : ErrCode} {ok : Bool} {f : Unit → Act β} {s t : State} {b : β} :
    (check e ok >>= f).run s = .ok b t ↔ ok = true ∧ (f ()).run s = .ok b t := by
  rw [act_bind_ok]
  constructor
  · rintro ⟨a, u, h, k⟩
    obtain ⟨h1, rfl⟩ := check_ok_iff.mp h
    exact ⟨h1, k⟩
  · rintro ⟨h, k⟩
    exact ⟨(), s, check_ok_iff.mpr ⟨h, rfl⟩, k⟩

theorem get_ok {β : Type} {f : State → Act β} {s t : State} {b : β} :
    (get >>= f : Act β).run s = .ok b t ↔ (f s).run s = .ok b t := by
  rw [EStateM.run_bind, EStateM.run_get]

theorem modify_ok {β : Type} {g : State → State} {f : PUnit → Act β} {s t : State} {b : β} :
    (modify g >>= f : Act β).run s = .ok b t ↔ (f ⟨⟩).run (g s) = .ok b t := by
  rw [EStateM.run_bind, EStateM.run_modify]

theorem pure_ok {α : Type} {s t : State} {a b : α} : (pure a : Act α).run s = .ok b t ↔ b = a ∧ t = s := by
  rw [EStateM.run_pure]
  constructor
  · intro h; cases h; exact ⟨rfl, rfl⟩
  · rintro ⟨rfl, rfl⟩; rfl

theorem symOperand_some {sym : Operand} {a : Sym} : symOperand sym = some a ↔ sym.toNat = a.val := by
  unfold symOperand
  split
  · rw [Option.some.injEq, Fin.ext_iff]
  · rename_i h
    have := a.isLt
    simp only [reduceCtorEq, false_iff]
    omega

/-- All that a command which completes has done. -/
theorem body_ok {i : Instr} {s u : State} {d : Word32} (h : (body i).run s = .ok d u) : completed i s d u := by
  cases i with
  | nop => exact pure_ok.mp h
  | blkReset =>
    replace h := modify_ok.mp h
    exact pure_ok.mp h
  | csrRd c =>
    simp only [body] at h
    split at h
    · cases h
    · rename_i r hr
      replace h := get_ok.mp h
      obtain ⟨h1, h2⟩ := pure_ok.mp h
      exact ⟨r, hr, h1, h2⟩
  | csrWr c data =>
    simp only [body] at h
    split at h
    · rename_i hr
      obtain ⟨a, v, h1, h2⟩ := act_bind_ok.mp h
      obtain ⟨rfl, rfl⟩ := pure_ok.mp h2
      obtain ⟨hc, hm⟩ := checked_ok.mp h1
      cases hm
      exact ⟨rfl, .inl ⟨hr, by simpa using hc, rfl⟩⟩
    · rename_i hr
      obtain ⟨a, v, h1, h2⟩ := act_bind_ok.mp h
      obtain ⟨rfl, rfl⟩ := pure_ok.mp h2
      obtain ⟨hc, h1⟩ := checked_ok.mp (get_ok.mp h1)
      obtain ⟨hv, hm⟩ := checked_ok.mp h1
      cases hm
      simp only [Bool.and_eq_true, bne_iff_ne, ne_eq, decide_eq_true_eq] at hc hv
      exact ⟨rfl, .inr ⟨hc.1, hc.2, .inl ⟨hr, hv.1, hv.2, rfl⟩⟩⟩
    · rename_i hr
      obtain ⟨a, v, h1, h2⟩ := act_bind_ok.mp h
      obtain ⟨rfl, rfl⟩ := pure_ok.mp h2
      obtain ⟨hc, h1⟩ := checked_ok.mp (get_ok.mp h1)
      obtain ⟨hv, hm⟩ := checked_ok.mp h1
      cases hm
      simp only [Bool.and_eq_true, bne_iff_ne, ne_eq, decide_eq_true_eq] at hc hv
      exact ⟨rfl, .inr ⟨hc.1, hc.2, .inr ⟨hr, hv.1, hv.2, rfl⟩⟩⟩
    · cases h
  | dbgRd c o =>
    obtain ⟨hc, h1⟩ := checked_ok.mp (get_ok.mp h)
    obtain ⟨x, v, h2, h3⟩ := act_bind_ok.mp h1
    rw [readCtx_run] at h2
    cases hr : s.model.arena.read c.toNat with
    | none => rw [hr] at h2; cases h2
    | some y =>
      rw [hr] at h2
      cases h2
      cases hf : x.fieldAt o.toNat with
      | none => rw [hf] at h3; cases h3
      | some w =>
        rw [hf] at h3
        obtain ⟨rfl, rfl⟩ := pure_ok.mp h3
        exact ⟨x, hr, by simpa using hc, hf, rfl⟩
  | rcInitEnc =>
    replace h := modify_ok.mp h
    replace h := modify_ok.mp h
    exact pure_ok.mp h
  | rcEncode a b c =>
    obtain ⟨h1, h⟩ := checked_ok.mp (get_ok.mp h)
    obtain ⟨h2, h⟩ := checked_ok.mp h
    obtain ⟨h3, h⟩ := checked_ok.mp h
    obtain ⟨⟨⟩, v, h4, h⟩ := act_bind_ok.mp h
    obtain ⟨rfl, rfl⟩ := pure_ok.mp h
    exact ⟨rfl, by simpa using h1, by simpa using h2, h3, h4⟩
  | rcFlush =>
    obtain ⟨h1, h⟩ := checked_ok.mp (get_ok.mp h)
    obtain ⟨⟨⟩, v, h2, h⟩ := act_bind_ok.mp h
    replace h := modify_ok.mp h
    replace h := get_ok.mp h
    obtain ⟨rfl, rfl⟩ := pure_ok.mp h
    exact ⟨by simpa using h1, v, h2, rfl, rfl⟩
  | rcInitDec =>
    replace h := modify_ok.mp h
    replace h := modify_ok.mp h
    obtain ⟨⟨⟩, v, h2, h⟩ := act_bind_ok.mp h
    replace h := modify_ok.mp h
    obtain ⟨rfl, rfl⟩ := pure_ok.mp h
    exact ⟨rfl, v, h2, rfl⟩
  | rcGetFreq c =>
    obtain ⟨h1, h⟩ := checked_ok.mp (get_ok.mp h)
    obtain ⟨h2, h⟩ := checked_ok.mp h
    obtain ⟨n, v, h3, h⟩ := act_bind_ok.mp h
    obtain ⟨rfl, rfl⟩ := pure_ok.mp h
    rw [Bool.and_eq_true, beq_iff_eq, Bool.not_eq_true'] at h1
    exact ⟨h1.1, h1.2, by simpa using h2, n, rfl, h3⟩
  | rcUpdate a b =>
    obtain ⟨h1, h⟩ := checked_ok.mp (get_ok.mp h)
    obtain ⟨h2, h⟩ := checked_ok.mp h
    obtain ⟨h3, h⟩ := checked_ok.mp h
    obtain ⟨⟨⟩, v, h4, h⟩ := act_bind_ok.mp h
    obtain ⟨rfl, rfl⟩ := pure_ok.mp h
    rw [Bool.and_eq_true, beq_iff_eq] at h1
    exact ⟨rfl, h1.1, h1.2, h2, h3, h4⟩
  | cmReset =>
    obtain ⟨h1, h⟩ := checked_ok.mp (get_ok.mp h)
    replace h := modify_ok.mp h
    replace h := (modify_ok (g := State.withModel fun m => { m with arena := m.arena.write 0 (Context.fresh 0) })).mp h
    replace h := modify_ok.mp h
    replace h := modify_ok.mp h
    replace h := modify_ok.mp h
    obtain ⟨rfl, rfl⟩ := pure_ok.mp h
    exact ⟨rfl, by simpa using h1, rfl⟩
  | cmStartEnc =>
    obtain ⟨h1, h⟩ := checked_ok.mp (get_ok.mp h)
    replace h := modify_ok.mp h
    obtain ⟨rfl, rfl⟩ := pure_ok.mp h
    exact ⟨rfl, by simpa using h1, rfl⟩
  | cmStartDec =>
    obtain ⟨h1, h⟩ := checked_ok.mp (get_ok.mp h)
    replace h := modify_ok.mp h
    obtain ⟨rfl, rfl⟩ := pure_ok.mp h
    exact ⟨rfl, by simpa using h1, rfl⟩
  | cmEncode sym =>
    obtain ⟨h1, h⟩ := checked_ok.mp (get_ok.mp h)
    rw [Bool.and_eq_true, beq_iff_eq, beq_iff_eq] at h1
    cases hs : symOperand sym with
    | none => rw [hs] at h; cases h
    | some a =>
      rw [hs] at h
      obtain ⟨⟨⟩, v, h2, h⟩ := act_bind_ok.mp h
      obtain ⟨⟨⟩, w, h3, h⟩ := act_bind_ok.mp h
      obtain ⟨rfl, rfl⟩ := pure_ok.mp h
      exact ⟨rfl, h1.1, h1.2, a, v, symOperand_some.mp hs, h2, h3⟩
  | cmDecode =>
    obtain ⟨h1, h⟩ := checked_ok.mp (get_ok.mp h)
    obtain ⟨n, v, h2, h⟩ := act_bind_ok.mp h
    obtain ⟨⟨⟩, w, h3, h⟩ := act_bind_ok.mp h
    obtain ⟨rfl, rfl⟩ := pure_ok.mp h
    rw [Bool.and_eq_true, Bool.and_eq_true, beq_iff_eq, beq_iff_eq, Bool.not_eq_true'] at h1
    exact ⟨h1.1.1, h1.1.2, h1.2, n, v, rfl, h2, h3⟩

/-- A completed symbol is counted, and the terminator ends the chunk (41_contextmodel.md R159, R160). -/
theorem symbolDone_run (n : Nat) (s : State) :
    (symbolDone n).run s = .ok () ((s.withEvents fun v => { v with cntSym := v.cntSym + 1 }).withModel fun m =>
      { m with mode := if n = 256 then .term else m.mode }) := by
  simp only [symbolDone, EStateM.run_bind, EStateM.run_modify, act_ite]
  have e : Config.term.val = 256 := rfl
  rw [e]
  by_cases h : n = 256
  · simp only [if_pos h]
  · simp only [if_neg h]; rfl

end Sys2Proof.Machine
end

