-- ==== Sys2Proof/Laws/Encoding.lean ====
section
/-! SUPPORT. Command words as concatenations of their fields, and what the decoder does with each opcode (30_encoding.md R81, R82,
R85, R90). -/

namespace Sys2Proof

/-! ### Words as their fields -/

/-- A word of format F3, with any reserved bits. -/
def f3 (opc : OpcodeField) (rsv : BitVec 7) (a b c : Operand) : Word64 := opc ++ rsv ++ a ++ b ++ c

/-- A word of format FC, with any reserved bits. -/
def fc (opc : OpcodeField) (rsv : BitVec 10) (csr : CsrIndex) (data : Word32) : Word64 := opc ++ rsv ++ csr ++ data

theorem wordF3_eq (opc : OpcodeField) (a b c : Operand) : wordF3 opc a b c = f3 opc 0 a b c := rfl

theorem wordFC_eq (opc : OpcodeField) (csr : CsrIndex) (data : Word32) : wordFC opc csr data = fc opc 0 csr data := rfl

/-- The reserved bits of format F3 and of format FC. -/
def rsvF3 (w : Word64) : BitVec 7 := w.extractLsb' 51 7

def rsvFC (w : Word64) : BitVec 10 := w.extractLsb' 48 10

theorem word_eq_f3 (w : Word64) : w = f3 (fieldOpc w) (rsvF3 w) (fieldA w) (fieldB w) (fieldC w) := by
  have e (s₂ l₂ s₁ l₁ : Nat) (h : s₂ = s₁ + l₁) : w.extractLsb' s₂ l₂ ++ w.extractLsb' s₁ l₁ = w.extractLsb' s₁ (l₂ + l₁) :=
    BitVec.extractLsb'_append_extractLsb'_eq_extractLsb' h
  unfold f3 fieldOpc rsvF3 fieldA fieldB fieldC
  rw [e 58 6 51 7 rfl, e 51 (6 + 7) 34 17 rfl, e 34 (6 + 7 + 17) 17 17 rfl, e 17 (6 + 7 + 17 + 17) 0 17 rfl]
  exact (BitVec.extractLsb'_eq_self).symm

theorem word_eq_fc (w : Word64) : w = fc (fieldOpc w) (rsvFC w) (fieldCsr w) (fieldData w) := by
  have e (s₂ l₂ s₁ l₁ : Nat) (h : s₂ = s₁ + l₁) : w.extractLsb' s₂ l₂ ++ w.extractLsb' s₁ l₁ = w.extractLsb' s₁ (l₂ + l₁) :=
    BitVec.extractLsb'_append_extractLsb'_eq_extractLsb' h
  unfold fc fieldOpc rsvFC fieldCsr fieldData
  rw [e 58 6 48 10 rfl, e 48 (6 + 10) 32 16 rfl, e 32 (6 + 10 + 16) 0 32 rfl]
  exact (BitVec.extractLsb'_eq_self).symm

section Fields

variable (opc : OpcodeField) (r7 : BitVec 7) (r10 : BitVec 10) (a b c : Operand) (csr : CsrIndex) (data : Word32)

@[simp] theorem fieldOpc_f3 : fieldOpc (f3 opc r7 a b c) = opc := by
  unfold fieldOpc f3
  rw [BitVec.extractLsb'_append_eq_of_le (by omega), BitVec.extractLsb'_append_eq_of_le (by omega),
    BitVec.extractLsb'_append_eq_of_le (by omega)]
  exact BitVec.extractLsb'_append_eq_left

@[simp] theorem rsvF3_f3 : rsvF3 (f3 opc r7 a b c) = r7 := by
  unfold rsvF3 f3
  rw [BitVec.extractLsb'_append_eq_of_le (by omega), BitVec.extractLsb'_append_eq_of_le (by omega),
    BitVec.extractLsb'_append_eq_of_le (by omega), BitVec.extractLsb'_append_eq_of_add_le (by omega)]
  exact BitVec.extractLsb'_eq_self

@[simp] theorem fieldA_f3 : fieldA (f3 opc r7 a b c) = a := by
  unfold fieldA f3
  rw [BitVec.extractLsb'_append_eq_of_le (by omega), BitVec.extractLsb'_append_eq_of_le (by omega),
    BitVec.extractLsb'_append_eq_of_add_le (by omega)]
  exact BitVec.extractLsb'_eq_self

@[simp] theorem fieldB_f3 : fieldB (f3 opc r7 a b c) = b := by
  unfold fieldB f3
  rw [BitVec.extractLsb'_append_eq_of_le (by omega), BitVec.extractLsb'_append_eq_of_add_le (by omega)]
  exact BitVec.extractLsb'_eq_self

@[simp] theorem fieldC_f3 : fieldC (f3 opc r7 a b c) = c := by
  unfold fieldC f3
  rw [BitVec.extractLsb'_append_eq_of_add_le (by omega)]
  exact BitVec.extractLsb'_eq_self

@[simp] theorem fieldOpc_fc : fieldOpc (fc opc r10 csr data) = opc := by
  unfold fieldOpc fc
  rw [BitVec.extractLsb'_append_eq_of_le (by omega), BitVec.extractLsb'_append_eq_of_le (by omega)]
  exact BitVec.extractLsb'_append_eq_left

@[simp] theorem rsvFC_fc : rsvFC (fc opc r10 csr data) = r10 := by
  unfold rsvFC fc
  rw [BitVec.extractLsb'_append_eq_of_le (by omega), BitVec.extractLsb'_append_eq_of_le (by omega),
    BitVec.extractLsb'_append_eq_of_add_le (by omega)]
  exact BitVec.extractLsb'_eq_self

@[simp] theorem fieldCsr_fc : fieldCsr (fc opc r10 csr data) = csr := by
  unfold fieldCsr fc
  rw [BitVec.extractLsb'_append_eq_of_le (by omega), BitVec.extractLsb'_append_eq_of_add_le (by omega)]
  exact BitVec.extractLsb'_eq_self

@[simp] theorem fieldData_fc : fieldData (fc opc r10 csr data) = data := by
  unfold fieldData fc
  rw [BitVec.extractLsb'_append_eq_of_add_le (by omega)]
  exact BitVec.extractLsb'_eq_self

end Fields

theorem f3_inj {o o' : OpcodeField} {r r' : BitVec 7} {a a' b b' c c' : Operand} :
    f3 o r a b c = f3 o' r' a' b' c' ↔ o = o' ∧ r = r' ∧ a = a' ∧ b = b' ∧ c = c' := by
  constructor
  · intro h
    exact ⟨by simpa using congrArg fieldOpc h, by simpa using congrArg rsvF3 h, by simpa using congrArg fieldA h,
      by simpa using congrArg fieldB h, by simpa using congrArg fieldC h⟩
  · rintro ⟨rfl, rfl, rfl, rfl, rfl⟩; rfl

theorem fc_inj {o o' : OpcodeField} {r r' : BitVec 10} {c c' : CsrIndex} {d d' : Word32} :
    fc o r c d = fc o' r' c' d' ↔ o = o' ∧ r = r' ∧ c = c' ∧ d = d' := by
  constructor
  · intro h
    exact ⟨by simpa using congrArg fieldOpc h, by simpa using congrArg rsvFC h, by simpa using congrArg fieldCsr h,
      by simpa using congrArg fieldData h⟩
  · rintro ⟨rfl, rfl, rfl, rfl⟩; rfl

theorem f3_and (o o' : OpcodeField) (r r' : BitVec 7) (a a' b b' c c' : Operand) :
    f3 o r a b c &&& f3 o' r' a' b' c' = f3 (o &&& o') (r &&& r') (a &&& a') (b &&& b') (c &&& c') := by
  unfold f3
  rw [BitVec.and_append, BitVec.and_append, BitVec.and_append, BitVec.and_append]

theorem fc_and (o o' : OpcodeField) (r r' : BitVec 10) (c c' : CsrIndex) (d d' : Word32) :
    fc o r c d &&& fc o' r' c' d' = fc (o &&& o') (r &&& r') (c &&& c') (d &&& d') := by
  unfold fc
  rw [BitVec.and_append, BitVec.and_append, BitVec.and_append]

/-! ### Masks (30_encoding.md R85): a word matches a row exactly when its opcode is the row's and its `RSV` and unused fields are 0 -/

theorem match_none (w : Word64) (opc : OpcodeField) :
    w &&& 0xFFFFFFFFFFFFFFFF = f3 opc 0 0 0 0 ↔ w = f3 opc 0 0 0 0 := by
  rw [show (0xFFFFFFFFFFFFFFFF : Word64) = BitVec.allOnes 64 from rfl, BitVec.and_allOnes]

theorem match_abc (w : Word64) (opc : OpcodeField) :
    w &&& 0xFFF8000000000000 = f3 opc 0 0 0 0 ↔ w = f3 opc 0 (fieldA w) (fieldB w) (fieldC w) := by
  conv_lhs => rw [word_eq_f3 w, show (0xFFF8000000000000 : Word64) = f3 (BitVec.allOnes 6) (BitVec.allOnes 7) 0 0 0 from rfl,
    f3_and, f3_inj]
  conv_rhs => lhs; rw [word_eq_f3 w]
  rw [f3_inj]
  simp only [BitVec.and_allOnes]
  simp

theorem match_ab (w : Word64) (opc : OpcodeField) :
    w &&& 0xFFF800000001FFFF = f3 opc 0 0 0 0 ↔ w = f3 opc 0 (fieldA w) (fieldB w) 0 := by
  conv_lhs => rw [word_eq_f3 w,
    show (0xFFF800000001FFFF : Word64) = f3 (BitVec.allOnes 6) (BitVec.allOnes 7) 0 0 (BitVec.allOnes 17) from rfl, f3_and, f3_inj]
  conv_rhs => lhs; rw [word_eq_f3 w]
  rw [f3_inj]
  simp only [BitVec.and_allOnes]
  simp

theorem match_a (w : Word64) (opc : OpcodeField) :
    w &&& 0xFFF80003FFFFFFFF = f3 opc 0 0 0 0 ↔ w = f3 opc 0 (fieldA w) 0 0 := by
  conv_lhs => rw [word_eq_f3 w,
    show (0xFFF80003FFFFFFFF : Word64) = f3 (BitVec.allOnes 6) (BitVec.allOnes 7) 0 (BitVec.allOnes 17) (BitVec.allOnes 17) from rfl,
    f3_and, f3_inj]
  conv_rhs => lhs; rw [word_eq_f3 w]
  rw [f3_inj]
  simp only [BitVec.and_allOnes]
  simp

theorem match_c (w : Word64) (opc : OpcodeField) :
    w &&& 0xFFFFFFFFFFFE0000 = f3 opc 0 0 0 0 ↔ w = f3 opc 0 0 0 (fieldC w) := by
  conv_lhs => rw [word_eq_f3 w,
    show (0xFFFFFFFFFFFE0000 : Word64) = f3 (BitVec.allOnes 6) (BitVec.allOnes 7) (BitVec.allOnes 17) (BitVec.allOnes 17) 0 from rfl,
    f3_and, f3_inj]
  conv_rhs => lhs; rw [word_eq_f3 w]
  rw [f3_inj]
  simp only [BitVec.and_allOnes]
  simp

theorem match_csr (w : Word64) (opc : OpcodeField) :
    w &&& 0xFFFF0000FFFFFFFF = fc opc 0 0 0 ↔ w = fc opc 0 (fieldCsr w) 0 := by
  conv_lhs => rw [word_eq_fc w,
    show (0xFFFF0000FFFFFFFF : Word64) = fc (BitVec.allOnes 6) (BitVec.allOnes 10) 0 (BitVec.allOnes 32) from rfl, fc_and, fc_inj]
  conv_rhs => lhs; rw [word_eq_fc w]
  rw [fc_inj]
  simp only [BitVec.and_allOnes]
  simp

theorem match_csrData (w : Word64) (opc : OpcodeField) :
    w &&& 0xFFFF000000000000 = fc opc 0 0 0 ↔ w = fc opc 0 (fieldCsr w) (fieldData w) := by
  conv_lhs => rw [word_eq_fc w,
    show (0xFFFF000000000000 : Word64) = fc (BitVec.allOnes 6) (BitVec.allOnes 10) 0 0 from rfl, fc_and, fc_inj]
  conv_rhs => lhs; rw [word_eq_fc w]
  rw [fc_inj]
  simp only [BitVec.and_allOnes]
  simp

/-! ### The decoder, opcode by opcode (30_encoding.md R90) -/

/-- The decoder at a word whose opcode has the row `row`. -/
theorem decode_of_opc {w : Word64} {o : OpcodeField} {row : OpRow} (h : fieldOpc w = o)
    (hr : opTable.find? (fun r => r.opc == o) = some row) :
    decode w = if w &&& row.mask = row.pattern then .ok (row.read w) else .error (.strayBits o) := by
  rw [decode, h, hr]

section Rows

variable {w : Word64}

theorem decode_nop (h : fieldOpc w = Opc.nop) :
    decode w = if w = f3 Opc.nop 0 0 0 0 then .ok .nop else .error (.strayBits Opc.nop) :=
  (decode_of_opc h rfl).trans (if_congr (match_none w Opc.nop) rfl rfl)

theorem decode_blkReset (h : fieldOpc w = Opc.blkReset) :
    decode w = if w = f3 Opc.blkReset 0 0 0 0 then .ok .blkReset else .error (.strayBits Opc.blkReset) :=
  (decode_of_opc h rfl).trans (if_congr (match_none w Opc.blkReset) rfl rfl)

theorem decode_csrRd (h : fieldOpc w = Opc.csrRd) :
    decode w = if w = fc Opc.csrRd 0 (fieldCsr w) 0 then .ok (.csrRd (fieldCsr w)) else .error (.strayBits Opc.csrRd) :=
  (decode_of_opc h rfl).trans (if_congr (match_csr w Opc.csrRd) rfl rfl)

theorem decode_csrWr (h : fieldOpc w = Opc.csrWr) :
    decode w = if w = fc Opc.csrWr 0 (fieldCsr w) (fieldData w) then .ok (.csrWr (fieldCsr w) (fieldData w))
      else .error (.strayBits Opc.csrWr) :=
  (decode_of_opc h rfl).trans (if_congr (match_csrData w Opc.csrWr) rfl rfl)

theorem decode_dbgRd (h : fieldOpc w = Opc.dbgRd) :
    decode w = if w = f3 Opc.dbgRd 0 (fieldA w) (fieldB w) 0 then .ok (.dbgRd (fieldA w) (fieldB w))
      else .error (.strayBits Opc.dbgRd) :=
  (decode_of_opc h rfl).trans (if_congr (match_ab w Opc.dbgRd) rfl rfl)

theorem decode_rcInitEnc (h : fieldOpc w = Opc.rcInitEnc) :
    decode w = if w = f3 Opc.rcInitEnc 0 0 0 0 then .ok .rcInitEnc else .error (.strayBits Opc.rcInitEnc) :=
  (decode_of_opc h rfl).trans (if_congr (match_none w Opc.rcInitEnc) rfl rfl)

theorem decode_rcEncode (h : fieldOpc w = Opc.rcEncode) :
    decode w = if w = f3 Opc.rcEncode 0 (fieldA w) (fieldB w) (fieldC w) then .ok (.rcEncode (fieldA w) (fieldB w) (fieldC w))
      else .error (.strayBits Opc.rcEncode) :=
  (decode_of_opc h rfl).trans (if_congr (match_abc w Opc.rcEncode) rfl rfl)

theorem decode_rcFlush (h : fieldOpc w = Opc.rcFlush) :
    decode w = if w = f3 Opc.rcFlush 0 0 0 0 then .ok .rcFlush else .error (.strayBits Opc.rcFlush) :=
  (decode_of_opc h rfl).trans (if_congr (match_none w Opc.rcFlush) rfl rfl)

theorem decode_rcInitDec (h : fieldOpc w = Opc.rcInitDec) :
    decode w = if w = f3 Opc.rcInitDec 0 0 0 0 then .ok .rcInitDec else .error (.strayBits Opc.rcInitDec) :=
  (decode_of_opc h rfl).trans (if_congr (match_none w Opc.rcInitDec) rfl rfl)

theorem decode_rcGetFreq (h : fieldOpc w = Opc.rcGetFreq) :
    decode w = if w = f3 Opc.rcGetFreq 0 0 0 (fieldC w) then .ok (.rcGetFreq (fieldC w))
      else .error (.strayBits Opc.rcGetFreq) :=
  (decode_of_opc h rfl).trans (if_congr (match_c w Opc.rcGetFreq) rfl rfl)

theorem decode_rcUpdate (h : fieldOpc w = Opc.rcUpdate) :
    decode w = if w = f3 Opc.rcUpdate 0 (fieldA w) (fieldB w) 0 then .ok (.rcUpdate (fieldA w) (fieldB w))
      else .error (.strayBits Opc.rcUpdate) :=
  (decode_of_opc h rfl).trans (if_congr (match_ab w Opc.rcUpdate) rfl rfl)

theorem decode_cmReset (h : fieldOpc w = Opc.cmReset) :
    decode w = if w = f3 Opc.cmReset 0 0 0 0 then .ok .cmReset else .error (.strayBits Opc.cmReset) :=
  (decode_of_opc h rfl).trans (if_congr (match_none w Opc.cmReset) rfl rfl)

theorem decode_cmStartEnc (h : fieldOpc w = Opc.cmStartEnc) :
    decode w = if w = f3 Opc.cmStartEnc 0 0 0 0 then .ok .cmStartEnc else .error (.strayBits Opc.cmStartEnc) :=
  (decode_of_opc h rfl).trans (if_congr (match_none w Opc.cmStartEnc) rfl rfl)

theorem decode_cmStartDec (h : fieldOpc w = Opc.cmStartDec) :
    decode w = if w = f3 Opc.cmStartDec 0 0 0 0 then .ok .cmStartDec else .error (.strayBits Opc.cmStartDec) :=
  (decode_of_opc h rfl).trans (if_congr (match_none w Opc.cmStartDec) rfl rfl)

theorem decode_cmEncode (h : fieldOpc w = Opc.cmEncode) :
    decode w = if w = f3 Opc.cmEncode 0 (fieldA w) 0 0 then .ok (.cmEncode (fieldA w))
      else .error (.strayBits Opc.cmEncode) :=
  (decode_of_opc h rfl).trans (if_congr (match_a w Opc.cmEncode) rfl rfl)

theorem decode_cmDecode (h : fieldOpc w = Opc.cmDecode) :
    decode w = if w = f3 Opc.cmDecode 0 0 0 0 then .ok .cmDecode else .error (.strayBits Opc.cmDecode) :=
  (decode_of_opc h rfl).trans (if_congr (match_none w Opc.cmDecode) rfl rfl)

end Rows

end Sys2Proof
end

