-- ==== Sys2Proof/Laws/Runs.lean ====
section
/-! SUPPORT. Runs of the decode primitives and of the symbol procedures from states that meet the invariant
(40_rangecoder.md R107, R108; 41_contextmodel.md R151, R152). -/

namespace Sys2Proof.Machine

/-- The decode side between two symbols. -/
structure Coder.DecReady (c : Coder) : Prop where
  mode : c.mode = .dec
  idle : c.dpend = false
  range_ge : Config.thresh ≤ c.range.toNat
  code_le : c.code.toNat ≤ c.range.toNat

/-- A sound decoding coder with no query pending is ready. -/
theorem Coder.Sound.decReady {c : Coder} (h : c.Sound) (hm : c.mode = .dec) (hd : c.dpend = false) : c.DecReady :=
  ⟨hm, hd, h.range_ge (by rw [hm]; decide) hd, h.code_le hm hd⟩

/-- A ready coder is sound. -/
theorem Coder.DecReady.sound {c : Coder} (h : c.DecReady) : c.Sound where
  pending_dec := fun _ => h.mode
  range_ge := fun _ _ => h.range_ge
  unit_ge := fun hp => by rw [h.idle] at hp; cases hp
  unit_fits := fun hp => by rw [h.idle] at hp; cases hp
  carry := fun he => by rw [h.mode] at he; cases he
  code_le := fun _ _ => h.code_le

/-- A query leaves the per-unit value in `RANGE` (40_rangecoder.md R107). -/
theorem Coder.queried_range {c : Coder} {total : Nat} : (c.queried total).range.toNat = c.range.toNat / total := by
  show (BitVec.ofNat 32 _).toNat = _
  rw [BitVec.toNat_ofNat, Nat.mod_eq_of_lt (Nat.lt_of_le_of_lt (Nat.div_le_self _ _) c.range.isLt)]

/-- A query between two symbols. -/
theorem rcGetFreq_ready {s : State} (h : s.coder.DecReady) {total : Nat} (h1 : 1 ≤ total) (ht : total < 2 ^ 17) :
    (rcGetFreq total).run s = .ok (s.coder.code.toNat / (s.coder.range.toNat / total)) (s.withCoder (Coder.queried total)) ∧
    64 ≤ s.coder.range.toNat / total := by
  have h64 := (unit_pos h.range_ge ht (Nat.le_refl 1) h1).1
  refine ⟨?_, h64⟩
  rw [rcGetFreq_run, if_neg (by omega)]

/-- `rc_update` of an interval that contains the code point. -/
theorem rcUpdate_inside {q : State} {start size : Nat} (hmode : q.coder.mode = .dec) (h64 : 64 ≤ q.coder.range.toNat)
    (h1 : 1 ≤ size) (hrs : q.coder.range.toNat * size < 2 ^ 32) (hlo' : start * q.coder.range.toNat ≤ q.coder.code.toNat)
    (hhi' : q.coder.code.toNat < (start + size) * q.coder.range.toNat) :
    ∃ k, k ≤ 3 ∧ (q.inputReady k → ∃ t, (rcUpdate start size).run q = .ok () t ∧ t.coder.DecReady ∧ DecodeFrame q t ∧
        t.coder.code.toNat < t.coder.range.toNat ∧
        t.coder.range.toNat = q.coder.range.toNat * size * 256 ^ k ∧
        t.coder.code.toNat = (q.coder.code.toNat - start * q.coder.range.toNat) * 256 ^ k + bytesNumber (q.nextBytes k) ∧
        t.ports = (q.afterReads k).ports ∧ t.events = (q.afterReads k).events ∧ t.coder.dtot = q.coder.dtot ∧
        Widened (q.coder.range.toNat * size) k (q.coder.range.toNat * size * 256 ^ k)) ∧
      (¬ q.inputReady k → ∃ t, (rcUpdate start size).run q = .error .hold t) := by
  obtain ⟨k, hk, hw, hlt, hok, hno⟩ := rcUpdate_spec (s := q) (start := start) h64 h1 hrs
  refine ⟨k, hk, fun hi => ?_, hno⟩
  have hrun := hok hi
  have hf := rcUpdate_frame start size q
  rw [hrun] at hf
  have htr : (q.withCoder (Coder.takeInterval start size)).coder.range.toNat = q.coder.range.toNat * size := by
    show (BitVec.ofNat 32 _).toNat = _
    rw [BitVec.toNat_ofNat, Nat.mod_eq_of_lt hrs]
  have htc : (q.withCoder (Coder.takeInterval start size)).coder.code.toNat = q.coder.code.toNat - start * q.coder.range.toNat := by
    show (BitVec.ofNat 32 _).toNat = _
    rw [BitVec.toNat_ofNat, Nat.mod_eq_of_lt (by have := q.coder.code.isLt; omega)]
  obtain ⟨n1, n2, n3⟩ := State.normalized_coder (k := k) (s := q.withCoder (Coder.takeInterval start size)) (by
    rw [htr, htc]
    have : (start + size) * q.coder.range.toNat = start * q.coder.range.toNat + q.coder.range.toNat * size := by ring
    omega) (by rw [htr]; exact hlt)
  refine ⟨_, hrun, ⟨hmode, rfl, ?_, by omega⟩, hf, n3, by rw [n1, htr], by rw [n2, htc]; rfl, rfl, rfl, rfl, hw⟩
  rw [n1, htr]; exact hw.enough

/-- The update after a query, for an interval that contains the value. -/
theorem rcUpdate_ready {s : State} (h : s.coder.DecReady) {start size total : Nat} (h1 : 1 ≤ size) (hfit : start + size ≤ total)
    (ht : total < 2 ^ 17) (hlo : start ≤ s.coder.code.toNat / (s.coder.range.toNat / total))
    (hhi : s.coder.code.toNat / (s.coder.range.toNat / total) < start + size) :
    ∃ k, k ≤ 3 ∧ (s.inputReady k → ∃ t, (rcUpdate start size).run (s.withCoder (Coder.queried total)) = .ok () t ∧
        t.coder.DecReady ∧ DecodeFrame (s.withCoder (Coder.queried total)) t ∧
        t.coder.range.toNat = s.coder.range.toNat / total * size * 256 ^ k ∧
        t.coder.code.toNat = (s.coder.code.toNat - start * (s.coder.range.toNat / total)) * 256 ^ k + bytesNumber (s.nextBytes k) ∧
        t.ports = (s.afterReads k).ports ∧ t.events = (s.afterReads k).events ∧
        Widened (s.coder.range.toNat / total * size) k (s.coder.range.toNat / total * size * 256 ^ k) ∧
        t.coder.code.toNat < t.coder.range.toNat) ∧
      (¬ s.inputReady k → ∃ t, (rcUpdate start size).run (s.withCoder (Coder.queried total)) = .error .hold t) := by
  have h64 := (unit_pos h.range_ge ht (Nat.le_refl 1) (by omega)).1
  have hr : (s.withCoder (Coder.queried total)).coder.range.toNat = s.coder.range.toNat / total := Coder.queried_range
  have hrs : s.coder.range.toNat / total * size < 2 ^ 32 := by
    have : s.coder.range.toNat / total * size ≤ s.coder.range.toNat / total * total := Nat.mul_le_mul_left _ (by omega)
    have h2 : s.coder.range.toNat / total * total ≤ s.coder.range.toNat := Nat.div_mul_le_self _ _
    have := s.coder.range.isLt
    omega
  have := rcUpdate_inside (q := s.withCoder (Coder.queried total)) (start := start) (size := size) h.mode (by rw [hr]; exact h64) h1
    (by rw [hr]; exact hrs) (by rw [hr]; exact (Nat.le_div_iff_mul_le (by omega)).mp hlo)
    (by rw [hr]; exact (Nat.div_lt_iff_lt_mul (by omega)).mp hhi)
  obtain ⟨k, hk, hok, hno⟩ := this
  refine ⟨k, hk, fun hi => ?_, fun hi => hno hi⟩
  obtain ⟨t, h1, h2, h3, h4, h5, h6, h7, h8, -, h9⟩ := hok hi
  rw [hr] at h5 h6 h9
  exact ⟨t, h1, h2, h3, h5, h6, h7, h8, h9, h4⟩

/-- The escape rewrites one record and leaves the model sound. -/
theorem Model.Sound.escape {m : Model} {u : Setup} (h : m.Sound u) {c : Nat} {x : Context} (hr : m.arena.read c = some x) :
    Model.Sound { m with arena := m.arena.write c x.raiseEsc } u :=
  h.rewrite hr (Context.raiseEsc_sound (h.records c x hr)) rfl rfl h.active_lt

/-- What `model_decode` leaves, however it ends. -/
theorem modelDecodeFrom_sound (l : List Nat) {s : State} (hu : s.setup.Sound) (hm : s.model.Sound s.setup)
    (hmode : s.model.mode = .dec) (hc : s.coder.DecReady) (hl : ∀ c ∈ l, c < s.model.ctxCount.toNat) :
    match (modelDecodeFrom l).run s with
    | .ok n t => t.setup = s.setup ∧ t.model.Sound s.setup ∧ t.model.mode = .dec ∧ t.coder.DecReady ∧ n < 257 ∧ t.fault = s.fault
    | .error e t => (∀ f, e ≠ .fault f) ∧ t.setup = s.setup ∧ t.model.Sound s.setup ∧ t.fault = s.fault := by
  induction l generalizing s with
  | nil =>
    obtain ⟨hg, h64⟩ := rcGetFreq_ready hc (total := 256) (by omega) (by omega)
    have hg : (rcGetFreq Config.uniformTotal).run s = _ := hg
    simp only [modelDecodeFrom, EStateM.run_bind, hg]
    by_cases hv : s.coder.code.toNat / (s.coder.range.toNat / 256) < 256
    · have hd : decide (s.coder.code.toNat / (s.coder.range.toNat / 256) < Config.uniformTotal) = true := decide_eq_true hv
      simp only [hd, check_true]
      obtain ⟨k, -, hok, hno⟩ := rcUpdate_ready hc (start := s.coder.code.toNat / (s.coder.range.toNat / 256)) (size := 1)
        (total := 256) (by omega) (by omega) (by omega) (Nat.le_refl _) (by omega)
      by_cases hi : s.inputReady k
      · obtain ⟨t, ht, hr, hf, -⟩ := hok hi
        simp only [ht, setActive_run, EStateM.run_pure]
        refine ⟨hf.setup, ?_, ?_, hr, by omega, hf.fault⟩
        · show Model.Sound { t.model with active := 0 } _
          rw [hf.model]
          exact { hm with active_lt := fun h => by have := hm.active_lt h; show 0 < _; exact Nat.lt_of_le_of_lt (Nat.zero_le _) this }
        · show t.model.mode = _
          rw [hf.model]; exact hmode
      · obtain ⟨t, ht⟩ := hno hi
        have hf := rcUpdate_frame (s.coder.code.toNat / (s.coder.range.toNat / 256)) 1 (s.withCoder (Coder.queried 256))
        rw [ht] at hf
        simp only [ht]
        exact ⟨by simp, hf.setup, by rw [show t.model = s.model from hf.model]; exact hm, hf.fault⟩
    · have hd : decide (s.coder.code.toNat / (s.coder.range.toNat / 256) < Config.uniformTotal) = false := decide_eq_false hv
      simp only [hd, check_false]
      exact ⟨by simp, rfl, hm, rfl⟩
  | cons c lower ih =>
    obtain ⟨x, hx⟩ := Option.isSome_iff_exists.mp ((hm.listed_iff c).mpr (hl c (by simp)))
    have hxs := hm.records c x hx
    have ht1 : 1 ≤ x.total := by unfold Context.total; omega
    obtain ⟨hg, h64⟩ := rcGetFreq_ready hc ht1 hxs.total_lt
    simp only [modelDecodeFrom, EStateM.run_bind, readCtx_some hx, hg]
    generalize hvv : s.coder.code.toNat / (s.coder.range.toNat / x.total) = v
    by_cases hv : v < x.total
    · simp only [decide_eq_true hv, check_true]; rw [act_ite]
      by_cases hesc : x.sum.toNat ≤ v
      · simp only [if_pos hesc]
        obtain ⟨k, -, hok, hno⟩ := rcUpdate_ready hc (start := x.sum.toNat) (size := x.esc.toNat + 1) (total := x.total) (by omega)
          (by unfold Context.total; omega) hxs.total_lt (by omega) (by rw [hvv]; unfold Context.total at hv; omega)
        by_cases hi : s.inputReady k
        · obtain ⟨t, ht, hr, hf, -⟩ := hok hi
          simp only [EStateM.run_bind, ht, noteEscape, writeCtx_run]
          have htm : t.model = s.model := hf.model
          have hts : t.setup = s.setup := hf.setup
          have := ih (s := t.withModel fun m => { m with arena := m.arena.write c x.raiseEsc }) (by
              show t.setup.Sound; rw [hts]; exact hu)
            (by show Model.Sound { t.model with arena := t.model.arena.write c x.raiseEsc } t.setup
                rw [htm, hts]; exact hm.escape hx)
            (by show t.model.mode = _; rw [htm]; exact hmode) hr (fun d hd => by
              show d < t.model.ctxCount.toNat; rw [htm]; exact hl d (by simp [hd]))
          revert this
          have e1 : (t.withModel fun m => { m with arena := m.arena.write c x.raiseEsc }).setup = s.setup := hts
          have e2 : (t.withModel fun m => { m with arena := m.arena.write c x.raiseEsc }).fault = s.fault := hf.fault
          rw [e1, e2]
          cases (modelDecodeFrom lower).run (t.withModel fun m => { m with arena := m.arena.write c x.raiseEsc }) <;> exact id
        · obtain ⟨t, ht⟩ := hno hi
          have hf := rcUpdate_frame x.sum.toNat (x.esc.toNat + 1) (s.withCoder (Coder.queried x.total))
          rw [ht] at hf
          simp only [EStateM.run_bind, ht]
          exact ⟨by simp, hf.setup, by rw [show t.model = s.model from hf.model]; exact hm, hf.fault⟩
      · simp only [if_neg hesc]
        obtain ⟨a, ha⟩ := Context.scan_isSome (x := x) (v := v) (by rw [← hxs.sum_eq]; omega)
        obtain ⟨h1, h2⟩ := Context.scan_some ha
        have hpos := hxs.freq_pos a
        have hfit := hxs.hit_fits a
        simp only [ha]
        obtain ⟨k, -, hok, hno⟩ := rcUpdate_ready hc (start := x.cum a.val) (size := (x.freq[a]).toNat) (total := x.total) hpos
          hfit hxs.total_lt (by omega) (by omega)
        by_cases hi : s.inputReady k
        · obtain ⟨t, ht, hr, hf, -⟩ := hok hi
          have htm : t.model = s.model := hf.model
          have hts : t.setup = s.setup := hf.setup
          have hxt : t.model.arena.read c = some x := by rw [htm]; exact hx
          simp only [EStateM.run_bind, ht, updateModel_run hxt, EStateM.run_pure]
          refine ⟨hts, ?_, ?_, hr, a.isLt, hf.fault⟩
          · show (t.model.afterHit t.setup c x a).Sound _
            rw [htm, hts]
            exact hm.afterHit hu (.inr (.inr hmode)) (by rw [hmode]; decide) hx a
          · show (t.model.afterHit t.setup c x a).mode = _
            rw [(Model.afterHit_coded _ _ _ _ _).1, htm]; exact hmode
        · obtain ⟨t, ht⟩ := hno hi
          have hf := rcUpdate_frame (x.cum a.val) (x.freq[a]).toNat (s.withCoder (Coder.queried x.total))
          rw [ht] at hf
          simp only [EStateM.run_bind, ht]
          exact ⟨by simp, hf.setup, by rw [show t.model = s.model from hf.model]; exact hm, hf.fault⟩
    · simp only [decide_eq_false hv, check_false]
      exact ⟨by simp, rfl, hm, rfl⟩

/-- Every context a symbol is tried at is allocated. -/
theorem Model.ladder_lt {m : Model} {u : Setup} (h : m.Sound u) (hm : m.mode ≠ .idle) : ∀ c ∈ m.ladder, c < m.ctxCount.toNat := by
  intro c hc
  have := h.active_lt hm
  unfold Model.ladder at hc
  split at hc <;> simp at hc
  · omega
  · rcases hc with rfl | rfl <;> omega

/-- The active context is tried first. -/
theorem Model.ladder_head (m : Model) : ∃ l, m.ladder = m.active.toNat :: l := by
  unfold Model.ladder
  split
  · rename_i h; exact ⟨[], by rw [h]; rfl⟩
  · exact ⟨_, rfl⟩

/-- `model_encode` at a record that can code the symbol. -/
theorem modelEncode_run {s : State} {x : Context} {a : Sym} (hx : s.model.arena.read s.model.active.toNat = some x)
    (hf : x.freq[a] ≠ 0) : (modelEncode a).run s =
      match (rcEncode (x.cum a.val) (x.freq[a]).toNat x.total).run s with
      | .ok _ t => .ok () (t.withModel (Model.afterHit s.setup s.model.active.toNat x a))
      | .error e t => .error e t := by
  obtain ⟨l, hl⟩ := s.model.ladder_head
  have hb : (x.freq[a] != 0) = true := by simpa using hf
  simp only [modelEncode, EStateM.run_bind, EStateM.run_get, hl, modelEncodeFrom, readCtx_some hx, hb, if_true]
  have hfr := rcEncode_frame (x.cum a.val) (x.freq[a]).toNat x.total s
  cases hr : (rcEncode (x.cum a.val) (x.freq[a]).toNat x.total).run s with
  | ok b t =>
    rw [hr] at hfr
    have hfr : EncodeFrame s t := hfr
    have hxt : t.model.arena.read s.model.active.toNat = some x := by rw [hfr.model]; exact hx
    simp only [updateModel_run hxt, hfr.setup]
  | error e t => rfl

/-- The interval check as inequalities (40_rangecoder.md R110, R114). -/
theorem fits_iff (a b c : Nat) : intervalFits a b c = true ↔ b ≠ 0 ∧ a < c ∧ a + b ≤ c := by
  simp [intervalFits, and_assoc]
/-- The code point check as inequalities (40_rangecoder.md R114). -/
theorem inside_iff (a b r c : Nat) : codePointInside a b r c = true ↔ a * r ≤ c ∧ c < (a + b) * r := by
  simp [codePointInside]

/-- `RC_GETFREQ` between two symbols (40_rangecoder.md R113). -/
theorem exec_getFreq {s : State} (hs : s.fault.raised = false) (h : s.coder.DecReady) {total : Operand} (h1 : 1 ≤ total.toNat) :
    exec (.rcGetFreq total) s = .next ((s.withCoder (Coder.queried total.toNat)).respond
      (BitVec.ofNat 32 (s.coder.code.toNat / (s.coder.range.toNat / total.toNat)))) := by
  obtain ⟨hg, -⟩ := rcGetFreq_ready h h1 total.isLt
  rw [exec_clear hs]
  apply runCommand_ok
  have hc : total ≠ 0#17 := by rintro rfl; exact absurd h1 (by decide)
  simp [body, EStateM.run_bind, EStateM.run_get, check_run, h.mode, h.idle, hc, hg]

/-- The state `k` rounds after the interval was taken. -/
def State.updated (start size k : Nat) (q : State) : State := (q.withCoder (Coder.takeInterval start size)).normalized k

/-- The number of rounds of a normalisation is determined (40_rangecoder.md R104, R108). -/
theorem Widened.rounds_unique {r a b : Nat} (ha : Widened r a (r * 256 ^ a)) (hb : Widened r b (r * 256 ^ b)) : a = b := by
  have hle : ∀ {a b : Nat}, Widened r a (r * 256 ^ a) → Widened r b (r * 256 ^ b) → a ≤ b := by
    intro a b ha hb
    by_contra hab
    rcases ha.least with h0 | hl
    · omega
    · have : r * 256 ^ b ≤ r * 256 ^ (a - 1) := Nat.mul_le_mul_left _ (Nat.pow_le_pow_right (by omega) (by omega))
      have := hb.enough
      omega
  exact Nat.le_antisymm (hle ha hb) (hle hb ha)

/-- `rc_update` after a query, from any state with the same coder and input: how many bytes it reads depends on nothing else, and it
holds exactly where they cannot be read. -/
theorem rcUpdate_explicit {s : State} (h : s.coder.DecReady) {start size total : Nat} (h1 : 1 ≤ size) (hfit : start + size ≤ total)
    (ht : total < 2 ^ 17) (hlo : start ≤ s.coder.code.toNat / (s.coder.range.toNat / total))
    (hhi : s.coder.code.toNat / (s.coder.range.toNat / total) < start + size) :
    ∃ k, k ≤ 3 ∧ Widened (s.coder.range.toNat / total * size) k (s.coder.range.toNat / total * size * 256 ^ k) ∧
      ∀ q : State, q.coder = s.coder.queried total → q.ports.input = s.ports.input → q.ports.eod = s.ports.eod →
        codePointInside start size q.coder.range.toNat q.coder.code.toNat = true ∧
        (s.inputReady k → (rcUpdate start size).run q = .ok () (q.updated start size k) ∧
          (q.updated start size k).coder.DecReady) ∧
        (¬ s.inputReady k → ∃ t, (rcUpdate start size).run q = .error .hold t) := by
  have h64 := (unit_pos h.range_ge ht (Nat.le_refl 1) (by omega)).1
  have hr : (s.coder.queried total).range.toNat = s.coder.range.toNat / total := Coder.queried_range
  have hrs : s.coder.range.toNat / total * size < 2 ^ 32 := by
    have : s.coder.range.toNat / total * size ≤ s.coder.range.toNat / total * total := Nat.mul_le_mul_left _ (by omega)
    have h2 : s.coder.range.toNat / total * total ≤ s.coder.range.toNat := Nat.div_mul_le_self _ _
    have := s.coder.range.isLt
    omega
  have hlo' : start * (s.coder.range.toNat / total) ≤ s.coder.code.toNat := (Nat.le_div_iff_mul_le (by omega)).mp hlo
  have hhi' : s.coder.code.toNat < (start + size) * (s.coder.range.toNat / total) := (Nat.div_lt_iff_lt_mul (by omega)).mp hhi
  obtain ⟨k, hk, hw, -⟩ := rcUpdate_spec (s := s.withCoder (Coder.queried total)) (start := start)
    (by rw [State.withCoder_coder, hr]; exact h64) h1 (by rw [State.withCoder_coder, hr]; exact hrs)
  rw [State.withCoder_coder, hr] at hw
  refine ⟨k, hk, hw, fun q hq hqi hqe => ?_⟩
  have hqr : q.coder.range.toNat = s.coder.range.toNat / total := by rw [hq]; exact hr
  have hqc : q.coder.code = s.coder.code := by rw [hq]; rfl
  have hready : ∀ n, q.inputReady n ↔ s.inputReady n := fun n => by simp only [State.inputReady, hqi, hqe]
  rw [← hqr, ← hqc] at hlo' hhi'
  obtain ⟨k', -, hok', hno'⟩ := rcUpdate_inside (q := q) (by rw [hq]; exact h.mode) (by omega) h1 (by rw [hqr]; exact hrs) hlo' hhi'
  obtain ⟨k2, -, hw2, -, hok2, hno2⟩ := rcUpdate_spec (s := q) (start := start) (by omega) h1 (by rw [hqr]; exact hrs)
  rw [hqr] at hw2
  obtain rfl := hw.rounds_unique hw2
  refine ⟨(inside_iff _ _ _ _).mpr ⟨hlo', hhi'⟩, fun hi => ?_, fun hi => hno2 fun hi2 => hi ((hready _).mp hi2)⟩
  have hrun := hok2 ((hready _).mpr hi)
  by_cases hi' : q.inputReady k'
  · obtain ⟨t, ht1, ht2, -⟩ := hok' hi'
    rw [hrun] at ht1; cases ht1
    exact ⟨hrun, ht2⟩
  · obtain ⟨t, ht1⟩ := hno' hi'
    rw [hrun] at ht1; cases ht1

/-- `RC_UPDATE` of an interval that passes its checks (40_rangecoder.md R114). -/
theorem exec_update {q t : State} {start size : Operand} (hs : q.fault.raised = false) (hm : q.coder.mode = .dec) (hp : q.coder.dpend = true)
    (h1 : 1 ≤ size.toNat) (hfit : start.toNat + size.toNat ≤ q.coder.dtot.toNat)
    (hin : codePointInside start.toNat size.toNat q.coder.range.toNat q.coder.code.toNat = true)
    (hrun : (rcUpdate start.toNat size.toNat).run q = .ok () t) : exec (.rcUpdate start size) q = .next (t.respond 0) := by
  rw [exec_clear hs]
  apply runCommand_ok
  have hf : intervalFits start.toNat size.toNat q.coder.dtot.toNat = true := (fits_iff _ _ _).mpr ⟨by omega, by omega, by omega⟩
  have hz : ∀ m, (do rcUpdate start.toNat size.toNat; return m : Act Word32).run q = .ok m t := by
    intro m; rw [EStateM.run_bind, hrun]; rfl
  simp only [body, EStateM.run_bind, EStateM.run_get, check_run, hm, hp, hf, hin, if_true, beq_self_eq_true, Bool.and_self, hrun]; rfl

/-- `RC_UPDATE` of an interval that passes its checks, with too little input (40_rangecoder.md R114). -/
theorem exec_update_hold {q t : State} {start size : Operand} (hs : q.fault.raised = false) (hm : q.coder.mode = .dec)
    (hp : q.coder.dpend = true) (h1 : 1 ≤ size.toNat) (hfit : start.toNat + size.toNat ≤ q.coder.dtot.toNat)
    (hin : codePointInside start.toNat size.toNat q.coder.range.toNat q.coder.code.toNat = true)
    (hrun : (rcUpdate start.toNat size.toNat).run q = .error .hold t) : exec (.rcUpdate start size) q = .next q := by
  rw [exec_clear hs]
  apply runCommand_hold (t := t)
  have hf : intervalFits start.toNat size.toNat q.coder.dtot.toNat = true := (fits_iff _ _ _).mpr ⟨by omega, by omega, by omega⟩
  simp only [body, EStateM.run_bind, EStateM.run_get, check_run, hm, hp, hf, hin, if_true, beq_self_eq_true, Bool.and_self, hrun]

/-- The state after a query between two symbols. -/
def State.queriedAt (total : Nat) (s : State) : State :=
  (s.withCoder (Coder.queried total)).respond (BitVec.ofNat 32 (s.coder.code.toNat / (s.coder.range.toNat / total)))

/-- All that `RC_GETFREQ` and `RC_UPDATE` of an interval that contains the value can do: with `k` the bytes that the update needs, it
completes where they can be read, and holds where they cannot; `rc_update` inside another command reads the same `k`
(40_rangecoder.md R113, R114). -/
theorem exec_query_update {s : State} (hs : s.fault.raised = false) (h : s.coder.DecReady) {start size total : Operand}
    (h1 : 1 ≤ size.toNat) (hfit : start.toNat + size.toNat ≤ total.toNat)
    (hlo : start.toNat ≤ s.coder.code.toNat / (s.coder.range.toNat / total.toNat))
    (hhi : s.coder.code.toNat / (s.coder.range.toNat / total.toNat) < start.toNat + size.toNat) :
    exec (.rcGetFreq total) s = .next (s.queriedAt total.toNat) ∧ ∃ k, k ≤ 3 ∧
      Widened (s.coder.range.toNat / total.toNat * size.toNat) k (s.coder.range.toNat / total.toNat * size.toNat * 256 ^ k) ∧
      (s.inputReady k → exec (.rcUpdate start size) (s.queriedAt total.toNat) =
        .next (((s.queriedAt total.toNat).updated start.toNat size.toNat k).respond 0)) ∧
      (¬ s.inputReady k → exec (.rcUpdate start size) (s.queriedAt total.toNat) = .next (s.queriedAt total.toNat)) ∧
      ∀ q : State, q.coder = s.coder.queried total.toNat → q.ports.input = s.ports.input → q.ports.eod = s.ports.eod →
        (s.inputReady k → (rcUpdate start.toNat size.toNat).run q = .ok () (q.updated start.toNat size.toNat k) ∧
          (q.updated start.toNat size.toNat k).coder.DecReady) ∧
        (¬ s.inputReady k → ∃ t, (rcUpdate start.toNat size.toNat).run q = .error .hold t) := by
  refine ⟨exec_getFreq hs h (by omega), ?_⟩
  obtain ⟨k, hk, hw, hup⟩ := rcUpdate_explicit h h1 hfit total.isLt hlo hhi
  obtain ⟨hin, hok, hno⟩ := hup (s.queriedAt total.toNat) rfl rfl rfl
  have ht : (s.queriedAt total.toNat).coder.dtot.toNat = total.toNat := by
    show (BitVec.ofNat 17 _).toNat = _
    rw [BitVec.toNat_ofNat, Nat.mod_eq_of_lt total.isLt]
  refine ⟨k, hk, hw, fun hi => ?_, fun hi => ?_, fun q e1 e2 e3 => (hup q e1 e2 e3).2⟩
  · exact exec_update hs h.mode rfl h1 (by rw [ht]; exact hfit) hin (hok hi).1
  · obtain ⟨t, hrun⟩ := hno hi
    exact exec_update_hold hs h.mode rfl h1 (by rw [ht]; exact hfit) hin hrun

/-- `CM_DECODE` between two symbols, by what `model_decode` does (41_contextmodel.md R160). -/
theorem exec_cmDecode {s : State} (hs : s.fault.raised = false) (hm : s.model.mode = .dec) (hc : s.coder.mode = .dec)
    (hd : s.coder.dpend = false) : exec .cmDecode s = match modelDecode.run s with
      | .ok d t => .next (((t.withEvents fun v => { v with cntSym := v.cntSym + 1 }).withModel fun m =>
          { m with mode := if d = 256 then .term else m.mode }).respond (BitVec.ofNat 32 d))
      | .error .hold _ => .next s
      | .error (.raise e) t => .next (t.faultEntry e Opc.cmDecode)
      | .error (.fault f) _ => .fault f := by
  rw [exec_clear hs]
  have hck : (s.model.mode == .dec && s.coder.mode == .dec && !s.coder.dpend) = true := by simp [hm, hc, hd]
  have hb : (body .cmDecode).run s = match modelDecode.run s with
      | .ok d t => .ok (BitVec.ofNat 32 d) ((t.withEvents fun v => { v with cntSym := v.cntSym + 1 }).withModel fun m =>
          { m with mode := if d = 256 then .term else m.mode })
      | .error e t => .error e t := by
    simp only [body, EStateM.run_bind, EStateM.run_get, check_run, hck, if_true]
    cases modelDecode.run s <;> simp only [symbolDone_run, EStateM.run_pure]
  cases h : modelDecode.run s with
  | ok d t => rw [h] at hb; exact runCommand_ok hb
  | error e t =>
    rw [h] at hb
    cases e with
    | hold => exact runCommand_hold hb
    | raise e => exact runCommand_raise hb
    | fault f => exact runCommand_fault hb

end Sys2Proof.Machine
end

