-- ==== Sys2Proof/Laws/Invariant.lean ====
section
/-! SUPPORT. The coder's and the model's parts of the invariant, through the updates the commands make
(40_rangecoder.md R116 to R119, 41_contextmodel.md R162 to R167). -/

namespace Sys2Proof.Machine

/-- The reset coder is sound. -/
theorem Coder.reset_sound : Coder.reset.Sound := ⟨nofun, fun _ _ => by decide, nofun, nofun, nofun, nofun⟩

/-- `RC_INIT_ENC` leaves a sound coder (40_rangecoder.md R109). -/
theorem Coder.startEncode_sound : Coder.startEncode.Sound :=
  ⟨nofun, fun _ _ => by decide, nofun, nofun, fun _ => ⟨by decide, by decide, nofun, fun _ => ⟨rfl, by decide⟩⟩, nofun⟩

/-- The reset model is sound. -/
theorem Model.reset_sound (u : Setup) : Model.reset.Sound u where
  arena_wf := rfl
  listed_iff := fun c => by simp [Model.reset]
  idle_empty := fun _ => rfl
  fresh_root := nofun
  active_lt := fun h => absurd rfl h
  count_le := Nat.zero_le _
  configured := fun h => absurd rfl h
  budget := fun h => by rcases h with h | h | h <;> cases h
  depth := fun _ c x h => by simp [Model.reset] at h
  root_order := fun x h => by simp [Model.reset] at h
  records := fun c x h => by simp [Model.reset] at h
  links := fun c x s h => by simp [Model.reset] at h

/-- `CM_RESET` leaves a sound model (41_contextmodel.md R156). -/
theorem rooted_inv_sound (u : Setup) (hu : u.Sound) (ho : u.modelOrder ≠ 0) :
    Model.Sound { mode := .fresh, active := 0, ctxCount := 1, arena := [(0, Context.fresh 0)] } u := by
  have hread : ∀ c x, Memory.read [(0, Context.fresh 0)] c = some x → x = Context.fresh 0 := by
    intro c x hx
    by_cases hc : 0 = c <;> simp_all [Memory.read_cons]
  exact {
    arena_wf := rfl
    listed_iff := fun c => by
      by_cases hc : 0 = c
      · subst hc; simp [Memory.read_cons]
      · simp only [Memory.read_cons, hc]; simp; omega
    idle_empty := nofun
    fresh_root := fun _ => rfl
    active_lt := fun _ => Nat.one_pos
    count_le := by have := hu.max_pos; have := hu.max_le; show 1 ≤ _; omega
    configured := fun _ => ho
    budget := fun _ => hu.max_pos
    depth := fun _ c x hx => by rw [hread c x hx]; exact Nat.zero_le _
    root_order := fun x hx => by rw [hread 0 x hx]; rfl
    records := fun c x hx => by rw [hread c x hx]; exact Context.fresh_sound (by decide)
    links := fun c x a hx hne => by
      rw [hread c x hx] at hne
      simp [Context.fresh] at hne }

/-- A legal write of the configuration outside a chunk's coding. -/
theorem Model.Sound.reconfigure {m : Model} {u v : Setup} (h : m.Sound u) (hv : v.Sound) (he : m.mode ≠ .enc) (hd : m.mode ≠ .dec)
    (ho : m.mode ≠ .idle → v.modelOrder ≠ 0) : m.Sound v := { h with
  configured := ho
  budget := fun hc => by
    rcases hc with hc | hc | hc
    · have := h.fresh_root hc; rw [this]; exact hv.max_pos
    · exact absurd hc he
    · exact absurd hc hd
  depth := fun hc c x hx => by
    rcases hc with hc | hc | hc
    · have := h.fresh_root hc
      have h1 := Memory.read_lt_of_some h hx
      rw [this] at h1
      have : c = 0 := by have e : (1 : BitVec 18).toNat = 1 := rfl
                         omega
      subst this
      rw [h.root_order x hx]; exact Nat.zero_le _
    · exact absurd hc he
    · exact absurd hc hd }

/-- `CM_START_ENC` and `CM_START_DEC` keep the model sound (41_contextmodel.md R157, R158). -/
theorem Model.Sound.start {m : Model} {u : Setup} (h : m.Sound u) (hm : m.mode.inChunk) (n : CmMode) (hn : n = .enc ∨ n = .dec) :
    Model.Sound { m with active := 0, mode := n } u := by
  have hi : m.mode ≠ .idle := by rcases hm with h | h | h <;> rw [h] <;> decide
  have h0 := h.active_lt hi
  exact { h with
    idle_empty := fun hh => by rcases hn with rfl | rfl <;> cases hh
    fresh_root := fun hh => by rcases hn with rfl | rfl <;> cases hh
    active_lt := fun _ => Nat.lt_of_le_of_lt (Nat.zero_le _) h0
    configured := fun _ => h.configured hi
    budget := fun _ => h.budget hm
    depth := fun _ => h.depth hm }

/-- The end of a symbol keeps the model sound (41_contextmodel.md R159, R160). -/
theorem Model.Sound.done {m : Model} {u : Setup} (h : m.Sound u) (hm : m.mode ≠ .idle) (n : Nat) :
    Model.Sound { m with mode := if n = 256 then .term else m.mode } u := by
  by_cases hn : n = 256
  · simp only [if_pos hn]
    exact { h with
      idle_empty := nofun
      fresh_root := nofun
      active_lt := fun _ => h.active_lt hm
      configured := fun _ => h.configured hm
      budget := fun hh => by rcases hh with h | h | h <;> cases h
      depth := fun hh => by rcases hh with h | h | h <;> cases h }
  · simp only [if_neg hn]; exact h

/-- The flush keeps the carry bounds (40_rangecoder.md R111). -/
theorem shiftLowTimes_carry {n : Nat} {s : State} (h : s.coder.CarrySafe) (hr : Config.thresh ≤ s.coder.range.toNat) :
    (∃ t, (shiftLowTimes n).run s = .ok () t) ∨ ∃ t, (shiftLowTimes n).run s = .error (.raise .ovf) t := by
  rcases shiftLowTimes_spec n (h.fits (by simp only [Config.thresh] at hr; omega)) with ⟨t, ht, -⟩ | ⟨-, t, ht⟩
  · exact .inl ⟨t, ht⟩
  · exact .inr ⟨t, ht⟩

/-- A sound encoding coder. -/
theorem Coder.Sound.encReady {c : Coder} (h : c.Sound) (hm : c.mode = .enc) :
    c.dpend = false ∧ Config.thresh ≤ c.range.toNat ∧ c.CarrySafe := by
  have : c.dpend = false := by
    cases hd : c.dpend
    · rfl
    · have := h.pending_dec hd; rw [hm] at this; cases this
  exact ⟨this, h.range_ge (by rw [hm]; decide) this, h.carry hm⟩

/-- The coder after a completed encode is sound. -/
theorem encoded_sound {s t : State} (hs : s.coder.Sound) (hm : s.coder.mode = .enc) (hf : EncodeFrame s t)
    (hr : Config.thresh ≤ t.coder.range.toNat) (hc : t.coder.CarrySafe) : t.coder.Sound := by
  have hd := (hs.encReady hm).1
  have hd' : t.coder.dpend = false := hf.dpend.trans hd
  have hm' : t.coder.mode = .enc := hf.mode.trans hm
  have hno : t.coder.dpend ≠ true := by rw [hd']; decide
  have hne : t.coder.mode ≠ .dec := by rw [hm']; decide
  exact ⟨fun h => absurd h hno, fun _ _ => hr, fun h => absurd h hno, fun h => absurd h hno, fun _ => hc, fun h => absurd h hne⟩

end Sys2Proof.Machine
end

