-- ==== Sys2Proof/Laws/Moves.lean ====
section
/-! SUPPORT. What the symbol procedures can do to the model, move by move (41_contextmodel.md R145, R147, R148), and that each move
keeps the successor links a tree (R164). -/

namespace Sys2Proof.Machine

variable {α β : Type}

/-! ### The moves -/

/-- `n` is `m` after escapes: records written back with `esc` raised (41_contextmodel.md R147). -/
inductive Model.Escaped (m : Model) : Model → Prop
  | refl : Model.Escaped m m
  | step {n : Model} {c : Nat} {x : Context} (h : Model.Escaped m n) (hx : n.arena.read c = some x) :
      Model.Escaped m { n with arena := n.arena.write c x.raiseEsc }

/-- `n` is `m` after a symbol: escapes, and then the root made active (order -1) or a hit. -/
def Model.Symboled (u : Setup) (m n : Model) : Prop :=
  ∃ e, m.Escaped e ∧ (n = { e with active := 0 } ∨
    ∃ (c : Nat) (x : Context) (a : Sym), e.arena.read c = some x ∧ n = e.afterHit u c x a)

theorem Model.Escaped.trans {m n k : Model} (h : m.Escaped n) (h' : n.Escaped k) : m.Escaped k := by
  induction h' with
  | refl => exact h
  | step _ hx ih => exact ih.step hx

theorem Model.Escaped.symboled {u : Setup} {m n k : Model} (h : m.Escaped n) (h' : n.Symboled u k) : m.Symboled u k := by
  obtain ⟨e, he, hk⟩ := h'
  exact ⟨e, h.trans he, hk⟩

/-- The model and the configuration are those of `s`. -/
def State.SameModel (s t : State) : Prop := t.model = s.model ∧ t.setup = s.setup

theorem rcEncode_sameModel (a b c : Nat) : (rcEncode a b c).Keeps State.SameModel :=
  fun s => ⟨(rcEncode_frame a b c s).model, (rcEncode_frame a b c s).setup⟩

theorem rcGetFreq_sameModel (n : Nat) : (rcGetFreq n).Keeps State.SameModel :=
  fun s => ⟨(rcGetFreq_frame n s).model, (rcGetFreq_frame n s).setup⟩

theorem rcUpdate_sameModel (a b : Nat) : (rcUpdate a b).Keeps State.SameModel :=
  fun s => ⟨(rcUpdate_frame a b s).model, (rcUpdate_frame a b s).setup⟩

theorem check_sameModel (e : ErrCode) (ok : Bool) : (check e ok).Keeps State.SameModel := by
  intro s
  rw [check_run]
  cases ok <;> exact ⟨rfl, rfl⟩

/-- What a symbol procedure that starts with the model `m` and the configuration `u` may end in. -/
def Moves (u : Setup) (m : Model) (r : EStateM.Result Stop State α) : Prop :=
  match r with
  | .ok _ t => t.setup = u ∧ m.Symboled u t.model
  | .error _ t => t.setup = u ∧ m.Escaped t.model

/-- An action that leaves the model, then the rest. -/
theorem moves_bind {x : Act α} {f : α → Act β} (hx : x.Keeps State.SameModel) {s : State}
    (hf : ∀ a t, t.model = s.model → t.setup = s.setup → Moves s.setup s.model ((f a).run t)) :
    Moves s.setup s.model ((x >>= f).run s) := by
  have h := hx s
  cases e : x.run s with
  | ok a t =>
    rw [e] at h
    rw [act_bind_of_ok e]
    exact hf a t h.1 h.2
  | error e' t =>
    rw [e] at h
    rw [act_bind_of_error e]
    have hm : t.model = s.model := h.1
    exact ⟨h.2, by rw [hm]; exact .refl⟩

/-- The same, where the action before it has left the model. -/
theorem moves_bind' {u : Setup} {m : Model} {x : Act α} {f : α → Act β} (hx : x.Keeps State.SameModel) {s : State}
    (hm : s.model = m) (hu : s.setup = u) (hf : ∀ a t, t.model = m → t.setup = u → Moves u m ((f a).run t)) :
    Moves u m ((x >>= f).run s) := by
  subst hm hu
  exact moves_bind hx hf

/-- An escape, and then the contexts that remain. -/
theorem moves_escape {f : Act α} {c : Nat} {x : Context} {s : State} {u : Setup} {m : Model} (hm : s.model = m)
    (hu : s.setup = u) (hx : m.arena.read c = some x) (hf : ∀ t : State, Moves t.setup t.model (f.run t)) :
    Moves u m ((noteEscape c x >>= fun _ => f).run s) := by
  subst hm hu
  rw [EStateM.run_bind, noteEscape, writeCtx_run]
  let t := s.withModel fun m => { m with arena := m.arena.write c x.raiseEsc }
  have he : s.model.Escaped t.model := Model.Escaped.refl.step hx
  have h := hf t
  show Moves s.setup s.model (f.run t)
  cases hr : f.run t with
  | ok a v => rw [hr] at h; exact ⟨h.1, he.symboled h.2⟩
  | error e v => rw [hr] at h; exact ⟨h.1, he.trans h.2⟩

theorem moves_hit {c : Nat} {x : Context} {s : State} {u : Setup} {m : Model} (hm : s.model = m) (hu : s.setup = u)
    (hx : m.arena.read c = some x) (a : Sym) : Moves u m ((updateModel c a).run s) := by
  subst hm hu
  rw [updateModel_run hx]
  exact ⟨rfl, s.model, .refl, .inr ⟨c, x, a, hx, rfl⟩⟩

theorem moves_pure {x : Act α} {b : β} {s : State} {u : Setup} {m : Model} (h : Moves u m (x.run s)) :
    Moves u m ((x >>= fun _ => pure b).run s) := by
  rw [EStateM.run_bind]
  revert h
  cases x.run s <;> exact id

theorem moves_root {s : State} {u : Setup} {m : Model} (hm : s.model = m) (hu : s.setup = u) :
    Moves u m ((setActive 0).run s) := by
  subst hm hu
  exact ⟨rfl, s.model, .refl, .inl rfl⟩

/-- All that `model_encode` can do to the model (41_contextmodel.md R151). -/
theorem modelEncodeFrom_moves (sym : Sym) (l : List Nat) (s : State) :
    Moves s.setup s.model ((modelEncodeFrom sym l).run s) := by
  induction l generalizing s with
  | nil =>
    exact moves_bind (check_sameModel _ _) fun _ t hm hu => moves_bind' (rcEncode_sameModel _ _ _) hm hu fun _ _ hm hu =>
      moves_root hm hu
  | cons c lower ih =>
    rw [modelEncodeFrom, EStateM.run_bind, readCtx_run]
    cases hx : s.model.arena.read c with
    | none => exact ⟨rfl, .refl⟩
    | some x =>
      simp only [act_ite]
      split
      · exact moves_bind (rcEncode_sameModel _ _ _) fun _ t hm hu => moves_hit hm hu hx sym
      · exact moves_bind (rcEncode_sameModel _ _ _) fun _ t hm hu => moves_escape hm hu hx ih

theorem modelEncode_moves (sym : Sym) (s : State) : Moves s.setup s.model ((modelEncode sym).run s) :=
  modelEncodeFrom_moves sym _ s

/-- All that `model_decode` can do to the model (41_contextmodel.md R152). -/
theorem modelDecodeFrom_moves (l : List Nat) (s : State) : Moves s.setup s.model ((modelDecodeFrom l).run s) := by
  induction l generalizing s with
  | nil =>
    exact moves_bind (rcGetFreq_sameModel _) fun _ t hm hu => moves_bind' (check_sameModel _ _) hm hu fun _ t hm hu =>
      moves_bind' (rcUpdate_sameModel _ _) hm hu fun _ t hm hu => moves_pure (moves_root hm hu)
  | cons c lower ih =>
    rw [modelDecodeFrom, EStateM.run_bind, readCtx_run]
    cases hx : s.model.arena.read c with
    | none => exact ⟨rfl, .refl⟩
    | some x =>
      refine moves_bind (rcGetFreq_sameModel _) fun v t hm hu => moves_bind' (check_sameModel _ _) hm hu fun _ t hm hu => ?_
      rw [act_ite]
      split
      · exact moves_bind' (rcUpdate_sameModel _ _) hm hu fun _ t hm hu => moves_escape hm hu hx ih
      · cases x.scan v with
        | none => exact ⟨hu, by rw [hm]; exact .refl⟩
        | some sym =>
          exact moves_bind' (rcUpdate_sameModel _ _) hm hu fun _ t hm hu => moves_pure (moves_hit hm hu hx sym)

theorem modelDecode_moves (s : State) : Moves s.setup s.model (modelDecode.run s) := modelDecodeFrom_moves _ s

/-- A command that raises has changed the model by escapes alone (60_exceptions.md R206). -/
theorem body_raise_escaped {i : Instr} {s u : State} {e : ErrCode} (h : (body i).run s = .error (.raise e) u) :
    s.model.Escaped u.model := by
  have hi : i ≠ .rcInitDec := by
    rintro rfl; exact absurd (body_stops .rcInitDec s _ u h) (by simp [mayStop])
  have same {α : Type} {x : Act α} (hx : x.Keeps State.SameModel) : x.Fails fun s t => s.model.Escaped t.model :=
    hx.fails.mono fun s t hst => by rw [hst.1]; exact .refl
  have moved {α : Type} {x : Act α} (hx : ∀ s, Moves s.setup s.model (x.run s)) :
      x.Fails fun s t => s.model.Escaped t.model := by
    intro s e t he
    have := hx s
    rw [he] at this
    exact this.2
  exact body_fails_of (R := fun s t => s.model.Escaped t.model) (fun _ => .refl) i hi
    (fun _ _ _ _ _ _ _ => same (rcEncode_sameModel _ _ _))
    (fun n _ => same fun s => ⟨(shiftLowTimes_frame n s).model, (shiftLowTimes_frame n s).setup⟩)
    (fun _ _ _ => same (rcGetFreq_sameModel _)) (fun _ _ _ _ _ => same (rcUpdate_sameModel _ _))
    (fun _ x _ => moved (modelEncode_moves x)) (fun _ => moved modelDecode_moves) s _ u h

/-- All that a command which completes can have done to the arena: `BLK_RESET` drops every record, `CM_RESET` all but the root, the
symbol commands move the model, and no other command changes it. -/
theorem body_ok_moves {i : Instr} {s u : State} {d : Word32} (h : (body i).run s = .ok d u) :
    (i = .blkReset ∧ u.model.arena = []) ∨ (i = .cmReset ∧ u.model.arena = [(0, Context.fresh 0)]) ∨
    u.model.arena = s.model.arena ∨
    (s.model.Symboled s.setup { u.model with mode := s.model.mode } ∧ (i = .cmDecode ∨ ∃ a, i = .cmEncode a) ∧
      (s.model.mode = .enc ∨ s.model.mode = .dec)) := by
  have hc := body_ok h
  have same {v : State} (hv : v.model = s.model) : v.model.arena = s.model.arena := by rw [hv]
  cases i with
  | nop => obtain ⟨-, rfl⟩ := hc; simp
  | blkReset => obtain ⟨-, rfl⟩ := hc; left; exact ⟨rfl, rfl⟩
  | csrRd c => obtain ⟨-, -, -, rfl⟩ := hc; simp
  | csrWr c d => obtain ⟨-, ⟨-, -, rfl⟩ | ⟨-, -, ⟨-, -, -, rfl⟩ | ⟨-, -, -, rfl⟩⟩⟩ := hc <;> simp
  | dbgRd c o => obtain ⟨-, -, -, -, rfl⟩ := hc; simp
  | rcInitEnc => obtain ⟨-, rfl⟩ := hc; simp
  | rcEncode a b c =>
    obtain ⟨-, -, -, -, hr⟩ := hc
    have := rcEncode_frame a.toNat b.toNat c.toNat s
    rw [hr] at this
    exact .inr (.inr (.inl (same this.model)))
  | rcFlush =>
    obtain ⟨-, v, hr, -, rfl⟩ := hc
    have := shiftLowTimes_frame 5 s
    rw [hr] at this
    exact .inr (.inr (.inl (same (v := v) this.model)))
  | rcInitDec =>
    obtain ⟨-, v, hr, rfl⟩ := hc
    have := shiftInBytes_frame 4 ((s.withCoder Coder.startDecode).withEvents fun v =>
      { v with cntIn := 0, cntZfill := 0, zfill := false })
    rw [hr] at this
    exact .inr (.inr (.inl (same (v := v) this.model)))
  | rcGetFreq c =>
    obtain ⟨-, -, -, v, -, hr⟩ := hc
    have := rcGetFreq_frame c.toNat s
    rw [hr] at this
    exact .inr (.inr (.inl (same this.model)))
  | rcUpdate a b =>
    obtain ⟨-, -, -, -, -, hr⟩ := hc
    have := rcUpdate_frame a.toNat b.toNat s
    rw [hr] at this
    exact .inr (.inr (.inl (same this.model)))
  | cmReset => obtain ⟨-, -, rfl⟩ := hc; right; left; exact ⟨rfl, rfl⟩
  | cmStartEnc => obtain ⟨-, -, rfl⟩ := hc; simp
  | cmStartDec => obtain ⟨-, -, rfl⟩ := hc; simp
  | cmEncode a =>
    obtain ⟨-, hm, -, x, v, -, hr, hd⟩ := hc
    have := modelEncode_moves x s
    rw [hr] at this
    have hmode := (modelEncode_frame x s)
    rw [hr] at hmode
    have hmode : v.model.mode = s.model.mode := hmode.2.1
    rw [symbolDone_run] at hd
    cases hd
    refine .inr (.inr (.inr ⟨?_, .inr ⟨a, rfl⟩, .inl hm⟩))
    have e : ({ v.model with mode := s.model.mode } : Model) = v.model := by rw [← hmode]
    show s.model.Symboled s.setup { v.model with mode := s.model.mode }
    rw [e]
    exact this.2
  | cmDecode =>
    obtain ⟨hm, -, -, n, v, -, hr, hd⟩ := hc
    have := modelDecode_moves s
    rw [hr] at this
    have hmode := (modelDecode_frame s)
    rw [hr] at hmode
    have hmode : v.model.mode = s.model.mode := hmode.2.1
    rw [symbolDone_run] at hd
    cases hd
    refine .inr (.inr (.inr ⟨?_, .inl rfl, .inr hm⟩))
    have e : ({ v.model with mode := s.model.mode } : Model) = v.model := by rw [← hmode]
    show s.model.Symboled s.setup { v.model with mode := s.model.mode }
    rw [e]
    exact this.2

/-- Escapes keep the model sound and its mode. -/
theorem Model.Sound.escaped {m n : Model} {u : Setup} (h : m.Sound u) (he : m.Escaped n) : n.Sound u ∧ n.mode = m.mode := by
  induction he with
  | refl => exact ⟨h, rfl⟩
  | step _ hx ih => exact ⟨ih.1.escape hx, ih.2⟩

/-! ### The links (41_contextmodel.md R164) -/

/-- Writing back a record with its links keeps every record's links. -/
theorem Memory.links_rewrite {m : Memory} {c : Nat} {x y : Context} (hx : m.read c = some x) (hs : y.succ = x.succ) (d : Nat) :
    ((m.write c y).read d).map Context.succ = (m.read d).map Context.succ := by
  rw [Memory.read_write]
  split
  · rename_i h
    rw [h, hx, Option.map_some, Option.map_some, hs]
  · rfl

/-- Escapes keep every record's links. -/
theorem Model.Escaped.links {m n : Model} (he : m.Escaped n) (d : Nat) :
    (n.arena.read d).map Context.succ = (m.arena.read d).map Context.succ := by
  induction he with
  | refl => rfl
  | step _ hx ih =>
    rw [← ih]
    exact Memory.links_rewrite hx (Context.raiseEsc_succ _) d

/-- The tree properties speak of the links alone. -/
theorem Memory.LinksInjective.of_links {m n : Memory} (h : m.LinksInjective)
    (hl : ∀ d, (n.read d).map Context.succ = (m.read d).map Context.succ) : n.LinksInjective := by
  intro c d x y s t hx hy hne heq
  have hc := hl c
  have hd := hl d
  rw [hx, Option.map_some] at hc
  rw [hy, Option.map_some] at hd
  obtain ⟨x', hx', ex⟩ := Option.map_eq_some_iff.mp hc.symm
  obtain ⟨y', hy', ey⟩ := Option.map_eq_some_iff.mp hd.symm
  rw [← ex] at hne heq
  rw [← ey] at heq
  exact h c d x' y' s t hx' hy' hne heq

theorem Memory.LinksCover.of_links {m n : Memory} (h : m.LinksCover)
    (hl : ∀ d, (n.read d).map Context.succ = (m.read d).map Context.succ) : n.LinksCover := by
  intro c y hy hc
  have e := hl c
  rw [hy, Option.map_some] at e
  obtain ⟨y', hy', -⟩ := Option.map_eq_some_iff.mp e.symm
  obtain ⟨d, x, s, hx, hs⟩ := h c y' hy' hc
  have e' := hl d
  rw [hx, Option.map_some] at e'
  obtain ⟨x', hx', ex⟩ := Option.map_eq_some_iff.mp e'
  exact ⟨d, x', s, hx', by rw [ex]; exact hs⟩

/-- After a hit that creates a child, a link that is present is the new one, to the new record, or an old one. -/
theorem Memory.created_link {m : Memory} {c n : Nat} {x : Context} (hr : m.read c = some x) (a : Sym) {child : CtxIndex}
    {k : Order} {p : Nat} {z : Context} {s : Sym} (hz : (((m.write c (x.hit a)).write n (Context.fresh k)).write c
      { x.hit a with succ := (x.hit a).succ.set a child }).read p = some z) (hne : z.succ[s] ≠ 0) :
    (p = c ∧ s = a ∧ z.succ[s] = child) ∨ (¬ (p = c ∧ s = a) ∧ ∃ w, m.read p = some w ∧ w.succ[s] = z.succ[s]) := by
  rw [Memory.read_write] at hz
  split at hz
  · rename_i hp
    cases hz
    by_cases hs : s = a
    · subst hs
      exact .inl ⟨hp, rfl, by simp⟩
    · refine .inr ⟨fun hh => hs hh.2, x, by rw [hp]; exact hr, ?_⟩
      have : a.val ≠ s.val := fun e => hs (Fin.ext e.symm)
      simp [this]
  · rename_i hp
    rw [Memory.read_write] at hz
    split at hz
    · cases hz
      exact absurd (by simp [Context.fresh]) hne
    · rw [Memory.read_write, if_neg hp] at hz
      exact .inr ⟨fun hh => hp hh.1, z, hz, rfl⟩

/-- A present link of an allocated record is below `CTX_COUNT`. -/
theorem Model.Sound.link_lt {m : Model} {u : Setup} (h : m.Sound u) {p : Nat} {w : Context} (hw : m.arena.read p = some w)
    {s : Sym} (hne : w.succ[s] ≠ 0) : (w.succ[s]).toNat < m.ctxCount.toNat := by
  obtain ⟨y, hy, -⟩ := h.links p w s hw hne
  exact Memory.read_lt_of_some h hy

/-- `update_model` keeps the links injective. -/
theorem Model.Sound.afterHit_injective {m : Model} {u : Setup} (hu : u.Sound) (h : m.Sound u) {c : Nat} {x : Context}
    (hr : m.arena.read c = some x) (a : Sym) (hi : m.arena.LinksInjective) :
    (m.afterHit u c x a).arena.LinksInjective := by
  have hrw := hi.of_links (Memory.links_rewrite hr (Context.hit_succ x a))
  unfold Model.afterHit
  split
  · exact hrw
  · split
    · rename_i h2
      have hci := Model.Sound.childIndex hu h2.1
      intro p q y z s t hy hz hne heq
      have hne' : z.succ[t] ≠ 0 := heq ▸ hne
      rcases Memory.created_link hr a hy hne with ⟨hp, hs, hv⟩ | ⟨-, w, hw, hv⟩ <;>
        rcases Memory.created_link hr a hz hne' with ⟨hq, ht, hv'⟩ | ⟨-, w', hw', hv'⟩
      · exact ⟨hp.trans hq.symm, hs.trans ht.symm⟩
      · have := h.link_lt hw' (s := t) (by rw [hv']; exact hne')
        rw [hv', ← heq, hv, hci] at this
        omega
      · have := h.link_lt hw (s := s) (by rw [hv]; exact hne)
        rw [hv, heq, hv', hci] at this
        omega
      · exact hi p q w w' s t hw hw' (by rw [hv]; exact hne) (by rw [hv, hv']; exact heq)
    · exact hrw

/-- `update_model` keeps every record but the root the child of a link. -/
theorem Model.Sound.afterHit_cover {m : Model} {u : Setup} (hu : u.Sound) (h : m.Sound u) {c : Nat} {x : Context}
    (hr : m.arena.read c = some x) (a : Sym) (hi : m.arena.LinksCover) :
    (m.afterHit u c x a).arena.LinksCover := by
  have hrw := hi.of_links (Memory.links_rewrite hr (Context.hit_succ x a))
  unfold Model.afterHit
  split
  · exact hrw
  · rename_i h1
    have h1 : x.succ[a] = 0 := by simpa using h1
    split
    · rename_i h2
      have hci := Model.Sound.childIndex hu h2.1
      intro d y hy hd
      by_cases hn : d = m.ctxCount.toNat
      · exact ⟨c, _, a, Memory.read_write_same _ _ _, by rw [hn, ← hci]; simp⟩
      · have hold : ∃ y', m.arena.read d = some y' := by
          rw [Memory.read_write] at hy
          split at hy
          · rename_i hdc; exact ⟨x, by rw [hdc]; exact hr⟩
          · rename_i hdc
            rw [Memory.read_write, if_neg hn, Memory.read_write, if_neg hdc] at hy
            exact ⟨y, hy⟩
        obtain ⟨y', hy'⟩ := hold
        obtain ⟨p, w, s, hw, hs⟩ := hi d y' hy' hd
        have hp := Memory.read_lt_of_some h hw
        by_cases hpc : p = c
        · have hwx : w = x := by rw [hpc, hr] at hw; cases hw; rfl
          subst hwx
          have hsa : a.val ≠ s.val := fun e => by
            have : s = a := Fin.ext e.symm
            rw [this, h1] at hs
            exact hd hs.symm
          refine ⟨c, _, s, Memory.read_write_same _ _ _, ?_⟩
          simpa [Vector.getElem_set, hsa] using hs
        · exact ⟨p, w, s, by rw [Memory.read_write_other _ _ hpc, Memory.read_write_other _ _ (by omega),
            Memory.read_write_other _ _ hpc]; exact hw, hs⟩
    · exact hrw

end Sys2Proof.Machine
end

