-- ==== Sys2Proof/Laws/Overflow.lean ====
section
/-! SUPPORT. Where a normalisation and a flush raise `E_OVF`, and what stands then (40_rangecoder.md R103, R104,
60_exceptions.md R206). -/

namespace Sys2Proof.Machine

/-- The next `ShiftLow` raises `E_OVF` (40_rangecoder.md R103). -/
def Coder.full (c : Coder) : Prop := ¬ (c.runSettled = true ∨ c.cacheSize ≠ 0xFFFFFFFF)

theorem Coder.full_iff (c : Coder) :
    c.full ↔ c.cacheSize = 0xFFFFFFFF ∧ 0xFF000000 ≤ c.low.toNat ∧ c.low.toNat < 2 ^ 32 := by
  unfold Coder.full
  rw [not_or, Coder.runSettled_iff, not_not]
  constructor
  · rintro ⟨h1, h2⟩; exact ⟨h2, by omega, by omega⟩
  · rintro ⟨h1, h2, h3⟩; exact ⟨by omega, h1⟩

/-- After `j` shifts that complete, a full count stops the rest. -/
theorem shiftLowTimes_overflow {j n : Nat} {s u : State} (h : (shiftLowTimes j).run s = .ok () u) (hf : u.coder.full)
    (hj : j < n) : (shiftLowTimes n).run s = .error (.raise .ovf) u := by
  induction j generalizing s n with
  | zero =>
    cases h
    obtain ⟨n, rfl⟩ : ∃ m, n = m + 1 := ⟨n - 1, by omega⟩
    rw [shiftLowTimes_succ, if_neg hf]
  | succ j ih =>
    obtain ⟨n, rfl⟩ : ∃ m, n = m + 1 := ⟨n - 1, by omega⟩
    rw [shiftLowTimes_succ] at h ⊢
    split at h
    · rename_i hc
      rw [if_pos hc]
      exact ih h (by omega)
    · cases h

/-- The same within a normalisation: `RANGE` has been widened for each shift, the one that fails among them. -/
theorem encNormalizeLoop_overflow {j fuel : Nat} {s u : State} (h : (shiftLowTimes j).run s = .ok () u) (hf : u.coder.full)
    (hj : j < fuel) (hr : s.coder.range.toNat * 256 ^ j < Config.thresh) :
    (encNormalizeLoop fuel).run s =
      .error (.raise .ovf) (u.withCoder (Coder.setRange (BitVec.ofNat 32 (s.coder.range.toNat * 256 ^ (j + 1))))) := by
  induction j generalizing s u fuel with
  | zero =>
    cases h
    obtain ⟨fuel, rfl⟩ : ∃ m, fuel = m + 1 := ⟨fuel - 1, by omega⟩
    rw [Nat.pow_zero, Nat.mul_one] at hr
    have e : s.coder.range <<< 8 = BitVec.ofNat 32 (s.coder.range.toNat * 256 ^ 1) := by
      apply BitVec.eq_of_toNat_eq
      rw [BitVec.toNat_shiftLeft, Nat.shiftLeft_eq, BitVec.toNat_ofNat, Nat.pow_one]
    have hw : ¬ ((s.withCoder (Coder.setRange (s.coder.range <<< 8))).coder.runSettled = true ∨
        (s.withCoder (Coder.setRange (s.coder.range <<< 8))).coder.cacheSize ≠ 0xFFFFFFFF) := hf
    rw [encNormalizeLoop_succ, if_pos hr]
    simp only [EStateM.run_bind, EStateM.run_modify, State.widenRange_eq, shiftLow_run, if_neg hw, Nat.zero_add]
    rw [e]
  | succ j ih =>
    obtain ⟨fuel, rfl⟩ : ∃ m, fuel = m + 1 := ⟨fuel - 1, by omega⟩
    rw [shiftLowTimes_succ] at h
    split at h
    · rename_i hc
      have hp : 256 ≤ 256 ^ (j + 1) := by
        rw [Nat.pow_succ]; exact Nat.le_mul_of_pos_left _ (Nat.pow_pos (by omega))
      have hlt : s.coder.range.toNat * 256 < Config.thresh := Nat.lt_of_le_of_lt (Nat.mul_le_mul_left _ hp) hr
      have hwide : (s.coder.range <<< 8).toNat = s.coder.range.toNat * 256 := by
        rw [BitVec.toNat_shiftLeft, Nat.shiftLeft_eq]
        simp only [Config.thresh] at hlt
        omega
      have hw : (s.withCoder (Coder.setRange (s.coder.range <<< 8))).coder.runSettled = true ∨
        (s.withCoder (Coder.setRange (s.coder.range <<< 8))).coder.cacheSize ≠ 0xFFFFFFFF := hc
      rw [encNormalizeLoop_succ, if_pos (by omega)]
      simp only [EStateM.run_bind, EStateM.run_modify, State.widenRange_eq, shiftLow_run, if_pos hw, State.shifted_setRange]
      have e : ∀ k, (s.coder.range <<< 8).toNat * 256 ^ k = s.coder.range.toNat * 256 ^ (k + 1) := by
        intro k; rw [hwide, Nat.pow_succ]; ring
      have := ih (s := s.shifted.withCoder (Coder.setRange (s.coder.range <<< 8))) (fuel := fuel)
        (u := u.withCoder (Coder.setRange (s.coder.range <<< 8))) (shiftLowTimes_setRange h _) hf (by omega)
        (by show (s.coder.range <<< 8).toNat * 256 ^ j < _; rw [e]; exact hr)
      rw [this]
      show EStateM.Result.error _ (u.withCoder (Coder.setRange (BitVec.ofNat 32 ((s.coder.range <<< 8).toNat * 256 ^ (j + 1))))) = _
      rw [e]
    · cases h

end Sys2Proof.Machine
end

