-- ==== Sys2Proof/Laws/PerInstr.lean ====
section
/-! SUPPORT. The per-instruction family: the encoding of every command matches a row of the opcode map that carries its opcode and
reads its operands back (30_encoding.md R81 to R85). -/

namespace Sys2Proof.Laws.RowMatch

/-- Some row of the opcode map has the command's opcode, its mask and pattern accept the command's encoding, and the fields it reads
from that word are the command's operands. -/
def Statement (i : Instr) : Prop :=
  ∃ row ∈ opTable, row.opc = i.opcode ∧ encode i &&& row.mask = row.pattern ∧ row.read (encode i) = i

/-- The row at place `n` of the opcode map, for a command whose encoding it accepts. -/
theorem of_row {i : Instr} (n : Nat) (hn : n < opTable.length) (ho : (opTable[n]'hn).opc = i.opcode)
    (hm : encode i &&& (opTable[n]'hn).mask = (opTable[n]'hn).pattern) (hr : (opTable[n]'hn).read (encode i) = i) :
    Statement i :=
  ⟨_, List.getElem_mem hn, ho, hm, hr⟩

theorem nop : Statement .nop := of_row 0 (by decide) rfl rfl rfl

theorem blkReset : Statement .blkReset := of_row 1 (by decide) rfl rfl rfl

theorem csrRd (csr : CsrIndex) : Statement (.csrRd csr) :=
  of_row 2 (by decide) rfl ((match_csr _ Opc.csrRd).2 (by simp [encode, wordFC_eq]))
    (congrArg Instr.csrRd (fieldCsr_fc _ _ _ _))

theorem csrWr (csr : CsrIndex) (data : Word32) : Statement (.csrWr csr data) :=
  of_row 3 (by decide) rfl ((match_csrData _ Opc.csrWr).2 (by simp [encode, wordFC_eq]))
    (congrArg₂ Instr.csrWr (fieldCsr_fc _ _ _ _) (fieldData_fc _ _ _ _))

theorem dbgRd (ctxi off : Operand) : Statement (.dbgRd ctxi off) :=
  of_row 4 (by decide) rfl ((match_ab _ Opc.dbgRd).2 (by simp [encode, wordF3_eq]))
    (congrArg₂ Instr.dbgRd (fieldA_f3 _ _ _ _ _) (fieldB_f3 _ _ _ _ _))

theorem rcInitEnc : Statement .rcInitEnc := of_row 5 (by decide) rfl rfl rfl

theorem rcEncode (start size total : Operand) : Statement (.rcEncode start size total) :=
  of_row 6 (by decide) rfl ((match_abc _ Opc.rcEncode).2 (by simp [encode, wordF3_eq]))
    (by show Instr.rcEncode _ _ _ = _; simp [encode, wordF3_eq])

theorem rcFlush : Statement .rcFlush := of_row 7 (by decide) rfl rfl rfl

theorem rcInitDec : Statement .rcInitDec := of_row 8 (by decide) rfl rfl rfl

theorem rcGetFreq (total : Operand) : Statement (.rcGetFreq total) :=
  of_row 9 (by decide) rfl ((match_c _ Opc.rcGetFreq).2 (by simp [encode, wordF3_eq]))
    (congrArg Instr.rcGetFreq (fieldC_f3 _ _ _ _ _))

theorem rcUpdate (start size : Operand) : Statement (.rcUpdate start size) :=
  of_row 10 (by decide) rfl ((match_ab _ Opc.rcUpdate).2 (by simp [encode, wordF3_eq]))
    (congrArg₂ Instr.rcUpdate (fieldA_f3 _ _ _ _ _) (fieldB_f3 _ _ _ _ _))

theorem cmReset : Statement .cmReset := of_row 11 (by decide) rfl rfl rfl

theorem cmStartEnc : Statement .cmStartEnc := of_row 12 (by decide) rfl rfl rfl

theorem cmStartDec : Statement .cmStartDec := of_row 13 (by decide) rfl rfl rfl

theorem cmEncode (sym : Operand) : Statement (.cmEncode sym) :=
  of_row 14 (by decide) rfl ((match_a _ Opc.cmEncode).2 (by simp [encode, wordF3_eq]))
    (congrArg Instr.cmEncode (fieldA_f3 _ _ _ _ _))

theorem cmDecode : Statement .cmDecode := of_row 15 (by decide) rfl rfl rfl

end Sys2Proof.Laws.RowMatch
end

