-- ==== Sys2Proof/Laws/Starved.lean ====
section
/-! SUPPORT. The zeros that stand in for missing bytes: how many a command reads, when, and what counts them
(10_state.md R27, R37, R38). -/

namespace Sys2Proof.Machine

variable {α β : Type}

/-- Between `s` and `t` at most `k` zeros were read for missing bytes: each is counted and sets `ZFILL`, and none is read unless
`EOD` is raised and the input port is empty (10_state.md R27). -/
def State.Starved (k : Nat) (s t : State) : Prop :=
  t.ports.eod = s.ports.eod ∧ (s.ports.input = [] → t.ports.input = []) ∧
  ∃ n ≤ k, t.events.cntZfill = s.events.cntZfill + BitVec.ofNat 32 n ∧
    t.events.zfill = (s.events.zfill || decide (n ≠ 0)) ∧ (n ≠ 0 → s.ports.eod = true ∧ t.ports.input = [])

/-- A state with the same input side and the same zeros counted. -/
theorem State.Starved.none {k : Nat} {s t : State} (h1 : t.ports.eod = s.ports.eod) (h2 : t.ports.input = s.ports.input)
    (h3 : t.events.cntZfill = s.events.cntZfill) (h4 : t.events.zfill = s.events.zfill) : s.Starved k t :=
  ⟨h1, fun h => h2.trans h, 0, Nat.zero_le k, by simp [h3], by simp [h4], fun h => absurd rfl h⟩

theorem State.Starved.refl (k : Nat) (s : State) : s.Starved k s := .none rfl rfl rfl rfl

theorem State.Starved.mono {j k : Nat} {s t : State} (h : s.Starved j t) (hjk : j ≤ k) : s.Starved k t := by
  obtain ⟨h1, h2, n, hn, h3⟩ := h
  exact ⟨h1, h2, n, Nat.le_trans hn hjk, h3⟩

theorem State.Starved.trans {j k : Nat} {s t u : State} (h : s.Starved j t) (h' : t.Starved k u) : s.Starved (j + k) u := by
  obtain ⟨h1, h2, n, hn, h3, h4, h5⟩ := h
  obtain ⟨g1, g2, m, hm, g3, g4, g5⟩ := h'
  refine ⟨g1.trans h1, fun h => g2 (h2 h), n + m, Nat.add_le_add hn hm, ?_, ?_, fun hne => ?_⟩
  · rw [g3, h3, BitVec.add_assoc, ← BitVec.ofNat_add]
  · have e : decide (n + m ≠ 0) = (decide (n ≠ 0) || decide (m ≠ 0)) := by
      by_cases hn0 : n = 0 <;> by_cases hm0 : m = 0 <;> simp [hn0, hm0]
    rw [g4, h4, e, Bool.or_assoc]
  · by_cases hm0 : m = 0
    · have := h5 (by omega)
      exact ⟨this.1, g2 this.2⟩
    · have := g5 hm0
      exact ⟨h1 ▸ this.1, this.2⟩

/-- An action, then another. -/
theorem starved_bind {j k l : Nat} {x : Act α} {f : α → Act β} (hx : x.Keeps (State.Starved j))
    (hf : ∀ a, (f a).Keeps (State.Starved k)) (hl : j + k ≤ l) : Act.Keeps (State.Starved l) (x >>= f) := by
  intro s
  have h := hx s
  cases e : x.run s with
  | ok a u =>
    rw [act_bind_of_ok e]
    rw [e] at h
    exact (h.trans (hf a u)).mono hl
  | error x u =>
    rw [act_bind_of_error e]
    rw [e] at h
    exact h.mono (by omega)

/-- An action that reads no byte and touches neither the input side nor what counts it. -/
theorem starved_of {k : Nat} {x : Act α} (h : ∀ s, (resultState (x.run s)).ports = s.ports ∧
    (resultState (x.run s)).events.cntZfill = s.events.cntZfill ∧ (resultState (x.run s)).events.zfill = s.events.zfill) :
    x.Keeps (State.Starved k) := fun s =>
  .none (by rw [(h s).1]) (by rw [(h s).1]) (h s).2.1 (h s).2.2

theorem starved_modify {k : Nat} {f : State → State} (h : ∀ s, (f s).ports = s.ports ∧
    (f s).events.cntZfill = s.events.cntZfill ∧ (f s).events.zfill = s.events.zfill := by intro s; exact ⟨rfl, rfl, rfl⟩) :
    Act.Keeps (State.Starved k) (modify f : Act PUnit) := starved_of h

theorem starved_get {k : Nat} : Act.Keeps (State.Starved k) (get : Act State) := fun s => .refl k s

theorem starved_pure {k : Nat} (a : α) : Act.Keeps (State.Starved k) (pure a) := fun s => .refl k s

theorem starved_throw {k : Nat} (e : Stop) : Act.Keeps (State.Starved k) (throw e : Act α) := fun s => .refl k s

theorem starved_check {k : Nat} (e : ErrCode) (ok : Bool) : (check e ok).Keeps (State.Starved k) := by
  intro s
  rw [check_run]
  cases ok <;> exact .refl k s

theorem starved_readCtx {k : Nat} (c : Nat) : (readCtx c).Keeps (State.Starved k) := by
  intro s
  rw [readCtx_run]
  cases s.model.arena.read c <;> exact .refl k s

theorem starved_ite {k : Nat} {p : Prop} [Decidable p] {x y : Act α} (hx : x.Keeps (State.Starved k))
    (hy : y.Keeps (State.Starved k)) : Act.Keeps (State.Starved k) (if p then x else y) := by split <;> assumption

/-- One read takes at most one zero (10_state.md R27). -/
theorem readIn_starve : readIn.Keeps (State.Starved 1) := by
  intro s
  by_cases h : s.inputReady 1
  · rw [readIn_ready h]
    refine ⟨rfl, fun hi => by simp [resultState, State.afterReads, hi], 1 - s.ports.input.length, by omega, rfl, ?_, fun hn => ?_⟩
    · simp only [resultState, State.afterReads, State.withEvents_events, State.withPorts_events]
      congr 1
      simp only [ne_eq, decide_eq_decide]
      omega
    · have hl : s.ports.input.length = 0 := by omega
      refine ⟨?_, by simp [resultState, List.eq_nil_of_length_eq_zero hl]⟩
      rcases h with h | h
      · exact h
      · omega
  · rw [readIn_starved h]
    exact .refl 1 s

theorem shiftInByte_starve : shiftInByte.Keeps (State.Starved 1) :=
  starved_bind readIn_starve (fun _ => starved_modify (k := 0)) (Nat.le_refl _)

theorem shiftInBytes_starve (n : Nat) : (shiftInBytes n).Keeps (State.Starved n) := by
  induction n with
  | zero => exact starved_pure _
  | succ n ih => exact starved_bind shiftInByte_starve (fun _ => ih) (by omega)

theorem decNormalizeLoop_starve (n : Nat) : (decNormalizeLoop n).Keeps (State.Starved n) := by
  induction n with
  | zero => exact starved_bind (k := 0) starved_get (fun _ => starved_ite (starved_throw _) (starved_pure _)) (Nat.le_refl 0)
  | succ n ih =>
    exact starved_bind (j := 0) (k := n + 1) starved_get (fun _ => starved_ite
      (starved_bind (j := 1) (k := n) shiftInByte_starve (fun _ => starved_bind (j := 0) starved_modify (fun _ => ih) (by omega))
        (by omega)) (starved_pure _)) (by omega)

/-- `rc_update` reads at most 3 bytes (40_rangecoder.md R108). -/
theorem rcUpdate_starve (start size : Nat) : (rcUpdate start size).Keeps (State.Starved 3) :=
  starved_bind (j := 0) starved_modify (fun _ => decNormalizeLoop_starve 3) (by omega)

theorem rcGetFreq_starve {k : Nat} (total : Nat) : (rcGetFreq total).Keeps (State.Starved k) := by
  intro s
  rw [rcGetFreq_run]
  split <;> exact .none rfl rfl rfl rfl

theorem updateModel_starve {k : Nat} (c : Nat) (sym : Sym) : (updateModel c sym).Keeps (State.Starved k) := by
  intro s
  cases hr : s.model.arena.read c with
  | none => rw [updateModel_none hr]; exact .refl k s
  | some x => rw [updateModel_run hr]; exact .none rfl rfl rfl rfl

/-- `model_decode` at `n` contexts and order -1 reads at most 3 bytes at each (41_contextmodel.md R152). -/
theorem modelDecodeFrom_starve (l : List Nat) : (modelDecodeFrom l).Keeps (State.Starved (3 * (l.length + 1))) := by
  induction l with
  | nil =>
    exact starved_bind (j := 0) (k := 3) (rcGetFreq_starve _) (fun _ => starved_bind (j := 0) (k := 3) (starved_check _ _)
      (fun _ => starved_bind (j := 3) (k := 0) (rcUpdate_starve _ _) (fun _ => starved_bind (j := 0) (k := 0) starved_modify
        (fun _ => starved_pure _) (by omega)) (by omega)) (by omega)) (by simp)
  | cons c lower ih =>
    have hl : 3 * ((c :: lower).length + 1) = 3 + 3 * (lower.length + 1) := by simp only [List.length_cons]; omega
    rw [hl]
    refine starved_bind (j := 0) (k := 3 + 3 * (lower.length + 1)) (starved_readCtx c) (fun x => ?_) (by omega)
    refine starved_bind (j := 0) (k := 3 + 3 * (lower.length + 1)) (rcGetFreq_starve _) (fun v => ?_) (by omega)
    refine starved_bind (j := 0) (k := 3 + 3 * (lower.length + 1)) (starved_check _ _) (fun _ => starved_ite ?_ ?_) (by omega)
    · exact starved_bind (k := 3 * (lower.length + 1)) (rcUpdate_starve _ _)
        (fun _ => starved_bind (j := 0) starved_modify (fun _ => ih) (by omega)) (by omega)
    · cases x.scan v with
      | none => exact starved_throw _
      | some sym =>
        exact starved_bind (k := 0) (rcUpdate_starve _ _) (fun _ => starved_bind (j := 0) (k := 0) (updateModel_starve c sym)
          (fun _ => starved_pure _) (by omega)) (by omega)

theorem Model.ladder_length (m : Model) : m.ladder.length ≤ 2 := by
  unfold Model.ladder
  split <;> simp

/-- A whole `model_decode` reads at most 9 bytes. -/
theorem modelDecode_starve : modelDecode.Keeps (State.Starved 9) := by
  intro s
  have := s.model.ladder_length
  exact (modelDecodeFrom_starve s.model.ladder s).mono (by omega)

/-- The encode side reads nothing. -/
theorem EncodeFrame.starved {k : Nat} {s t : State} (h : EncodeFrame s t) : s.Starved k t := .none h.eod h.input h.cntZfill h.zfill

theorem modelEncode_starve {k : Nat} (a : Sym) : (modelEncode a).Keeps (State.Starved k) := by
  intro s
  have h := modelEncode_frame a s
  revert h
  cases (modelEncode a).run s <;> exact fun h => .none h.1.eod h.1.input h.1.cntZfill h.1.zfill

/-- How many bytes a command reads at most (42_control.md R191). -/
def maxReads : Instr → Nat
  | .rcInitDec => 4
  | .rcUpdate _ _ => 3
  | .cmDecode => 9
  | _ => 0

theorem maxReads_le (i : Instr) : maxReads i ≤ 9 := by
  cases i <;> exact Nat.le_of_ble_eq_true rfl

/-- The zeros a command has read where it raises. -/
theorem body_raise_starved {i : Instr} {s u : State} {e : ErrCode} (h : (body i).run s = .error (.raise e) u) :
    s.Starved (maxReads i) u := by
  have hi : i ≠ .rcInitDec := by
    rintro rfl; exact absurd (body_stops .rcInitDec s _ u h) (by simp [mayStop])
  refine body_fails_of (R := State.Starved (maxReads i)) (State.Starved.refl _) i hi
    (fun _ _ _ x y z _ => Act.Keeps.fails fun s => (rcEncode_frame x y z s).starved)
    (fun n _ => Act.Keeps.fails fun s => (shiftLowTimes_frame n s).starved)
    (fun _ n _ => (rcGetFreq_starve n).fails) ?_ (fun _ x _ => (modelEncode_starve x).fails) ?_ s _ u h
  · rintro a b x y rfl
    exact (rcUpdate_starve x y).fails
  · rintro rfl
    exact modelDecode_starve.fails

/-- The zeros a command has read where it completes; `RC_INIT_DEC` and `BLK_RESET` clear the count instead. -/
theorem body_ok_starved {i : Instr} {s u : State} {d : Word32} (h : (body i).run s = .ok d u) (h1 : i ≠ .rcInitDec)
    (h2 : i ≠ .blkReset) : s.Starved (maxReads i) u := by
  have hc := body_ok h
  have ofKeeps {α : Type} {x : Act α} {k : Nat} {v : State} {a : α} (hx : x.Keeps (State.Starved k)) (hr : x.run s = .ok a v) :
      s.Starved k v := by
    have := hx s
    rwa [hr] at this
  have done {n : Nat} {v u : State} {k : Nat} (hv : s.Starved k v) (hd : (symbolDone n).run v = .ok () u) : s.Starved k u := by
    rw [symbolDone_run] at hd
    cases hd
    exact hv
  cases i with
  | nop => obtain ⟨-, rfl⟩ := hc; exact .refl 0 _
  | blkReset => exact absurd rfl h2
  | csrRd c => obtain ⟨-, -, -, rfl⟩ := hc; exact .refl 0 _
  | csrWr c d => obtain ⟨-, ⟨-, -, rfl⟩ | ⟨-, -, ⟨-, -, -, rfl⟩ | ⟨-, -, -, rfl⟩⟩⟩ := hc <;> exact .refl 0 _
  | dbgRd c o => obtain ⟨-, -, -, -, rfl⟩ := hc; exact .refl 0 _
  | rcInitEnc => obtain ⟨-, rfl⟩ := hc; exact .none rfl rfl rfl rfl
  | rcEncode a b c =>
    obtain ⟨-, -, -, -, hr⟩ := hc
    exact ofKeeps (k := 0) (fun s => (rcEncode_frame _ _ _ s).starved) hr
  | rcFlush =>
    obtain ⟨-, v, hr, -, rfl⟩ := hc
    have hv : s.Starved 0 v := ofKeeps (fun s => (shiftLowTimes_frame 5 s).starved) hr
    exact hv
  | rcInitDec => exact absurd rfl h1
  | rcGetFreq c => obtain ⟨-, -, -, v, -, hr⟩ := hc; exact ofKeeps (k := 0) (rcGetFreq_starve _) hr
  | rcUpdate a b => obtain ⟨-, -, -, -, -, hr⟩ := hc; exact ofKeeps (rcUpdate_starve _ _) hr
  | cmReset => obtain ⟨-, -, rfl⟩ := hc; exact .none rfl rfl rfl rfl
  | cmStartEnc => obtain ⟨-, -, rfl⟩ := hc; exact .refl 0 _
  | cmStartDec => obtain ⟨-, -, rfl⟩ := hc; exact .refl 0 _
  | cmEncode a => obtain ⟨-, -, -, x, v, -, hr, hd⟩ := hc; exact done (ofKeeps (k := 0) (modelEncode_starve x) hr) hd
  | cmDecode => obtain ⟨-, -, -, n, v, -, hr, hd⟩ := hc; exact done (ofKeeps modelDecode_starve hr) hd

end Sys2Proof.Machine
end

