-- ==== Sys2Proof/Laws/Step.lean ====
section
/-! SUPPORT. What a step can do, once: the host asserts `RST`, the host acts, or the word on the command port runs
(20_memory.md R70, 70_reset_and_hazards.md R240, R249). -/

namespace Sys2Proof.Machine

@[simp] theorem State.rstAsserted_rst {s : State} {rest : List HostEvent} (h : s.ports.host = .rst :: rest) :
    s.rstAsserted = true := by simp [State.rstAsserted, h]

theorem State.rstAsserted_iff (s : State) : s.rstAsserted = true ↔ ∃ rest, s.ports.host = .rst :: rest := by
  unfold State.rstAsserted
  constructor
  · split
    · rename_i rest h; exact fun _ => ⟨rest, h⟩
    · exact fun h => nomatch h
  · rintro ⟨rest, h⟩
    simp [h]

/-- All that the host can do: reset RCCM, or change the ports, where it neither sends nor answers for RCCM. -/
theorem hostMove_cases (s : State) :
    (∃ rest, s.ports.host = .rst :: rest ∧
      hostMove s = { State.reset with ports := { s.ports with cmd := none, host := rest } }) ∨
    (s.rstAsserted = false ∧ ∃ p : Ports, hostMove s = { s with ports := p } ∧ p.output = s.ports.output ∧
      p.responses = s.ports.responses ∧ (s.ports.cmd.isSome = true → p.cmd = s.ports.cmd)) := by
  unfold hostMove State.rstAsserted
  cases hh : s.ports.host with
  | nil => exact .inr ⟨rfl, _, rfl, rfl, rfl, fun _ => rfl⟩
  | cons e rest =>
    cases e with
    | rst => exact .inl ⟨rest, rfl, rfl⟩
    | byte b => exact .inr ⟨rfl, _, rfl, rfl, rfl, fun _ => rfl⟩
    | eod level => exact .inr ⟨rfl, _, rfl, rfl, rfl, fun _ => rfl⟩
    | command w =>
      refine .inr ⟨rfl, ?_⟩
      by_cases hc : s.ports.cmd.isSome = true
      · exact ⟨s.ports, by simp only [hc, if_true], rfl, rfl, fun _ => rfl⟩
      · exact ⟨{ s.ports with cmd := some w, host := rest }, by simp only [if_neg hc]; rfl, rfl, rfl, fun h => absurd h hc⟩
    | awaitResponse =>
      refine .inr ⟨rfl, ?_⟩
      by_cases hc : s.ports.cmd.isSome = true
      · exact ⟨s.ports, by simp only [hc, if_true], rfl, rfl, fun _ => rfl⟩
      · exact ⟨{ s.ports with host := rest }, by simp only [if_neg hc]; rfl, rfl, rfl, fun _ => rfl⟩
    | clearInput =>
      refine .inr ⟨rfl, ?_⟩
      by_cases hc : s.ports.cmd.isSome = true
      · exact ⟨s.ports, by simp only [hc, if_true], rfl, rfl, fun _ => rfl⟩
      · exact ⟨{ s.ports with input := [], host := rest }, by simp only [if_neg hc]; rfl, rfl, rfl, fun _ => rfl⟩

/-- A step without a word on the command port. -/
theorem step_idle {s : State} (h : fetch s = none) : step s = .next (hostMove s) := by
  unfold step
  rw [h]
  split <;> rfl

/-- A step in which the host asserts `RST`, whatever is on the command port. -/
theorem step_rst {s : State} (h : s.rstAsserted = true) : step s = .next (hostMove s) := by
  unfold step
  rw [if_pos h]

/-- A step with a word on the command port and no `RST`. -/
theorem step_word {s : State} {w : Word64} (h : fetch s = some w) (hr : s.rstAsserted = false) :
    step s = afterCommand (runWord w s) := by
  unfold step
  rw [h, hr]
  rfl

/-- All that a step which gives a next state can have done. -/
theorem step_cases {s t : State} (h : step s = .next t) :
    ((s.rstAsserted = true ∨ fetch s = none) ∧ t = hostMove s) ∨
    (∃ w u, fetch s = some w ∧ s.rstAsserted = false ∧ runWord w s = .next u ∧
      t = if u.ports.cmd.isSome = true then hostMove u else u) := by
  cases hr : s.rstAsserted with
  | true => rw [step_rst hr] at h; cases h; exact .inl ⟨.inl rfl, rfl⟩
  | false =>
    cases hf : fetch s with
    | none => rw [step_idle hf] at h; cases h; exact .inl ⟨.inr rfl, rfl⟩
    | some w =>
      rw [step_word hf hr] at h
      cases hw : runWord w s with
      | next u => rw [hw] at h; cases h; exact .inr ⟨w, u, rfl, rfl, hw, rfl⟩
      | fault f => rw [hw] at h; cases h
      | refused r => rw [hw] at h; cases h

end Sys2Proof.Machine
end

