-- ==== Sys2Proof/Tests/Slice0.lean ====
section
/-! SUPPORT. Tests with the spec's own numbers (95_test_vectors.md, 30_encoding.md R97), and for each statement with hypotheses a
concrete case that meets them all. -/

set_option Elab.async false

namespace Sys2Proof.Tests

open Sys2Proof.Machine

/-! ### Small states -/

/-- Clean entry with `MODEL_ORDER` = 8 and `MAX_CTX` = 16. -/
def clean : State := { State.reset with setup := { modelOrder := 8, maxCtx := 16, faultIE := false } }

/-- A model that holds the fresh root alone. -/
def rooted (m : CmMode) : Model := { mode := m, active := 0, ctxCount := 1, arena := [(0, Context.fresh 0)] }

/-- `rc.ienc`, `cm.reset`, `cm.senc` from `clean`. -/
def encoding : State := { clean with coder := Coder.startEncode, model := rooted .enc }

/-- Decoding with the root active, `RANGE` and `CODE` given, and `EOD` raised. -/
def decoding (range code : Word32) : State :=
  { clean with
    coder := { Coder.reset with mode := .dec, range := range, code := code }
    model := rooted .dec
    ports := { Ports.unused with eod := true } }

/-- Decoding with a query pending. -/
def queried (range code : Word32) (total : BitVec 17) : State :=
  (decoding range code).withCoder fun c => { c with dpend := true, dtot := total }

/-- A recorded fault (the `rc.flush` of program P5). -/
def faulted (s : State) : State := { s with fault := { raised := true, code := 3, opc := Opc.rcFlush } }

/-- Coder registers of the encode side. -/
def cached (low : BitVec 33) (range : Word32) (cache : Byte) (cacheSize : Word32) : State :=
  encoding.withCoder fun c => { c with low := low, range := range, cache := cache, cacheSize := cacheSize, drop := false }

/-- What an outcome's next state shows. -/
def see {α : Type} (f : State → α) : Host.Outcome State Fault Refusal → Option α
  | .next t => some (f t)
  | _ => none

/-- An outcome's next state; the reset state if there is none. -/
def after : Host.Outcome State Fault Refusal → State
  | .next t => t
  | _ => State.reset

/-- The responses and the `ERR` register. -/
def answers (s : State) : List Word64 × Word32 := (s.ports.responses, s.errWord)

/-! ### Assembler lines that are refused (30_encoding.md R95) -/

theorem test_wellFormed_csr : (AsmLine.csrRd (.index 0x10000)).wellFormed = false := by decide
theorem test_wellFormed_csrWr_csr : (AsmLine.csrWr (.index 0x10000) 0).wellFormed = false := by decide
theorem test_wellFormed_csrWr_data : (AsmLine.csrWr (.name .ctrl) 0x100000000).wellFormed = false := by decide
theorem test_wellFormed_dbgRd_context : (AsmLine.dbgRd 0x20000 0).wellFormed = false := by decide
theorem test_wellFormed_dbgRd_offset : (AsmLine.dbgRd 0 0x20000).wellFormed = false := by decide
theorem test_wellFormed_rcEnc_start : (AsmLine.rcEnc 0x20000 1 4).wellFormed = false := by decide
theorem test_wellFormed_rcEnc_size : (AsmLine.rcEnc 3 0x20000 4).wellFormed = false := by decide
theorem test_wellFormed_rcEnc_total : (AsmLine.rcEnc 3 1 0x20000).wellFormed = false := by decide
theorem test_wellFormed_rcGfreq : (AsmLine.rcGfreq 0x20000).wellFormed = false := by decide
theorem test_wellFormed_rcUpd_start : (AsmLine.rcUpd 0x20000 1).wellFormed = false := by decide
theorem test_wellFormed_rcUpd_size : (AsmLine.rcUpd 0 0x20000).wellFormed = false := by decide
theorem test_wellFormed_cmEnc : (AsmLine.cmEnc 0x20000).wellFormed = false := by decide
theorem test_wellFormed_rcByte : (AsmLine.rcByte 0x20000).wellFormed = false := by decide
theorem test_wellFormed_cfgOrder : (AsmLine.cfgOrder 0x100000000).wellFormed = false := by decide
theorem test_wellFormed_cfgMaxctx : (AsmLine.cfgMaxctx 0x100000000).wellFormed = false := by decide
theorem test_assemble_refuses : assemble (.rcEnc 3 1 0x20000) = none := by decide
theorem test_assemble_term : assemble .cmTerm = some [.cmEncode 256] := by decide

/-! ### Decoding (V-E1, the words of section 8, and R85) -/

theorem test_decode_nop : decode 0x0000000000000000 = .ok .nop := by decide
theorem test_decode_blkReset : decode 0x0400000000000000 = .ok .blkReset := by decide
theorem test_decode_csrRd : decode 0x0800000100000000 = .ok (.csrRd 0x001) := by decide
theorem test_decode_csrWr : decode 0x0C00000400000008 = .ok (.csrWr 0x004 8) := by decide
theorem test_decode_dbgRd : decode 0x1000000402020000 = .ok (.dbgRd 1 0x101) := by decide
theorem test_decode_rcInitEnc : decode 0x2000000000000000 = .ok .rcInitEnc := by decide
theorem test_decode_rcEncode : decode 0x2407FFF80003FFFF = .ok (.rcEncode 0x1FFFE 1 0x1FFFF) := by decide
theorem test_decode_rcFlush : decode 0x2800000000000000 = .ok .rcFlush := by decide
theorem test_decode_rcInitDec : decode 0x3000000000000000 = .ok .rcInitDec := by decide
theorem test_decode_rcGetFreq : decode 0x3400000000000102 = .ok (.rcGetFreq 258) := by decide
theorem test_decode_rcUpdate : decode 0x3800040400020000 = .ok (.rcUpdate 257 1) := by decide
theorem test_decode_cmReset : decode 0x4000000000000000 = .ok .cmReset := by decide
theorem test_decode_cmStartEnc : decode 0x4400000000000000 = .ok .cmStartEnc := by decide
theorem test_decode_cmStartDec : decode 0x4800000000000000 = .ok .cmStartDec := by decide
theorem test_decode_cmEncode : decode 0x4C0001A000000000 = .ok (.cmEncode 0x68) := by decide
theorem test_decode_cmTerm : decode 0x4C00040000000000 = .ok (.cmEncode 256) := by decide
theorem test_decode_cmDecode : decode 0x5000000000000000 = .ok .cmDecode := by decide
theorem test_decodeTableWord : decodeTableWord 64 0x2400000C00020004 = some (.rcEncode 3 1 4) := by decide

/-! The illegal words of V-E2 and what `ERR` then reads. -/

/-- A word that raises `E_ILLEGAL` from clean entry, with `ERR` = `err` after it. -/
def raisesIllegal (w : Word64) (err : Word32) : Prop :=
  see answers (runWord w clean) = some ([0x8001000000000000], err)

theorem test_illegal_unassigned_05 : raisesIllegal 0x1400000000000000 0x501 := by unfold raisesIllegal; decide
theorem test_illegal_unassigned_0B : raisesIllegal 0x2C00000000000000 0xB01 := by unfold raisesIllegal; decide
theorem test_illegal_unassigned_3F : raisesIllegal 0xFC00000000000000 0x3F01 := by unfold raisesIllegal; decide
theorem test_illegal_nop : raisesIllegal 0x0000000000000001 0x001 := by unfold raisesIllegal; decide
theorem test_illegal_rcInitEnc : raisesIllegal 0x2000000000000001 0x801 := by unfold raisesIllegal; decide
theorem test_illegal_rcEncode : raisesIllegal 0x2408000000020002 0x901 := by unfold raisesIllegal; decide
theorem test_illegal_csrRd : raisesIllegal 0x0800000100000001 0x201 := by unfold raisesIllegal; decide
theorem test_illegal_csrWr : raisesIllegal 0x0C01000300000000 0x301 := by unfold raisesIllegal; decide
theorem test_illegal_cmEncode : raisesIllegal 0x4C0001A000000001 0x1301 := by unfold raisesIllegal; decide
theorem test_illegal_rcGetFreq : raisesIllegal 0x3400000000020002 0xD01 := by unfold raisesIllegal; decide

/-- V-X3: blocked by the opcode field alone, before the word is found illegal. -/
theorem test_blocked_before_illegal : see answers (runWord 0x1400000000000000 (faulted clean)) =
    some ([0x8008000000000000], 0x00000A03) := by decide
/-- V-X3: the opcode of `NOP` is not blocked. -/
theorem test_illegal_not_blocked : see answers (runWord 0x0000000000000001 (faulted clean)) =
    some ([0x8001000000000000], 0x00000A03) := by decide

/-! ### One step of each command -/

theorem test_nop : see (fun t => (t.ports.cmd, t.ports.responses)) (step (clean.withFetchWord 64 0)) = some (none, [0]) := by decide

/-- P5, steps 9 to 13: the configuration is kept. -/
theorem test_blkReset : see (fun t => (t.fault.raised, t.setup.modelOrder, t.setup.maxCtx, t.model.ctxCount, t.coder.mode))
    (exec .blkReset (faulted encoding)) = some (false, 8, 16, 0, .idle) := by decide

theorem test_csrRd_id : see answers (exec (.csrRd 0x000) clean) = some ([0x0000000052430007], 0) := by decide
/-- P5, step 7. -/
theorem test_csrRd_status : see answers (exec (.csrRd 0x001) ((faulted clean).withSetup fun u => { u with faultIE := true })) =
    some ([0x00001200], 0x0A03) := by decide

/-- V-C2. -/
theorem test_csrWr_order_17 : see (fun t => (answers t, t.setup.modelOrder)) (exec (.csrWr 0x004 17) clean) =
    some (([0x8005000000000000], 0x305), 8) := by decide
theorem test_csrWr_ctrl : see (fun t => (answers t, t.setup.faultIE)) (exec (.csrWr 0x003 1) clean) = some (([0], 0), true) := by
  decide

/-- V-C5: the link of `0x68` after `cm.enc 0x68`, and an unassigned offset. -/
theorem test_dbgRd : see answers (exec (.dbgRd 0 0x268) ((after (exec (.cmEncode 0x68) encoding)).withPorts fun _ => Ports.unused)) =
    some ([1], 0) := by decide +kernel
theorem test_dbgRd_unassigned : see answers (exec (.dbgRd 0 0x104) encoding) = some ([0x8006000000000000], 0x406) := by
  decide +kernel

/-- P1, step 1. -/
theorem test_rcInitEnc : see (fun t => (t.coder.low, t.coder.range, t.coder.cacheSize, t.coder.drop, t.coder.mode))
    (exec .rcInitEnc (queried 64 0 4)) = some (0, 0xFFFFFFFF, 1, true, .enc) := by decide

/-- V-R2. -/
theorem test_rcEncode : see (fun t => (t.coder.low, t.coder.range, t.ports.output)) (exec (.rcEncode 3 1 4) encoding) =
    some (0xBFFFFFFD, 0x3FFFFFFF, []) := by decide +kernel
/-- P2, step 5: the carry runs through a buffered `0xFF`. -/
theorem test_rcEncode_carry : see (fun t => (t.coder.low, t.coder.range, t.coder.cache, t.coder.cacheSize, t.ports.output))
    (exec (.rcEncode 119 3 255) (cached 0xFFB0CB00 0x05EE2E00 0xDD 2)) =
    some (0x7546CE00, 0x11DC6600, 0x02, 1, [0xDE, 0x00]) := by decide +kernel

/-- P2, step 6 (`CNT_OUT` counts from the two bytes already sent in the program; here it starts at 0). -/
theorem test_rcFlush : see (fun t => (t.ports.output, t.coder.mode, t.ports.responses))
    (exec .rcFlush (cached 0x7546CE00 0x11DC6600 0x02 1)) = some ([0x02, 0x75, 0x46, 0xCE, 0x00], .idle, [5]) := by decide +kernel
/-- P5, step 3. -/
theorem test_rcFlush_idle : see answers (exec .rcFlush clean) = some ([0x8003000000000000], 0x0A03) := by decide

/-- P1b, step 1. -/
theorem test_rcInitDec : see (fun t => (t.coder.code, t.coder.range, t.events.cntIn, t.ports.input, t.coder.mode))
    (exec .rcInitDec (clean.withPorts fun p => { p with input := [0xDF, 0xFF, 0xF8, 0x35, 0x00, 0x00] })) =
    some (0xDFFFF835, 0xFFFFFFFF, 4, [0x00, 0x00], .dec) := by decide +kernel
/-- With 3 bytes on the port and `EOD` low the command holds: its word stays on the port. -/
theorem test_rcInitDec_holds : see (fun t => (t.ports.cmd, t.ports.input, t.coder.mode, t.ports.responses))
    (step ((clean.withPorts fun p => { p with input := [1, 2, 3] }).withFetchWord 64 0x3000000000000000)) =
    some (some 0x3000000000000000, [1, 2, 3], .idle, []) := by decide +kernel

/-- P3, step 2. -/
theorem test_rcGetFreq : see (fun t => (t.ports.responses, t.coder.range, t.coder.dpend, t.coder.dtot))
    (exec (.rcGetFreq 258) (decoding 0xFFFFFFFF 0xDE000275)) = some ([0xDF], 0x00FE03F8, true, 258) := by decide +kernel
/-- P1b, step 8. -/
theorem test_rcGetFreq_largest : see (fun t => (t.ports.responses, t.coder.range, t.coder.dtot))
    (exec (.rcGetFreq 0x1FFFF) (decoding 0x06FFFFC8 0x06FFF900)) = some ([0x1FFFE], 0x380, 0x1FFFF) := by decide +kernel

/-- P3, step 3. -/
theorem test_rcUpdate : see (fun t => (t.coder.code, t.coder.range, t.coder.dpend, t.ports.responses))
    (exec (.rcUpdate 223 1) (queried 0x00FE03F8 0xDE000275 258)) = some (0x00BA8D6D, 0x00FE03F8, false, [0]) := by decide +kernel
/-- P1b, step 9: two bytes are shifted in. -/
theorem test_rcUpdate_reads : see (fun t => (t.coder.code, t.coder.range, t.events.cntIn, t.ports.input))
    (exec (.rcUpdate 0x1FFFE 1) ((queried 0x380 0x06FFF900 0x1FFFF).withPorts fun p => { p with input := [0x00, 0x00] })) =
    some (0, 0x03800000, 2, []) := by decide +kernel

/-- P4, step 3. -/
theorem test_cmReset : see (fun t => (t.model.mode, t.model.ctxCount, t.model.active, t.model.arena.length)) (exec .cmReset clean) =
    some (.fresh, 1, 0, 1) := by decide +kernel
theorem test_cmReset_unconfigured : see answers (exec .cmReset State.reset) = some ([0x8003000000000000], 0x1003) := by decide

/-- P4, step 4. -/
theorem test_cmStartEnc : see (fun t => (t.model.mode, t.model.active, t.ports.responses))
    (exec .cmStartEnc { clean with model := rooted .fresh }) = some (.enc, 0, [0]) := by decide +kernel
theorem test_cmStartEnc_idle : see answers (exec .cmStartEnc clean) = some ([0x8003000000000000], 0x1103) := by decide

theorem test_cmStartDec : see (fun t => (t.model.mode, t.model.active, t.ports.responses))
    (exec .cmStartDec { clean with model := rooted .fresh }) = some (.dec, 0, [0]) := by decide +kernel
theorem test_cmStartDec_encoding : see answers (exec .cmStartDec encoding) = some ([0x8003000000000000], 0x1203) := by decide

/-- P4, step 5. -/
theorem test_cmEncode : see (fun t => (t.coder.low, t.coder.range, t.model.ctxCount, t.model.active, t.events.cntSym))
    (exec (.cmEncode 0x68) encoding) = some (0x67319CC0, 0x00FE03F8, 2, 1, 1) := by decide +kernel
theorem test_cmEncode_257 : see answers (exec (.cmEncode 257) encoding) = some ([0x8002000000000000], 0x1302) := by decide +kernel

/-- P4, step 5 of the decompression. -/
theorem test_cmDecode : see (fun t => (t.ports.responses, t.coder.code, t.coder.range, t.model.ctxCount, t.model.active))
    (exec .cmDecode (decoding 0xFFFFFFFF 0x67957701)) = some ([0x68], 0x0063DA41, 0x00FE03F8, 2, 1) := by decide +kernel
/-- With no byte on the port and `EOD` low the command holds, and the query it began is not committed. -/
theorem test_cmDecode_holds : see (fun t => (t.coder.dpend, t.coder.range, t.model.ctxCount, t.ports.responses))
    (exec .cmDecode ((decoding 0x00FE03F8 0x0063DA41).withPorts fun p => { p with eod := false })) =
    some (false, 0x00FE03F8, 1, []) := by decide +kernel

/-! ### States that meet the invariant -/

/-- Is there a next state? -/
def completes : Host.Outcome State Fault Refusal → Bool
  | .next _ => true
  | _ => false

theorem next_after {o : Host.Outcome State Fault Refusal} (h : completes o = true) : o = .next (after o) := by
  cases o with
  | next t => rfl
  | fault f => cases h
  | refused r => cases h

/-- `s` with `MAX_CTX` = 1, which every arena allows. -/
def single (s : State) : State := s.withSetup fun u => { u with maxCtx := 1 }

theorem setup_sound (s : State) (h : s.setup.modelOrder = 8) : (single s).setup.Sound where
  order_legal := .inr (by simp only [single, State.withSetup, h]; decide)
  max_pos := by simp [single, State.withSetup]
  max_le := by simp [single, State.withSetup, Config.arenaCtx]

theorem rooted_sound (m : CmMode) (hm : m ≠ .idle) (s : State) (h : s.setup.modelOrder = 8) :
    (rooted m).Sound (single s).setup := by
  have hread : ∀ c x, (rooted m).arena.read c = some x → x = Context.fresh 0 := by
    intro c x hx
    by_cases hc : 0 = c <;> simp_all [rooted, Memory.read_cons]
  have hord : (single s).setup.modelOrder = 8 := h
  exact {
    arena_wf := rfl
    listed_iff := fun c => by
      by_cases hc : 0 = c
      · subst hc; simp [rooted, Memory.read_cons]
      · simp only [rooted, Memory.read_cons, hc]; simp; omega
    idle_empty := fun h => absurd h hm
    fresh_root := fun _ => rfl
    active_lt := fun _ => Nat.one_pos
    count_le := by simp [rooted, Config.arenaCtx]
    configured := fun _ => by rw [hord]; decide
    budget := fun _ => Nat.le_refl 1
    depth := fun _ c x hx => by rw [hread c x hx, hord]; decide
    root_order := fun x hx => by rw [hread 0 x hx]; rfl
    records := fun c x hx => by rw [hread c x hx]; exact Context.fresh_sound (by decide)
    links := fun c x a hx hne => by
      rw [hread c x hx] at hne
      simp [Context.fresh] at hne }

theorem clear_sound : FaultRecord.reset.Sound := ⟨fun _ => ⟨rfl, rfl⟩, nofun⟩

theorem startEncode_safe : Coder.startEncode.CarrySafe := ⟨by decide, by decide, nofun, fun _ => ⟨rfl, by decide⟩⟩

theorem startEncode_sound : Coder.startEncode.Sound :=
  ⟨nofun, fun _ _ => by decide, nofun, nofun, fun _ => startEncode_safe, nofun⟩

theorem inv_of_root {s : State} (m : CmMode) (hm : m ≠ .idle) (ho : s.setup.modelOrder = 8) (h : s.model = rooted m)
    (hf : s.fault = FaultRecord.reset) (hc : s.coder.Sound) : (single s).Inv where
  setup := setup_sound s ho
  model := by
    have : (single s).model = rooted m := h
    rw [this]; exact rooted_sound m hm s ho
  fault := by
    have : (single s).fault = FaultRecord.reset := hf
    rw [this]; exact clear_sound
  coder := fun _ => hc

theorem encoding_inv : (single encoding).Inv := inv_of_root .enc nofun rfl rfl rfl startEncode_sound

theorem decoding_sound (range code : Word32) (hr : Config.thresh ≤ range.toNat) (hc : code.toNat ≤ range.toNat) :
    (decoding range code).coder.Sound :=
  ⟨nofun, fun _ _ => hr, nofun, nofun, nofun, fun _ _ => hc⟩

theorem decoding_inv (range code : Word32) (hr : Config.thresh ≤ range.toNat) (hc : code.toNat ≤ range.toNat) :
    (single (decoding range code)).Inv := inv_of_root .dec nofun rfl rfl rfl (decoding_sound range code hr hc)

theorem queried_inv (range code : Word32) (total : BitVec 17) (hr : 64 ≤ range.toNat)
    (hf : range.toNat * total.toNat < 2 ^ 32) : (single (queried range code total)).Inv :=
  inv_of_root .dec nofun rfl rfl rfl ⟨fun _ => rfl, nofun, fun _ => hr, fun _ => hf, nofun, nofun⟩

theorem faulted_inv : (single (faulted encoding)).Inv where
  setup := setup_sound _ rfl
  model := rooted_sound .enc nofun (faulted encoding) rfl
  fault := ⟨nofun, fun _ => by decide⟩
  coder := nofun

/-! ### For each statement with hypotheses, a case that meets them -/

theorem witness_EncodeDecode : decode 0x2400000C00020004 = .ok (.rcEncode 3 1 4) := by decide

theorem witness_OpcodeMap : decode 0x5000000000000000 = .ok .cmDecode := by decide

theorem not_encoded : ∀ i : Instr, (0xFC00000000000000 : Word64) ≠ encode i := by
  intro i h
  have h := congrArg fieldOpc h
  cases i <;> simp only [encode, wordF3_eq, wordFC_eq, fieldOpc_f3, fieldOpc_fc] at h <;> revert h <;> decide

theorem witness_IllegalWords : (∀ i, (0xFC00000000000000 : Word64) ≠ encode i) ∧ clean.fault.raised = false := ⟨not_encoded, rfl⟩

theorem witness_SampleEncodings : encoding.fault.raised = false ∧ encoding.coder.mode = .enc := ⟨rfl, rfl⟩

/-- A command that completes, one that holds, one that stops the model, and a word that is no command, with and without a fault
recorded. -/
theorem witness_StepRunsCommand :
    (fetch (clean.putCommand 0) = some 0 ∧ (clean.putCommand 0).rstAsserted = false ∧ decode 0 = .ok .nop ∧
      ∃ t, exec .nop (clean.putCommand 0) = .next t ∧ runWord 0 (clean.putCommand 0) = .next t ∧ t.ports.cmd = none) ∧
    (decode 0x1400000000000000 = .error (.unassignedOpcode 0x05) ∧ fieldOpc 0x1400000000000000 = 0x05 ∧
      fetch (clean.putCommand 0x1400000000000000) = some 0x1400000000000000 ∧
      (clean.putCommand 0x1400000000000000).rstAsserted = false ∧ clean.fault.raised = false ∧
      ((faulted clean).putCommand 0x1400000000000000).rstAsserted = false ∧ (faulted clean).fault.raised = true) ∧
    (fetch (clean.putCommand 0x3000000000000000) = some 0x3000000000000000 ∧ decode 0x3000000000000000 = .ok .rcInitDec ∧
      ∃ t, exec .rcInitDec (clean.putCommand 0x3000000000000000) = .next t ∧ t.ports.cmd.isSome = true) ∧
    (∃ s : State, fetch s = some 0x1000000000000000 ∧ s.rstAsserted = false ∧ decode 0x1000000000000000 = .ok (.dbgRd 0 0) ∧
      exec (.dbgRd 0 0) s = .fault .unallocatedContext) := by
  refine ⟨⟨rfl, rfl, by decide, _, next_after (by decide), rfl, by decide⟩,
    ⟨by decide, by decide, rfl, rfl, rfl, rfl, rfl⟩, ⟨rfl, by decide, _, next_after (by decide), by decide⟩,
    { clean with model := { rooted .enc with arena := [] }, ports := { Ports.unused with cmd := some 0x1000000000000000 } },
    rfl, rfl, by decide, rfl⟩

/-- Clean entry with a word on the command port and one action left for the host. -/
def waiting (w : Word64) (e : HostEvent) : State := { clean with ports := { Ports.unused with cmd := some w, host := [e] } }

/-- Every action with a free command port; every action while an `rc.idec` holds. -/
theorem witness_HostActions :
    (∀ e : HostEvent, fetch { clean with ports := { Ports.unused with host := [e] } } = none) ∧
    (∀ e : HostEvent, fetch (waiting 0x3000000000000000 e) = some 0x3000000000000000 ∧
      runWord 0x3000000000000000 (waiting 0x3000000000000000 e) = .next (waiting 0x3000000000000000 e)) :=
  ⟨fun _ => rfl, fun _ => ⟨rfl, rfl⟩⟩

/-- R240: an `RST` while an `rc.ienc` executes leaves no response and none of its writes. -/
theorem test_rst_during_command :
    see (fun t => (t.ports.cmd, t.ports.responses, t.coder.mode, t.setup.modelOrder)) (step (waiting 0x2000000000000000 .rst)) =
      some (none, [], .idle, 0) := by decide

/-- R249: an `RST` that the host keeps back until the response comes after the command. -/
theorem test_rst_after_response :
    see (fun t => (t.ports.responses, t.coder.mode, t.ports.host)) (step (waiting 0x2000000000000000 .awaitResponse)) =
      some ([0], .enc, [.awaitResponse]) := by decide

/-- R248, with 95_test_vectors.md P4: the byte 0x00 that a decode stopped after 5 bytes has not read goes; `CNT_IN` = 8 stays. -/
theorem test_clear_unread_byte :
    see (fun t => (t.ports.input, t.ports.eod, t.ports.host, t.events.cntIn)) (step { clean with
      ports := { Ports.unused with input := [0x00], eod := true, host := [.clearInput, .eod false] }
      events := { clean.events with cntIn := 8 } }) = some ([], true, [.eod false], 8) := by decide

theorem witness_BlockedWhileFault : (single (faulted encoding)).Inv ∧ (single (faulted encoding)).fault.raised = true ∧
    fieldOpc 0xFC00000000000000 = 0x3F ∧ fieldOpc 0x0C00000000000000 = 0x03 ∧ fieldOpc 0x1400000000000000 = 0x05 :=
  ⟨faulted_inv, rfl, by decide, by decide, by decide⟩

theorem witness_OneResponse : ∃ t, runWord 0x5000000000000000 clean = .next t ∧ t ≠ clean :=
  ⟨_, next_after (by decide), fun h => absurd (congrArg (fun s => s.ports.responses.length) h) (by decide)⟩

theorem witness_HoldCommitsNothing : ∃ t, exec .rcInitDec clean = .next t ∧ t.ports.responses = clean.ports.responses :=
  ⟨_, next_after (by decide), by decide⟩

theorem witness_FaultEntry : ∃ t, runWord 0x2800000000000000 clean = .next t ∧
    t.ports.responses = clean.ports.responses ++ [responseWord true ErrCode.seq.number 0] ∧ ErrCode.seq ≠ .blocked :=
  ⟨_, next_after (by decide), by decide, by decide⟩

theorem witness_FirstFaultKept :
    (∃ t, (faulted clean).fault.raised = true ∧ runWord 0x0800000800000000 (faulted clean) = .next t ∧
      (0x0800000800000000 : Word64) ≠ encode .blkReset) ∧
    (∃ t, clean.fault.raised = false ∧ runWord 0x0800000800000000 clean = .next t) ∧
    (∀ r : Csr, r.index ≠ 0x008) :=
  ⟨⟨_, rfl, next_after (by decide +kernel), by decide⟩, ⟨_, rfl, next_after (by decide +kernel)⟩, fun r => by cases r <;> decide⟩

/-- Each of the five faults, from a state that meets the invariant. -/
theorem witness_PreciseFaults : ∀ p ∈ [(Instr.rcFlush, ErrCode.seq, single (decoding 0x00FE03F8 0)),
    (.rcEncode 4 1 4, .arg, single encoding), (.csrRd 0x008, .csr, single encoding), (.dbgRd 1 0, .range, single encoding),
    (.rcUpdate 3 1, .desync, single (queried 64 0 4))],
    p.2.2.Inv ∧ p.2.2.fault.raised = false ∧ ∃ t, exec p.1 p.2.2 = .next t ∧
      t.ports.responses = p.2.2.ports.responses ++ [responseWord true p.2.1.number 0] := by
  intro p hp
  fin_cases hp
  · exact ⟨decoding_inv _ _ (by decide) (by decide), rfl, _, next_after (by decide +kernel), by decide +kernel⟩
  · exact ⟨encoding_inv, rfl, _, next_after (by decide +kernel), by decide +kernel⟩
  · exact ⟨encoding_inv, rfl, _, next_after (by decide +kernel), by decide +kernel⟩
  · exact ⟨encoding_inv, rfl, _, next_after (by decide +kernel), by decide +kernel⟩
  · exact ⟨queried_inv _ _ _ (by decide) (by decide), rfl, _, next_after (by decide +kernel), by decide +kernel⟩

/-- A decode that ends in `E_DESYNC` after writes. -/
theorem witness_FaultKeepsModes : ∃ t, runWord 0x5000000000000000 (decoding 0xFFFFFFFF 0xFFFFFFFF) = .next t ∧
    t.ports.responses = (decoding 0xFFFFFFFF 0xFFFFFFFF).ports.responses ++ [responseWord true 4 0] :=
  ⟨_, next_after (by decide +kernel), by decide +kernel⟩

theorem witness_InterruptLine : ∃ s t : State, exec (.csrWr 0x003 0) s = .next t ∧ s.irq = true :=
  ⟨(faulted clean).withSetup fun u => { u with faultIE := true }, _, next_after (by decide +kernel), by decide⟩

/-- Each of the four changes of `RC_MODE`. -/
theorem witness_RcModeChanges : ∀ p ∈ [(Instr.rcInitEnc, clean), (.rcInitDec, clean.withPorts fun q => { q with eod := true }),
    (.rcFlush, encoding), (.blkReset, encoding)], ∃ t, exec p.1 p.2 = .next t ∧ t.coder.mode ≠ p.2.coder.mode := by
  intro p hp
  fin_cases hp <;> exact ⟨_, next_after (by decide +kernel), by decide +kernel⟩

/-- Each change of `CM_MODE`. -/
theorem witness_CmModeMachine_changes : ∀ p ∈ [(Instr.blkReset, encoding), (.cmReset, clean),
    (.cmStartEnc, { clean with model := rooted .fresh }), (.cmStartDec, { clean with model := rooted .fresh }),
    (.cmEncode 256, encoding), (.cmDecode, decoding 0xFFFFFFFF 0xFE03F800)],
    ∃ t, exec p.1 p.2 = .next t ∧ t.model.mode ≠ p.2.model.mode := by
  intro p hp
  fin_cases hp <;> exact ⟨_, next_after (by decide +kernel), by decide +kernel⟩

/-- Each condition of `E_SEQ`. -/
theorem witness_CmModeMachine_refusals : State.reset.fault.raised = false ∧ State.reset.setup.modelOrder = 0 ∧
    State.reset.model.mode = .idle ∧ encoding.fault.raised = false ∧ encoding.model.mode = .enc ∧
    clean.model.mode ≠ .enc ∧ (queried 64 0 4).coder.dpend = true := by decide

theorem witness_ConfigurationWindow : ∃ t, exec (.csrWr 0x004 2) clean = .next t ∧ t.setup ≠ clean.setup :=
  ⟨_, next_after (by decide +kernel), by decide +kernel⟩

theorem witness_RcIgnoresModel : ∃ t, exec (.rcEncode 3 1 4) encoding = .next t := ⟨_, next_after (by decide +kernel)⟩

/-- A command that sends and one that consumes. -/
theorem witness_ByteTraffic :
    (∃ t, exec .rcFlush encoding = .next t ∧ t.ports.output ≠ encoding.ports.output) ∧
    (∃ s t : State, exec .rcInitDec s = .next t ∧ t.ports.input ≠ s.ports.input) :=
  ⟨⟨_, next_after (by decide +kernel), by decide +kernel⟩,
    clean.withPorts fun q => { q with input := [1, 2, 3, 4] }, _, next_after (by decide +kernel), by decide +kernel⟩

theorem witness_EventCounters :
    (∃ t, exec .rcFlush encoding = .next t ∧ t.events.cntOut = 4) ∧
    (∃ t, exec .rcInitEnc encoding = .next t) ∧
    (∃ t, exec .rcInitDec (clean.withPorts fun q => { q with eod := true }) = .next t ∧ t.ports.responses = [0]) ∧
    (∃ t, exec .cmReset clean = .next t ∧ t.ports.responses = [0]) ∧
    (∃ t, exec (.cmEncode 0x68) encoding = .next t ∧ t.ports.responses = [responseWord false 0 0]) ∧
    (∃ t, exec .cmDecode clean = .next t ∧ t.ports.responses = [responseWord true 3 0]) ∧
    (∃ t, exec (.rcUpdate 0 1) (queried 64 0 4) = .next t ∧ t.events.cntZfill = 3 ∧ t.events.zfill = true ∧
      t.ports.input = []) ∧
    (∃ t, exec .rcInitDec clean = .next t ∧ t.ports.responses ≠ clean.ports.responses ++ [0]) :=
  ⟨⟨_, next_after (by decide +kernel), by decide +kernel⟩, ⟨_, next_after (by decide +kernel)⟩,
    ⟨_, next_after (by decide +kernel), by decide +kernel⟩, ⟨_, next_after (by decide +kernel), by decide +kernel⟩,
    ⟨_, next_after (by decide +kernel), by decide +kernel⟩, ⟨_, next_after (by decide +kernel), by decide +kernel⟩,
    ⟨_, next_after (by decide +kernel), by decide +kernel⟩, ⟨_, next_after (by decide +kernel), by decide +kernel⟩⟩

theorem witness_NopResult : fieldOpc 0x0000000000000001 = 0 ∧ (0x0000000000000001 : Word64) ≠ 0 := by decide

theorem witness_CsrRefusals : clean.fault.raised = false ∧ (∀ r : Csr, r.index ≠ 0x008) ∧ (∀ r : Csr, r.index ≠ 0x031) ∧
    Csr.index .id = 0x000 ∧ Csr.id ≠ .ctrl ∧ Csr.id ≠ .modelOrder ∧ Csr.id ≠ .maxCtx ∧ Csr.index .arenaCap = 0x030 :=
  ⟨rfl, fun r => by cases r <;> decide, fun r => by cases r <;> decide, by decide⟩

/-- The ends of the legal range and their neighbours. -/
theorem witness_WriteModelOrder : clean.fault.raised = false ∧ clean.model.mode ≠ .enc ∧ clean.model.mode ≠ .dec ∧
    (2 ≤ (2 : Word32).toNat ∧ (16 : Word32).toNat ≤ 16) ∧ (1 : Word32).toNat < 2 ∧ 16 < (17 : Word32).toNat ∧
    encoding.model.mode = .enc := by decide

theorem witness_WriteMaxCtx : clean.fault.raised = false ∧ clean.model.mode ≠ .enc ∧ clean.model.mode ≠ .dec ∧
    (1 ≤ (1 : Word32).toNat ∧ (1 : Word32).toNat ≤ Config.arenaCtx) ∧ (0 : Word32).toNat < 1 ∧
    Config.arenaCtx < (0x20001 : Word32).toNat ∧ encoding.model.mode = .enc :=
  ⟨rfl, by decide, by decide, ⟨by decide, by simp [Config.arenaCtx]⟩, by decide,
    Nat.lt_of_le_of_lt Config.arenaCtx_le (by decide), rfl⟩

theorem witness_WriteCtrl : clean.fault.raised = false ∧ ((2 : Word32) ≠ 0 ∧ (2 : Word32) ≠ 1) ∧
    (faulted clean).fault.raised = true := by decide

/-- An allocated record; the first and last offset of each part and of each gap; the first index that is not allocated. -/
theorem witness_DebugReadResult : encoding.model.arena.read (0 : Operand).toNat = some (Context.fresh 0) ∧
    (0 : Operand).toNat < encoding.model.ctxCount.toNat ∧ (0 : Operand).toNat = (0 : Sym).val ∧
    (0x100 : Operand).toNat = (256 : Sym).val ∧ (0x101 : Operand).toNat = 0x101 ∧ (0x102 : Operand).toNat = 0x102 ∧
    (0x103 : Operand).toNat = 0x103 ∧ (0x200 : Operand).toNat = 0x200 + (0 : Sym).val ∧
    (0x300 : Operand).toNat = 0x200 + (256 : Sym).val ∧
    (0x104 ≤ (0x104 : Operand).toNat ∧ (0x1FF : Operand).toNat < 0x200) ∧ 0x301 ≤ (0x301 : Operand).toNat ∧
    encoding.model.ctxCount.toNat ≤ (1 : Operand).toNat :=
  ⟨rfl, by decide⟩

theorem witness_InitEncodeResult : (queried 64 0 4).fault.raised = false := rfl

/-- The last `LOW` that settles, the first that does not, a carry, and a full count. -/
theorem witness_ShiftLowRule :
    ((cached 0xFEFFFFFF 1 0 1).coder.low.toNat % 2 ^ 32 < 0xFF000000 ∧ (0 : Byte).toNat = 0xFEFFFFFF / 2 ^ 32) ∧
    (1 : Byte).toNat = (cached 0x1FF000000 1 0 1).coder.low.toNat / 2 ^ 32 ∧
    (0xFF000000 ≤ (cached 0xFF000000 1 0 0xFFFFFFFE).coder.low.toNat % 2 ^ 32 ∧
      (0 : Byte).toNat = (cached 0xFF000000 1 0 0xFFFFFFFE).coder.low.toNat / 2 ^ 32 ∧
      (cached 0xFF000000 1 0 0xFFFFFFFE).coder.cacheSize ≠ 0xFFFFFFFF) ∧
    (cached 0xFFFFFFFF 1 0 0xFFFFFFFF).coder.cacheSize = 0xFFFFFFFF := by decide +kernel

theorem witness_EncodeSideTraps : clean.fault.raised = false ∧ clean.coder.mode ≠ .enc ∧ encoding.coder.mode = .enc ∧
    (4 : Operand).toNat ≤ (4 : Operand).toNat ∧ (4 : Operand).toNat < (3 : Operand).toNat + (2 : Operand).toNat ∧
    (cached 0xFF000000 1 0 0xFFFFFFFF).coder.mode = .enc ∧ (cached 0xFF000000 1 0 0xFFFFFFFF).coder.cacheSize = 0xFFFFFFFF ∧
    0xFF000000 ≤ (cached 0xFF000000 1 0 0xFFFFFFFF).coder.low.toNat ∧
    (cached 0xFF000000 1 0 0xFFFFFFFF).coder.low.toNat < 2 ^ 32 := by decide +kernel

/-- `E_OVF` at the first and at the second shift of a flush (`j` = 0 and 1), and at the first and at the third shift of the
normalisation of the symbol 0 of a fresh root (`j` = 0 and 2: 2^23 / 258 = 32513 needs two bytes, 258 / 258 = 1 three). -/
theorem witness_EncodeSideTraps_overflow :
    (∀ p ∈ [((0 : Nat), cached 0xFF000000 1 0 0xFFFFFFFF), (1, cached 0xFFFF0000 1 0 0xFFFFFFFE)],
      ∃ u, p.2.fault.raised = false ∧ p.2.coder.mode = .enc ∧ p.1 < 5 ∧ (shiftLowTimes p.1).run p.2 = .ok () u ∧
        u.coder.cacheSize = 0xFFFFFFFF ∧ 0xFF000000 ≤ u.coder.low.toNat ∧ u.coder.low.toNat < 2 ^ 32) ∧
    (∀ p ∈ [((0 : Nat), (0xFF000000 : BitVec 33), cached 0xFF000000 0x00800000 0 0xFFFFFFFF),
        (2, 0xFFFFFF00, cached 0xFFFFFF00 258 0 0xFFFFFFFD)],
      ∃ u, p.2.2.fault.raised = false ∧ p.2.2.coder.mode = .enc ∧ 1 ≤ (1 : Operand).toNat ∧
        (0 : Operand).toNat + (1 : Operand).toNat ≤ (258 : Operand).toNat ∧ p.1 < 3 ∧
        p.2.1.toNat = p.2.2.coder.low.toNat + (0 : Operand).toNat * (p.2.2.coder.range.toNat / (258 : Operand).toNat) ∧
        p.2.2.coder.range.toNat / (258 : Operand).toNat * (1 : Operand).toNat * 256 ^ p.1 < Config.thresh ∧
        (shiftLowTimes p.1).run (p.2.2.withCoder fun c => { c with low := p.2.1 }) = .ok () u ∧
        u.coder.cacheSize = 0xFFFFFFFF ∧ 0xFF000000 ≤ u.coder.low.toNat ∧ u.coder.low.toNat < 2 ^ 32 ∧
        p.2.2.model.mode = .enc ∧ (0 : Operand).toNat = (0 : Sym).val ∧
        p.2.2.model.arena.read p.2.2.model.active.toNat = some (Context.fresh 0) ∧ (Context.fresh 0).freq[(0 : Sym)] ≠ 0 ∧
        (0 : Operand).toNat = (Context.fresh 0).cum (0 : Sym).val ∧
        (1 : Operand).toNat = ((Context.fresh 0).freq[(0 : Sym)]).toNat ∧ (258 : Operand).toNat = (Context.fresh 0).total) := by
  constructor <;> intro p hp <;> fin_cases hp
  · exact ⟨_, rfl, rfl, by decide, rfl, by decide, by decide, by decide⟩
  · exact ⟨_, rfl, rfl, by decide, rfl, by decide +kernel, by decide +kernel, by decide +kernel⟩
  · exact ⟨_, rfl, rfl, by decide, by decide, by decide, by decide +kernel, by decide +kernel, rfl, by decide, by decide,
      by decide, rfl, rfl, rfl, by decide +kernel, by decide +kernel, by decide +kernel, by decide +kernel⟩
  · exact ⟨_, rfl, rfl, by decide, by decide, by decide, by decide +kernel, by decide +kernel, rfl, by decide +kernel,
      by decide +kernel, by decide +kernel, rfl, rfl, rfl, by decide +kernel, by decide +kernel, by decide +kernel,
      by decide +kernel⟩

/-- The whole total as the interval. -/
theorem witness_EncodeResult : encoding.fault.raised = false ∧ encoding.coder.mode = .enc ∧ 1 ≤ (4 : Operand).toNat ∧
    (0 : Operand).toNat + (4 : Operand).toNat ≤ (4 : Operand).toNat ∧ Config.thresh ≤ encoding.coder.range.toNat ∧
    encoding.coder.CarrySafe ∧ encoding.coder.cacheSize.toNat + 3 ≤ 0xFFFFFFFF :=
  ⟨rfl, rfl, by decide, by decide, by decide, startEncode_safe, by decide⟩

theorem witness_EncodeNarrows : ∃ t, encoding.fault.raised = false ∧ encoding.coder.mode = .enc ∧ 1 ≤ (1 : Operand).toNat ∧
    (3 : Operand).toNat + (1 : Operand).toNat ≤ (4 : Operand).toNat ∧ Config.thresh ≤ encoding.coder.range.toNat ∧
    encoding.coder.CarrySafe ∧ exec (.rcEncode 3 1 4) encoding = .next t ∧ t.fault.raised = false :=
  ⟨_, rfl, rfl, by decide, by decide, by decide, startEncode_safe, next_after (by decide +kernel), by decide +kernel⟩

theorem witness_FlushResult : encoding.fault.raised = false ∧ encoding.coder.mode = .enc ∧
    Config.thresh ≤ encoding.coder.range.toNat ∧ encoding.coder.CarrySafe ∧ encoding.coder.cacheSize.toNat + 5 ≤ 0xFFFFFFFF :=
  ⟨rfl, rfl, by decide, startEncode_safe, by decide⟩

/-- Four bytes; three bytes with `EOD` raised; three bytes with `EOD` low. -/
theorem witness_InitDecodeResult : clean.fault.raised = false ∧
    ((clean.withPorts fun q => { q with input := [1, 2, 3, 4] }).inputReady 4 ∧
      (clean.withPorts fun q => { q with input := [1, 2, 3, 4] }).nextBytes 4 = [1, 2, 3, 4]) ∧
    ((clean.withPorts fun q => { q with input := [1, 2, 3], eod := true }).inputReady 4 ∧
      (clean.withPorts fun q => { q with input := [1, 2, 3], eod := true }).nextBytes 4 = [1, 2, 3, 0]) ∧
    ¬ (clean.withPorts fun q => { q with input := [1, 2, 3] }).inputReady 4 :=
  ⟨rfl, ⟨.inr (by decide), by decide⟩, ⟨.inl rfl, by decide⟩, by unfold State.inputReady; decide⟩

theorem witness_GetFreqResult : (decoding 0x00800000 0).fault.raised = false ∧ (decoding 0x00800000 0).coder.mode = .dec ∧
    (decoding 0x00800000 0).coder.dpend = false ∧ (0x1FFFF : Operand) ≠ 0 ∧
    (0x1FFFF : Operand).toNat ≤ (decoding 0x00800000 0).coder.range.toNat ∧ clean.coder.mode ≠ .dec := by decide +kernel

/-- The last code point of the interval `[0, 1)` of 4; an interval that needs 2 bytes, with them and without. -/
theorem witness_UpdateResult : (queried 64 63 4).fault.raised = false ∧ (queried 64 63 4).coder.mode = .dec ∧
    (queried 64 63 4).coder.dpend = true ∧ 1 ≤ (1 : Operand).toNat ∧
    (0 : Operand).toNat + (1 : Operand).toNat ≤ (queried 64 63 4).coder.dtot.toNat ∧ 64 ≤ (queried 64 63 4).coder.range.toNat ∧
    (queried 64 63 4).coder.range.toNat * (queried 64 63 4).coder.dtot.toNat < 2 ^ 32 ∧
    (0 : Operand).toNat * (queried 64 63 4).coder.range.toNat ≤ (queried 64 63 4).coder.code.toNat ∧
    (queried 64 63 4).coder.code.toNat < ((0 : Operand).toNat + (1 : Operand).toNat) * (queried 64 63 4).coder.range.toNat := by
  decide +kernel

theorem witness_UpdateChecks : clean.fault.raised = false ∧ clean.coder.mode ≠ .dec ∧ (queried 64 64 4).coder.mode = .dec ∧
    (queried 64 64 4).coder.dpend = true ∧ (queried 64 64 4).coder.dtot.toNat ≤ (4 : Operand).toNat ∧
    (queried 64 64 4).coder.dtot.toNat < (3 : Operand).toNat + (2 : Operand).toNat ∧ 1 ≤ (1 : Operand).toNat ∧
    (0 : Operand).toNat + (1 : Operand).toNat ≤ (queried 64 64 4).coder.dtot.toNat ∧
    ((0 : Operand).toNat + (1 : Operand).toNat) * (queried 64 64 4).coder.range.toNat ≤ (queried 64 64 4).coder.code.toNat := by
  decide +kernel

theorem witness_FreshRecord : (16 : Order).toNat ≤ 16 := by decide

/-- A record at the rescale limit. -/
def full : Context := { Context.fresh 0 with freq := (Vector.replicate 257 1).set 0 0x7EFF, sum := 0x7FFF }

/-- A record one below it. -/
def almostFull : Context := { Context.fresh 0 with freq := (Vector.replicate 257 1).set 0 0x7EFE, sum := 0x7FFE }

theorem full_sound : full.Sound := ⟨by decide +kernel, by decide +kernel, by decide, by decide⟩

theorem almostFull_sound : almostFull.Sound := ⟨by decide +kernel, by decide +kernel, by decide, by decide⟩

theorem witness_RescaleRule : full.counts.sum ≤ 0x8000 ∧ full.freq[(0 : Sym)] ≠ 0 ∧
    (full.freq[(1 : Sym)]).toNat ≤ (full.freq[(0 : Sym)]).toNat := by decide +kernel

theorem witness_HitCount : (full.Sound ∧ full.sum.toNat = 0x7FFF) ∧ almostFull.Sound ∧ almostFull.sum.toNat < 0x7FFF :=
  ⟨⟨full_sound, by decide⟩, almostFull_sound, by decide⟩

theorem witness_ScanFinds : full.Sound ∧ 0 < full.sum.toNat ∧ 0x7FFE < full.sum.toNat := ⟨full_sound, by decide, by decide⟩

theorem witness_ModelResetResult : clean.fault.raised = false ∧ clean.setup.modelOrder ≠ 0 ∧ State.reset.setup.modelOrder = 0 := by
  decide

theorem witness_StartResults : encoding.fault.raised = false ∧ encoding.model.mode = .enc ∧ clean.model.mode ≠ .fresh ∧
    clean.model.mode ≠ .enc ∧ clean.model.mode ≠ .dec ∧ (decoding 1 0).model.mode = .dec := by decide

/-- The first symbol and the terminator. -/
theorem witness_ModelEncodeResult : (single encoding).Inv ∧ (single encoding).fault.raised = false ∧
    (single encoding).model.mode = .enc ∧ (single encoding).coder.mode = .enc ∧ (0 : Operand).toNat = (0 : Sym).val ∧
    (256 : Operand).toNat = (256 : Sym).val ∧ (single encoding).coder.cacheSize.toNat + 3 ≤ 0xFFFFFFFF :=
  ⟨encoding_inv, rfl, rfl, rfl, by decide, by decide, by decide⟩

/-- `EOD` low, with the bytes given on the input port. -/
def fed (bytes : List Byte) (s : State) : State := { s with ports := { Ports.unused with input := bytes } }

theorem fed_inv {bytes : List Byte} {range code : Word32} (hr : Config.thresh ≤ range.toNat) (hc : code.toNat ≤ range.toNat) :
    (fed bytes (single (decoding range code))).Inv :=
  have h := decoding_inv range code hr hc
  ⟨h.setup, h.model, h.fault, h.coder⟩

/-- With `EOD` low: no byte is needed and none is there; two are needed, of which two or one are there. -/
theorem witness_ModelDecodeResult :
    ∀ p ∈ [((0xFFFFFFFF : Word32), ([] : List Byte), 0, true), (0x00800000, [0, 0], 2, true), (0x00800000, [0], 2, false)],
    (fed p.2.1 (single (decoding p.1 0))).Inv ∧ (fed p.2.1 (single (decoding p.1 0))).fault.raised = false ∧
    (fed p.2.1 (single (decoding p.1 0))).model.mode = .dec ∧ (fed p.2.1 (single (decoding p.1 0))).coder.mode = .dec ∧
    (fed p.2.1 (single (decoding p.1 0))).coder.dpend = false ∧
    (fed p.2.1 (single (decoding p.1 0))).model.arena.read 0 = some (Context.fresh 0) ∧
    0 / (p.1.toNat / (Context.fresh 0).total) < (Context.fresh 0).sum.toNat ∧
    Widened (p.1.toNat / 258 * 1) p.2.2.1 (p.1.toNat / 258 * 1 * 256 ^ p.2.2.1) ∧
    ((fed p.2.1 (single (decoding p.1 0))).inputReady p.2.2.1 ↔ p.2.2.2 = true) := by
  intro p hp
  fin_cases hp <;>
    exact ⟨fed_inv (by decide) (by decide), rfl, rfl, rfl, rfl, rfl, by decide +kernel, ⟨rfl, by decide, by decide⟩,
      by simp [fed, State.inputReady, Ports.unused]⟩

/-- 95_test_vectors.md P4, decompress step 5, with `EOD` low and no byte left on the input port: it reads none. -/
theorem test_cmDecode_reads_none :
    see (fun t => (t.ports.responses, t.coder.code, t.coder.range, t.events.cntIn)) (exec .cmDecode (fed [] (decoding 0xFFFFFFFF 0x67957701)))
      = some ([0x68], 0x0063DA41, 0x00FE03F8, 0) := by decide +kernel

/-- A code point in the root's escape interval: the first one decodes the byte 0, the last one lies above every byte. -/
theorem witness_ModelDecodeOrderMinusOne : ∀ p ∈ [((0xFF01FBF8 : Word32), true), (0xFFFFFFEF, false)],
    ∃ u v : State, (single (decoding 0xFFFFFFFF p.1)).Inv ∧ (single (decoding 0xFFFFFFFF p.1)).fault.raised = false ∧
    (single (decoding 0xFFFFFFFF p.1)).model.mode = .dec ∧ (single (decoding 0xFFFFFFFF p.1)).coder.mode = .dec ∧
    (single (decoding 0xFFFFFFFF p.1)).coder.dpend = false ∧ (∀ n, (single (decoding 0xFFFFFFFF p.1)).inputReady n) ∧
    (single (decoding 0xFFFFFFFF p.1)).model.active = 0 ∧
    (single (decoding 0xFFFFFFFF p.1)).model.arena.read 0 = some (Context.fresh 0) ∧
    (258 : Operand).toNat = (Context.fresh 0).total ∧ (257 : Operand).toNat = (Context.fresh 0).sum.toNat ∧
    (1 : Operand).toNat = (Context.fresh 0).esc.toNat + 1 ∧
    (Context.fresh 0).sum.toNat ≤ p.1.toNat / (0xFFFFFFFF / (Context.fresh 0).total) ∧
    p.1.toNat / (0xFFFFFFFF / (Context.fresh 0).total) < (Context.fresh 0).total ∧
    exec (.rcGetFreq 258) (single (decoding 0xFFFFFFFF p.1)) = .next u ∧ exec (.rcUpdate 257 1) u = .next v ∧
    (if p.2 then v.coder.code.toNat / (v.coder.range.toNat / 256) = (0 : Byte).toNat
      else 256 ≤ v.coder.code.toNat / (v.coder.range.toNat / 256)) := by
  intro p hp
  fin_cases hp <;>
    exact ⟨_, _, decoding_inv _ _ (by decide) (by decide), rfl, rfl, rfl, rfl, fun _ => .inl rfl, rfl, rfl, by decide +kernel,
      by decide, by decide, by decide +kernel, by decide +kernel, next_after (by decide +kernel),
      next_after (by decide +kernel), by decide +kernel⟩

/-- The same with `EOD` low and `RANGE` = `THRESH`: the escape needs two bytes and the byte of order -1 one more. With one byte the
escape holds, with two the byte of order -1 does, with three the command completes. -/
theorem witness_ModelDecodeOrderMinusOne_bytes : ∀ p ∈ [([0] : List Byte), [0, 0], [0, 0, 0]],
    ∃ u v : State, (fed p (single (decoding 0x00800000 0x007F8001))).Inv ∧
    (258 : Operand).toNat = (Context.fresh 0).total ∧ (257 : Operand).toNat = (Context.fresh 0).sum.toNat ∧
    (1 : Operand).toNat = (Context.fresh 0).esc.toNat + 1 ∧
    (fed p (single (decoding 0x00800000 0x007F8001))).model.arena.read 0 = some (Context.fresh 0) ∧
    (Context.fresh 0).sum.toNat ≤ 0x007F8001 / (0x00800000 / (Context.fresh 0).total) ∧
    0x007F8001 / (0x00800000 / (Context.fresh 0).total) < (Context.fresh 0).total ∧
    exec (.rcGetFreq 258) (fed p (single (decoding 0x00800000 0x007F8001))) = .next u ∧ exec (.rcUpdate 257 1) u = .next v ∧
    Widened (0x00800000 / 258 * 1) 2 (0x00800000 / 258 * 1 * 256 ^ 2) ∧
    (p.length = 1 ∧ v.ports.input = [0] ∨ 1 < p.length ∧
      v.coder.code.toNat / (v.coder.range.toNat / 256) = (0 : Byte).toNat ∧
        Widened (v.coder.range.toNat / 256) 1 (v.coder.range.toNat / 256 * 256 ^ 1) ∧ (v.inputReady 1 ↔ p.length = 3)) ∧
    see (fun t => t.ports.responses) (exec .cmDecode (fed p (single (decoding 0x00800000 0x007F8001)))) =
      some (if p.length < 3 then [] else [0]) := by
  intro p hp
  fin_cases hp
  · exact ⟨_, _, fed_inv (by decide) (by decide), by decide, by decide, by decide, rfl, by decide +kernel, by decide +kernel,
      next_after (by decide +kernel), next_after (by decide +kernel), ⟨rfl, by decide, by decide⟩, .inl ⟨rfl, by decide +kernel⟩, by decide +kernel⟩
  all_goals
    exact ⟨_, _, fed_inv (by decide) (by decide), by decide, by decide, by decide, rfl, by decide +kernel, by decide +kernel,
      next_after (by decide +kernel), next_after (by decide +kernel), ⟨rfl, by decide, by decide⟩,
      .inr ⟨by decide, by decide +kernel, ⟨rfl, by decide +kernel, by decide +kernel⟩, by unfold State.inputReady; decide +kernel⟩, by decide +kernel⟩

/-- A root whose symbol 0x68 leads to record 1, which is active. -/
def childActive (code : Word32) : State :=
  { decoding 0xFFFFFFFF code with
    model := { mode := .dec, active := 1, ctxCount := 2,
               arena := [(0, { Context.fresh 0 with succ := (Context.fresh 0).succ.set 0x68 1 }), (1, Context.fresh 1)] } }

/-- A code point in the escape interval of an active context that is not the root: the first one hits the symbol 0 at the root,
the last one is no value of the root. -/
theorem witness_ModelDecodeOrderMinusOne_child : ∀ code ∈ [(0xFF01FBF8 : Word32), 0xFFFFFFEF], ∃ u v : State,
    (childActive code).coder.Sound ∧ (childActive code).fault.raised = false ∧ (childActive code).model.mode = .dec ∧
    (childActive code).coder.mode = .dec ∧ (childActive code).coder.dpend = false ∧ (∀ n, (childActive code).inputReady n) ∧
    (childActive code).model.active ≠ 0 ∧
    (childActive code).model.arena.read (childActive code).model.active.toNat = some (Context.fresh 1) ∧
    (Context.fresh 1).Sound ∧
    (childActive code).model.arena.read 0 = some { Context.fresh 0 with succ := (Context.fresh 0).succ.set 0x68 1 } ∧
    Context.Sound { Context.fresh 0 with succ := (Context.fresh 0).succ.set 0x68 1 } ∧
    (258 : Operand).toNat = (Context.fresh 1).total ∧ (257 : Operand).toNat = (Context.fresh 1).sum.toNat ∧
    (1 : Operand).toNat = (Context.fresh 1).esc.toNat + 1 ∧
    (Context.fresh 1).sum.toNat ≤ code.toNat / (0xFFFFFFFF / (Context.fresh 1).total) ∧
    code.toNat / (0xFFFFFFFF / (Context.fresh 1).total) < (Context.fresh 1).total ∧
    exec (.rcGetFreq 258) (childActive code) = .next u ∧ exec (.rcUpdate 257 1) u = .next v := by
  intro code hc
  fin_cases hc <;>
    exact ⟨_, _, decoding_sound _ _ (by decide) (by decide), rfl, rfl, rfl, rfl, fun _ => .inl rfl, by decide, rfl,
      Context.fresh_sound (by decide), rfl, (Context.fresh_sound (by decide)).link _, by decide, by decide, by decide,
      by decide +kernel, by decide +kernel, next_after (by decide +kernel), next_after (by decide +kernel)⟩

/-- The same with `EOD` low and no byte: with `RANGE` = `THRESH` the escape holds; with `RANGE` = 0xFFFFFFFF it needs no byte, and the
retry at the root, which needs one, holds. -/
theorem witness_ModelDecodeOrderMinusOne_child_bytes :
    ∀ p ∈ [((0x00800000 : Word32), (0x007F8001 : Word32), 2), (0xFFFFFFFF, 0xFF01FBF8, 0)], ∃ u v : State,
    ({ fed [] (childActive p.2.1) with coder := (decoding p.1 p.2.1).coder }).coder.Sound ∧
    (Context.fresh 1).sum.toNat ≤ p.2.1.toNat / (p.1.toNat / (Context.fresh 1).total) ∧
    p.2.1.toNat / (p.1.toNat / (Context.fresh 1).total) < (Context.fresh 1).total ∧
    exec (.rcGetFreq 258) { fed [] (childActive p.2.1) with coder := (decoding p.1 p.2.1).coder } = .next u ∧
    exec (.rcUpdate 257 1) u = .next v ∧ Widened (p.1.toNat / 258 * 1) p.2.2 (p.1.toNat / 258 * 1 * 256 ^ p.2.2) := by
  intro p hp
  fin_cases hp <;>
    exact ⟨_, _, decoding_sound _ _ (by decide) (by decide), by decide +kernel, by decide +kernel, next_after (by decide +kernel),
      next_after (by decide +kernel), ⟨rfl, by decide, by decide⟩⟩

/-- 00_scope.md R14: where the retry at the root holds, the escape at record 1 does not stand. -/
theorem test_cmDecode_escape_holds :
    see (fun t => (t.ports.responses, (t.model.arena.read 1).map Context.esc, t.model.active, t.coder.dpend))
      (exec .cmDecode (fed [] (childActive 0xFF01FBF8))) = some ([], some 0, 1, false) := by
  decide +kernel

/-- R147, R152: the escape at record 1 and the retry at the root. With `r` = 0xFFFFFFFF / 258 = 0xFE03F8 the value is 257, the code
left is 0, and the root's first symbol has the interval [0, 1): `esc` of record 1 is 1 and the symbol 0 of the root counts 2. -/
theorem test_cmDecode_escape_retry :
    see (fun t => (t.ports.responses, ((t.model.arena.read 1).map Context.esc, (t.model.arena.read 0).map fun x => x.freq[(0 : Sym)]),
      t.model.active, t.model.ctxCount)) (exec .cmDecode (childActive 0xFF01FBF8)) = some ([0], (some 1, some 2), 2, 3) := by
  decide +kernel

/-- The same with the code 0xFE03F7 left, of which the root's 258 units of 0xFC0B leave some: `E_DESYNC`, the escape stands. -/
theorem test_cmDecode_escape_desync :
    see (fun t => (t.ports.responses, (t.model.arena.read 1).map Context.esc, t.model.active, t.events.cntSym, t.coder.dpend))
      (exec .cmDecode (childActive 0xFFFFFFEF)) = some ([0x8004000000000000], some 1, 1, 0, true) := by
  decide +kernel

theorem witness_SymbolTraps : (single (decoding 0xFFFFFFFF 0xFFFFFFFF)).Inv ∧ encoding.fault.raised = false ∧
    clean.model.mode ≠ .enc ∧ encoding.model.mode = .enc ∧ encoding.coder.mode = .enc ∧ 256 < (257 : Operand).toNat ∧
    clean.model.mode ≠ .dec ∧ (single (decoding 0xFFFFFFFF 0xFFFFFFFF)).model.mode = .dec ∧
    (single (decoding 0xFFFFFFFF 0xFFFFFFFF)).coder.mode = .dec ∧ (single (decoding 0xFFFFFFFF 0xFFFFFFFF)).coder.dpend = false ∧
    (single (decoding 0xFFFFFFFF 0xFFFFFFFF)).model.arena.read 0 = some (Context.fresh 0) ∧
    (Context.fresh 0).total ≤ 0xFFFFFFFF / (0xFFFFFFFF / (Context.fresh 0).total) :=
  ⟨decoding_inv _ _ (by decide) (by decide), rfl, by decide, rfl, rfl, by decide, by decide, rfl, rfl, rfl, rfl, by decide +kernel⟩

/-- Every index of the map is a register, and its read completes. -/
theorem witness_CsrReadResult : ∀ c : Csr, csrAt c.index = some c ∧
    ∃ t, exec (.csrRd c.index) clean = .next t := by
  intro c
  cases c <;> exact ⟨by decide, _, next_after (by decide +kernel)⟩

theorem witness_StatusFields : (0x016 : CsrIndex) ∈ ([0x001, 0x002, 0x014, 0x015, 0x016] : List CsrIndex) ∧
    clean.fault.raised = false := by decide

/-- A step that runs a symbol, from a state that meets the invariant, whose arena is in canonical form and whose links are a tree:
the premises of StepKeepsInv, of StepKeepsArenaCanonical and of StepKeepsLinkTree. -/
theorem witness_StepKeepsInv : ∃ s t : State, s.Inv ∧ s.model.arena.wf = true ∧ s.model.arena.LinksInjective ∧
    s.model.arena.LinksCover ∧ fetch s = some 0x4C0001A000000000 ∧ step s = .next t ∧ t.events.cntSym = 1 := by
  have hinv : ((single encoding).putCommand 0x4C0001A000000000).Inv :=
    ⟨encoding_inv.setup, encoding_inv.model, encoding_inv.fault, encoding_inv.coder⟩
  have hread : ∀ c x, ((single encoding).putCommand 0x4C0001A000000000).model.arena.read c = some x →
      c = 0 ∧ x = Context.fresh 0 := by
    intro c x hx
    by_cases hc : 0 = c <;> simp_all [State.putCommand, State.withPorts, single, State.withSetup, encoding, rooted, Memory.read_cons]
  refine ⟨(single encoding).putCommand 0x4C0001A000000000, _, hinv, rfl, ?_, ?_, rfl, next_after (by decide +kernel),
    by decide +kernel⟩
  · intro c d x y a b hx hy hne
    rw [(hread c x hx).2] at hne
    simp [Context.fresh] at hne
  · intro c y hy hc
    exact absurd (hread c y hy).1 hc

/-- A record, and a command that leaves it its order and its links. -/
theorem witness_LinksAppendOnly : ∃ t, (single encoding).Inv ∧ exec (.cmEncode 0x68) (single encoding) = .next t ∧
    (single encoding).model.arena.read 0 = some (Context.fresh 0) :=
  ⟨_, encoding_inv, next_after (by decide +kernel), rfl⟩

/-- The first interval of program P1, decoded from its stream. -/
theorem witness_CoderRoundTrip : ∃ t d : State, (∀ v ∈ [Interval.mk 3 1 4], v.Valid) ∧ clean.fault.raised = false ∧
    execAll (encodeCommands [Interval.mk 3 1 4]) clean = .next t ∧ t.fault.raised = false ∧
    t.ports.output = clean.ports.output ++ [0xBF, 0xFF, 0xFF, 0xFD] ∧ d.fault.raised = false ∧ d.ports.eod = true ∧
    d.ports.input = [0xBF, 0xFF, 0xFF, 0xFD] ++ [0x11] := by
  refine ⟨_, { clean with ports := { Ports.unused with eod := true, input := [0xBF, 0xFF, 0xFF, 0xFD, 0x11] } }, ?_, rfl,
    next_after (by decide +kernel), by decide +kernel, by decide +kernel, rfl, rfl, rfl⟩
  intro v hv
  cases List.mem_singleton.mp hv
  exact ⟨by decide, by decide⟩

/-- The empty chunk: its terminator and its flush. -/
theorem witness_ChunkRoundTrip : ∃ s t d : State, ∃ stream : List Byte, s.Inv ∧ d.Inv ∧ s.fault.raised = false ∧
    d.fault.raised = false ∧ s.setup = d.setup ∧ s.setup.modelOrder ≠ 0 ∧ execAll (compressCommands []) s = .next t ∧
    t.fault.raised = false ∧ t.ports.output = s.ports.output ++ stream ∧ d.ports.eod = true ∧ d.ports.input = stream ++ [0x11] :=
  ⟨single encoding, _, (single encoding).withPorts fun q => { q with eod := true, input := [0xFE, 0x03, 0xF8, 0x00, 0x11] },
    [0xFE, 0x03, 0xF8, 0x00], encoding_inv, ⟨encoding_inv.setup, encoding_inv.model, encoding_inv.fault, encoding_inv.coder⟩,
    rfl, rfl, rfl, by decide, next_after (by decide +kernel), by decide +kernel, by decide +kernel, rfl, rfl⟩

end Sys2Proof.Tests
end

section
/-! PROOFS. A command that holds (00_scope.md R14, 42_control.md R193). -/

namespace Sys2Proof.Machine

/-! ### A command writes its response at its end only (30_encoding.md R86) -/

theorem EncodeFrame.responses_of_ok {α : Type} {x : Act α} (hx : x.Keeps EncodeFrame) {s u : State} {a : α}
    (h : x.run s = .ok a u) : u.ports.responses = s.ports.responses := by
  have := (hx s).responses
  rwa [h] at this

theorem DecodeFrame.responses_of_ok {α : Type} {x : Act α} (hx : x.Keeps DecodeFrame) {s u : State} {a : α}
    (h : x.run s = .ok a u) : u.ports.responses = s.ports.responses := by
  have := (hx s).responses
  rwa [h] at this

theorem modelEncode_responses {a : Sym} {s u : State} (h : (modelEncode a).run s = .ok () u) :
    u.ports.responses = s.ports.responses := by
  have hf := modelEncode_frame a s
  rw [h] at hf
  exact hf.1.responses

theorem modelDecode_responses {n : Nat} {s u : State} (h : modelDecode.run s = .ok n u) :
    u.ports.responses = s.ports.responses := by
  have hf := modelDecode_frame s
  rw [h] at hf
  exact hf.1.responses

theorem symbolDone_responses {n : Nat} {s u : State} (h : (symbolDone n).run s = .ok () u) :
    u.ports.responses = s.ports.responses := by
  rw [symbolDone_run] at h
  cases h
  rfl

/-- The body of a command that completes has not written to the response port yet. -/
theorem body_ok_responses {i : Instr} {s u : State} {d : Word32} (h : (body i).run s = .ok d u) :
    u.ports.responses = s.ports.responses := by
  have hc := body_ok h
  cases i with
  | nop => obtain ⟨-, rfl⟩ := hc; rfl
  | blkReset => obtain ⟨-, rfl⟩ := hc; rfl
  | csrRd c => obtain ⟨-, -, -, rfl⟩ := hc; rfl
  | csrWr c d => obtain ⟨-, ⟨-, -, rfl⟩ | ⟨-, -, ⟨-, -, -, rfl⟩ | ⟨-, -, -, rfl⟩⟩⟩ := hc <;> rfl
  | dbgRd c o => obtain ⟨-, -, -, -, rfl⟩ := hc; rfl
  | rcInitEnc => obtain ⟨-, rfl⟩ := hc; rfl
  | rcEncode a b c =>
    obtain ⟨-, -, -, -, hr⟩ := hc
    exact EncodeFrame.responses_of_ok (rcEncode_frame _ _ _) hr
  | rcFlush =>
    obtain ⟨-, v, hr, -, rfl⟩ := hc
    have hv := EncodeFrame.responses_of_ok (shiftLowTimes_frame 5) hr
    exact hv
  | rcInitDec =>
    obtain ⟨-, v, hr, rfl⟩ := hc
    have hv := DecodeFrame.responses_of_ok (shiftInBytes_frame 4) hr
    exact hv
  | rcGetFreq c =>
    obtain ⟨-, -, -, v, -, hr⟩ := hc
    exact DecodeFrame.responses_of_ok (rcGetFreq_frame _) hr
  | rcUpdate a b =>
    obtain ⟨-, -, -, -, -, hr⟩ := hc
    exact DecodeFrame.responses_of_ok (rcUpdate_frame _ _) hr
  | cmReset => obtain ⟨-, -, rfl⟩ := hc; rfl
  | cmStartEnc => obtain ⟨-, -, rfl⟩ := hc; rfl
  | cmStartDec => obtain ⟨-, -, rfl⟩ := hc; rfl
  | cmEncode a =>
    obtain ⟨-, -, -, x, v, -, hr, hd⟩ := hc
    exact (symbolDone_responses hd).trans (modelEncode_responses hr)
  | cmDecode =>
    obtain ⟨-, -, -, n, v, -, hr, hd⟩ := hc
    exact (symbolDone_responses hd).trans (modelDecode_responses hr)

/-- Settles O13: of the ways a command can end, every one but the hold has written a response. -/
theorem holdCommitsNothing : Obligations.HoldCommitsNothing := by
  intro i s t h hno
  rcases exec_next h with ⟨-, -, rfl⟩ | ⟨hblock, ⟨d, u, hu, rfl⟩ | ⟨e, u, hu, rfl⟩ | ⟨u, hu, rfl⟩⟩
  · simp at hno
  · simp [body_ok_responses hu] at hno
  · simp [(body_raise hu).1.responses] at hno
  · obtain ⟨heod, hi⟩ := body_hold hu
    refine ⟨rfl, heod, ?_, hi⟩
    have hblocks : neverBlocked i.opcode = false := by
      rcases hi with rfl | ⟨a, b, rfl⟩ | rfl <;> rfl
    by_contra hf
    rw [hblock (by simpa using hf)] at hblocks
    cases hblocks

end Sys2Proof.Machine
end

section
/-! PROOFS. One step of `model_decode` at a sound record: a symbol, an escape, or a value in no interval
(41_contextmodel.md R148, R152, R153). -/

namespace Sys2Proof.Machine

/-- The value that `rc_getfreq(total)` answers (40_rangecoder.md R107). -/
abbrev State.valueAt (total : Nat) (s : State) : Nat := s.coder.code.toNat / (s.coder.range.toNat / total)

section Step

variable {s : State} {c : Nat} {x : Context} {lower : List Nat}

/-- A value below `sum` is a symbol's: the update of its interval, then `update_model`. -/
theorem modelDecodeFrom_hit (h : s.coder.DecReady) (hx : s.model.arena.read c = some x) (hs : x.Sound)
    (hv : s.valueAt x.total < x.sum.toNat) {a : Sym} (ha : x.scan (s.valueAt x.total) = some a) :
    (modelDecodeFrom (c :: lower)).run s =
      (do rcUpdate (x.cum a.val) (x.freq[a]).toNat; updateModel c a; return a.val : Act Nat).run
        (s.withCoder (Coder.queried x.total)) := by
  have hlt : s.valueAt x.total < x.total := Nat.lt_of_lt_of_le hv (by unfold Context.total; omega)
  simp only [modelDecodeFrom, EStateM.run_bind, readCtx_some hx,
    (rcGetFreq_ready h (by unfold Context.total; omega) hs.total_lt).1, decide_eq_true hlt, check_true,
    if_neg (Nat.not_le.mpr hv), ha]

/-- Where the update of the symbol's interval completes, the symbol is decoded and counted at the record. -/
theorem modelDecodeFrom_hit_ok (h : s.coder.DecReady) (hx : s.model.arena.read c = some x) (hs : x.Sound)
    (hv : s.valueAt x.total < x.sum.toNat) {a : Sym} (ha : x.scan (s.valueAt x.total) = some a) {u : State}
    (hu : (rcUpdate (x.cum a.val) (x.freq[a]).toNat).run (s.withCoder (Coder.queried x.total)) = .ok () u) :
    (modelDecodeFrom (c :: lower)).run s = .ok a.val (u.withModel (Model.afterHit s.setup c x a)) := by
  have hf := rcUpdate_frame (x.cum a.val) (x.freq[a]).toNat (s.withCoder (Coder.queried x.total))
  rw [hu] at hf
  have hmodel : u.model = s.model := hf.model
  have hsetup : u.setup = s.setup := hf.setup
  have hxu : u.model.arena.read c = some x := by rw [hmodel]; exact hx
  rw [modelDecodeFrom_hit h hx hs hv ha, act_bind_of_ok hu, act_bind_of_ok (updateModel_run hxu a), EStateM.run_pure, hsetup]

/-- A value from `sum` up to `total` is the escape: the update of its interval, one more escape, then the contexts below. -/
theorem modelDecodeFrom_escape (h : s.coder.DecReady) (hx : s.model.arena.read c = some x) (hs : x.Sound)
    (hlo : x.sum.toNat ≤ s.valueAt x.total) (hhi : s.valueAt x.total < x.total) :
    (modelDecodeFrom (c :: lower)).run s =
      (do rcUpdate x.sum.toNat (x.esc.toNat + 1); noteEscape c x; modelDecodeFrom lower : Act Nat).run
        (s.withCoder (Coder.queried x.total)) := by
  simp only [modelDecodeFrom, EStateM.run_bind, readCtx_some hx,
    (rcGetFreq_ready h (by unfold Context.total; omega) hs.total_lt).1, decide_eq_true hhi, check_true, if_pos hlo]

/-- Order -1 of a value below 256: the update of its interval, and the root is active. -/
theorem modelDecodeFrom_byte (h : s.coder.DecReady) (hv : s.valueAt 256 < 256) :
    (modelDecodeFrom []).run s =
      (do rcUpdate (s.valueAt 256) 1; setActive 0; return s.valueAt 256 : Act Nat).run (s.withCoder (Coder.queried 256)) := by
  have hg : (rcGetFreq Config.uniformTotal).run s = _ := (rcGetFreq_ready h (total := 256) (by omega) (by omega)).1
  have hd : decide (s.valueAt 256 < Config.uniformTotal) = true := decide_eq_true hv
  simp only [modelDecodeFrom, EStateM.run_bind, hg, hd, check_true]

/-- Order -1 of a value of 256 or more: `E_DESYNC`, with the query pending. -/
theorem modelDecodeFrom_no_byte (h : s.coder.DecReady) (hv : 256 ≤ s.valueAt 256) :
    (modelDecodeFrom []).run s = .error (.raise .desync) (s.withCoder (Coder.queried 256)) := by
  have hg : (rcGetFreq Config.uniformTotal).run s = _ := (rcGetFreq_ready h (total := 256) (by omega) (by omega)).1
  have hd : decide (s.valueAt 256 < Config.uniformTotal) = false := decide_eq_false (Nat.not_lt.mpr hv)
  simp only [modelDecodeFrom, EStateM.run_bind, hg, hd, check_false]

end Step

/-- A number below 2^17 is an operand's. -/
theorem Operand.exists_toNat {n : Nat} (h : n < 2 ^ 17) : ∃ o : Operand, o.toNat = n :=
  ⟨BitVec.ofNat 17 n, by rw [BitVec.toNat_ofNat, Nat.mod_eq_of_lt h]⟩

/-- `exec_query_update` for operands known by their values, at a query made inside another command too. -/
theorem query_update {s : State} (hs : s.fault.raised = false) (h : s.coder.DecReady) {start size total : Operand} {a b n : Nat}
    (hstart : start.toNat = a) (hsize : size.toNat = b) (htotal : total.toNat = n) (h1 : 1 ≤ b) (hfit : a + b ≤ n)
    (hlo : a ≤ s.valueAt n) (hhi : s.valueAt n < a + b) :
    exec (.rcGetFreq total) s = .next (s.queriedAt n) ∧ ∃ k, k ≤ 3 ∧
      Widened (s.coder.range.toNat / n * b) k (s.coder.range.toNat / n * b * 256 ^ k) ∧
      (s.inputReady k → exec (.rcUpdate start size) (s.queriedAt n) = .next (((s.queriedAt n).updated a b k).respond 0)) ∧
      (¬ s.inputReady k → exec (.rcUpdate start size) (s.queriedAt n) = .next (s.queriedAt n)) ∧
      ∀ q : State, q.coder = s.coder → q.ports.input = s.ports.input → q.ports.eod = s.ports.eod →
        (s.inputReady k →
          (rcUpdate a b).run (q.withCoder (Coder.queried n)) = .ok () ((q.withCoder (Coder.queried n)).updated a b k) ∧
          ((q.withCoder (Coder.queried n)).updated a b k).coder.DecReady) ∧
        (¬ s.inputReady k → ∃ t, (rcUpdate a b).run (q.withCoder (Coder.queried n)) = .error .hold t) := by
  subst hstart hsize htotal
  obtain ⟨hquery, k, hk, hw, hok, hhold, hrun⟩ := exec_query_update hs h h1 hfit hlo hhi
  exact ⟨hquery, k, hk, hw, hok, hhold, fun q hc hi he => hrun _ (congrArg (Coder.queried _) hc) hi he⟩

/-! ### The ends of `CM_DECODE` between two symbols (41_contextmodel.md R160) -/

/-- The premises of `CM_DECODE`'s own checks, with a coder between two symbols. -/
structure State.Decoding (s : State) : Prop where
  clear : s.fault.raised = false
  model : s.model.mode = .dec
  coder : s.coder.DecReady

/-- What `CM_DECODE` adds to `model_decode`: the symbol is counted and answered, and the terminator ends the chunk. -/
def State.symbolEnded (n : Nat) (t : State) : State :=
  ((t.withEvents fun v => { v with cntSym := v.cntSym + 1 }).withModel fun m =>
    { m with mode := if n = 256 then .term else m.mode }).respond (BitVec.ofNat 32 n)

section Ends

variable {s t : State} (h : s.Decoding)
include h

theorem exec_cmDecode_ok {n : Nat} (hrun : modelDecode.run s = .ok n t) : exec .cmDecode s = .next (t.symbolEnded n) := by
  rw [exec_cmDecode h.clear h.model h.coder.mode h.coder.idle, hrun]
  rfl

theorem exec_cmDecode_hold (hrun : modelDecode.run s = .error .hold t) : exec .cmDecode s = .next s := by
  rw [exec_cmDecode h.clear h.model h.coder.mode h.coder.idle, hrun]

theorem exec_cmDecode_raise {e : ErrCode} (hrun : modelDecode.run s = .error (.raise e) t) :
    exec .cmDecode s = .next (t.faultEntry e Opc.cmDecode) := by
  rw [exec_cmDecode h.clear h.model h.coder.mode h.coder.idle, hrun]

end Ends

theorem modelDecode_run {s : State} {l : List Nat} (hl : s.model.ladder = l) :
    modelDecode.run s = (modelDecodeFrom l).run s := by
  subst hl; rfl

/-- A state of the invariant in `CM_DEC` and `RC_DEC` with no query pending. -/
theorem State.Inv.decoding {s : State} (h : s.Inv) (hf : s.fault.raised = false) (hm : s.model.mode = .dec)
    (hc : s.coder.mode = .dec) (hd : s.coder.dpend = false) : s.Decoding :=
  ⟨hf, hm, (h.coder hf).decReady hc hd⟩

/-! ### A symbol of the active context -/

/-- `update_model` does not look at the mode, and what it does is told without it. -/
theorem HitUpdate.withMode {u : Setup} {m n : Model} {c : Nat} {x : Context} {a : Sym} (h : HitUpdate u m n c x a)
    (mode : CmMode) : HitUpdate u m { n with mode := mode } c x a :=
  ⟨h.linked, h.created, h.fallback⟩

/-- Settles O51: at a sound record the value below `sum` scans to one symbol, and `CM_DECODE` is then `RC_GETFREQ` and `RC_UPDATE`
of its interval, which read the same bytes in both, with `update_model` after them. -/
theorem modelDecodeResult : Obligations.ModelDecodeResult := by
  intro s hinv hf hm hc hd
  have hdec := hinv.decoding hf hm hc hd
  obtain ⟨x, hx⟩ := hinv.model.activeRecord (by rw [hm]; decide)
  refine ⟨x, hx, fun hv => ?_⟩
  have hsound := hinv.model.records _ x hx
  obtain ⟨a, ha⟩ := Context.scan_isSome (x := x) (v := s.valueAt x.total) (by rw [← hsound.sum_eq]; exact hv)
  obtain ⟨hlo, hhi⟩ := Context.scan_some ha
  have hfit := hsound.hit_fits a
  have ht := hsound.total_lt
  obtain ⟨start, hstart⟩ := Operand.exists_toNat (n := x.cum a.val) (by omega)
  obtain ⟨size, hsize⟩ := Operand.exists_toNat (n := (x.freq[a]).toNat) (by omega)
  obtain ⟨total, htotal⟩ := Operand.exists_toNat ht
  obtain ⟨hquery, k, hk, hw, hok, hhold, hrun⟩ :=
    query_update hf hdec.coder hstart hsize htotal (hsound.freq_pos a) hfit hlo hhi
  obtain ⟨hrunOk, hrunHold⟩ := hrun s rfl rfl rfl
  obtain ⟨lower, hladder⟩ := s.model.ladder_head
  refine ⟨a, start, size, total, k, s.queriedAt x.total, hlo, hhi, hstart, hsize, htotal, hk, by rw [hsize]; exact hw, hquery,
    fun hready => ?_, fun hstarved => ?_⟩
  · have hdone := (modelDecode_run hladder).trans
      (modelDecodeFrom_hit_ok (lower := lower) hdec.coder hx hsound hv ha (hrunOk hready).1)
    refine ⟨_, _, hok hready, rfl, exec_cmDecode_ok hdec hdone, rfl, rfl, rfl, ?_, rfl, ?_,
      (Model.afterHit_hitUpdate hinv.setup hinv.model hx a).withMode _⟩
    · rfl
    · have hmode := (Model.afterHit_coded s.setup s.model.active.toNat x a s.model).1
      show (if a.val = 256 then CmMode.term else (s.model.afterHit s.setup s.model.active.toNat x a).mode) = _
      rw [hmode, hm]
  · obtain ⟨t, hstop⟩ := hrunHold hstarved
    have hheld := (modelDecode_run hladder).trans (modelDecodeFrom_hit (lower := lower) hdec.coder hx hsound hv ha)
    exact ⟨hhold hstarved, exec_cmDecode_hold hdec (hheld.trans (act_bind_of_error hstop))⟩

end Sys2Proof.Machine
end

section
/-! PROOFS. `CM_DECODE` of an escape: what the escape leaves, and the retry at the root or the byte of order -1 that follows it
(41_contextmodel.md R147, R148, R152, R166). -/

namespace Sys2Proof.Machine

/-! ### The escape at the active context -/

/-- Reads after `k` reads. -/
theorem State.inputReady_add {s v : State} {k n : Nat} (hk : s.inputReady k) (hi : v.ports.input = s.ports.input.drop k)
    (he : v.ports.eod = s.ports.eod) : v.inputReady n ↔ s.inputReady (k + n) := by
  simp only [State.inputReady, hi, he, List.length_drop] at hk ⊢
  rcases hk with hk | hk
  · simp [hk]
  · exact or_congr_right (by omega)

/-- A value in the escape's interval of the active record, and the `RC_GETFREQ` and `RC_UPDATE` of that interval. -/
structure EscapeRun (s u v : State) (x : Context) (total start size : Operand) : Prop where
  decoding : s.Decoding
  record : s.model.arena.read s.model.active.toNat = some x
  sound : x.Sound
  total_eq : total.toNat = x.total
  start_eq : start.toNat = x.sum.toNat
  size_eq : size.toNat = x.esc.toNat + 1
  le_value : x.sum.toNat ≤ s.valueAt x.total
  value_lt : s.valueAt x.total < x.total
  query : exec (.rcGetFreq total) s = .next u
  update : exec (.rcUpdate start size) u = .next v

/-- Where `model_decode` stands once the escape is decoded, with `k` bytes read, and noted at the active record. -/
def State.escaped (x : Context) (k : Nat) (s : State) : State :=
  ((s.withCoder (Coder.queried x.total)).updated x.sum.toNat (x.esc.toNat + 1) k).withModel fun m =>
    { m with arena := m.arena.write m.active.toNat x.raiseEsc }

/-- What `RC_GETFREQ` and `RC_UPDATE` of the escape's interval leave, with `k` bytes read. -/
def State.escapeCoded (x : Context) (k : Nat) (s : State) : State :=
  ((s.queriedAt x.total).updated x.sum.toNat (x.esc.toNat + 1) k).respond 0

/-- They leave the coder, the counters and the input as `model_decode` does; only the model is untouched, and two responses are
written. -/
theorem State.escapeCoded_eq (x : Context) (k : Nat) (s : State) :
    s.escapeCoded x k = { s.escaped x k with
      model := s.model
      ports := { (s.escaped x k).ports with
        cmd := none
        responses := s.ports.responses ++ [responseWord false 0 (BitVec.ofNat 32 (s.valueAt x.total))] ++
          [responseWord false 0 0] } } := rfl

/-- The escape needs `k` bytes: with them `model_decode` goes on at the contexts below, and without them the command holds. -/
theorem EscapeRun.result {s u v : State} {x : Context} {total start size : Operand} (h : EscapeRun s u v x total start size)
    {lower : List Nat} (hl : s.model.ladder = s.model.active.toNat :: lower) :
    ∃ k, k ≤ 3 ∧
      Widened (s.coder.range.toNat / x.total * size.toNat) k (s.coder.range.toNat / x.total * size.toNat * 256 ^ k) ∧
      (¬ s.inputReady k → v = u ∧ exec .cmDecode s = .next s) ∧
      (s.inputReady k → v = s.escapeCoded x k ∧
        (s.escaped x k).coder.DecReady ∧ modelDecode.run s = (modelDecodeFrom lower).run (s.escaped x k)) := by
  obtain ⟨hquery, k, hk, hw, hok, hhold, hrun⟩ := query_update h.decoding.clear h.decoding.coder h.start_eq h.size_eq h.total_eq
    (by omega) (by unfold Context.total; omega) h.le_value (Nat.lt_of_lt_of_eq h.value_lt (by unfold Context.total; omega))
  have hu : u = s.queriedAt x.total := by have := h.query; rw [hquery] at this; cases this; rfl
  obtain ⟨hrunOk, hrunHold⟩ := hrun s rfl rfl rfl
  have hdecode := (modelDecode_run hl).trans
    (modelDecodeFrom_escape (lower := lower) h.decoding.coder h.record h.sound h.le_value h.value_lt)
  have hupdate := h.update
  rw [hu] at hupdate
  refine ⟨k, hk, by rw [h.size_eq]; exact hw, fun hstarved => ?_, fun hready => ?_⟩
  · obtain ⟨t, hstop⟩ := hrunHold hstarved
    rw [hhold hstarved] at hupdate
    cases hupdate
    exact ⟨hu.symm, exec_cmDecode_hold h.decoding (hdecode.trans (act_bind_of_error hstop))⟩
  · obtain ⟨hdone, hcoder⟩ := hrunOk hready
    rw [hok hready] at hupdate
    cases hupdate
    exact ⟨rfl, hcoder, hdecode.trans (act_bind_of_ok hdone)⟩

/-! ### The word on the command port and `ACTIVE` do not matter to `model_decode` below the active context -/

/-- Another word on the command port. -/
def State.withCmd (w : Option Word64) (s : State) : State := s.withPorts fun p => { p with cmd := w }

/-- Another active context, and another word on the command port. -/
def State.withActiveCmd (a : CtxIndex) (w : Option Word64) (s : State) : State :=
  (s.withModel fun m => { m with active := a }).withCmd w

/-- Fault entry frees the command port, whatever word stood there. -/
theorem State.faultEntry_withCmd (e : ErrCode) (opc : OpcodeField) (w : Option Word64) (s : State) :
    (s.withCmd w).faultEntry e opc = s.faultEntry e opc := by
  unfold State.faultEntry
  show State.endCommand _ (if s.fault.raised = true then _ else _) = _
  split <;> rfl

/-- Fault entry leaves `ACTIVE` as it was. -/
theorem State.faultEntry_withActiveCmd (e : ErrCode) (opc : OpcodeField) (a : CtxIndex) (w : Option Word64) (s : State) :
    (s.withActiveCmd a w).faultEntry e opc =
      { s.faultEntry e opc with model := { (s.faultEntry e opc).model with active := a } } := by
  rw [State.withActiveCmd, State.faultEntry_withCmd]
  unfold State.faultEntry
  show State.endCommand _ (if s.fault.raised = true then _ else _) = _
  split <;> rfl

/-- A result with `g` applied to the state of a completion and `h` to that of a stop. -/
def mapResult {α : Type} (g h : State → State) : EStateM.Result Stop State α → EStateM.Result Stop State α
  | .ok a t => .ok a (g t)
  | .error e t => .error e (h t)

/-- Running `x` from the state changed by `f` gives its result from the state itself, changed by `g` where it completes and by `h`
where it stops. -/
def Act.Carries {α : Type} (f g h : State → State) (x : Act α) : Prop := ∀ s, x.run (f s) = mapResult g h (x.run s)

section Carries

variable {α β : Type} {f g g' h : State → State}

theorem Act.Carries.bind {x : Act α} {k : α → Act β} (hx : x.Carries f g h) (hk : ∀ a, (k a).Carries g g' h) :
    Act.Carries f g' h (x >>= k) := by
  intro s
  rw [EStateM.run_bind, EStateM.run_bind, hx s]
  cases x.run s with
  | ok a t => exact hk a t
  | error e t => rfl

theorem carries_pure (a : α) : Act.Carries f f h (pure a) := fun _ => rfl

theorem carries_throw (e : Stop) : Act.Carries f g f (throw e : Act α) := fun _ => rfl

theorem carries_modify {m : State → State} (hm : ∀ s, m (f s) = g (m s)) : Act.Carries f g h (modify m : Act PUnit) := by
  intro s
  rw [EStateM.run_modify, EStateM.run_modify, hm]
  rfl

theorem carries_check (e : ErrCode) (ok : Bool) : (check e ok).Carries f f f := by
  intro s
  cases ok <;> rfl

theorem carries_ite {p : Prop} [Decidable p] {x y : Act α} (hx : x.Carries f g h) (hy : y.Carries f g h) :
    Act.Carries f g h (if p then x else y) := by split <;> assumption

variable (a : CtxIndex) (w : Option Word64)

theorem withCoder_carries (k : Coder → Coder) : Act.Carries (State.withActiveCmd a w) (State.withActiveCmd a w)
    (State.withActiveCmd a w) (modify (State.withCoder k) : Act PUnit) := carries_modify fun _ => rfl

theorem readCtx_carries (c : Nat) :
    (readCtx c).Carries (State.withActiveCmd a w) (State.withActiveCmd a w) (State.withActiveCmd a w) := by
  intro s
  have hread : (s.withActiveCmd a w).model.arena.read c = s.model.arena.read c := rfl
  rw [readCtx_run, readCtx_run, hread]
  cases s.model.arena.read c <;> rfl

theorem rcGetFreq_carries (n : Nat) :
    (rcGetFreq n).Carries (State.withActiveCmd a w) (State.withActiveCmd a w) (State.withActiveCmd a w) := by
  intro s
  have hrange : (s.withActiveCmd a w).coder.range.toNat = s.coder.range.toNat := rfl
  rw [rcGetFreq_run, rcGetFreq_run, hrange]
  split <;> rfl

theorem shiftInByte_carries :
    shiftInByte.Carries (State.withActiveCmd a w) (State.withActiveCmd a w) (State.withActiveCmd a w) := by
  intro s
  by_cases hi : s.inputReady 1
  · rw [shiftInByte_ready hi, shiftInByte_ready (s := s.withActiveCmd a w) hi]
    rfl
  · rw [shiftInByte_starved hi, shiftInByte_starved (s := s.withActiveCmd a w) hi]
    rfl

theorem decNormalizeLoop_carries (n : Nat) :
    (decNormalizeLoop n).Carries (State.withActiveCmd a w) (State.withActiveCmd a w) (State.withActiveCmd a w) := by
  induction n with
  | zero =>
    intro s
    have hrange : (s.withActiveCmd a w).coder.range.toNat = s.coder.range.toNat := rfl
    rw [decNormalizeLoop_zero, decNormalizeLoop_zero, hrange]
    split <;> rfl
  | succ n ih =>
    intro s
    have hrange : (s.withActiveCmd a w).coder.range.toNat = s.coder.range.toNat := rfl
    rw [decNormalizeLoop_succ, decNormalizeLoop_succ, hrange]
    split
    · exact (shiftInByte_carries a w).bind (fun _ => (withCoder_carries a w Coder.widenRange).bind fun _ => ih) s
    · rfl

theorem rcUpdate_carries (start size : Nat) :
    (rcUpdate start size).Carries (State.withActiveCmd a w) (State.withActiveCmd a w) (State.withActiveCmd a w) :=
  (withCoder_carries a w (Coder.takeInterval start size)).bind fun _ => decNormalizeLoop_carries a w 3

/-- `update_model` names the next active context whatever the last one was. -/
theorem Model.afterHit_withActive (u : Setup) (c : Nat) (x : Context) (sym : Sym) (m : Model) :
    Model.afterHit u c x sym { m with active := a } = m.afterHit u c x sym := by
  unfold Model.afterHit
  split
  · rfl
  · split <;> rfl

theorem updateModel_carries (c : Nat) (sym : Sym) :
    (updateModel c sym).Carries (State.withActiveCmd a w) (State.withCmd w) (State.withActiveCmd a w) := by
  intro s
  cases hr : s.model.arena.read c with
  | none => rw [updateModel_none hr, updateModel_none (s := s.withActiveCmd a w) hr]; rfl
  | some x =>
    rw [updateModel_run hr, updateModel_run (s := s.withActiveCmd a w) hr]
    exact congrArg (fun m => EStateM.Result.ok () ((s.withModel fun _ => m).withCmd w))
      (Model.afterHit_withActive a s.setup c x sym s.model)

/-- `model_decode` at given contexts does not read `ACTIVE`, writes it exactly where it completes, and leaves the command port
alone. -/
theorem modelDecodeFrom_carries (l : List Nat) :
    (modelDecodeFrom l).Carries (State.withActiveCmd a w) (State.withCmd w) (State.withActiveCmd a w) := by
  induction l with
  | nil =>
    exact (rcGetFreq_carries a w _).bind fun _ => (carries_check _ _).bind fun _ => (rcUpdate_carries a w _ _).bind fun _ =>
      Act.Carries.bind (carries_modify (g := State.withCmd w) fun _ => rfl) fun _ => carries_pure _
  | cons c lower ih =>
    refine (readCtx_carries a w c).bind fun x => (rcGetFreq_carries a w _).bind fun v => (carries_check _ _).bind fun _ =>
      carries_ite ?_ ?_
    · exact (rcUpdate_carries a w _ _).bind fun _ => Act.Carries.bind (carries_modify fun _ => rfl) fun _ => ih
    · cases x.scan v with
      | none => exact carries_throw _
      | some sym => exact (rcUpdate_carries a w _ _).bind fun _ => (updateModel_carries a w c sym).bind fun _ => carries_pure _

end Carries

/-! ### At sound records `model_decode` does not stop the model -/

/-- The update after a query completes or holds. -/
theorem rcUpdate_ends {s : State} (h : s.coder.DecReady) {start size total : Nat} (h1 : 1 ≤ size) (hfit : start + size ≤ total)
    (ht : total < 2 ^ 17) (hlo : start ≤ s.valueAt total) (hhi : s.valueAt total < start + size) :
    (∃ t, (rcUpdate start size).run (s.withCoder (Coder.queried total)) = .ok () t ∧ t.coder.DecReady ∧ t.model = s.model) ∨
      ∃ t, (rcUpdate start size).run (s.withCoder (Coder.queried total)) = .error .hold t := by
  obtain ⟨k, -, hok, hno⟩ := rcUpdate_ready h h1 hfit ht hlo hhi
  by_cases hi : s.inputReady k
  · obtain ⟨t, ht, hready, hframe, -⟩ := hok hi
    exact .inl ⟨t, ht, hready, hframe.model⟩
  · exact .inr (hno hi)

/-- A value of `total` or more: `E_DESYNC`, with the query pending. -/
theorem modelDecodeFrom_no_interval {s : State} {c : Nat} {x : Context} {lower : List Nat} (h : s.coder.DecReady)
    (hx : s.model.arena.read c = some x) (hs : x.Sound) (hv : x.total ≤ s.valueAt x.total) :
    (modelDecodeFrom (c :: lower)).run s = .error (.raise .desync) (s.withCoder (Coder.queried x.total)) := by
  simp only [modelDecodeFrom, EStateM.run_bind, readCtx_some hx,
    (rcGetFreq_ready h (by unfold Context.total; omega) hs.total_lt).1, decide_eq_false (Nat.not_lt.mpr hv), check_false]

/-- From a coder between two symbols, at records that are sound. -/
theorem modelDecodeFrom_no_fault (l : List Nat) {s : State} (h : s.coder.DecReady)
    (hl : ∀ c ∈ l, ∃ x, s.model.arena.read c = some x ∧ x.Sound) (f : Fault) (t : State) :
    (modelDecodeFrom l).run s ≠ .error (.fault f) t := by
  induction l generalizing s with
  | nil =>
    rcases Nat.lt_or_ge (s.valueAt 256) 256 with hv | hv
    · rw [modelDecodeFrom_byte h hv]
      rcases rcUpdate_ends h (start := s.valueAt 256) (size := 1) (total := 256) (by omega) (by omega) (by omega)
        (Nat.le_refl _) (Nat.lt_succ_self _) with ⟨u, hu, -⟩ | ⟨u, hu⟩
      · rw [act_bind_of_ok hu]; exact nofun
      · rw [act_bind_of_error hu]; exact nofun
    · rw [modelDecodeFrom_no_byte h hv]; exact nofun
  | cons c lower ih =>
    obtain ⟨x, hx, hs⟩ := hl c (by simp)
    rcases Nat.lt_or_ge (s.valueAt x.total) x.sum.toNat with hv | hv
    · obtain ⟨a, ha⟩ := Context.scan_isSome (x := x) (v := s.valueAt x.total) (by rw [← hs.sum_eq]; exact hv)
      obtain ⟨hlo, hhi⟩ := Context.scan_some ha
      rcases rcUpdate_ends h (hs.freq_pos a) (hs.hit_fits a) hs.total_lt hlo hhi with ⟨u, hu, -⟩ | ⟨u, hu⟩
      · rw [modelDecodeFrom_hit_ok h hx hs hv ha hu]; exact nofun
      · rw [modelDecodeFrom_hit h hx hs hv ha, act_bind_of_error hu]; exact nofun
    · rcases Nat.lt_or_ge (s.valueAt x.total) x.total with hv' | hv'
      · rw [modelDecodeFrom_escape h hx hs hv hv']
        rcases rcUpdate_ends h (start := x.sum.toNat) (size := x.esc.toNat + 1) (total := x.total) (by omega)
          (by unfold Context.total; omega) hs.total_lt hv (Nat.lt_of_lt_of_eq hv' (by unfold Context.total; omega))
          with ⟨u, hu, hready, hmodel⟩ | ⟨u, hu⟩
        · rw [act_bind_of_ok hu]
          refine ih (s := u.withModel fun m => { m with arena := m.arena.write c x.raiseEsc }) hready fun d hd => ?_
          show ∃ y, (u.model.arena.write c x.raiseEsc).read d = some y ∧ y.Sound
          rw [hmodel, Memory.read_write]
          split
          · exact ⟨_, rfl, Context.raiseEsc_sound hs⟩
          · exact hl d (by simp [hd])
        · rw [act_bind_of_error hu]; exact nofun
      · rw [modelDecodeFrom_no_interval h hx hs hv']; exact nofun

/-! ### The retry at the root -/

/-- A command that goes on at the root, where another active context and another word on the port are all that its state differs
in from `r`'s, ends as `CM_DECODE` does in `r`. -/
theorem cmDecode_retry {s r : State} {z : Context} (hs : s.Decoding) (hr : r.Decoding) (hactive : r.model.active = 0)
    (hz : r.model.arena.read 0 = some z) (hsound : z.Sound) (hresp : r.ports.responses = s.ports.responses)
    (hrun : modelDecode.run s = (modelDecodeFrom [0]).run (r.withActiveCmd s.model.active s.ports.cmd)) :
    ∃ t, exec .cmDecode r = .next t ∧
      ((∃ d, t.ports.responses = s.ports.responses ++ [responseWord false 0 d]) ∧ exec .cmDecode s = .next t ∨
        t.ports.responses = s.ports.responses ++ [responseWord true ErrCode.desync.number 0] ∧
          exec .cmDecode s = .next { t with model := { t.model with active := s.model.active } } ∨
        t = r ∧ exec .cmDecode s = .next s) := by
  have hroot : modelDecode.run r = (modelDecodeFrom [0]).run r := modelDecode_run (by rw [Model.ladder, if_pos hactive])
  have hmap : modelDecode.run s = mapResult (State.withCmd s.ports.cmd) (State.withActiveCmd s.model.active s.ports.cmd)
      (modelDecode.run r) := by rw [hrun, hroot, modelDecodeFrom_carries]
  have hstops := modelDecode_stops r
  have hframe := modelDecode_frame r
  have hfault : ∀ f t, modelDecode.run r ≠ .error (.fault f) t := by
    rw [hroot]
    exact modelDecodeFrom_no_fault [0] hr.coder fun c hc => ⟨z, by rw [List.mem_singleton.mp hc]; exact hz, hsound⟩
  cases hres : modelDecode.run r with
  | ok n t =>
    rw [hres] at hmap hframe
    have ht : t.ports.responses = s.ports.responses := hframe.1.responses.trans hresp
    exact ⟨_, exec_cmDecode_ok hr hres, .inl ⟨⟨_, congrArg (· ++ _) ht⟩, exec_cmDecode_ok (t := t.withCmd s.ports.cmd) hs hmap⟩⟩
  | error e t =>
    rw [hres] at hmap hframe
    have ht : t.ports.responses = s.ports.responses := hframe.1.responses.trans hresp
    rcases hstops e t hres with rfl | rfl | ⟨f, rfl⟩
    · refine ⟨_, exec_cmDecode_raise hr hres, .inr (.inl ⟨by simp [ht], ?_⟩)⟩
      rw [exec_cmDecode_raise (t := t.withActiveCmd s.model.active s.ports.cmd) hs hmap, State.faultEntry_withActiveCmd]
    · exact ⟨_, exec_cmDecode_hold hr hres, .inr (.inr ⟨rfl, exec_cmDecode_hold hs hmap⟩)⟩
    · exact absurd hres (hfault f t)

/-! ### The byte of order -1 -/

section Byte

variable {s e v : State} {m : Model} {w : Option Word64} {rs : List Word64} (hs : s.Decoding) (he : e.coder.DecReady)
  (hclear : e.fault.raised = false) (hrun : modelDecode.run s = (modelDecodeFrom []).run e)
  (hv : v = { e with model := m, ports := { e.ports with cmd := w, responses := rs } })
include hs he hclear hrun hv

/-- A command that goes on at order -1 from `e`, with a byte for its value: it is the `RC_GETFREQ` and `RC_UPDATE` of that byte from
a state `v` with `e`'s coder, counters and input; then the root is active. -/
theorem cmDecode_byte {b : Byte} (hb : v.valueAt 256 = b.toNat) :
    ∃ j, j ≤ 3 ∧ Widened (v.coder.range.toNat / 256) j (v.coder.range.toNat / 256 * 256 ^ j) ∧
      exec (.rcGetFreq 256) v = .next (v.queriedAt 256) ∧
      (v.inputReady j → ∃ z t : State, exec (.rcUpdate (b.setWidth 17) 1) (v.queriedAt 256) = .next z ∧
        exec .cmDecode s = .next t ∧ t.coder = z.coder ∧ t.setup = e.setup ∧ t.fault = e.fault ∧
        t.model = { e.model with active := 0 } ∧
        t.ports = { z.ports with responses := e.ports.responses ++ [responseWord false 0 (b.setWidth 32)] } ∧
        t.events = { z.events with cntSym := e.events.cntSym + 1 }) ∧
      (¬ v.inputReady j → exec (.rcUpdate (b.setWidth 17) 1) (v.queriedAt 256) = .next (v.queriedAt 256) ∧
        exec .cmDecode s = .next s) := by
  subst hv
  have hlt : b.toNat < 256 := b.isLt
  have hstart : (b.setWidth 17 : Operand).toNat = b.toNat := by
    rw [BitVec.toNat_setWidth, Nat.mod_eq_of_lt (by omega)]
  have hvalue : e.valueAt 256 = b.toNat := hb
  obtain ⟨hquery, j, hj, hwide, hok, hhold, hupdate⟩ := query_update
    (s := { e with model := m, ports := { e.ports with cmd := w, responses := rs } }) hclear he hstart (size := 1) (b := 1) rfl
    (total := 256) (n := 256) rfl (Nat.le_refl 1) (by omega) (Nat.le_of_eq hb.symm) (by rw [hb]; exact Nat.lt_succ_self _)
  rw [Nat.mul_one] at hwide
  obtain ⟨hrunOk, hrunHold⟩ := hupdate e rfl rfl rfl
  have hbyte := modelDecodeFrom_byte he (by omega)
  rw [hvalue] at hbyte
  refine ⟨j, hj, hwide, hquery, fun hready => ?_, fun hstarved => ⟨hhold hstarved, ?_⟩⟩
  · have hmode : (if b.toNat = 256 then CmMode.term else e.model.mode) = e.model.mode := if_neg (by omega)
    have hdata : BitVec.ofNat 32 b.toNat = b.setWidth 32 := BitVec.eq_of_toNat_eq (by simp)
    refine ⟨_, _, hok hready, exec_cmDecode_ok hs (hrun.trans (hbyte.trans (act_bind_of_ok (hrunOk hready).1))),
      rfl, rfl, rfl, congrArg (fun mode => { e.model with active := 0, mode := mode }) hmode, ?_, rfl⟩
    rw [← hdata]
    rfl
  · obtain ⟨t, hstop⟩ := hrunHold hstarved
    exact exec_cmDecode_hold hs (hrun.trans (hbyte.trans (act_bind_of_error hstop)))

/-- The same with a value that is no byte: `E_DESYNC`, with the query pending. -/
theorem cmDecode_no_byte (hvalue : 256 ≤ v.valueAt 256) :
    exec (.rcGetFreq 256) v = .next (v.queriedAt 256) ∧
      exec .cmDecode s = .next (State.faultEntry .desync Opc.cmDecode { v.queriedAt 256 with
        model := e.model
        ports := { (v.queriedAt 256).ports with responses := e.ports.responses } }) := by
  subst hv
  have hno := modelDecodeFrom_no_byte he hvalue
  exact ⟨exec_getFreq (s := { e with model := m, ports := { e.ports with cmd := w, responses := rs } }) (total := 256) hclear he
      (by decide),
    (exec_cmDecode_raise hs (hrun.trans hno)).trans
      (congrArg _ (State.faultEntry_withCmd .desync _ none (e.withCoder (Coder.queried 256))).symm)⟩

end Byte

/-- Settles O52: both parts take the escape apart at the active context. At the root, order -1 follows; elsewhere the retry at the
root follows, which `CM_DECODE` makes as it would in the state that the two coder commands and the noted escape leave. -/
theorem modelDecodeOrderMinusOne : Obligations.ModelDecodeOrderMinusOne := by
  constructor
  · intro s u v x total start size hinv hf hm hc hd hactive hx htotal hstart hsize hlo hhi hquery hupdate
    have h : EscapeRun s u v x total start size := ⟨hinv.decoding hf hm hc hd, by rw [hactive]; exact hx,
      hinv.model.records 0 x hx, htotal, hstart, hsize, hlo, hhi, hquery, hupdate⟩
    obtain ⟨k, hk, hw, hhold, hok⟩ := h.result (lower := []) (by rw [Model.ladder, if_pos hactive, hactive]; rfl)
    refine ⟨k, x.raiseEsc, hk, hw, rfl, rfl, rfl, rfl, x.raiseEsc_toNat, hhold, fun hready => ?_⟩
    obtain ⟨rfl, hcoder, hrun⟩ := hok hready
    have hmodel : (s.escaped x k).model = { s.model with arena := s.model.arena.write 0 x.raiseEsc } := by
      show { s.model with arena := s.model.arena.write s.model.active.toNat x.raiseEsc } = _
      rw [hactive]
      rfl
    refine ⟨fun n => State.inputReady_add hready rfl rfl, fun b hb => ?_, fun hv => ?_⟩
    · obtain ⟨j, hj, hwj, hqueryj, hokj, hholdj⟩ := cmDecode_byte h.decoding hcoder hf hrun (s.escapeCoded_eq x k) hb
      refine ⟨j, _, hj, hwj, hqueryj, fun hreadyj => ?_, hholdj⟩
      obtain ⟨z, t, hz, ht, htcoder, htsetup, htfault, htmodel, htports, htevents⟩ := hokj hreadyj
      exact ⟨z, t, hz, ht, htcoder, htsetup, htfault, by rw [htmodel, hmodel], htports, htevents⟩
    · obtain ⟨hquery, ht⟩ := cmDecode_no_byte h.decoding hcoder hf hrun (s.escapeCoded_eq x k) hv
      rw [hmodel] at ht
      exact ⟨_, hquery, ht⟩
  · intro s u v x z total start size hcs hf hm hc hd hactive hx hxs hz hzs htotal hstart hsize hlo hhi hquery hupdate
    have h : EscapeRun s u v x total start size :=
      ⟨⟨hf, hm, hcs.decReady hc hd⟩, hx, hxs, htotal, hstart, hsize, hlo, hhi, hquery, hupdate⟩
    obtain ⟨k, hk, hw, hhold, hok⟩ := h.result (lower := [0]) (by rw [Model.ladder, if_neg hactive])
    refine ⟨k, x.raiseEsc, hk, hw, rfl, rfl, rfl, rfl, x.raiseEsc_toNat, hhold, fun hready => ?_⟩
    obtain ⟨rfl, hcoder, hrun⟩ := hok hready
    have hread : (s.model.arena.write s.model.active.toNat x.raiseEsc).read 0 = some z := by
      have hne : 0 ≠ s.model.active.toNat := fun h0 => hactive (BitVec.eq_of_toNat_eq h0.symm)
      rw [Memory.read_write_other _ _ hne, hz]
    obtain ⟨t, ht, hcases⟩ :=
      cmDecode_retry (r := (s.escaped x k).withActiveCmd 0 none) h.decoding ⟨hf, hm, hcoder⟩ rfl hread hzs rfl hrun
    refine ⟨_, t, rfl, fun hinv => ⟨hinv.setup, ?_, hinv.fault, fun _ => hcoder.sound⟩, rfl, rfl, hc, hcoder.idle,
      fun n => State.inputReady_add hready rfl rfl, hread, ht, hcases⟩
    exact hinv.model.rewrite hx (Context.raiseEsc_sound hxs) rfl rfl fun hidle =>
      Nat.lt_of_le_of_lt (Nat.zero_le _) (hinv.model.active_lt hidle)

end Sys2Proof.Machine
end

section
/-! PROOFS. The ways a command ends, by its answer, and what they leave in `RC_MODE` (10_state.md R22, 30_encoding.md R86). -/

namespace Sys2Proof.Machine

/-! ### The ways a command ends, by what it answers (30_encoding.md R86) -/

theorem responseWord_err (err : Bool) (code : BitVec 8) (d : Word32) :
    (responseWord err code d).extractLsb' 63 1 = BitVec.ofBool err := by
  unfold responseWord
  rw [BitVec.extractLsb'_append_eq_of_le (by omega), BitVec.extractLsb'_append_eq_of_le (by omega),
    BitVec.extractLsb'_append_eq_of_le (by omega)]
  exact BitVec.extractLsb'_append_eq_left

/-- The response to an error differs from every response without one. -/
theorem responseWord_error_ne (code code' : BitVec 8) (d d' : Word32) : responseWord true code d ≠ responseWord false code' d' := by
  intro h
  have herr := congrArg (BitVec.extractLsb' 63 1) h
  rw [responseWord_err, responseWord_err] at herr
  exact absurd herr (by decide)

/-- `t` is `u` with a command answered: at most the fault record, the command port and the responses differ. -/
structure State.Answered (u t : State) : Prop where
  coder : t.coder = u.coder
  model : t.model = u.model
  events : t.events = u.events
  eod : t.ports.eod = u.ports.eod
  input : t.ports.input = u.ports.input
  output : t.ports.output = u.ports.output

theorem State.respond_answered (d : Word32) (u : State) : u.Answered (u.respond d) := ⟨rfl, rfl, rfl, rfl, rfl, rfl⟩

theorem State.blocked_answered (u : State) : u.Answered u.blocked := ⟨rfl, rfl, rfl, rfl, rfl, rfl⟩

theorem State.faultEntry_answered (e : ErrCode) (opc : OpcodeField) (u : State) : u.Answered (u.faultEntry e opc) := by
  constructor <;> simp

/-- A command completes and answers without an error, or it does not, and then has written at most what it wrote before a raise. -/
theorem exec_ends {i : Instr} {s t : State} (h : exec i s = .next t) :
    (∃ d u, (body i).run s = .ok d u ∧ u.Answered t ∧
      t.ports.responses = s.ports.responses ++ [responseWord false 0 d]) ∨
    (∃ u, (u = s ∨ ∃ e, (body i).run s = .error (.raise e) u) ∧ u.Answered t ∧
      ∀ d, t.ports.responses ≠ s.ports.responses ++ [responseWord false 0 d]) := by
  rcases exec_next h with ⟨-, -, rfl⟩ | ⟨-, ⟨d, u, hu, rfl⟩ | ⟨e, u, hu, rfl⟩ | ⟨u, -, rfl⟩⟩
  · exact .inr ⟨s, .inl rfl, s.blocked_answered, fun d => by simp [responseWord_error_ne]⟩
  · exact .inl ⟨d, u, hu, u.respond_answered d, by simp [body_ok_responses hu]⟩
  · refine .inr ⟨u, .inr ⟨e, hu⟩, u.faultEntry_answered e i.opcode, fun d => ?_⟩
    simp [(body_raise hu).1.responses, responseWord_error_ne]
  · exact .inr ⟨t, .inl rfl, ⟨rfl, rfl, rfl, rfl, rfl, rfl⟩, fun d => by simp⟩

/-- What a command that does not complete has written before its answer. -/
theorem uncompleted_frame {i : Instr} {s u : State} (h : u = s ∨ ∃ e, (body i).run s = .error (.raise e) u) :
    RaiseFrame i s u ∧ s.Starved (maxReads i) u := by
  rcases h with rfl | ⟨e, hu⟩
  · exact ⟨.refl i u, .refl _ u⟩
  · exact ⟨(body_raise hu).1, body_raise_starved hu⟩

/-! ### What a completed primitive leaves (10_state.md R22, R38) -/

theorem Act.Keeps.of_ok {α : Type} {R : State → State → Prop} {x : Act α} (hx : x.Keeps R) {s u : State} {a : α}
    (h : x.run s = .ok a u) : R s u := by
  have := hx s
  rwa [h] at this

theorem modelEncode_ok_frame {a : Sym} {s u : State} (h : (modelEncode a).run s = .ok () u) :
    FrameWith EncodeFrame Model.Coded s u := by
  have := modelEncode_frame a s
  rwa [h] at this

theorem modelDecode_ok_frame {n : Nat} {s u : State} (h : modelDecode.run s = .ok n u) :
    FrameWith DecodeFrame Model.Coded s u := by
  have := modelDecode_frame s
  rwa [h] at this

/-! ### RC_MODE (10_state.md R22) -/

/-- `RC_MODE` after a command that completes. -/
def rcModeAfter : Instr → RcMode → RcMode
  | .rcInitEnc, _ => .enc
  | .rcInitDec, _ => .dec
  | .rcFlush, _ => .idle
  | .blkReset, _ => .idle
  | _, m => m

theorem symbolDone_coder {n : Nat} {s u : State} (h : (symbolDone n).run s = .ok () u) : u.coder = s.coder := by
  rw [symbolDone_run] at h
  cases h
  rfl

/-- What a completed command leaves in `RC_MODE`. -/
theorem body_ok_rcMode {i : Instr} {s u : State} {d : Word32} (h : (body i).run s = .ok d u) :
    u.coder.mode = rcModeAfter i s.coder.mode := by
  have hc := body_ok h
  cases i with
  | nop => obtain ⟨-, rfl⟩ := hc; rfl
  | blkReset => obtain ⟨-, rfl⟩ := hc; rfl
  | csrRd c => obtain ⟨-, -, -, rfl⟩ := hc; rfl
  | csrWr c d => obtain ⟨-, ⟨-, -, rfl⟩ | ⟨-, -, ⟨-, -, -, rfl⟩ | ⟨-, -, -, rfl⟩⟩⟩ := hc <;> rfl
  | dbgRd c o => obtain ⟨-, -, -, -, rfl⟩ := hc; rfl
  | rcInitEnc => obtain ⟨-, rfl⟩ := hc; rfl
  | rcEncode a b c => obtain ⟨-, -, -, -, hr⟩ := hc; exact ((rcEncode_frame _ _ _).of_ok hr).mode
  | rcFlush => obtain ⟨-, v, -, -, rfl⟩ := hc; rfl
  | rcInitDec => obtain ⟨-, v, -, rfl⟩ := hc; rfl
  | rcGetFreq c => obtain ⟨-, -, -, v, -, hr⟩ := hc; exact ((rcGetFreq_frame _).of_ok hr).mode
  | rcUpdate a b => obtain ⟨-, -, -, -, -, hr⟩ := hc; exact ((rcUpdate_frame _ _).of_ok hr).mode
  | cmReset => obtain ⟨-, -, rfl⟩ := hc; rfl
  | cmStartEnc => obtain ⟨-, -, rfl⟩ := hc; rfl
  | cmStartDec => obtain ⟨-, -, rfl⟩ := hc; rfl
  | cmEncode a =>
    obtain ⟨-, -, -, x, v, -, hr, hd⟩ := hc
    rw [symbolDone_coder hd]
    exact (modelEncode_ok_frame hr).1.mode
  | cmDecode =>
    obtain ⟨-, -, -, n, v, -, hr, hd⟩ := hc
    rw [symbolDone_coder hd]
    exact (modelDecode_ok_frame hr).1.mode

/-- Settles O19: a command that does not complete keeps `RC_MODE`, and of those that complete four set it. -/
theorem rcModeChanges : Obligations.RcModeChanges := by
  intro i s t h hne
  rcases exec_ends h with ⟨d, u, hu, ht, -⟩ | ⟨u, hu, ht, -⟩
  · have hmode := body_ok_rcMode hu
    rw [ht.coder] at hne ⊢
    rw [hmode] at hne ⊢
    cases i with
    | rcInitEnc => exact .inl ⟨rfl, rfl⟩
    | rcInitDec => exact .inr (.inl ⟨rfl, rfl⟩)
    | rcFlush =>
      obtain ⟨henc, -⟩ := body_ok hu
      exact .inr (.inr (.inl ⟨rfl, henc, rfl⟩))
    | blkReset => exact .inr (.inr (.inr ⟨rfl, rfl⟩))
    | _ => exact absurd rfl hne
  · rw [ht.coder, (uncompleted_frame hu).1.mode] at hne
    exact absurd rfl hne

end Sys2Proof.Machine
end

section
/-! PROOFS. The event counters: what each command counts, and how it answers then (10_state.md R37, R38). -/

namespace Sys2Proof.Machine

/-! ### Bytes and symbols (10_state.md R38) -/

/-- The bytes sent between `s` and `t` are counted in `CNT_OUT`. -/
def State.Sent (s t : State) : Prop :=
  ∃ sent, t.ports.output = s.ports.output ++ sent ∧ t.events.cntOut = s.events.cntOut + BitVec.ofNat 32 sent.length

/-- The bytes consumed between `s` and `t` are counted in `CNT_IN`. -/
def State.Consumed (s t : State) : Prop :=
  ∃ taken, s.ports.input = taken ++ t.ports.input ∧ t.events.cntIn = s.events.cntIn + BitVec.ofNat 32 taken.length

theorem State.Sent.none {s t : State} (hp : t.ports.output = s.ports.output) (hn : t.events.cntOut = s.events.cntOut) :
    s.Sent t := ⟨[], by simp [hp], by simp [hn]⟩

theorem State.Consumed.none {s t : State} (hp : t.ports.input = s.ports.input) (hn : t.events.cntIn = s.events.cntIn) :
    s.Consumed t := ⟨[], by simp [hp], by simp [hn]⟩

theorem State.Sent.cntOut {s t : State} (h : s.Sent t) :
    t.events.cntOut = s.events.cntOut + BitVec.ofNat 32 (t.ports.output.length - s.ports.output.length) := by
  obtain ⟨sent, hp, hn⟩ := h
  simp [hn, hp]

theorem State.Consumed.cntIn {s t : State} (h : s.Consumed t) :
    t.events.cntIn = s.events.cntIn + BitVec.ofNat 32 (s.ports.input.length - t.ports.input.length) := by
  obtain ⟨taken, hp, hn⟩ := h
  simp [hn, hp]

/-- `CNT_SYM` after a command that completes. -/
def cntSymAfter : Instr → Word32 → Word32
  | .cmReset, _ => 0
  | .cmEncode _, n => n + 1
  | .cmDecode, n => n + 1
  | _, n => n

/-- What a completed command `i` other than `BLK_RESET` has counted. -/
structure State.Counted (i : Instr) (s t : State) : Prop where
  sent : i ≠ .rcInitEnc → s.Sent t
  consumed : i ≠ .rcInitDec → s.Consumed t
  cntSym : t.events.cntSym = cntSymAfter i s.events.cntSym

theorem EncodeFrame.sent {s t : State} (h : EncodeFrame s t) : s.Sent t := h.output

theorem EncodeFrame.consumed {s t : State} (h : EncodeFrame s t) : s.Consumed t := .none h.input h.cntIn

theorem DecodeFrame.sent {s t : State} (h : DecodeFrame s t) : s.Sent t := .none h.output h.cntOut

theorem DecodeFrame.consumed {s t : State} (h : DecodeFrame s t) : s.Consumed t := h.input

theorem RaiseFrame.sent {i : Instr} {s t : State} (h : RaiseFrame i s t) : s.Sent t := by
  obtain ⟨sent, hp, -, hn⟩ := h.output
  exact ⟨sent, hp, hn⟩

theorem RaiseFrame.consumed {i : Instr} {s t : State} (h : RaiseFrame i s t) : s.Consumed t := by
  obtain ⟨taken, hp, -, hn⟩ := h.input
  exact ⟨taken, hp, hn⟩

theorem State.Counted.of_encode {i : Instr} {s t : State} (h : EncodeFrame s t)
    (hi : cntSymAfter i s.events.cntSym = s.events.cntSym) : s.Counted i t :=
  ⟨fun _ => h.sent, fun _ => h.consumed, h.cntSym.trans hi.symm⟩

theorem State.Counted.of_decode {i : Instr} {s t : State} (h : DecodeFrame s t)
    (hi : cntSymAfter i s.events.cntSym = s.events.cntSym) : s.Counted i t :=
  ⟨fun _ => h.sent, fun _ => h.consumed, h.cntSym.trans hi.symm⟩

/-- A command that moves no byte. -/
theorem State.Counted.of_ports {i : Instr} {s t : State} (hp : t.ports = s.ports) (ho : t.events.cntOut = s.events.cntOut)
    (hi : t.events.cntIn = s.events.cntIn) (hs : t.events.cntSym = cntSymAfter i s.events.cntSym) : s.Counted i t :=
  ⟨fun _ => .none (by rw [hp]) ho, fun _ => .none (by rw [hp]) hi, hs⟩

/-- A symbol procedure and the count of its symbol. -/
theorem State.Counted.of_symbol {i : Instr} {s v u : State} {n : Nat} (hd : (symbolDone n).run v = .ok () u)
    (hsent : s.Sent v) (hconsumed : s.Consumed v) (hsym : v.events.cntSym = s.events.cntSym)
    (hi : cntSymAfter i s.events.cntSym = s.events.cntSym + 1) : s.Counted i u := by
  rw [symbolDone_run] at hd
  cases hd
  exact ⟨fun _ => hsent, fun _ => hconsumed, by simp [hsym, hi]⟩

/-- What every completed command but `BLK_RESET` has counted. -/
theorem body_ok_counted {i : Instr} {s u : State} {d : Word32} (h : (body i).run s = .ok d u) (hb : i ≠ .blkReset) :
    s.Counted i u := by
  have hc := body_ok h
  cases i with
  | nop => obtain ⟨-, rfl⟩ := hc; exact .of_ports rfl rfl rfl rfl
  | blkReset => exact absurd rfl hb
  | csrRd c => obtain ⟨-, -, -, rfl⟩ := hc; exact .of_ports rfl rfl rfl rfl
  | csrWr c d =>
    obtain ⟨-, ⟨-, -, rfl⟩ | ⟨-, -, ⟨-, -, -, rfl⟩ | ⟨-, -, -, rfl⟩⟩⟩ := hc <;> exact .of_ports rfl rfl rfl rfl
  | dbgRd c o => obtain ⟨-, -, -, -, rfl⟩ := hc; exact .of_ports rfl rfl rfl rfl
  | rcInitEnc => obtain ⟨-, rfl⟩ := hc; exact ⟨fun hi => absurd rfl hi, fun _ => .none rfl rfl, rfl⟩
  | rcEncode a b c => obtain ⟨-, -, -, -, hr⟩ := hc; exact .of_encode ((rcEncode_frame _ _ _).of_ok hr) rfl
  | rcFlush =>
    obtain ⟨-, v, hr, -, rfl⟩ := hc
    have hv : s.Counted .rcFlush v := .of_encode ((shiftLowTimes_frame 5).of_ok hr) rfl
    exact ⟨hv.sent, hv.consumed, hv.cntSym⟩
  | rcInitDec =>
    obtain ⟨-, v, hr, rfl⟩ := hc
    have hv := (shiftInBytes_frame 4).of_ok hr
    exact ⟨fun _ => hv.sent, fun hi => absurd rfl hi, hv.cntSym⟩
  | rcGetFreq c => obtain ⟨-, -, -, v, -, hr⟩ := hc; exact .of_decode ((rcGetFreq_frame _).of_ok hr) rfl
  | rcUpdate a b => obtain ⟨-, -, -, -, -, hr⟩ := hc; exact .of_decode ((rcUpdate_frame _ _).of_ok hr) rfl
  | cmReset => obtain ⟨-, -, rfl⟩ := hc; exact .of_ports rfl rfl rfl rfl
  | cmStartEnc => obtain ⟨-, -, rfl⟩ := hc; exact .of_ports rfl rfl rfl rfl
  | cmStartDec => obtain ⟨-, -, rfl⟩ := hc; exact .of_ports rfl rfl rfl rfl
  | cmEncode a =>
    obtain ⟨-, -, -, x, v, -, hr, hd⟩ := hc
    have hv := (modelEncode_ok_frame hr).1
    exact .of_symbol hd hv.sent hv.consumed hv.cntSym rfl
  | cmDecode =>
    obtain ⟨-, -, -, n, v, -, hr, hd⟩ := hc
    have hv := (modelDecode_ok_frame hr).1
    exact .of_symbol hd hv.sent hv.consumed hv.cntSym rfl

/-! ### The two commands that start a stream (40_rangecoder.md R109, R112) -/

/-- `RC_INIT_ENC` runs in every mode: it clears `CNT_OUT`, unless it is blocked (40_rangecoder.md R109). -/
theorem exec_rcInitEnc_cntOut {s t : State} (h : exec .rcInitEnc s = .next t) :
    t.events.cntOut = if s.fault.raised then s.events.cntOut else 0 := by
  rw [exec_eq] at h
  cases hf : s.fault.raised <;> (rw [hf] at h; cases h; rfl)

/-- A completed `RC_INIT_DEC` counts from zero: 4 reads, with zeros for the bytes that are missing (10_state.md R37, R38). -/
theorem rcInitDec_ok_counts {s u : State} {d : Word32} (h : (body .rcInitDec).run s = .ok d u) :
    d = 0 ∧ u.ports.input = s.ports.input.drop 4 ∧ u.events = { s.events with
      cntIn := BitVec.ofNat 32 (min 4 s.ports.input.length)
      cntZfill := BitVec.ofNat 32 (4 - s.ports.input.length)
      zfill := decide (s.ports.input.length < 4) } := by
  obtain ⟨rfl, v, hv, rfl⟩ := body_ok h
  refine ⟨rfl, ?_⟩
  by_cases hready : ((s.withCoder Coder.startDecode).withEvents fun v =>
      { v with cntIn := 0, cntZfill := 0, zfill := false }).inputReady 4
  · rw [shiftInBytes_ready 4 hready] at hv
    cases hv
    refine ⟨rfl, ?_⟩
    simp only [State.afterReads, State.withCoder_events, State.withEvents_events, State.withPorts_events,
      State.withEvents_ports, State.withCoder_ports, Bool.false_or]
    congr 1 <;> exact BitVec.zero_add _
  · obtain ⟨w, hw⟩ := shiftInBytes_starved 4 hready
    rw [hw] at hv
    cases hv

/-- `RC_INIT_DEC` never raises, so without completing it changes nothing but the answer (40_rangecoder.md R112). -/
theorem rcInitDec_uncompleted {s u : State} (h : u = s ∨ ∃ e, (body .rcInitDec).run s = .error (.raise e) u) : u = s := by
  rcases h with h | ⟨e, hu⟩
  · exact h
  · exact absurd (body_stops .rcInitDec s _ u hu) (by simp [mayStop])

/-- What `RC_INIT_DEC` counts. -/
theorem exec_rcInitDec_events {s t : State} (h : exec .rcInitDec s = .next t) :
    (t.ports.responses = s.ports.responses ++ [0] →
      t.events.cntIn = BitVec.ofNat 32 (s.ports.input.length - t.ports.input.length) ∧
      t.events.cntZfill.toNat = 4 - s.ports.input.length ∧ t.events.zfill = decide (s.ports.input.length < 4)) ∧
    (t.ports.responses ≠ s.ports.responses ++ [0] → t.events = s.events) := by
  rcases exec_ends h with ⟨d, u, hu, ht, hresp⟩ | ⟨u, hu, ht, hresp⟩
  · obtain ⟨rfl, hinput, hevents⟩ := rcInitDec_ok_counts hu
    refine ⟨fun _ => ?_, fun hne => absurd hresp hne⟩
    rw [ht.events, ht.input, hinput, hevents]
    refine ⟨?_, ?_, rfl⟩
    · show BitVec.ofNat 32 (min 4 s.ports.input.length) = _
      rw [List.length_drop]
      congr 1
      omega
    · show (BitVec.ofNat 32 (4 - s.ports.input.length)).toNat = _
      rw [BitVec.toNat_ofNat]
      omega
  · obtain rfl := rcInitDec_uncompleted hu
    exact ⟨fun h0 => absurd h0 (hresp 0), fun _ => ht.events⟩

/-! ### However a command ends -/

theorem exec_sent {i : Instr} {s t : State} (h : exec i s = .next t) (hb : i ≠ .blkReset) (hi : i ≠ .rcInitEnc) : s.Sent t := by
  suffices ∃ u, s.Sent u ∧ u.Answered t by
    obtain ⟨u, hu, ht⟩ := this
    rwa [State.Sent, ht.events, ht.output]
  rcases exec_ends h with ⟨d, u, hu, ht, -⟩ | ⟨u, hu, ht, -⟩
  · exact ⟨u, (body_ok_counted hu hb).sent hi, ht⟩
  · exact ⟨u, (uncompleted_frame hu).1.sent, ht⟩

theorem exec_consumed {i : Instr} {s t : State} (h : exec i s = .next t) (hb : i ≠ .blkReset) (hi : i ≠ .rcInitDec) :
    s.Consumed t := by
  suffices ∃ u, s.Consumed u ∧ u.Answered t by
    obtain ⟨u, hu, ht⟩ := this
    rwa [State.Consumed, ht.events, ht.input]
  rcases exec_ends h with ⟨d, u, hu, ht, -⟩ | ⟨u, hu, ht, -⟩
  · exact ⟨u, (body_ok_counted hu hb).consumed hi, ht⟩
  · exact ⟨u, (uncompleted_frame hu).1.consumed, ht⟩

theorem exec_starved {i : Instr} {s t : State} (h : exec i s = .next t) (hb : i ≠ .blkReset) (hi : i ≠ .rcInitDec) :
    s.Starved (maxReads i) t := by
  suffices ∃ u, s.Starved (maxReads i) u ∧ u.Answered t by
    obtain ⟨u, hu, ht⟩ := this
    rwa [State.Starved, ht.events, ht.input, ht.eod]
  rcases exec_ends h with ⟨d, u, hu, ht, -⟩ | ⟨u, hu, ht, -⟩
  · exact ⟨u, body_ok_starved hu hi hb, ht⟩
  · exact ⟨u, (uncompleted_frame hu).2, ht⟩

/-- `CNT_SYM` moves exactly where a command completes. -/
theorem exec_cntSym {i : Instr} {s t : State} (h : exec i s = .next t) (hb : i ≠ .blkReset) :
    ((∃ d, t.ports.responses = s.ports.responses ++ [responseWord false 0 d]) →
      t.events.cntSym = cntSymAfter i s.events.cntSym) ∧
    ((¬ ∃ d, t.ports.responses = s.ports.responses ++ [responseWord false 0 d]) →
      t.events.cntSym = s.events.cntSym) := by
  rcases exec_ends h with ⟨d, u, hu, ht, hresp⟩ | ⟨u, hu, ht, hresp⟩
  · exact ⟨fun _ => by rw [ht.events, (body_ok_counted hu hb).cntSym], fun hno => absurd ⟨d, hresp⟩ hno⟩
  · exact ⟨fun ⟨d, hd⟩ => absurd hd (hresp d), fun _ => by rw [ht.events, (uncompleted_frame hu).1.cntSym]⟩

/-- Only the symbol commands and `CM_RESET` move `CNT_SYM`. -/
theorem cntSymAfter_other {i : Instr} (hr : i ≠ .cmReset) (hs : ¬ ((∃ a, i = .cmEncode a) ∨ i = .cmDecode)) (n : Word32) :
    cntSymAfter i n = n := by
  cases i with
  | cmReset => exact absurd rfl hr
  | cmEncode a => exact absurd (.inl ⟨a, rfl⟩) hs
  | cmDecode => exact absurd (.inr rfl) hs
  | _ => rfl

/-- The commands that read bytes (42_control.md R191). -/
theorem reads_of_maxReads {i : Instr} (hi : i ≠ .rcInitDec) (h : maxReads i ≠ 0) :
    (∃ a b, i = .rcUpdate a b) ∨ i = .cmDecode := by
  cases i with
  | rcInitDec => exact absurd rfl hi
  | rcUpdate a b => exact .inl ⟨a, b, rfl⟩
  | cmDecode => exact .inr rfl
  | _ => exact absurd rfl h

/-- Settles O24: the counters move with the bytes, the zeros and the symbols, in whatever way the command ends. -/
theorem eventCounters : Obligations.EventCounters := by
  intro i s t h hb
  obtain ⟨hcompleted, huncompleted⟩ := exec_cntSym h hb
  refine ⟨fun hi => (exec_sent h hb hi).cntOut, ?_, fun hi => (exec_consumed h hb hi).cntIn, ?_, ?_, ?_, ?_, ?_, ?_, ?_⟩
  · rintro rfl
    exact exec_rcInitEnc_cntOut h
  · rintro rfl hresp
    exact ((exec_rcInitDec_events h).1 hresp).1
  · rintro rfl hresp
    exact hcompleted ⟨0, hresp⟩
  · rintro (⟨a, rfl⟩ | rfl) hresp <;> exact hcompleted hresp
  · intro hr hor
    by_cases hresp : ∃ d, t.ports.responses = s.ports.responses ++ [responseWord false 0 d]
    · rw [hcompleted hresp, cntSymAfter_other hr (hor.resolve_right (not_not_intro hresp))]
    · exact huncompleted hresp
  · intro hi
    obtain ⟨-, -, n, hn, hcnt, hzfill, hzero⟩ := exec_starved h hb hi
    refine ⟨n, hn.trans (maxReads_le i), hcnt, hzfill, fun hn0 => ⟨reads_of_maxReads hi (by omega), hzero hn0⟩⟩
  · rintro rfl hresp
    exact ((exec_rcInitDec_events h).1 hresp).2
  · rintro rfl hresp
    exact (exec_rcInitDec_events h).2 hresp

end Sys2Proof.Machine
end

section
/-! PROOFS. Every step keeps the arena's canonical form (10_state.md R40, 20_memory.md R65). -/

namespace Sys2Proof.Machine

theorem Model.Escaped.wf {m n : Model} (h : m.Escaped n) (hw : m.arena.wf = true) : n.arena.wf = true := by
  induction h with
  | refl => exact hw
  | step _ _ ih => exact Memory.write_wf ih _ _

theorem Model.Symboled.wf {u : Setup} {m n : Model} (h : m.Symboled u n) (hw : m.arena.wf = true) : n.arena.wf = true := by
  obtain ⟨e, he, rfl | ⟨c, x, a, -, rfl⟩⟩ := h
  · exact he.wf hw
  · exact (Model.afterHit_coded u c x a e).2 (he.wf hw)

/-- However a command ends, it keeps the arena canonical. -/
theorem exec_keeps_wf {i : Instr} {s t : State} (h : exec i s = .next t) (hw : s.model.arena.wf = true) :
    t.model.arena.wf = true := by
  rcases exec_ends h with ⟨d, u, hu, ht, -⟩ | ⟨u, hu, ht, -⟩ <;> rw [ht.model]
  · rcases body_ok_moves hu with ⟨-, hempty⟩ | ⟨-, hroot⟩ | hsame | ⟨hmoves, -⟩
    · rw [hempty]; rfl
    · rw [hroot]; rfl
    · rw [hsame]; exact hw
    · exact hmoves.wf hw
  · exact (uncompleted_frame hu).1.model.2 hw

/-- A word that is no command keeps the arena. -/
theorem illegalWord_model {w : Word64} {s t : State} (h : illegalWord w s = .next t) : t.model = s.model := by
  unfold illegalWord at h
  split at h <;> cases h
  · rfl
  · simp

theorem runWord_keeps_wf {w : Word64} {s t : State} (h : runWord w s = .next t) (hw : s.model.arena.wf = true) :
    t.model.arena.wf = true := by
  unfold runWord at h
  split at h
  · exact exec_keeps_wf h hw
  · rwa [illegalWord_model h]

/-- The host resets RCCM or leaves the arena. -/
theorem hostMove_keeps_wf {s : State} (hw : s.model.arena.wf = true) : (hostMove s).model.arena.wf = true := by
  rcases hostMove_cases s with ⟨rest, -, hreset⟩ | ⟨-, p, hports, -⟩
  · rw [hreset]; rfl
  · rw [hports]; exact hw

/-- Settles O56: the host, a command and an illegal word each keep the form. -/
theorem stepKeepsArenaCanonical : Obligations.StepKeepsArenaCanonical := by
  intro s t hw h
  rcases step_cases h with ⟨-, rfl⟩ | ⟨w, u, -, -, hu, rfl⟩
  · exact hostMove_keeps_wf hw
  · have hwu := runWord_keeps_wf hu hw
    split
    · exact hostMove_keeps_wf hwu
    · exact hwu

end Sys2Proof.Machine
end

section
/-! PROOFS. A step with a word on the command port, and the host's actions (10_state.md R21, R29, 70_reset_and_hazards.md R240,
R249). -/

namespace Sys2Proof.Machine

/-! ### A word on the command port (60_exceptions.md R203) -/

theorem runWord_ok {w : Word64} {i : Instr} (h : decode w = .ok i) (s : State) : runWord w s = exec i s := by
  rw [runWord, h]

theorem runWord_error {w : Word64} {e : Illegal} (h : decode w = .error e) (s : State) : runWord w s = illegalWord w s := by
  rw [runWord, h]

/-- After a command that has its response the step is over. -/
theorem afterCommand_free {t : State} (h : t.ports.cmd = none) : afterCommand (.next t) = .next t := by
  simp [afterCommand, h]

/-- While a command holds the host acts. -/
theorem afterCommand_holding {t : State} (h : t.ports.cmd.isSome = true) : afterCommand (.next t) = .next (hostMove t) := by
  simp [afterCommand, h]

theorem neverBlocked_iff (opc : OpcodeField) :
    neverBlocked opc = true ↔ opc = 0x00 ∨ opc = 0x01 ∨ opc = 0x02 ∨ opc = 0x04 := by
  simp [neverBlocked, Opc.nop, Opc.blkReset, Opc.csrRd, Opc.dbgRd, or_assoc]

/-- A word that is no command is illegal, if nothing blocks it. -/
theorem illegalWord_runs {w : Word64} {s : State} (h : s.fault.raised = false ∨ neverBlocked (fieldOpc w) = true) :
    illegalWord w s = .next (s.faultEntry .illegal (fieldOpc w)) := by
  rcases h with h | h <;> simp [illegalWord, h]

/-- While a fault is recorded it is blocked by its opcode field. -/
theorem illegalWord_blocked {w : Word64} {s : State} (h : s.fault.raised = true) (hn : neverBlocked (fieldOpc w) = false) :
    illegalWord w s = .next s.blocked := by
  simp [illegalWord, h, hn]

/-- Settles O8: a step is the word's run, and then the host's action where the word is still on the port. -/
theorem stepRunsCommand : Obligations.StepRunsCommand := by
  intro s w hf hr
  have hstep := step_word hf hr
  refine ⟨fun i hi => ?_, fun t ht hfree => ?_, fun e he => ⟨fun hruns => ?_, fun hraised h0 h1 h2 h4 => ?_⟩⟩
  · rw [hstep, runWord_ok hi]
    refine ⟨fun t ht hfree => ?_, fun t ht hholds => ?_, fun f hstop => ?_⟩
    · rw [ht, afterCommand_free hfree]
    · rw [ht, afterCommand_holding hholds]
    · rw [hstop]; rfl
  · rw [hstep, ht, afterCommand_free hfree]
  · rw [hstep, runWord_error he, illegalWord_runs (hruns.imp_right (neverBlocked_iff _).mpr)]
    exact afterCommand_free (by simp)
  · have hblocks : neverBlocked (fieldOpc w) = false := by
      rw [Bool.eq_false_iff, Ne, neverBlocked_iff]
      rintro (h | h | h | h) <;> contradiction
    rw [hstep, runWord_error he, illegalWord_blocked hraised hblocks]
    exact afterCommand_free rfl

/-! ### The host's actions, one by one (70_reset_and_hazards.md R249) -/

section Host

variable {s : State} {rest : List HostEvent}

theorem hostMove_done (h : s.ports.host = []) : hostMove s = s := by
  rw [hostMove, h]

theorem hostMove_byte {b : Byte} (h : s.ports.host = .byte b :: rest) :
    hostMove s = { s with ports := { s.ports with input := s.ports.input ++ [b], host := rest } } := by
  rw [hostMove, h]; rfl

theorem hostMove_eod {level : Bool} (h : s.ports.host = .eod level :: rest) :
    hostMove s = { s with ports := { s.ports with eod := level, host := rest } } := by
  rw [hostMove, h]; rfl

theorem hostMove_rst (h : s.ports.host = .rst :: rest) :
    hostMove s = { State.reset with ports := { s.ports with cmd := none, host := rest } } := by
  rw [hostMove, h]; rfl

/-- The actions that wait for a free command port (70_reset_and_hazards.md R248, R249, R253). -/
def HostEvent.waits : HostEvent → Bool
  | .command _ | .awaitResponse | .clearInput => true
  | _ => false

/-- An action that waits does nothing while a command is in progress. -/
theorem hostMove_waits {e : HostEvent} (he : e.waits = true) (h : s.ports.host = e :: rest) (hc : s.ports.cmd.isSome = true) :
    hostMove s = s := by
  rw [hostMove, h]
  cases e with
  | command w => exact if_pos hc
  | awaitResponse => exact if_pos hc
  | clearInput => exact if_pos hc
  | _ => cases he

theorem hostMove_command {w : Word64} (h : s.ports.host = .command w :: rest) (hc : s.ports.cmd = none) :
    hostMove s = { s with ports := { s.ports with cmd := some w, host := rest } } := by
  rw [hostMove, h]; simp [hc, State.withPorts]

theorem hostMove_awaitResponse (h : s.ports.host = .awaitResponse :: rest) (hc : s.ports.cmd = none) :
    hostMove s = { s with ports := { s.ports with host := rest } } := by
  rw [hostMove, h]; simp [hc, State.withPorts]

theorem hostMove_clearInput (h : s.ports.host = .clearInput :: rest) (hc : s.ports.cmd = none) :
    hostMove s = { s with ports := { s.ports with input := [], host := rest } } := by
  rw [hostMove, h]; simp [hc, State.withPorts]

/-- A step while a command holds is the host's action, `RST` or not. -/
theorem step_holding {w : Word64} (hf : fetch s = some w) (hw : runWord w s = .next s) : step s = .next (hostMove s) := by
  cases hr : s.rstAsserted with
  | true => exact step_rst hr
  | false =>
    have hc : s.ports.cmd.isSome = true := by rw [show s.ports.cmd = some w from hf]; rfl
    rw [step_word hf hr, hw, afterCommand_holding hc]

end Host

/-- Settles O9: idle, or while a command holds, or at an `RST`, a step is the host's action. -/
theorem hostActions : Obligations.HostActions := by
  intro s rest
  refine ⟨fun hf => ?_, fun w hf hw => ?_, fun h => ?_⟩
  · rw [step_idle hf]
    exact ⟨fun h => by rw [hostMove_done h], fun w h => by rw [hostMove_command h hf], fun b h => by rw [hostMove_byte h],
      fun level h => by rw [hostMove_eod h], fun h => by rw [hostMove_awaitResponse h hf],
      fun h => by rw [hostMove_clearInput h hf]⟩
  · have hc : s.ports.cmd.isSome = true := by rw [show s.ports.cmd = some w from hf]; rfl
    rw [step_holding hf hw]
    exact ⟨fun h => by rw [hostMove_done h], fun v h => by rw [hostMove_waits rfl h hc],
      fun b h => by rw [hostMove_byte h], fun level h => by rw [hostMove_eod h],
      fun h => by rw [hostMove_waits rfl h hc], fun h => by rw [hostMove_waits rfl h hc]⟩
  · rw [step_rst (State.rstAsserted_rst h), hostMove_rst h]

end Sys2Proof.Machine
end

section
/-! PROOFS. The registers after hardware reset (10_state.md R57). -/

namespace Sys2Proof.Machine

/-- `MAX_CTX` holds `ARENA_CTX`, which fits its 18 bits (00_scope.md R8). -/
theorem reset_maxCtx : Setup.reset.maxCtx.toNat = Config.arenaCtx := by
  have := Config.arenaCtx_le
  show (BitVec.ofNat 18 Config.arenaCtx).toNat = Config.arenaCtx
  rw [BitVec.toNat_ofNat]
  omega

/-- Settles O10: `MAX_CTX` alone needs an argument, that `ARENA_CTX` fits. -/
theorem resetValues : Obligations.ResetValues :=
  ⟨rfl, rfl, rfl, reset_maxCtx, rfl, rfl, rfl, rfl⟩

theorem Setup.reset_sound : Setup.reset.Sound where
  order_legal := .inl rfl
  max_pos := by rw [reset_maxCtx]; exact Nat.succ_pos _
  max_le := reset_maxCtx.le

/-- Settles O54: the four parts are sound. -/
theorem resetInv : Obligations.ResetInv :=
  ⟨Setup.reset_sound, Model.reset_sound _, ⟨fun _ => ⟨rfl, rfl⟩, nofun⟩, fun _ => Coder.reset_sound⟩

end Sys2Proof.Machine
end

section
/-! PROOFS. The CSRs: which index names which, what `STATUS`, `ERR` and `RC_CACHE` show, and the refused accesses (10_state.md R44,
R46, R47, R53, R56). -/

namespace Sys2Proof.Machine

/-! ### The CSR map (10_state.md R44) -/

theorem csrAt_index (r : Csr) : csrAt r.index = some r := by
  cases r <;> rfl

theorem index_of_csrAt {c : CsrIndex} {r : Csr} (h : csrAt c = some r) : r.index = c := by
  simpa using List.find?_some h

/-- An unassigned index names no CSR. -/
theorem csrAt_unassigned {c : CsrIndex} (h : ∀ r : Csr, r.index ≠ c) : csrAt c = none :=
  Option.eq_none_iff_forall_ne_some.mpr fun r hr => h r (index_of_csrAt hr)

/-! ### Refused accesses (10_state.md R56) -/

theorem csrRd_refused {c : CsrIndex} (h : csrAt c = none) (s : State) :
    exec (.csrRd c) s = .next (s.faultEntry .csr Opc.csrRd) := by
  have hbody : (body (.csrRd c)).run s = .error (.raise .csr) s := by
    simp only [body, h]
    rfl
  rw [exec_eq, show neverBlocked (Instr.csrRd c).opcode = true from rfl, Bool.not_true, Bool.and_false]
  exact runCommand_raise hbody

/-- A write to an index that names none of the three writable CSRs. -/
theorem csrWr_refused {c : CsrIndex} (h : ∀ r, csrAt c = some r → r ≠ .ctrl ∧ r ≠ .modelOrder ∧ r ≠ .maxCtx) (d : Word32)
    {s : State} (hf : s.fault.raised = false) : exec (.csrWr c d) s = .next (s.faultEntry .csr Opc.csrWr) := by
  have hbody : (body (.csrWr c d)).run s = .error (.raise .csr) s := by
    simp only [body]
    split
    · rename_i hr; exact absurd rfl (h _ hr).1
    · rename_i hr; exact absurd rfl (h _ hr).2.1
    · rename_i hr; exact absurd rfl (h _ hr).2.2
    · rfl
  rw [exec_clear hf]
  exact runCommand_raise hbody

/-- A write of a read-only register. -/
theorem csrWr_readOnly {r : Csr} (h : r ≠ .ctrl ∧ r ≠ .modelOrder ∧ r ≠ .maxCtx) (d : Word32) {s : State}
    (hf : s.fault.raised = false) : exec (.csrWr r.index d) s = .next (s.faultEntry .csr Opc.csrWr) :=
  csrWr_refused (fun r' hr => by rw [csrAt_index] at hr; cases hr; exact h) d hf

/-- Settles O29: an unassigned index names no CSR, and a read-only one none of the three writable. -/
theorem csrRefusals : Obligations.CsrRefusals := by
  intro c d s
  refine ⟨fun h => csrRd_refused (csrAt_unassigned h) s, fun h hf => csrWr_refused ?_ d hf, ?_⟩
  · intro r hr
    rw [csrAt_unassigned h] at hr
    cases hr
  · rintro r rfl h1 h2 h3 hf
    exact csrWr_readOnly ⟨h1, h2, h3⟩ d hf

/-! ### STATUS, ERR and RC_CACHE, field by field (10_state.md R46, R47, R53) -/

/-- A field of one bit, as that bit. -/
theorem getLsbD_of_field {w : Word32} {k : Nat} {b : Bool} (h : w.extractLsb' k 1 = BitVec.ofBool b) : w.getLsbD k = b := by
  have hbit := congrArg (fun x : BitVec 1 => x.getLsbD 0) h
  simpa [BitVec.getLsbD_extractLsb'] using hbit

/-- The fields of `STATUS`, each reached by leaving out those below it. -/
theorem statusWord_fields (s : State) :
    s.statusWord.extractLsb' 0 2 = s.coder.mode.bits ∧ s.statusWord.extractLsb' 2 2 = 0#2 ∧
    s.statusWord.extractLsb' 4 3 = s.model.mode.bits ∧ s.statusWord.extractLsb' 7 1 = BitVec.ofBool false ∧
    s.statusWord.extractLsb' 8 1 = BitVec.ofBool s.coder.dpend ∧
    s.statusWord.extractLsb' 9 1 = BitVec.ofBool s.fault.raised ∧
    s.statusWord.extractLsb' 10 1 = BitVec.ofBool s.events.zfill ∧
    s.statusWord.extractLsb' 11 1 = BitVec.ofBool s.ctxFull ∧ s.statusWord.extractLsb' 12 1 = BitVec.ofBool s.irq ∧
    s.statusWord.extractLsb' 13 19 = 0#19 := by
  unfold State.statusWord
  refine ⟨?_, ?_, ?_, ?_, ?_, ?_, ?_, ?_, ?_, ?_⟩ <;> repeat rw [BitVec.extractLsb'_append_eq_of_le (by omega)]
  iterate 9 (next => exact BitVec.extractLsb'_append_eq_right)
  exact BitVec.extractLsb'_eq_self

theorem errWord_fields (s : State) : s.errWord.extractLsb' 0 8 = s.fault.code ∧ s.errWord.extractLsb' 8 6 = s.fault.opc ∧
    s.errWord.extractLsb' 14 18 = 0#18 := by
  unfold State.errWord
  refine ⟨BitVec.extractLsb'_append_eq_right, ?_, ?_⟩ <;> rw [BitVec.extractLsb'_append_eq_of_le (by omega)]
  · exact BitVec.extractLsb'_append_eq_right
  · exact BitVec.extractLsb'_append_eq_left

theorem cacheWord_fields (s : State) : s.cacheWord.extractLsb' 0 8 = s.coder.cache ∧
    s.cacheWord.extractLsb' 8 1 = BitVec.ofBool s.coder.drop ∧ s.cacheWord.extractLsb' 9 23 = 0#23 := by
  unfold State.cacheWord
  refine ⟨BitVec.extractLsb'_append_eq_right, ?_, ?_⟩ <;> rw [BitVec.extractLsb'_append_eq_of_le (by omega)]
  · exact BitVec.extractLsb'_append_eq_right
  · exact BitVec.extractLsb'_append_eq_left

theorem ctxFull_iff (s : State) :
    s.ctxFull = true ↔ s.model.mode ≠ .idle ∧ s.setup.maxCtx.toNat ≤ s.model.ctxCount.toNat := by
  simp [State.ctxFull]

/-- The five read-only CSRs of the statement, by index. -/
theorem readOnly_of_mem {c : CsrIndex} (h : c ∈ ([0x001, 0x002, 0x014, 0x015, 0x016] : List CsrIndex)) :
    ∃ r : Csr, r.index = c ∧ r ≠ .ctrl ∧ r ≠ .modelOrder ∧ r ≠ .maxCtx := by
  simp only [List.mem_cons, List.not_mem_nil, or_false] at h
  rcases h with rfl | rfl | rfl | rfl | rfl
  · exact ⟨.status, rfl, nofun, nofun, nofun⟩
  · exact ⟨.err, rfl, nofun, nofun, nofun⟩
  · exact ⟨.rcCache, rfl, nofun, nofun, nofun⟩
  · exact ⟨.rcCacheSize, rfl, nofun, nofun, nofun⟩
  · exact ⟨.rcDtot, rfl, nofun, nofun, nofun⟩

/-- Settles O28: the fields of each word, its value at reset, and the refusal of a write to a read-only register. -/
theorem statusFields : Obligations.StatusFields := by
  refine ⟨fun s => ?_, by decide, by decide, by decide, rfl, rfl, fun c hc d s hf => ?_⟩
  · obtain ⟨hrc, hrsv2, hcm, hrsv7, hdpend, hraised, hzfill, hfull, hirq, hrsv13⟩ := statusWord_fields s
    obtain ⟨hcode, hopc, hrsv14⟩ := errWord_fields s
    obtain ⟨hcache, hdrop, hrsv9⟩ := cacheWord_fields s
    refine ⟨?_, hrsv2, ?_, getLsbD_of_field hrsv7, getLsbD_of_field hdpend, getLsbD_of_field hraised, getLsbD_of_field hzfill,
      ?_, getLsbD_of_field hirq, hrsv13, hcode, hopc, hrsv14, hcache, getLsbD_of_field hdrop, hrsv9, rfl, ?_⟩
    · rw [hrc]; cases s.coder.mode <;> rfl
    · rw [hcm]; cases s.model.mode <;> rfl
    · rw [getLsbD_of_field hfull, ctxFull_iff]
    · exact BitVec.toNat_setWidth_of_le (by omega)
  · obtain ⟨r, rfl, hr⟩ := readOnly_of_mem hc
    exact csrWr_readOnly hr d hf

end Sys2Proof.Machine
end

section
/-! PROOFS. Who sends and who consumes bytes (20_memory.md R72, 42_control.md R191). -/

namespace Sys2Proof.Machine

/-! ### The bytes a command moves -/

/-- From `p` to `q` the command `i` appends bytes to the output only if it sends, takes bytes off the front of the input only if
it consumes, and leaves `EOD` and the host. -/
structure Ports.Traffic (i : Instr) (p q : Ports) : Prop where
  eod : q.eod = p.eod
  host : q.host = p.host
  output : ∃ sent, q.output = p.output ++ sent ∧ (sent ≠ [] → sends i)
  input : ∃ taken, p.input = taken ++ q.input ∧ (taken ≠ [] → takes i)

/-- A command that moves no byte. -/
theorem Ports.Traffic.of_eq {i : Instr} {p q : Ports} (h : q = p) : p.Traffic i q :=
  ⟨by rw [h], by rw [h], ⟨[], by simp [h]⟩, ⟨[], by simp [h]⟩⟩

/-- A command's answer moves no byte. -/
theorem Ports.Traffic.answered {i : Instr} {p q : Ports} (h : p.Traffic i q) (c : Option Word64) (r : List Word64) :
    p.Traffic i { q with cmd := c, responses := r } :=
  ⟨h.eod, h.host, h.output, h.input⟩

theorem EncodeFrame.traffic {i : Instr} {s t : State} (h : EncodeFrame s t) (hi : sends i) : s.ports.Traffic i t.ports := by
  obtain ⟨sent, ho, -⟩ := h.output
  exact ⟨h.eod, h.host, ⟨sent, ho, fun _ => hi⟩, ⟨[], by simp [h.input]⟩⟩

theorem DecodeFrame.traffic {i : Instr} {s t : State} (h : DecodeFrame s t) (hi : takes i) : s.ports.Traffic i t.ports := by
  obtain ⟨taken, hp, -⟩ := h.input
  exact ⟨h.eod, h.host, ⟨[], by simp [h.output]⟩, ⟨taken, hp, fun _ => hi⟩⟩

theorem RaiseFrame.traffic {i : Instr} {s t : State} (h : RaiseFrame i s t) : s.ports.Traffic i t.ports := by
  obtain ⟨sent, ho, hsends, -⟩ := h.output
  obtain ⟨taken, hp, htakes, -⟩ := h.input
  exact ⟨h.eod, h.host, ⟨sent, ho, hsends⟩, ⟨taken, hp, htakes⟩⟩

/-! ### The commands (42_control.md R191) -/

/-- The commands that send, by name. -/
theorem sends_cases {i : Instr} (h : sends i) : (∃ a b c, i = .rcEncode a b c) ∨ i = .rcFlush ∨ ∃ a, i = .cmEncode a := by
  cases i with
  | rcEncode a b c => exact .inl ⟨a, b, c, rfl⟩
  | rcFlush => exact .inr (.inl rfl)
  | cmEncode a => exact .inr (.inr ⟨a, rfl⟩)
  | _ => exact h.elim

/-- The commands that consume, by name. -/
theorem takes_cases {i : Instr} (h : takes i) : i = .rcInitDec ∨ (∃ a b, i = .rcUpdate a b) ∨ i = .cmDecode := by
  cases i with
  | rcInitDec => exact .inl rfl
  | rcUpdate a b => exact .inr (.inl ⟨a, b, rfl⟩)
  | cmDecode => exact .inr (.inr rfl)
  | _ => exact h.elim

theorem rcGetFreq_ok_ports {n v : Nat} {s u : State} (h : (rcGetFreq n).run s = .ok v u) : u.ports = s.ports := by
  rw [rcGetFreq_run] at h
  split at h <;> cases h
  rfl

theorem symbolDone_ports {n : Nat} {s u : State} (h : (symbolDone n).run s = .ok () u) : u.ports = s.ports := by
  rw [symbolDone_run] at h
  cases h
  rfl

/-- The bytes every completed command has moved. -/
theorem body_ok_traffic {i : Instr} {s u : State} {d : Word32} (h : (body i).run s = .ok d u) : s.ports.Traffic i u.ports := by
  have hc := body_ok h
  cases i with
  | nop => obtain ⟨-, rfl⟩ := hc; exact .of_eq rfl
  | blkReset => obtain ⟨-, rfl⟩ := hc; exact .of_eq s.softReset_ports
  | csrRd c => obtain ⟨-, -, -, rfl⟩ := hc; exact .of_eq rfl
  | csrWr c d => obtain ⟨-, ⟨-, -, rfl⟩ | ⟨-, -, ⟨-, -, -, rfl⟩ | ⟨-, -, -, rfl⟩⟩⟩ := hc <;> exact .of_eq rfl
  | dbgRd c o => obtain ⟨-, -, -, -, rfl⟩ := hc; exact .of_eq rfl
  | rcInitEnc => obtain ⟨-, rfl⟩ := hc; exact .of_eq rfl
  | rcEncode a b c => obtain ⟨-, -, -, -, hr⟩ := hc; exact ((rcEncode_frame _ _ _).of_ok hr).traffic trivial
  | rcFlush =>
    obtain ⟨-, v, hr, -, rfl⟩ := hc
    have hv := ((shiftLowTimes_frame 5).of_ok hr).traffic (i := .rcFlush) trivial
    exact hv
  | rcInitDec =>
    obtain ⟨-, v, hr, rfl⟩ := hc
    have hv := ((shiftInBytes_frame 4).of_ok hr).traffic (i := .rcInitDec) trivial
    exact hv
  | rcGetFreq c => obtain ⟨-, -, -, v, -, hr⟩ := hc; exact .of_eq (rcGetFreq_ok_ports hr)
  | rcUpdate a b => obtain ⟨-, -, -, -, -, hr⟩ := hc; exact ((rcUpdate_frame _ _).of_ok hr).traffic trivial
  | cmReset => obtain ⟨-, -, rfl⟩ := hc; exact .of_eq rfl
  | cmStartEnc => obtain ⟨-, -, rfl⟩ := hc; exact .of_eq rfl
  | cmStartDec => obtain ⟨-, -, rfl⟩ := hc; exact .of_eq rfl
  | cmEncode a =>
    obtain ⟨-, -, -, x, v, -, hr, hd⟩ := hc
    rw [symbolDone_ports hd]
    exact (modelEncode_ok_frame hr).1.traffic trivial
  | cmDecode =>
    obtain ⟨-, -, -, n, v, -, hr, hd⟩ := hc
    rw [symbolDone_ports hd]
    exact (modelDecode_ok_frame hr).1.traffic trivial

/-- The bytes a command has moved, however it ends: blocked, completed, raised or held. -/
theorem exec_traffic {i : Instr} {s t : State} (h : exec i s = .next t) : s.ports.Traffic i t.ports := by
  rcases exec_next h with ⟨-, -, rfl⟩ | ⟨-, ⟨d, u, hu, rfl⟩ | ⟨e, u, hu, rfl⟩ | ⟨u, -, rfl⟩⟩
  · exact (Ports.Traffic.of_eq rfl).answered _ _
  · exact (body_ok_traffic hu).answered _ _
  · rw [State.faultEntry_ports]
    exact (body_raise hu).1.traffic.answered _ _
  · exact .of_eq rfl

/-- Settles O23: the traffic of every command, with the commands that send and that consume named. -/
theorem byteTraffic : Obligations.ByteTraffic := by
  intro i s t h
  obtain ⟨heod, hhost, ⟨sent, ho, hsends⟩, ⟨taken, hp, htakes⟩⟩ := exec_traffic h
  exact ⟨heod, hhost, ⟨sent, ho, fun hne => sends_cases (hsends hne)⟩, ⟨taken, hp, fun hne => takes_cases (htakes hne)⟩⟩

end Sys2Proof.Machine
end

section
/-! PROOFS. The decoder and the encoder are inverse to each other, and what follows for the opcode map and for illegal words
(30_encoding.md R84, R85, R88, R90). -/

namespace Sys2Proof

/-! ### The rows of the opcode map (30_encoding.md R85) -/

/-- Every assigned opcode appears once. -/
theorem opTable_opcodes_nodup : (opTable.map OpRow.opc).Nodup := by decide

/-- The opcode of a row finds that row. -/
theorem opTable_find {row : OpRow} (hrow : row ∈ opTable) : opTable.find? (fun r => r.opc == row.opc) = some row := by
  cases hfind : opTable.find? (fun r => r.opc == row.opc) with
  | none => exact absurd (beq_self_eq_true row.opc) (List.find?_eq_none.mp hfind row hrow)
  | some r =>
    have hopc : r.opc = row.opc := by simpa using List.find?_some hfind
    rw [List.inj_on_of_nodup_map opTable_opcodes_nodup (List.mem_of_find?_eq_some hfind) hrow hopc]

/-- A word that decodes matches the row of its opcode, and the row reads the command out of it. -/
theorem row_of_decode {w : Word64} {i : Instr} (h : decode w = .ok i) :
    ∃ row ∈ opTable, row.opc = fieldOpc w ∧ w &&& row.mask = row.pattern ∧ row.read w = i := by
  unfold decode at h
  cases hfind : opTable.find? (fun r => r.opc == fieldOpc w) with
  | none => rw [hfind] at h; cases h
  | some row =>
    simp only [hfind] at h
    split at h
    · rename_i hmatch
      cases h
      exact ⟨row, List.mem_of_find?_eq_some hfind, by simpa using List.find?_some hfind, hmatch, rfl⟩
    · cases h

/-- A word matches a row exactly when it is the encoding of the command which the row reads out of it: the mask covers every bit
that is not an operand's. -/
theorem match_iff_encode (w : Word64) : ∀ row ∈ opTable, w &&& row.mask = row.pattern ↔ w = encode (row.read w) := by
  simp only [opTable, List.forall_mem_cons]
  exact ⟨match_none w Opc.nop, match_none w Opc.blkReset, match_csr w Opc.csrRd, match_csrData w Opc.csrWr, match_ab w Opc.dbgRd,
    match_none w Opc.rcInitEnc, match_abc w Opc.rcEncode, match_none w Opc.rcFlush, match_none w Opc.rcInitDec,
    match_c w Opc.rcGetFreq, match_ab w Opc.rcUpdate, match_none w Opc.cmReset, match_none w Opc.cmStartEnc,
    match_none w Opc.cmStartDec, match_a w Opc.cmEncode, match_none w Opc.cmDecode, List.forall_mem_nil _⟩

/-! ### The round trip (30_encoding.md R90) -/

/-- Every command has its row. -/
theorem rowMatch (i : Instr) : Laws.RowMatch.Statement i := by
  cases i with
  | nop => exact Laws.RowMatch.nop
  | blkReset => exact Laws.RowMatch.blkReset
  | csrRd csr => exact Laws.RowMatch.csrRd csr
  | csrWr csr data => exact Laws.RowMatch.csrWr csr data
  | dbgRd ctxi off => exact Laws.RowMatch.dbgRd ctxi off
  | rcInitEnc => exact Laws.RowMatch.rcInitEnc
  | rcEncode start size total => exact Laws.RowMatch.rcEncode start size total
  | rcFlush => exact Laws.RowMatch.rcFlush
  | rcInitDec => exact Laws.RowMatch.rcInitDec
  | rcGetFreq total => exact Laws.RowMatch.rcGetFreq total
  | rcUpdate start size => exact Laws.RowMatch.rcUpdate start size
  | cmReset => exact Laws.RowMatch.cmReset
  | cmStartEnc => exact Laws.RowMatch.cmStartEnc
  | cmStartDec => exact Laws.RowMatch.cmStartDec
  | cmEncode sym => exact Laws.RowMatch.cmEncode sym
  | cmDecode => exact Laws.RowMatch.cmDecode

/-- The opcode field of a command's word is the command's opcode, in either format. -/
@[simp] theorem fieldOpc_encode (i : Instr) : fieldOpc (encode i) = i.opcode := by
  cases i with
  | csrRd csr => exact fieldOpc_fc ..
  | csrWr csr data => exact fieldOpc_fc ..
  | _ => exact fieldOpc_f3 ..

theorem decode_encode (i : Instr) : decode (encode i) = .ok i := by
  obtain ⟨row, hrow, hopc, hmatch, hread⟩ := rowMatch i
  have hfield : fieldOpc (encode i) = row.opc := by rw [fieldOpc_encode, hopc]
  rw [decode_of_opc hfield (opTable_find hrow), if_pos hmatch, hread]

theorem encode_of_decode {w : Word64} {i : Instr} (h : decode w = .ok i) : encode i = w := by
  obtain ⟨row, hrow, -, hmatch, hread⟩ := row_of_decode h
  rw [← hread]
  exact ((match_iff_encode w row hrow).mp hmatch).symm

/-- The words that decode to a command are its encoding, and no other. -/
theorem decode_ok_iff (w : Word64) (i : Instr) : decode w = .ok i ↔ w = encode i :=
  ⟨fun h => (encode_of_decode h).symm, fun h => h ▸ decode_encode i⟩

/-- A word decodes to a row's command exactly when it matches the row. -/
theorem decode_row_iff (w : Word64) : ∀ row ∈ opTable, decode w = .ok (row.read w) ↔ w &&& row.mask = row.pattern :=
  fun row hrow => (decode_ok_iff w _).trans (match_iff_encode w row hrow).symm

/-- Settles O1: the row of the command's opcode accepts its word and reads its operands back. -/
theorem decodeEncode : Obligations.DecodeEncode := decode_encode

/-- Settles O2: the word matches a row, whose mask leaves out the operands alone. -/
theorem encodeDecode : Obligations.EncodeDecode := fun _ _ => encode_of_decode

/-- Settles O3: a word decodes to a command exactly when it is the command's encoding, which is what the row's mask tests. -/
theorem opcodeMap : Obligations.OpcodeMap := by
  intro w
  refine ⟨fun i h => ?_, ?_⟩
  · obtain ⟨row, hrow, hopc, -⟩ := row_of_decode h
    rw [← hopc]
    exact List.mem_map_of_mem hrow
  · simpa only [opTable, List.forall_mem_cons, List.not_mem_nil, false_implies, implies_true, and_true, fieldA, fieldB, fieldC,
      fieldCsr, fieldData] using decode_row_iff w

/-! ### Illegal words (30_encoding.md R88) -/

/-- A word is illegal for its opcode exactly when no row has that opcode. -/
theorem decode_unassigned_iff (w : Word64) :
    decode w = .error (.unassignedOpcode (fieldOpc w)) ↔ fieldOpc w ∉ opTable.map OpRow.opc := by
  have hnone : opTable.find? (fun r => r.opc == fieldOpc w) = none ↔ fieldOpc w ∉ opTable.map OpRow.opc := by
    simp [List.find?_eq_none]
  rw [← hnone, decode]
  cases opTable.find? (fun r => r.opc == fieldOpc w) with
  | none => simp
  | some row => simp only [reduceCtorEq, iff_false]; split <;> simp

/-- The opcodes without a row, as the ranges of R88. -/
theorem unassigned_iff : ∀ opc : OpcodeField, opc ∉ opTable.map OpRow.opc ↔
    (5 ≤ opc.toNat ∧ opc.toNat ≤ 7) ∨ opc.toNat = 0x0B ∨ opc.toNat = 0x0F ∨ 0x15 ≤ opc.toNat := by
  decide

/-- A word that is no command's encoding does not decode. -/
theorem decode_error_of_not_encoded {w : Word64} (h : ∀ i, w ≠ encode i) : ∃ e, decode w = .error e := by
  cases hd : decode w with
  | ok i => exact absurd ((decode_ok_iff w i).mp hd) (h i)
  | error e => exact ⟨e, rfl⟩

/-- Settles O4: the opcodes without a row, and a word that is no encoding does not decode. -/
theorem illegalWords : Obligations.IllegalWords := by
  refine ⟨fun w => (decode_unassigned_iff w).trans (unassigned_iff _), fun w s hw hs => ?_⟩
  obtain ⟨e, he⟩ := decode_error_of_not_encoded hw
  rw [Machine.runWord_error he, Machine.illegalWord_runs (.inl hs)]

end Sys2Proof
end

section
/-! PROOFS. Response words field by field, and the one response of every word (30_encoding.md R86, R87, 00_scope.md R14). -/

namespace Sys2Proof.Machine

/-! ### The fields of a response word (30_encoding.md R86) -/

section Fields

variable (err : Bool) (code : BitVec 8) (data : Word32)

theorem responseWord_bit63 : (responseWord err code data).getLsbD 63 = err := by
  simpa using congrArg (fun b : BitVec 1 => b.getLsbD 0) (responseWord_err err code data)

theorem responseWord_upperZeros : (responseWord err code data).extractLsb' 56 7 = 0 := by
  unfold responseWord
  rw [BitVec.extractLsb'_append_eq_of_le (by omega), BitVec.extractLsb'_append_eq_of_le (by omega),
    BitVec.extractLsb'_append_eq_of_le (by omega), BitVec.extractLsb'_append_eq_of_add_le (by omega)]
  exact BitVec.extractLsb'_eq_self

theorem responseWord_code : (responseWord err code data).extractLsb' 48 8 = code := by
  unfold responseWord
  rw [BitVec.extractLsb'_append_eq_of_le (by omega), BitVec.extractLsb'_append_eq_of_le (by omega),
    BitVec.extractLsb'_append_eq_of_add_le (by omega)]
  exact BitVec.extractLsb'_eq_self

theorem responseWord_middleZeros : (responseWord err code data).extractLsb' 32 16 = 0 := by
  unfold responseWord
  rw [BitVec.extractLsb'_append_eq_of_le (by omega), BitVec.extractLsb'_append_eq_of_add_le (by omega)]
  exact BitVec.extractLsb'_eq_self

theorem responseWord_data : (responseWord err code data).extractLsb' 0 32 = data := by
  unfold responseWord
  rw [BitVec.extractLsb'_append_eq_of_add_le (by omega)]
  exact BitVec.extractLsb'_eq_self

end Fields

/-- The response of a raised error as one number (30_encoding.md R87). -/
theorem responseWord_error (e : ErrCode) :
    responseWord true e.number 0 = 0x8000000000000000 ||| (e.number.setWidth 64 <<< 48) := by
  cases e <;> rfl

/-- Settles O7: the fields one by one, the word of each error, and the response that fault entry appends. -/
theorem responseWords : Obligations.ResponseWords :=
  ⟨fun err code data => ⟨responseWord_bit63 err code data, responseWord_upperZeros err code data,
      responseWord_code err code data, responseWord_middleZeros err code data, responseWord_data err code data⟩,
    responseWord_error, rfl, rfl, fun e opc s => by rw [State.faultEntry_ports]⟩

/-! ### One response (30_encoding.md R86, 00_scope.md R14) -/

/-- A response word that R86 allows: an error has a code of R201 and no data, a completion has code 0. -/
def WellFormedResponse (r : Word64) : Prop :=
  ∃ err code data, r = responseWord err code data ∧ (err = false → code = 0) ∧
    (err = true → 1 ≤ (code : BitVec 8).toNat ∧ code.toNat ≤ 8 ∧ data = 0)

theorem ErrCode.number_bounds (e : ErrCode) : 1 ≤ e.number.toNat ∧ e.number.toNat ≤ 8 := by
  cases e <;> decide

theorem wellFormedResponse_completion (d : Word32) : WellFormedResponse (responseWord false 0 d) :=
  ⟨false, 0, d, rfl, fun _ => rfl, nofun⟩

theorem wellFormedResponse_error (e : ErrCode) : WellFormedResponse (responseWord true e.number 0) :=
  ⟨true, e.number, 0, rfl, nofun, fun _ => ⟨e.number_bounds.1, e.number_bounds.2, rfl⟩⟩

/-- `t` has one well-formed response more than `s` and a free command port. -/
def State.AnsweredOnce (s t : State) : Prop :=
  t.ports.cmd = none ∧ ∃ r, WellFormedResponse r ∧ t.ports.responses = s.ports.responses ++ [r]

theorem State.respond_answeredOnce {s u : State} (h : u.ports.responses = s.ports.responses) (d : Word32) :
    s.AnsweredOnce (u.respond d) :=
  ⟨rfl, _, wellFormedResponse_completion d, by rw [respond_ports, h]⟩

theorem State.faultEntry_answeredOnce {s u : State} (h : u.ports.responses = s.ports.responses) (e : ErrCode)
    (opc : OpcodeField) : s.AnsweredOnce (u.faultEntry e opc) :=
  ⟨by rw [faultEntry_ports], _, wellFormedResponse_error e, by rw [faultEntry_ports, h]⟩

theorem State.blocked_answeredOnce (s : State) : s.AnsweredOnce s.blocked :=
  ⟨rfl, _, wellFormedResponse_error .blocked, rfl⟩

/-- A command holds and changes nothing, or is answered once. -/
theorem exec_holds_or_answers {i : Instr} {s t : State} (h : exec i s = .next t) : t = s ∨ s.AnsweredOnce t := by
  rcases exec_next h with ⟨-, -, rfl⟩ | ⟨-, ⟨d, u, hu, rfl⟩ | ⟨e, u, hu, rfl⟩ | ⟨u, -, rfl⟩⟩
  · exact .inr s.blocked_answeredOnce
  · exact .inr (State.respond_answeredOnce (body_ok_responses hu) d)
  · exact .inr (State.faultEntry_answeredOnce (body_raise hu).1.responses e _)
  · exact .inl rfl

/-- A word that is no command is answered in any case: it is blocked, or it is illegal (60_exceptions.md R203). -/
theorem illegalWord_answers (w : Word64) (s : State) : ∃ t, illegalWord w s = .next t ∧ s.AnsweredOnce t := by
  unfold illegalWord
  split
  · exact ⟨_, rfl, s.blocked_answeredOnce⟩
  · exact ⟨_, rfl, State.faultEntry_answeredOnce rfl .illegal _⟩

/-- The model refuses no command. -/
theorem exec_not_refused (i : Instr) (s : State) (r : Refusal) : exec i s ≠ .refused r := by
  rw [exec_eq]
  split
  · exact nofun
  · exact runCommand_not_refused _ _ s r

theorem runWord_not_refused (w : Word64) (s : State) (r : Refusal) : runWord w s ≠ .refused r := by
  cases hd : decode w with
  | ok i => rw [runWord_ok hd]; exact exec_not_refused i s r
  | error e =>
    obtain ⟨t, ht, -⟩ := illegalWord_answers w s
    rw [runWord_error hd, ht]
    exact nofun

theorem runWord_holds_or_answers {w : Word64} {s t : State} (h : runWord w s = .next t) : t = s ∨ s.AnsweredOnce t := by
  cases hd : decode w with
  | ok i => rw [runWord_ok hd] at h; exact exec_holds_or_answers h
  | error e =>
    obtain ⟨u, hu, hanswer⟩ := illegalWord_answers w s
    rw [runWord_error hd, hu] at h
    cases h
    exact .inr hanswer

/-- Settles O12: of the ways a word can end, every one but the hold writes one response, at the end. -/
theorem oneResponse : Obligations.OneResponse := by
  refine fun w s => ⟨runWord_not_refused w s, fun t h => (runWord_holds_or_answers h).imp_right ?_⟩
  rintro ⟨hfree, r, ⟨err, code, data, rfl, hok, herr⟩, hresp⟩
  exact ⟨hfree, err, code, data, hresp, hok, herr⟩

end Sys2Proof.Machine
end

section
/-! PROOFS. The sample encodings and the pseudo-instructions (30_encoding.md R96, R97). -/

namespace Sys2Proof.Machine

/-! ### Pseudo-instructions (30_encoding.md R96) -/

/-- Lines with the same check and the same commands assemble alike. -/
theorem assemble_congr {l l' : AsmLine} (hfits : l.wellFormed = l'.wellFormed) (hcmds : l.commands = l'.commands) :
    assemble l = assemble l' := by
  rw [assemble, assemble, hfits, hcmds]

/-- Settles O6: the operands that an expansion adds fit their fields, so that the line's own operand decides. -/
theorem pseudoExpansions : Obligations.PseudoExpansions := by
  refine ⟨rfl, fun b => assemble_congr ?_ rfl, fun n => assemble_congr ?_ rfl, fun m => assemble_congr ?_ rfl, rfl, rfl⟩
  · show fitsOperand b = (fitsOperand b && fitsOperand 1 && fitsOperand 256)
    rw [show fitsOperand 1 = true from rfl, show fitsOperand 256 = true from rfl, Bool.and_true, Bool.and_true]
  · rfl
  · rfl

/-! ### Sample encodings (30_encoding.md R97) -/

/-- `RC_ENCODE` of operands that are no interval of the total (40_rangecoder.md R110). With a total of 0 an earlier check raises
the same error. -/
theorem exec_rcEncode_badInterval {start size total : Operand} {s : State} (hs : s.fault.raised = false)
    (hmode : s.coder.mode = .enc) (hbad : intervalFits start.toNat size.toNat total.toNat = false) :
    exec (.rcEncode start size total) s = .next (s.faultEntry .arg Opc.rcEncode) := by
  have hbody : (body (.rcEncode start size total)).run s = .error (.raise .arg) s := by
    simp only [body, EStateM.run_bind, EStateM.run_get, check_run, hmode, hbad, beq_self_eq_true, if_true]
    cases total != 0 <;> rfl
  rw [exec_clear hs]
  exact runCommand_raise hbody

/-- Settles O5: the table by computation; the size 0 of the last word but one makes its interval empty, and bit 0 of the last is
stray. -/
theorem sampleEncodings : Obligations.SampleEncodings := by
  have hempty : decode 0x2400000000000001 = .ok (.rcEncode 0 0 1) := by decide
  have hstray : decode 0x2000000000000001 = .error (.strayBits Opc.rcInitEnc) := by decide
  refine ⟨by decide, hempty, fun s hs hmode => ?_, fun s hs => ?_⟩
  · rw [runWord_ok hempty]
    exact exec_rcEncode_badInterval hs hmode rfl
  · rw [runWord_error hstray]
    exact illegalWord_runs (.inl hs)

end Sys2Proof.Machine
end

section
/-! PROOFS. The range coder's commands as their checks, in their order, before the primitive that they run (40_rangecoder.md R110 to
R114, 60_exceptions.md R203). -/

namespace Sys2Proof.Machine

section

variable {β : Type}

theorem get_bind_run (k : State → Act β) (s : State) : (get >>= k : Act β).run s = (k s).run s := by
  rw [EStateM.run_bind, EStateM.run_get]

theorem check_bind_run (e : ErrCode) (ok : Bool) (k : Unit → Act β) (s : State) :
    (check e ok >>= k).run s = if ok = true then (k ()).run s else .error (.raise e) s := by
  cases ok
  · exact act_bind_of_error (check_false e s)
  · exact act_bind_of_ok (check_true e s)

end

theorem operand_pos {x : Operand} (h : x ≠ 0) : 1 ≤ x.toNat :=
  Nat.pos_of_ne_zero fun h0 => h (BitVec.eq_of_toNat_eq h0)

/-- No interval lies inside a total of 0. -/
theorem total_ne_zero_of_fits {start size : Nat} {total : Operand} (h : intervalFits start size total.toNat = true) :
    (total != 0) = true := by
  obtain ⟨-, hlt, -⟩ := (fits_iff _ _ _).mp h
  rw [bne_iff_ne]
  rintro rfl
  exact Nat.not_lt_zero _ hlt

/-- The interval check in the statements' terms (40_rangecoder.md R105). -/
theorem intervalFits_iff {start size total : Nat} :
    intervalFits start size total = true ↔ 1 ≤ size ∧ start + size ≤ total := by
  rw [fits_iff]
  omega

/-- The checks of `RC_ENCODE`: a total of 0 raises the same error as every other triple that is no interval (R110). -/
theorem body_rcEncode_run (start size total : Operand) (s : State) :
    (body (.rcEncode start size total)).run s =
      if s.coder.mode = .enc then
        if intervalFits start.toNat size.toNat total.toNat = true then
          (do rcEncode start.toNat size.toNat total.toNat; return 0 : Act Word32).run s
        else .error (.raise .arg) s
      else .error (.raise .seq) s := by
  rw [body, get_bind_run, check_bind_run, check_bind_run, check_bind_run]
  simp only [beq_iff_eq]
  by_cases hfit : intervalFits start.toNat size.toNat total.toNat = true
  · rw [if_pos (total_ne_zero_of_fits hfit)]
  · rw [if_neg hfit, ite_self]

/-- The check of `RC_FLUSH` (R111). -/
theorem body_rcFlush_run (s : State) :
    (body .rcFlush).run s =
      if s.coder.mode = .enc then
        (do shiftLowTimes 5; modify (State.withCoder fun c => { c with mode := .idle })
            return (← get).events.cntOut : Act Word32).run s
      else .error (.raise .seq) s := by
  rw [body, get_bind_run, check_bind_run]
  simp only [beq_iff_eq]
  rfl

/-- The checks of `RC_GETFREQ` (R113). -/
theorem body_rcGetFreq_run (total : Operand) (s : State) :
    (body (.rcGetFreq total)).run s =
      if s.coder.mode = .dec ∧ s.coder.dpend = false then
        if total = 0 then .error (.raise .arg) s
        else (do let v ← rcGetFreq total.toNat; return BitVec.ofNat 32 v : Act Word32).run s
      else .error (.raise .seq) s := by
  rw [body, get_bind_run, check_bind_run, check_bind_run]
  simp only [Bool.and_eq_true, beq_iff_eq, Bool.not_eq_true', bne_iff_ne, ne_eq, ite_not]

/-- The checks of `RC_UPDATE` (R114). -/
theorem body_rcUpdate_run (start size : Operand) (s : State) :
    (body (.rcUpdate start size)).run s =
      if s.coder.mode = .dec ∧ s.coder.dpend = true then
        if intervalFits start.toNat size.toNat s.coder.dtot.toNat = true then
          if codePointInside start.toNat size.toNat s.coder.range.toNat s.coder.code.toNat = true then
            (do rcUpdate start.toNat size.toNat; return 0 : Act Word32).run s
          else .error (.raise .desync) s
        else .error (.raise .arg) s
      else .error (.raise .seq) s := by
  rw [body, get_bind_run, check_bind_run, check_bind_run, check_bind_run]
  simp only [Bool.and_eq_true, beq_iff_eq]

/-- A command that raises before it has written anything. -/
theorem exec_refused {i : Instr} {s : State} {e : ErrCode} (hs : s.fault.raised = false)
    (h : (body i).run s = .error (.raise e) s) : exec i s = .next (s.faultEntry e i.opcode) := by
  rw [exec_clear hs]
  exact runCommand_raise h

end Sys2Proof.Machine
end

section
/-! PROOFS. The encode side: `ShiftLow`, `RC_INIT_ENC`, `RC_ENCODE` and `RC_FLUSH`, where they complete and where they trap
(40_rangecoder.md R103 to R105, R109 to R111). -/

namespace Sys2Proof.Machine

/-! ### RC_INIT_ENC (40_rangecoder.md R109) -/

theorem exec_rcInitEnc {s : State} (hs : s.fault.raised = false) :
    exec .rcInitEnc s =
      .next (((s.withCoder fun _ => Coder.startEncode).withEvents fun v => { v with cntOut := 0 }).respond 0) := by
  rw [exec_clear hs]
  exact runCommand_ok rfl

/-- Settles O34: the command has no check, and writes the whole coder and `CNT_OUT`. -/
theorem initEncodeResult : Obligations.InitEncodeResult := by
  intro s hs
  rw [exec_rcInitEnc hs]
  rfl

/-! ### ShiftLow, case by case (40_rangecoder.md R103) -/

/-- A `ShiftLow` that settles the run sends it and holds the byte shifted out. -/
theorem State.shifted_of_settled {s : State} (h : s.coder.runSettled = true) :
    s.shifted.coder = { s.coder with
      drop := false, cacheSize := 1, cache := s.coder.low.extractLsb' 24 8,
      low := 0#1 ++ s.coder.low.extractLsb' 0 24 ++ 0#8 } ∧
    s.shifted.ports.output = s.ports.output ++ s.coder.runBytes := by
  obtain ⟨hcoder, -, -, -, hports, -⟩ := State.releaseRun_spec s
  rw [State.shifted, if_pos h]
  refine ⟨?_, by rw [State.withCoder_ports, hports]⟩
  rw [State.withCoder_coder, hcoder]
  rfl

/-- A `ShiftLow` that does not holds one byte more. -/
theorem State.shifted_of_unsettled {s : State} (h : ¬ s.coder.runSettled = true) : s.shifted = s.withCoder Coder.pushByte := by
  rw [State.shifted, if_neg h]

/-- Settles O35: the run is settled exactly in the first case. -/
theorem shiftLowRule : Obligations.ShiftLowRule := by
  intro s carry hcarry
  have hlow := s.coder.low.isLt
  have hbit : (s.coder.low.extractLsb' 32 1).setWidth 8 = carry :=
    BitVec.eq_of_toNat_eq ((carry_toNat _).trans hcarry.symm)
  have hone : carry = 1 ↔ 2 ^ 32 ≤ s.coder.low.toNat := by
    rw [← BitVec.toNat_inj, hcarry, show (1 : Byte).toNat = 1 from rfl]
    omega
  have hsettled := Coder.runSettled_iff s.coder
  rw [← hone] at hsettled
  have hunsettled : 0xFF000000 ≤ s.coder.low.toNat % 2 ^ 32 → carry = 0 → ¬ s.coder.runSettled = true := by
    rintro hle rfl h
    rcases hsettled.mp h with h | h
    · omega
    · exact absurd h (by decide)
  refine ⟨fun h => ?_, fun hle h0 hroom => ?_, fun hle h0 hfull => ?_⟩
  · have hset := hsettled.mpr h
    obtain ⟨hcoder, hout⟩ := State.shifted_of_settled hset
    refine ⟨s.shifted, by rw [shiftLow_run, if_pos (.inl hset)], s.shifted_frame, s.shifted_range, by rw [hcoder], ?_,
      by rw [hcoder], s.shifted_low, ?_⟩
    · rw [hcoder]; exact topByte_toNat _
    · rw [hout, Coder.runBytes, hbit, List.append_assoc]
      rfl
  · have hshift := State.shifted_of_unsettled (hunsettled hle h0)
    have hcount : s.coder.cacheSize.toNat ≠ 0xFFFFFFFF := fun h => hroom (BitVec.eq_of_toNat_eq h)
    have hlt := s.coder.cacheSize.isLt
    refine ⟨s.shifted, by rw [shiftLow_run, if_pos (.inr hroom)], s.shifted_frame, s.shifted_range, by rw [hshift]; rfl,
      by rw [hshift]; rfl, ?_, s.shifted_low, by rw [hshift]; rfl⟩
    rw [hshift]
    show (s.coder.cacheSize + 1).toNat = _
    rw [BitVec.toNat_add, show (1 : Word32).toNat = 1 from rfl]
    omega
  · rw [shiftLow_run, if_neg]
    rintro (h | h)
    · exact hunsettled hle h0 h
    · exact h hfull

/-! ### RC_ENCODE (40_rangecoder.md R105, R110) -/

section Encode

variable {start size total : Operand} {s t : State}

theorem exec_rcEncode_ok (hs : s.fault.raised = false) (hm : s.coder.mode = .enc)
    (hfit : intervalFits start.toNat size.toNat total.toNat = true)
    (h : (rcEncode start.toNat size.toNat total.toNat).run s = .ok () t) :
    exec (.rcEncode start size total) s = .next (t.respond 0) := by
  rw [exec_clear hs]
  apply runCommand_ok
  rw [body_rcEncode_run, if_pos hm, if_pos hfit, act_bind_of_ok h, EStateM.run_pure]

theorem exec_rcEncode_raise (hs : s.fault.raised = false) (hm : s.coder.mode = .enc)
    (hfit : intervalFits start.toNat size.toNat total.toNat = true) {e : ErrCode}
    (h : (rcEncode start.toNat size.toNat total.toNat).run s = .error (.raise e) t) :
    exec (.rcEncode start size total) s = .next (t.faultEntry e Opc.rcEncode) := by
  rw [exec_clear hs]
  apply runCommand_raise
  rw [body_rcEncode_run, if_pos hm, if_pos hfit, act_bind_of_error h]

end Encode

/-- Only `LOW` changes. -/
def Coder.setLow (low : BitVec 33) (c : Coder) : Coder := { c with low := low }

/-- The shifts after a narrowing do not read the narrowed `RANGE`: they are those from the old `RANGE` with the new `LOW`. -/
theorem shiftLowTimes_narrowed {start size total k : Nat} {s v : State}
    (h : (shiftLowTimes k).run (s.withCoder (Coder.narrow start size total)) = .ok () v) :
    (shiftLowTimes k).run (s.withCoder (Coder.setLow (s.coder.narrow start size total).low)) =
      .ok () (v.withCoder (Coder.setRange s.coder.range)) :=
  shiftLowTimes_setRange h s.coder.range

/-- Such shifts write what the encode primitives write. -/
theorem shiftLowTimes_setLow_frame {low : BitVec 33} {k : Nat} {s u : State}
    (h : (shiftLowTimes k).run (s.withCoder (Coder.setLow low)) = .ok () u) : EncodeFrame s u :=
  EncodeFrame.trans _ _ _ (withCoder_encodeFrame (f := Coder.setLow low) (fun _ => ⟨rfl, rfl, rfl, rfl⟩) s)
    ((shiftLowTimes_frame k).of_ok h)

/-- Settles O37: with room for 3 more held bytes no shift of the normalisation raises. -/
theorem encodeResult : Obligations.EncodeResult := by
  intro start size total s hs hm h1 hfit hrange hcarry hroom
  rcases rcEncode_spec hcarry hrange total.isLt h1 hfit with ⟨k, t, hk, hrun, hnorm⟩ | ⟨hfull, -⟩
  · obtain ⟨-, hlow, hr⟩ := hcarry.narrowed hfit
    obtain ⟨v, hv, ht⟩ := hnorm.shifts
    have hshifts := shiftLowTimes_narrowed hv
    have hwide := hnorm.widened
    rw [State.withCoder_coder, hr] at hwide
    refine ⟨k, v.withCoder (Coder.setRange s.coder.range), (s.coder.narrow start.toNat size.toNat total.toNat).low,
      t.coder.range, hk, hlow, hwide, hshifts, ?_, shiftLowTimes_setLow_frame hshifts⟩
    have hexec := exec_rcEncode_ok hs hm (intervalFits_iff.mpr ⟨h1, hfit⟩) hrun
    rw [ht] at hexec
    exact hexec
  · exact absurd hroom hfull

/-- A command that runs and ends with no fault recorded has not raised. -/
theorem exec_unfaulted {i : Instr} {s t : State} (h : exec i s = .next t) (ht : t.fault.raised = false)
    (hs : s.fault.raised = false) :
    (∃ d u, (body i).run s = .ok d u ∧ t = u.respond d) ∨ ∃ u, (body i).run s = .error .hold u ∧ t = s := by
  rcases exec_next h with ⟨hr, -, -⟩ | ⟨-, hok | ⟨e, u, -, rfl⟩ | hhold⟩
  · rw [hs] at hr; cases hr
  · exact .inl hok
  · rw [State.faultEntry_fault] at ht
    split at ht
    · rename_i hr; rw [hr] at ht; cases ht
    · cases ht
  · exact .inr hhold

/-- What a completed `RC_ENCODE` does to the coder, `k` being the number of its shifts (40_rangecoder.md R105, R117, R118). -/
structure Narrowed (s t : State) (start size total k : Nat) : Prop where
  number : t.codeNumber = (s.codeNumber + start * (s.coder.range.toNat / total)) * 256 ^ k
  width : t.coder.range.toNat = s.coder.range.toNat / total * size * 256 ^ k
  widened : Widened (s.coder.range.toNat / total * size) k t.coder.range.toNat
  carrySafe : t.coder.CarrySafe
  byteCount : t.byteCount = s.byteCount + k

theorem rcEncode_narrowed {s : State} (h : s.coder.CarrySafe) (hr : Config.thresh ≤ s.coder.range.toNat) {start size total : Nat}
    (ht : total < 2 ^ 17) (h1 : 1 ≤ size) (hfit : start + size ≤ total) {t : State}
    (hrun : (rcEncode start size total).run s = .ok () t) : ∃ k, k ≤ 3 ∧ Narrowed s t start size total k := by
  rcases rcEncode_spec h hr ht h1 hfit with ⟨k, u, hk, hu, hnorm⟩ | ⟨-, u, hu⟩ <;> rw [hrun] at hu <;> cases hu
  obtain ⟨hsafe, -, hrange⟩ := h.narrowed hfit
  obtain ⟨v, hv, ht'⟩ := hnorm.shifts
  have hwide := hnorm.widened
  have hnumber := hnorm.number
  rw [State.withCoder_coder, hrange] at hwide
  rw [State.narrow_codeNumber h hfit] at hnumber
  have h64 := (unit_pos hr ht h1 (by omega)).2.1
  have hcount := shiftLowTimes_byteCount (hsafe.fits (by omega)) hv
  exact ⟨k, hk, hnumber, hwide.value, hwide, hnorm.carrySafe, by rw [ht']; exact hcount⟩

/-- Settles O38: with no fault recorded at the end the encode has completed, and a completed encode narrows the interval. -/
theorem encodeNarrows : Obligations.EncodeNarrows := by
  intro start size total s t hs hm h1 hfit hrange hcarry hexec ht
  rcases exec_unfaulted hexec ht hs with ⟨d, u, hu, rfl⟩ | ⟨u, hu, -⟩
  · obtain ⟨-, -, -, -, hrun⟩ := body_ok hu
    obtain ⟨k, hk, hn⟩ := rcEncode_narrowed hcarry hrange total.isLt h1 hfit hrun
    exact ⟨k, hk, hn.number, hn.width, hn.widened.enough, hn.carrySafe⟩
  · have hno := body_stops (.rcEncode start size total) s _ u hu
    simp [mayStop, Stop.encoding] at hno

/-! ### RC_FLUSH (40_rangecoder.md R111, R122) -/

theorem shiftLowTimes_range {n : Nat} {s t : State} (h : (shiftLowTimes n).run s = .ok () t) : t.coder.range = s.coder.range := by
  have hsame := shiftLowTimes_setRange h s.coder.range
  rw [State.setRange_same, h] at hsame
  injection hsame with _ hsame
  rw [hsame]
  rfl

theorem exec_rcFlush_ok {s v : State} (hs : s.fault.raised = false) (hm : s.coder.mode = .enc)
    (h : (shiftLowTimes 5).run s = .ok () v) :
    exec .rcFlush s = .next ((v.withCoder fun c => { c with mode := .idle }).respond v.events.cntOut) := by
  rw [exec_clear hs]
  apply runCommand_ok
  rw [body_rcFlush_run, if_pos hm, act_bind_of_ok h]
  rfl

/-- The shifts of a flush send the held bytes and four more, and then every byte is out. -/
theorem flushed_bytes {s v : State} (h : s.coder.CarryFits) (hrun : (shiftLowTimes 5).run s = .ok () v) :
    bytesNumber v.ports.output = s.codeNumber ∧ v.ports.output.length = s.byteCount + 4 := by
  obtain ⟨hsize, -, hdrop, -⟩ := shiftLowTimes_five hrun
  have hheld : v.coder.heldBytes = 1 := by rw [Coder.heldBytes, Coder.buffered, hsize, hdrop]; rfl
  have hcount := shiftLowTimes_byteCount h hrun
  rw [State.byteCount, hheld] at hcount
  exact ⟨flushed_output h hrun, by omega⟩

/-- `RC_MODE` after a flush is written last, and no shift reads it. -/
theorem EncodeFrame.withMode {s v : State} (h : EncodeFrame s v) (m : RcMode) :
    EncodeFrame (s.withCoder fun c => { c with mode := m }) (v.withCoder fun c => { c with mode := m }) :=
  { h with mode := rfl }

/-- Settles O39: with room for 5 more held bytes no shift raises, and the five shifts send all but one `0x00`. -/
theorem flushResult : Obligations.FlushResult := by
  intro s hs hm hrange hcarry hroom
  have hfits := hcarry.fits (Nat.le_trans (by decide) hrange)
  rcases shiftLowTimes_spec 5 hfits with ⟨v, hv, -⟩ | ⟨hfull, -⟩
  · obtain ⟨hsize, hcache, hdrop, hlow⟩ := shiftLowTimes_five hv
    obtain ⟨hnumber, hlength⟩ := flushed_bytes hfits hv
    have hframe := (shiftLowTimes_frame 5).of_ok hv
    obtain ⟨sent, hsent, -⟩ := hframe.output
    refine ⟨v.withCoder fun c => { c with mode := .idle }, sent, exec_rcFlush_ok (v := v) hs hm hv, hframe.withMode .idle,
      shiftLowTimes_range (t := v) hv, BitVec.eq_of_toNat_eq hlow, hcache, hsize, hdrop, hsent, ?_, hnumber⟩
    rw [hsent, List.length_append, State.byteCount] at hlength
    omega
  · exact absurd hroom hfull

/-! ### Where the encode side traps (40_rangecoder.md R103, R104, R110, R111, 60_exceptions.md R206) -/

/-- `RC_FLUSH` where the shift after `j` others finds the count of held bytes full. -/
theorem exec_rcFlush_overflow {s u : State} {j : Nat} (hs : s.fault.raised = false) (hm : s.coder.mode = .enc) (hj : j < 5)
    (hrun : (shiftLowTimes j).run s = .ok () u) (hfull : u.coder.full) :
    exec .rcFlush s = .next (u.faultEntry .ovf Opc.rcFlush) := by
  rw [exec_clear hs]
  apply runCommand_raise
  rw [body_rcFlush_run, if_pos hm, act_bind_of_error (shiftLowTimes_overflow hrun hfull hj)]

/-- `rc_encode` where the shift after `j` others finds the count of held bytes full: `LOW` is narrowed, `RANGE` widened for the
shift that failed too. -/
theorem rcEncode_overflow {s u : State} {start size total j : Nat} {low : BitVec 33} (hfit : start + size ≤ total) (hj : j < 3)
    (hlow : low.toNat = s.coder.low.toNat + start * (s.coder.range.toNat / total))
    (hshort : s.coder.range.toNat / total * size * 256 ^ j < Config.thresh)
    (hrun : (shiftLowTimes j).run (s.withCoder (Coder.setLow low)) = .ok () u) (hfull : u.coder.full) :
    ∃ range : Word32, range.toNat = s.coder.range.toNat / total * size * 256 ^ (j + 1) ∧
      (rcEncode start size total).run s = .error (.raise .ovf) (u.withCoder (Coder.setRange range)) := by
  have hnarrowLow : (s.coder.narrow start size total).low = low :=
    BitVec.eq_of_toNat_eq (by
      show (BitVec.ofNat 33 _).toNat = _
      rw [BitVec.toNat_ofNat, ← hlow, Nat.mod_eq_of_lt low.isLt])
  have hnarrowRange : (s.coder.narrow start size total).range.toNat = s.coder.range.toNat / total * size := by
    have hle : s.coder.range.toNat / total * size ≤ s.coder.range.toNat :=
      Nat.le_trans (Nat.mul_le_mul_left _ (by omega)) (Nat.div_mul_le_self _ total)
    show (BitVec.ofNat 32 _).toNat = _
    rw [BitVec.toNat_ofNat, Nat.mod_eq_of_lt (Nat.lt_of_le_of_lt hle s.coder.range.isLt)]
  have hstart : (s.withCoder (Coder.setLow low)).withCoder (Coder.setRange (s.coder.narrow start size total).range) =
      s.withCoder (Coder.narrow start size total) := by
    rw [← hnarrowLow]; rfl
  have hshifts := shiftLowTimes_setRange hrun (s.coder.narrow start size total).range
  rw [hstart] at hshifts
  have hover := encNormalizeLoop_overflow (fuel := 3) hshifts hfull hj (by rw [State.withCoder_coder, hnarrowRange]; exact hshort)
  rw [State.withCoder_coder, hnarrowRange] at hover
  refine ⟨_, ?_, hover⟩
  rw [BitVec.toNat_ofNat, Nat.pow_succ, ← Nat.mul_assoc]
  simp only [Config.thresh] at hshort
  omega

/-- `CM_ENCODE` of a symbol that the active record codes, where its `rc_encode` raises (41_contextmodel.md R151, R159). -/
theorem exec_cmEncode_raise {sym : Operand} {a : Sym} {x : Context} {s t : State} {e : ErrCode} (hs : s.fault.raised = false)
    (hm : s.model.mode = .enc) (hc : s.coder.mode = .enc) (hsym : sym.toNat = a.val)
    (hx : s.model.arena.read s.model.active.toNat = some x) (hfreq : x.freq[a] ≠ 0)
    (h : (rcEncode (x.cum a.val) (x.freq[a]).toNat x.total).run s = .error (.raise e) t) :
    exec (.cmEncode sym) s = .next (t.faultEntry e Opc.cmEncode) := by
  have hencode := modelEncode_run hx hfreq
  rw [h] at hencode
  rw [exec_clear hs]
  apply runCommand_raise
  rw [body, get_bind_run, check_bind_run, if_pos (by rw [hm, hc]; rfl), symOperand_some.mpr hsym]
  exact act_bind_of_error hencode

/-- Settles O36: the checks come first; then a full count stops the flush and the normalisation at the shift that finds it. -/
theorem encodeSideTraps : Obligations.EncodeSideTraps := by
  intro start size total s hs
  refine ⟨fun hm => ?_, fun hm hbad => ?_, fun hm => ?_, fun j u hm hj hrun hsize hlo hhi => ?_,
    fun j low u hm h1 hfit hj hlow hshort hrun hsize hlo hhi => ?_⟩
  · exact exec_refused hs (by rw [body_rcEncode_run, if_neg hm])
  · refine exec_rcEncode_badInterval hs hm (Bool.eq_false_iff.mpr fun hfit => ?_)
    obtain ⟨hb, hlt, hle⟩ := (fits_iff _ _ _).mp hfit
    rcases hbad with rfl | rfl | h | h
    · exact absurd hlt (Nat.not_lt_zero _)
    · exact hb rfl
    · omega
    · omega
  · exact exec_refused hs (by rw [body_rcFlush_run, if_neg hm])
  · exact ⟨(shiftLowTimes_frame j).of_ok hrun,
      exec_rcFlush_overflow hs hm hj hrun ((Coder.full_iff _).mpr ⟨hsize, hlo, hhi⟩)⟩
  · obtain ⟨range, hrange, hover⟩ :=
      rcEncode_overflow hfit hj hlow hshort hrun ((Coder.full_iff _).mpr ⟨hsize, hlo, hhi⟩)
    refine ⟨range, hrange, shiftLowTimes_setLow_frame hrun, exec_rcEncode_raise hs hm (intervalFits_iff.mpr ⟨h1, hfit⟩) hover,
      fun sym a x hmode hsym hx hfreq hcum hfrequency htotal => ?_⟩
    rw [hcum, hfrequency, htotal] at hover
    exact exec_cmEncode_raise hs hmode hm hsym hx hfreq hover

end Sys2Proof.Machine
end

section
/-! PROOFS. The decode side: `RC_INIT_DEC`, `RC_GETFREQ` and `RC_UPDATE`, where they complete, hold and trap (40_rangecoder.md R107,
R108, R112 to R114). -/

namespace Sys2Proof.Machine

/-! ### RC_INIT_DEC (40_rangecoder.md R112) -/

/-- A byte behind a word is the word's next digit (20_memory.md R62). -/
theorem append_byte_toNat {w : Nat} (x : BitVec w) (b : Byte) : (x ++ b).toNat = x.toNat * 256 + b.toNat := by
  rw [BitVec.toNat_append, ← Nat.shiftLeft_add_eq_or_of_lt b.isLt, Nat.shiftLeft_eq]

/-- Four bytes as one word, the first one on top. -/
theorem bytesNumber_four (b0 b1 b2 b3 : Byte) : bytesNumber [b0, b1, b2, b3] = (b0 ++ b1 ++ b2 ++ b3).toNat := by
  simp only [append_byte_toNat, bytesNumber, List.foldl_cons, List.foldl_nil]
  omega

/-- The decode side set up, before the first 4 bytes are read. -/
def State.startDecode (s : State) : State :=
  (s.withCoder Coder.startDecode).withEvents fun v => { v with cntIn := 0, cntZfill := 0, zfill := false }

/-- What `RC_INIT_DEC` leaves, before its response. -/
def State.decodeStarted (s : State) : State :=
  ((s.startDecode.afterReads 4).withCoder (Coder.shiftIn (s.nextBytes 4))).withCoder fun c => { c with mode := .dec }

theorem body_rcInitDec_run (s : State) :
    (body .rcInitDec).run s =
      (do shiftInBytes 4; modify (State.withCoder fun c => { c with mode := .dec }); return 0 : Act Word32).run s.startDecode :=
  rfl

theorem body_rcInitDec_ready {s : State} (h : s.inputReady 4) : (body .rcInitDec).run s = .ok 0 s.decodeStarted := by
  have hread : (shiftInBytes 4).run s.startDecode = _ := shiftInBytes_ready 4 h
  rw [body_rcInitDec_run, act_bind_of_ok hread]
  rfl

theorem body_rcInitDec_starved {s : State} (h : ¬ s.inputReady 4) : ∃ t, (body .rcInitDec).run s = .error .hold t := by
  obtain ⟨t, ht⟩ := shiftInBytes_starved 4 (s := s.startDecode) h
  exact ⟨t, by rw [body_rcInitDec_run, act_bind_of_error ht]⟩

theorem exec_rcInitDec_ready {s : State} (hs : s.fault.raised = false) (h : s.inputReady 4) :
    exec .rcInitDec s = .next (s.decodeStarted.respond 0) := by
  rw [exec_clear hs]
  exact runCommand_ok (body_rcInitDec_ready h)

theorem exec_rcInitDec_starved {s : State} (hs : s.fault.raised = false) (h : ¬ s.inputReady 4) : exec .rcInitDec s = .next s := by
  obtain ⟨t, ht⟩ := body_rcInitDec_starved h
  rw [exec_clear hs]
  exact runCommand_hold ht

/-- The coder after `RC_INIT_DEC`: the 4 bytes are `CODE`. -/
theorem State.decodeStarted_coder {s : State} {b0 b1 b2 b3 : Byte} (h : s.nextBytes 4 = [b0, b1, b2, b3]) :
    s.decodeStarted.coder = { Coder.reset with mode := .dec, code := b0 ++ b1 ++ b2 ++ b3 } := by
  have hcode : BitVec.ofNat 32 ((0 : Word32).toNat * 256 ^ [b0, b1, b2, b3].length + bytesNumber [b0, b1, b2, b3]) =
      b0 ++ b1 ++ b2 ++ b3 := by
    apply BitVec.eq_of_toNat_eq
    rw [bytesNumber_four, BitVec.toNat_ofNat, show (0 : Word32).toNat = 0 from rfl, Nat.zero_mul, Nat.zero_add,
      Nat.mod_eq_of_lt (BitVec.isLt _)]
  rw [← hcode, ← h]
  rfl

/-- Settles O40: the command holds exactly where its 4 reads do, and the bytes read are `CODE`. -/
theorem initDecodeResult : Obligations.InitDecodeResult := by
  intro s b0 b1 b2 b3 hs
  refine ⟨fun hready hbytes => ?_, exec_rcInitDec_starved hs⟩
  obtain ⟨-, -, hevents⟩ := rcInitDec_ok_counts (body_rcInitDec_ready hready)
  rw [exec_rcInitDec_ready hs hready]
  congr 1
  apply State.eq_of_parts
  · exact State.decodeStarted_coder hbytes
  · rfl
  · rfl
  · rfl
  · exact hevents
  · rfl

/-! ### RC_GETFREQ (40_rangecoder.md R107, R113) -/

/-- A query with a per-unit value that is not 0. -/
theorem exec_rcGetFreq_ok {total : Operand} {s : State} (hs : s.fault.raised = false) (hm : s.coder.mode = .dec)
    (hd : s.coder.dpend = false) (h0 : total ≠ 0) (hle : total.toNat ≤ s.coder.range.toNat) :
    exec (.rcGetFreq total) s = .next (s.queriedAt total.toNat) := by
  have hunit : s.coder.range.toNat / total.toNat ≠ 0 := (Nat.div_pos hle (operand_pos h0)).ne'
  rw [exec_clear hs]
  apply runCommand_ok
  rw [body_rcGetFreq_run, if_pos ⟨hm, hd⟩, if_neg h0, EStateM.run_bind, rcGetFreq_run, if_neg hunit]
  rfl

/-- Settles O41: with `TOTAL <= RANGE` the per-unit value is not 0, so nothing stops the query. -/
theorem getFreqResult : Obligations.GetFreqResult := by
  intro total s hs
  refine ⟨fun hm hd h0 hle => ?_, fun hseq => ?_, fun hm hd h0 => ?_⟩
  · have hunit : (BitVec.ofNat 32 (s.coder.range.toNat / total.toNat)).toNat = s.coder.range.toNat / total.toNat :=
      Coder.queried_range (c := s.coder)
    have htotal : BitVec.ofNat 17 total.toNat = total := (BitVec.ofNat_toNat 17 total).trans (BitVec.setWidth_eq total)
    refine ⟨BitVec.ofNat 32 (s.coder.range.toNat / total.toNat),
      BitVec.ofNat 32 (s.coder.code.toNat / (s.coder.range.toNat / total.toNat)), hunit, ?_, ?_⟩
    · rw [hunit, BitVec.toNat_ofNat, Nat.mod_eq_of_lt (Nat.lt_of_le_of_lt (Nat.div_le_self _ _) s.coder.code.isLt)]
    · rw [exec_rcGetFreq_ok hs hm hd h0 hle]
      congr 1
      apply State.eq_of_parts
      · show { s.coder with
          range := BitVec.ofNat 32 (s.coder.range.toNat / total.toNat), dtot := BitVec.ofNat 17 total.toNat, dpend := true } = _
        rw [htotal]
      all_goals rfl
  · refine exec_refused hs ?_
    rw [body_rcGetFreq_run, if_neg]
    rintro ⟨hm, hd⟩
    rcases hseq with h | h
    · exact h hm
    · rw [hd] at h; cases h
  · exact exec_refused hs (by rw [body_rcGetFreq_run, if_pos ⟨hm, hd⟩, if_pos h0])

/-! ### RC_UPDATE (40_rangecoder.md R108, R114) -/

/-- The registers an update of `k` rounds leaves, where nothing is truncated (40_rangecoder.md R119, R120). -/
theorem State.updated_coder {s : State} {start size k : Nat} (hfit : s.coder.range.toNat * size * 256 ^ k < 2 ^ 32)
    (hlo : start * s.coder.range.toNat ≤ s.coder.code.toNat) (hhi : s.coder.code.toNat < (start + size) * s.coder.range.toNat) :
    (s.updated start size k).coder.range.toNat = s.coder.range.toNat * size * 256 ^ k ∧
    (s.updated start size k).coder.code.toNat =
      (s.coder.code.toNat - start * s.coder.range.toNat) * 256 ^ k + bytesNumber (s.nextBytes k) := by
  have hwidth : s.coder.range.toNat * size < 2 ^ 32 :=
    Nat.lt_of_le_of_lt (Nat.le_mul_of_pos_right _ (Nat.pow_pos (by decide))) hfit
  have hrange : (s.withCoder (Coder.takeInterval start size)).coder.range.toNat = s.coder.range.toNat * size := by
    show (BitVec.ofNat 32 _).toNat = _
    rw [BitVec.toNat_ofNat, Nat.mod_eq_of_lt hwidth]
  have hcode : (s.withCoder (Coder.takeInterval start size)).coder.code.toNat =
      s.coder.code.toNat - start * s.coder.range.toNat := by
    show (BitVec.ofNat 32 _).toNat = _
    rw [BitVec.toNat_ofNat, Nat.mod_eq_of_lt (Nat.lt_of_le_of_lt (Nat.sub_le _ _) s.coder.code.isLt)]
  have hin : s.coder.code.toNat - start * s.coder.range.toNat < s.coder.range.toNat * size := by
    have hsplit : (start + size) * s.coder.range.toNat = start * s.coder.range.toNat + s.coder.range.toNat * size := by ring
    omega
  obtain ⟨hr, hc, -⟩ := State.normalized_coder (s := s.withCoder (Coder.takeInterval start size)) (k := k)
    (by rw [hrange, hcode]; exact hin) (by rw [hrange]; exact hfit)
  rw [hrange] at hr
  rw [hcode] at hc
  exact ⟨hr, hc⟩

/-- Settles O42: the rounds are those that bring `r * size` to `THRESH`, and nothing of `CODE` or `RANGE` is cut off. -/
theorem updateResult : Obligations.UpdateResult := by
  intro start size s hs hm hp h1 hfit h64 hwidth hlo hhi
  have hin := (inside_iff _ _ _ _).mpr ⟨hlo, hhi⟩
  obtain ⟨k, hk, hwide, hlt, hok, hno⟩ := rcUpdate_spec (start := start.toNat) h64 h1
    (Nat.lt_of_le_of_lt (Nat.mul_le_mul_left _ (by omega)) hwidth)
  obtain ⟨hrange, hcode⟩ := State.updated_coder hlt hlo hhi
  refine ⟨k, (s.updated start.toNat size.toNat k).coder.code, (s.updated start.toNat size.toNat k).coder.range, hk,
    by rw [hrange]; exact hwide, fun hready => ⟨hcode, ?_⟩, fun hstarved => ?_⟩
  · rw [exec_update hs hm hp h1 hfit hin (hok hready)]
    rfl
  · obtain ⟨t, ht⟩ := hno hstarved
    exact exec_update_hold hs hm hp h1 hfit hin ht

/-- Settles O43: each premise fails one check and passes those before it. -/
theorem updateChecks : Obligations.UpdateChecks := by
  intro start size s hs
  refine ⟨fun hseq => ?_, fun hm hp hbad => ?_, fun hm hp h1 hfit hout => ?_⟩
  · refine exec_refused hs ?_
    rw [body_rcUpdate_run, if_neg]
    rintro ⟨hm, hp⟩
    rcases hseq with h | h
    · exact h hm
    · rw [hp] at h; cases h
  · refine exec_refused hs ?_
    rw [body_rcUpdate_run, if_pos ⟨hm, hp⟩, if_neg]
    intro hfit
    obtain ⟨hb, hlt, hle⟩ := (fits_iff _ _ _).mp hfit
    rcases hbad with rfl | h | h
    · exact hb rfl
    · omega
    · omega
  · refine exec_refused hs ?_
    rw [body_rcUpdate_run, if_pos ⟨hm, hp⟩, if_pos (intervalFits_iff.mpr ⟨h1, hfit⟩), if_neg]
    rw [inside_iff]
    omega

end Sys2Proof.Machine
end

section
/-! PROOFS. The range coder's commands and the context model do not touch each other (40_rangecoder.md R115). -/

namespace Sys2Proof.Machine

/-- Another context model, and another value of `CNT_SYM`. -/
def State.withOtherModel (m : Model) (n : Word32) (s : State) : State :=
  { s with model := m, events := { s.events with cntSym := n } }

/-- The action does the same whatever the model and `CNT_SYM` are, and leaves them. -/
def Act.IgnoresModel {α : Type} (x : Act α) : Prop :=
  ∀ m n, x.Carries (State.withOtherModel m n) (State.withOtherModel m n) (State.withOtherModel m n)

section

variable {α β : Type}

theorem Act.IgnoresModel.bind {x : Act α} {k : α → Act β} (hx : x.IgnoresModel) (hk : ∀ a, (k a).IgnoresModel) :
    Act.IgnoresModel (x >>= k) := fun m n => (hx m n).bind fun a => hk a m n

theorem Act.IgnoresModel.ite {p : Prop} [Decidable p] {x y : Act α} (hx : x.IgnoresModel) (hy : y.IgnoresModel) :
    Act.IgnoresModel (if p then x else y) := fun m n => carries_ite (hx m n) (hy m n)

theorem ignoresModel_pure (a : α) : Act.IgnoresModel (pure a) := fun _ _ => carries_pure a

theorem ignoresModel_throw (e : Stop) : Act.IgnoresModel (throw e : Act α) := fun _ _ => carries_throw e

theorem ignoresModel_check (e : ErrCode) (ok : Bool) : (check e ok).IgnoresModel := fun _ _ => carries_check e ok

theorem ignoresModel_modify {f : State → State}
    (hf : ∀ m n s, f (s.withOtherModel m n) = (f s).withOtherModel m n := by intro m n s; rfl) :
    Act.IgnoresModel (modify f : Act PUnit) := fun m n => carries_modify (hf m n)

/-- A read of the state, for something that does not depend on the model. -/
theorem ignoresModel_get {k : State → Act β} (hsame : ∀ m n s, k (s.withOtherModel m n) = k s) (hk : ∀ s, (k s).IgnoresModel) :
    Act.IgnoresModel (get >>= k) := by
  intro m n s
  rw [get_bind_run, get_bind_run, hsame]
  exact hk s m n s

end

/-! ### The encode side -/

theorem State.emit_withOtherModel (m : Model) (n : Word32) (b : Byte) (s : State) :
    (s.withOtherModel m n).emit b = (s.emit b).withOtherModel m n := by
  unfold State.emit
  show (if s.coder.drop = true then _ else _) = _
  split <;> rfl

theorem State.emitTimes_withOtherModel (m : Model) (n : Word32) (b : Byte) (k : Nat) (s : State) :
    (s.withOtherModel m n).emitTimes b k = (s.emitTimes b k).withOtherModel m n := by
  induction k generalizing s with
  | zero => rfl
  | succ k ih => rw [State.emitTimes, State.emitTimes, State.emit_withOtherModel, ih]

theorem State.releaseRun_withOtherModel (m : Model) (n : Word32) (s : State) :
    (s.withOtherModel m n).releaseRun = s.releaseRun.withOtherModel m n := by
  unfold State.releaseRun
  simp only [State.emit_withOtherModel, State.emitTimes_withOtherModel]
  rfl

theorem shiftLow_ignoresModel : shiftLow.IgnoresModel := by
  refine (ignoresModel_modify fun m n s => ?_).bind fun _ => ignoresModel_get (fun _ _ _ => rfl) fun _ =>
    (ignoresModel_check _ _).bind fun _ => ignoresModel_modify
  show (if s.coder.runSettled = true then _ else _) = State.withOtherModel m n (if s.coder.runSettled = true then _ else _)
  split
  · exact State.releaseRun_withOtherModel m n s
  · rfl

theorem shiftLowTimes_ignoresModel (k : Nat) : (shiftLowTimes k).IgnoresModel := by
  induction k with
  | zero => exact ignoresModel_pure _
  | succ k ih => exact shiftLow_ignoresModel.bind fun _ => ih

theorem encNormalizeLoop_ignoresModel (k : Nat) : (encNormalizeLoop k).IgnoresModel := by
  induction k with
  | zero => exact ignoresModel_get (fun _ _ _ => rfl) fun _ => .ite (ignoresModel_throw _) (ignoresModel_pure _)
  | succ k ih =>
    exact ignoresModel_get (fun _ _ _ => rfl) fun _ =>
      .ite ((ignoresModel_modify).bind fun _ => shiftLow_ignoresModel.bind fun _ => ih) (ignoresModel_pure _)

theorem rcEncode_ignoresModel (start size total : Nat) : (rcEncode start size total).IgnoresModel :=
  (ignoresModel_modify).bind fun _ => encNormalizeLoop_ignoresModel 3

/-! ### The decode side -/

theorem rcGetFreq_ignoresModel (total : Nat) : (rcGetFreq total).IgnoresModel := by
  intro m n s
  have hcoder : (s.withOtherModel m n).coder = s.coder := rfl
  rw [rcGetFreq_run, rcGetFreq_run, hcoder]
  split <;> rfl

theorem shiftInByte_ignoresModel : shiftInByte.IgnoresModel := by
  intro m n s
  by_cases h : s.inputReady 1
  · rw [shiftInByte_ready h, shiftInByte_ready (s := s.withOtherModel m n) h]
    rfl
  · rw [shiftInByte_starved h, shiftInByte_starved (s := s.withOtherModel m n) h]
    rfl

theorem shiftInBytes_ignoresModel (k : Nat) : (shiftInBytes k).IgnoresModel := by
  induction k with
  | zero => exact ignoresModel_pure _
  | succ k ih => exact shiftInByte_ignoresModel.bind fun _ => ih

theorem decNormalizeLoop_ignoresModel (k : Nat) : (decNormalizeLoop k).IgnoresModel := by
  induction k with
  | zero => exact ignoresModel_get (fun _ _ _ => rfl) fun _ => .ite (ignoresModel_throw _) (ignoresModel_pure _)
  | succ k ih =>
    exact ignoresModel_get (fun _ _ _ => rfl) fun _ =>
      .ite (shiftInByte_ignoresModel.bind fun _ => (ignoresModel_modify).bind fun _ => ih) (ignoresModel_pure _)

theorem rcUpdate_ignoresModel (start size : Nat) : (rcUpdate start size).IgnoresModel :=
  (ignoresModel_modify).bind fun _ => decNormalizeLoop_ignoresModel 3

/-! ### The commands -/

/-- The commands of the range coder (40_rangecoder.md section 4). -/
def rcCommand : Instr → Prop
  | .rcInitEnc | .rcEncode _ _ _ | .rcFlush | .rcInitDec | .rcGetFreq _ | .rcUpdate _ _ => True
  | _ => False

theorem body_ignoresModel {i : Instr} (hi : rcCommand i) : (body i).IgnoresModel := by
  cases i with
  | rcInitEnc => exact (ignoresModel_modify).bind fun _ => (ignoresModel_modify).bind fun _ => ignoresModel_pure _
  | rcEncode a b c =>
    exact ignoresModel_get (fun _ _ _ => rfl) fun _ => (ignoresModel_check _ _).bind fun _ => (ignoresModel_check _ _).bind
      fun _ => (ignoresModel_check _ _).bind fun _ => (rcEncode_ignoresModel _ _ _).bind fun _ => ignoresModel_pure _
  | rcFlush =>
    exact ignoresModel_get (fun _ _ _ => rfl) fun _ => (ignoresModel_check _ _).bind fun _ => (shiftLowTimes_ignoresModel _).bind
      fun _ => (ignoresModel_modify).bind fun _ => ignoresModel_get (fun _ _ _ => rfl) fun _ => ignoresModel_pure _
  | rcInitDec =>
    exact (ignoresModel_modify).bind fun _ => (ignoresModel_modify).bind fun _ => (shiftInBytes_ignoresModel 4).bind fun _ =>
      (ignoresModel_modify).bind fun _ => ignoresModel_pure _
  | rcGetFreq c =>
    exact ignoresModel_get (fun _ _ _ => rfl) fun _ => (ignoresModel_check _ _).bind fun _ => (ignoresModel_check _ _).bind
      fun _ => (rcGetFreq_ignoresModel _).bind fun _ => ignoresModel_pure _
  | rcUpdate a b =>
    exact ignoresModel_get (fun _ _ _ => rfl) fun _ => (ignoresModel_check _ _).bind fun _ => (ignoresModel_check _ _).bind
      fun _ => (ignoresModel_check _ _).bind fun _ => (rcUpdate_ignoresModel _ _).bind fun _ => ignoresModel_pure _
  | _ => exact hi.elim

theorem State.faultEntry_withOtherModel (m : Model) (n : Word32) (e : ErrCode) (opc : OpcodeField) (s : State) :
    (s.withOtherModel m n).faultEntry e opc = (s.faultEntry e opc).withOtherModel m n := by
  unfold State.faultEntry
  show State.endCommand _ (if s.fault.raised = true then _ else _) = _
  split <;> rfl

/-- A command of the range coder, run with another model, ends in the same way. -/
theorem exec_withOtherModel {i : Instr} (hi : rcCommand i) {s t : State} (h : exec i s = .next t) (m : Model) (n : Word32) :
    exec i (s.withOtherModel m n) = .next (t.withOtherModel m n) := by
  have hrun := body_ignoresModel hi m n s
  have hfault : (s.withOtherModel m n).fault = s.fault := rfl
  rw [exec_eq] at h ⊢
  rw [hfault]
  by_cases hblocked : (s.fault.raised && !neverBlocked i.opcode) = true
  · rw [if_pos hblocked] at h ⊢
    cases h
    rfl
  · rw [if_neg hblocked] at h ⊢
    cases hr : (body i).run s with
    | ok d u =>
      rw [hr] at hrun
      rw [runCommand_ok hr] at h
      cases h
      exact runCommand_ok hrun
    | error e u =>
      rw [hr] at hrun
      cases e with
      | raise e =>
        rw [runCommand_raise hr] at h
        cases h
        rw [← State.faultEntry_withOtherModel]
        exact runCommand_raise hrun
      | hold =>
        rw [runCommand_hold hr] at h
        cases h
        exact runCommand_hold hrun
      | fault f =>
        rw [runCommand_fault hr] at h
        cases h

/-- Settles O22: with its own model in the place of another, a command's result shows that it leaves the model. -/
theorem rcIgnoresModel : Obligations.RcIgnoresModel := by
  intro i s t m n hi h
  have hrc : rcCommand i := by
    rcases hi with rfl | ⟨a, b, c, rfl⟩ | rfl | rfl | ⟨c, rfl⟩ | ⟨a, b, rfl⟩ <;> trivial
  have hself := exec_withOtherModel hrc h s.model s.events.cntSym
  have hsame : t = t.withOtherModel s.model s.events.cntSym := Host.Outcome.next.inj (h.symm.trans hself)
  exact ⟨by rw [hsame]; rfl, by rw [hsame]; rfl, exec_withOtherModel hrc h m n⟩

end Sys2Proof.Machine
end

section
/-! PROOFS. Every step from a state of the invariant gives a next state, which meets it (40_rangecoder.md R116 to R120,
41_contextmodel.md R162 to R165, 10_state.md R33 to R36). -/

namespace Sys2Proof.Machine

/-! ### Where a command could stop the model -/

section Stops

variable {α β : Type} {x : Act α} {s u : State} {f : Fault}

/-- A check never stops the model, so what follows it did. -/
theorem checked_fault {e : ErrCode} {ok : Bool} {k : Unit → Act β}
    (h : (check e ok >>= k).run s = .error (.fault f) u) : ok = true ∧ (k ()).run s = .error (.fault f) u := by
  cases ok
  · rw [act_bind_of_error (check_false e s)] at h
    cases h
  · rw [act_bind_of_ok (check_true e s)] at h
    exact ⟨rfl, h⟩

theorem get_fault {k : State → Act β} (h : (get >>= k : Act β).run s = .error (.fault f) u) :
    (k s).run s = .error (.fault f) u := by
  rwa [EStateM.run_bind, EStateM.run_get] at h

/-- Before actions that cannot stop, the first part did. -/
theorem fault_of_then_total {k : α → Act β} (hk : ∀ a, (k a).Stops fun _ => False)
    (h : (x >>= k).run s = .error (.fault f) u) : x.run s = .error (.fault f) u := by
  rcases act_bind_error.mp h with h | ⟨a, v, -, h⟩
  · exact h
  · exact (hk a v _ u h).elim

end Stops

/-- A command that stops the model, piece by piece: the checks it passed, and the primitive that stopped. -/
def stoppedBy (f : Fault) : Instr → State → Prop
  | .dbgRd ctxi _, s => ctxi.toNat < s.model.ctxCount.toNat ∧ s.model.arena.read ctxi.toNat = none
  | .rcEncode start size total, s => s.coder.mode = .enc ∧ intervalFits start.toNat size.toNat total.toNat = true ∧
      ∃ u, (rcEncode start.toNat size.toNat total.toNat).run s = .error (.fault f) u
  | .rcFlush, s => s.coder.mode = .enc ∧ ∃ u, (shiftLowTimes 5).run s = .error (.fault f) u
  | .rcGetFreq total, s => s.coder.mode = .dec ∧ s.coder.dpend = false ∧ total ≠ 0 ∧
      ∃ u, (rcGetFreq total.toNat).run s = .error (.fault f) u
  | .rcUpdate start size, s => s.coder.mode = .dec ∧ s.coder.dpend = true ∧
      intervalFits start.toNat size.toNat s.coder.dtot.toNat = true ∧
      codePointInside start.toNat size.toNat s.coder.range.toNat s.coder.code.toNat = true ∧
      ∃ u, (rcUpdate start.toNat size.toNat).run s = .error (.fault f) u
  | .cmEncode _, s => s.model.mode = .enc ∧ s.coder.mode = .enc ∧ ∃ a u, (modelEncode a).run s = .error (.fault f) u
  | .cmDecode, s => s.model.mode = .dec ∧ s.coder.mode = .dec ∧ s.coder.dpend = false ∧
      ∃ u, modelDecode.run s = .error (.fault f) u
  | _, _ => False

/-- All that a command which stops the model can have done. -/
theorem body_fault {i : Instr} {s u : State} {f : Fault} (h : (body i).run s = .error (.fault f) u) : stoppedBy f i s := by
  have hstops := body_stops i s _ u h
  cases i with
  | dbgRd c o =>
    obtain ⟨hc, h⟩ := checked_fault (get_fault h)
    refine ⟨by simpa using hc, ?_⟩
    cases hr : s.model.arena.read c.toNat with
    | none => rfl
    | some x =>
      rw [act_bind_of_ok (readCtx_some hr)] at h
      cases hx : x.fieldAt o.toNat <;> (rw [hx] at h; cases h)
  | rcEncode a b c =>
    obtain ⟨hm, h⟩ := checked_fault (get_fault h)
    obtain ⟨-, h⟩ := checked_fault h
    obtain ⟨hfit, h⟩ := checked_fault h
    exact ⟨by simpa using hm, hfit, u, fault_of_then_total (fun _ => stops_pure _) h⟩
  | rcFlush =>
    obtain ⟨hm, h⟩ := checked_fault (get_fault h)
    exact ⟨by simpa using hm, u, fault_of_then_total
      (fun _ => (stops_modify _).bind fun _ => stops_get.bind fun _ => stops_pure _) h⟩
  | rcGetFreq c =>
    obtain ⟨hm, h⟩ := checked_fault (get_fault h)
    obtain ⟨hc, h⟩ := checked_fault h
    rw [Bool.and_eq_true, beq_iff_eq, Bool.not_eq_true'] at hm
    exact ⟨hm.1, hm.2, by simpa using hc, u, fault_of_then_total (fun _ => stops_pure _) h⟩
  | rcUpdate a b =>
    obtain ⟨hm, h⟩ := checked_fault (get_fault h)
    obtain ⟨hfit, h⟩ := checked_fault h
    obtain ⟨hin, h⟩ := checked_fault h
    rw [Bool.and_eq_true, beq_iff_eq] at hm
    exact ⟨hm.1, hm.2, hfit, hin, u, fault_of_then_total (fun _ => stops_pure _) h⟩
  | cmEncode a =>
    obtain ⟨hm, h⟩ := checked_fault (get_fault h)
    rw [Bool.and_eq_true, beq_iff_eq, beq_iff_eq] at hm
    cases hs : symOperand a with
    | none => rw [hs] at h; cases h
    | some b =>
      rw [hs] at h
      exact ⟨hm.1, hm.2, b, u, fault_of_then_total (fun _ => (symbolDone_total _).bind fun _ => stops_pure _) h⟩
  | cmDecode =>
    obtain ⟨hm, h⟩ := checked_fault (get_fault h)
    rw [Bool.and_eq_true, Bool.and_eq_true, beq_iff_eq, beq_iff_eq, Bool.not_eq_true'] at hm
    exact ⟨hm.1.1, hm.1.2, hm.2, u, fault_of_then_total (fun _ => (symbolDone_total _).bind fun _ => stops_pure _) h⟩
  | _ => simp [mayStop] at hstops

/-! ### The coder's commands keep the coder sound (40_rangecoder.md R116 to R120) -/

/-- All that `rc_encode` can do from a sound encoding coder: leave it sound, or raise `E_OVF`. -/
theorem rcEncode_sound {s : State} (h : s.coder.Sound) (hm : s.coder.mode = .enc) {start size total : Nat}
    (ht : total < 2 ^ 17) (h1 : 1 ≤ size) (hfit : start + size ≤ total) :
    (∃ t, (rcEncode start size total).run s = .ok () t ∧ t.coder.Sound ∧ EncodeFrame s t) ∨
    ∃ t, (rcEncode start size total).run s = .error (.raise .ovf) t := by
  obtain ⟨-, hrange, hcarry⟩ := h.encReady hm
  rcases rcEncode_spec hcarry hrange ht h1 hfit with ⟨k, t, -, hrun, hnorm⟩ | ⟨-, t, hrun⟩
  · have hframe := (rcEncode_frame start size total).of_ok hrun
    exact .inl ⟨t, hrun, encoded_sound h hm hframe hnorm.widened.enough hnorm.carrySafe, hframe⟩
  · exact .inr ⟨t, hrun⟩

/-- The registers of an idle coder are not read (40_rangecoder.md R111). -/
theorem Coder.sound_of_idle {c : Coder} (hm : c.mode = .idle) (hd : c.dpend = false) : c.Sound where
  pending_dec := fun h => by rw [hd] at h; cases h
  range_ge := fun h => absurd hm h
  unit_ge := fun h => by rw [hd] at h; cases h
  unit_fits := fun h => by rw [hd] at h; cases h
  carry := fun h => by rw [hm] at h; cases h
  code_le := fun h => by rw [hm] at h; cases h

/-- A query between two symbols leaves a sound coder: the per-unit value is at least 64, and its interval fits 32 bits
(40_rangecoder.md R116, R120). -/
theorem Coder.DecReady.queried_sound {c : Coder} (h : c.DecReady) {total : Nat} (h1 : 1 ≤ total) (ht : total < 2 ^ 17) :
    (c.queried total).Sound where
  pending_dec := fun _ => h.mode
  range_ge := fun _ => nofun
  unit_ge := fun _ => by
    rw [Coder.queried_range]
    exact (unit_pos h.range_ge ht (Nat.le_refl 1) h1).1
  unit_fits := fun _ => by
    have htotal : (c.queried total).dtot.toNat = total := by
      show (BitVec.ofNat 17 total).toNat = total
      rw [BitVec.toNat_ofNat, Nat.mod_eq_of_lt ht]
    rw [Coder.queried_range, htotal]
    exact Nat.lt_of_le_of_lt (Nat.div_mul_le_self _ _) c.range.isLt
  carry := fun he => by
    have hm : (c.queried total).mode = .dec := h.mode
    rw [hm] at he; cases he
  code_le := fun _ => nofun

/-- All that `rc_update` can do from a sound coder with a query pending, for an interval that passes its checks: leave it between
two symbols, or hold. -/
theorem rcUpdate_sound {s : State} (h : s.coder.Sound) (hp : s.coder.dpend = true) {start size : Nat}
    (hfit : intervalFits start size s.coder.dtot.toNat = true)
    (hin : codePointInside start size s.coder.range.toNat s.coder.code.toNat = true) :
    (∃ t, (rcUpdate start size).run s = .ok () t ∧ t.coder.Sound ∧ DecodeFrame s t) ∨
    ∃ t, (rcUpdate start size).run s = .error .hold t := by
  obtain ⟨h1, hle⟩ := intervalFits_iff.mp hfit
  obtain ⟨hlo, hhi⟩ := (inside_iff _ _ _ _).mp hin
  have hwidth : s.coder.range.toNat * size < 2 ^ 32 :=
    Nat.lt_of_le_of_lt (Nat.mul_le_mul_left _ (by omega)) (h.unit_fits hp)
  obtain ⟨k, -, hok, hno⟩ :=
    rcUpdate_inside (h.pending_dec hp) (h.unit_ge hp) h1 hwidth hlo hhi
  by_cases hready : s.inputReady k
  · obtain ⟨t, hrun, hdec, hframe, -⟩ := hok hready
    exact .inl ⟨t, hrun, hdec.sound, hframe⟩
  · exact .inr (hno hready)

/-- `RANGE_INIT` is the largest word. -/
theorem toNat_le_rangeInit (x : Word32) : x.toNat ≤ Config.rangeInit.toNat := by
  have hx := x.isLt
  have hmax : Config.rangeInit.toNat = 2 ^ 32 - 1 := rfl
  omega

/-- A completed `RC_INIT_DEC` leaves the coder between two symbols: `RANGE` is as large as it can be (40_rangecoder.md R112). -/
theorem State.decodeStarted_ready (s : State) : s.decodeStarted.coder.DecReady :=
  ⟨rfl, rfl, (by decide : Config.thresh ≤ Config.rangeInit.toNat), toNat_le_rangeInit _⟩

/-- `RC_INIT_DEC` completes only where its reads do. -/
theorem body_rcInitDec_ok {s u : State} {d : Word32} (h : (body .rcInitDec).run s = .ok d u) : u = s.decodeStarted := by
  by_cases hready : s.inputReady 4
  · rw [body_rcInitDec_ready hready] at h
    cases h
    rfl
  · obtain ⟨t, ht⟩ := body_rcInitDec_starved hready
    rw [ht] at h
    cases h

/-! ### The symbol commands -/

/-- All that `model_encode` can do in a state of the invariant: the active record codes the symbol itself, so it encodes one
interval and counts a hit, or raises `E_OVF` (41_contextmodel.md R151, R163). -/
theorem modelEncode_sound {s : State} (h : s.Inv) (hf : s.fault.raised = false) (hm : s.model.mode = .enc)
    (hc : s.coder.mode = .enc) (a : Sym) :
    (∃ t, (modelEncode a).run s = .ok () t ∧ t.coder.Sound ∧ t.model.Sound s.setup ∧ t.model.mode = .enc ∧
      t.setup = s.setup ∧ t.fault = s.fault) ∨
    ∃ t, (modelEncode a).run s = .error (.raise .ovf) t := by
  obtain ⟨x, hx⟩ := h.model.activeRecord (by rw [hm]; decide)
  have hsound := h.model.records _ x hx
  have hrun := modelEncode_run hx (hsound.freq_ne_zero a)
  rcases rcEncode_sound (h.coder hf) hc hsound.total_lt (hsound.freq_pos a) (hsound.hit_fits a) with
    ⟨t, ht, hcoder, hframe⟩ | ⟨t, ht⟩
  · rw [ht] at hrun
    refine .inl ⟨_, hrun, hcoder, ?_, ?_, hframe.setup, hframe.fault⟩
    · rw [State.withModel_model, hframe.model]
      exact h.model.afterHit h.setup (.inr (.inl hm)) (by rw [hm]; decide) hx a
    · rw [State.withModel_model, hframe.model, (Model.afterHit_coded _ _ _ _ _).1, hm]
  · rw [ht] at hrun
    exact .inr ⟨t, hrun⟩

/-- All that `model_decode` can do in a state of the invariant but for a raise. -/
theorem modelDecode_sound {s : State} (h : s.Inv) (hf : s.fault.raised = false) (hm : s.model.mode = .dec)
    (hc : s.coder.mode = .dec) (hd : s.coder.dpend = false) :
    match modelDecode.run s with
    | .ok _ t => t.setup = s.setup ∧ t.model.Sound s.setup ∧ t.model.mode = .dec ∧ t.coder.Sound ∧ t.fault = s.fault
    | .error e _ => ∀ f, e ≠ .fault f := by
  have hrun := modelDecodeFrom_sound s.model.ladder h.setup h.model hm ((h.coder hf).decReady hc hd)
    (Model.ladder_lt h.model (by rw [hm]; decide))
  rw [modelDecode_run rfl]
  revert hrun
  cases (modelDecodeFrom s.model.ladder).run s with
  | ok n t =>
    rintro ⟨hsetup, hmodel, hmode, hcoder, -, hfault⟩
    exact ⟨hsetup, hmodel, hmode, hcoder.sound, hfault⟩
  | error e t => exact And.left

/-! ### A command's body keeps the invariant -/

/-- The invariant reads neither the counters nor the ports. -/
theorem State.Inv.of_registers {s t : State} (h : s.Inv) (hc : t.coder = s.coder) (hm : t.model = s.model)
    (hu : t.setup = s.setup) (hf : t.fault = s.fault) : t.Inv where
  setup := hu ▸ h.setup
  model := by rw [hm, hu]; exact h.model
  fault := hf ▸ h.fault
  coder := by rw [hf, hc]; exact h.coder

/-- A command that works on the coder keeps the invariant if it keeps the coder's part. -/
theorem State.Inv.of_coder {s t : State} (h : s.Inv) (hc : t.coder.Sound) (hm : t.model = s.model) (hu : t.setup = s.setup)
    (hf : t.fault = s.fault) : t.Inv where
  setup := hu ▸ h.setup
  model := by rw [hm, hu]; exact h.model
  fault := hf ▸ h.fault
  coder := fun _ => hc

/-- A command that works on the model keeps the invariant if it keeps the model's part. -/
theorem State.Inv.of_model {s t : State} (h : s.Inv) (hc : t.coder = s.coder) (hm : t.model.Sound s.setup)
    (hu : t.setup = s.setup) (hf : t.fault = s.fault) : t.Inv where
  setup := hu ▸ h.setup
  model := hu ▸ hm
  fault := hf ▸ h.fault
  coder := by rw [hf, hc]; exact h.coder

/-- A legal write of the configuration outside a chunk's coding keeps the invariant (42_control.md R185, R186, R188). -/
theorem State.Inv.reconfigure {s : State} (h : s.Inv) (he : s.model.mode ≠ .enc) (hd : s.model.mode ≠ .dec) {f : Setup → Setup}
    (hu : (f s.setup).Sound) (ho : s.model.mode ≠ .idle → (f s.setup).modelOrder ≠ 0) : (s.withSetup f).Inv where
  setup := hu
  model := h.model.reconfigure hu he hd ho
  fault := h.fault
  coder := h.coder

/-- The end of a symbol keeps the invariant (41_contextmodel.md R159, R160). -/
theorem symbolDone_inv {n : Nat} {s t u : State} (h : s.Inv) (hd : (symbolDone n).run t = .ok () u) (hc : t.coder.Sound)
    (hm : t.model.Sound s.setup) (hmode : t.model.mode ≠ .idle) (hu : t.setup = s.setup) (hf : t.fault = s.fault) : u.Inv := by
  rw [symbolDone_run] at hd
  cases hd
  exact ⟨hu ▸ h.setup, hu ▸ hm.done hmode n, hf ▸ h.fault, fun _ => hc⟩

theorem State.softReset_inv {s : State} (h : s.Inv) : s.softReset.Inv :=
  ⟨h.setup, Model.reset_sound _, ⟨fun _ => ⟨rfl, rfl⟩, nofun⟩, fun _ => Coder.reset_sound⟩

/-- A completed write of a CSR keeps the invariant (42_control.md R184 to R188). -/
theorem csrWr_inv {c : CsrIndex} {data d : Word32} {s u : State} (h : s.Inv) (hu : completed (.csrWr c data) s d u) : u.Inv := by
  obtain ⟨-, ⟨-, -, rfl⟩ | ⟨he, hd, ⟨-, h2, h16, rfl⟩ | ⟨-, h1, hmax, rfl⟩⟩⟩ := hu
  · exact ⟨⟨h.setup.order_legal, h.setup.max_pos, h.setup.max_le⟩, { h.model with }, h.fault, h.coder⟩
  · have horder : (data.setWidth 5).toNat = data.toNat := by
      rw [BitVec.toNat_setWidth, Nat.mod_eq_of_lt (by omega)]
    refine h.reconfigure he hd ⟨.inr ⟨?_, ?_⟩, h.setup.max_pos, h.setup.max_le⟩ fun _ hzero => ?_
    · show 2 ≤ (data.setWidth 5).toNat
      omega
    · show (data.setWidth 5).toNat ≤ 16
      omega
    · have : (data.setWidth 5).toNat = 0 := congrArg BitVec.toNat hzero
      omega
  · have hcap := Config.arenaCtx_le
    have hctx : (data.setWidth 18).toNat = data.toNat := by
      rw [BitVec.toNat_setWidth, Nat.mod_eq_of_lt (by omega)]
    refine h.reconfigure he hd ⟨h.setup.order_legal, ?_, ?_⟩ h.model.configured
    · show 1 ≤ (data.setWidth 18).toNat
      omega
    · show (data.setWidth 18).toNat ≤ _
      omega

/-- A command that a recorded fault would block runs with none recorded (60_exceptions.md R207). -/
theorem fault_clear {i : Instr} {s : State} (hf : s.fault.raised = true → neverBlocked i.opcode = true)
    (hi : neverBlocked i.opcode = false) : s.fault.raised = false := by
  by_contra hr
  rw [hf (by simpa using hr)] at hi
  cases hi

/-- A command that completes keeps the invariant; those that work on the coder or the model run with no fault recorded. -/
theorem body_ok_inv {i : Instr} {s u : State} {d : Word32} (h : s.Inv)
    (hf : s.fault.raised = true → neverBlocked i.opcode = true) (hrun : (body i).run s = .ok d u) : u.Inv := by
  have hc := body_ok hrun
  cases i with
  | nop => obtain ⟨-, rfl⟩ := hc; exact h
  | blkReset => obtain ⟨-, rfl⟩ := hc; exact State.softReset_inv h
  | csrRd c => obtain ⟨-, -, -, rfl⟩ := hc; exact h
  | csrWr c data => exact csrWr_inv h hc
  | dbgRd c o => obtain ⟨-, -, -, -, rfl⟩ := hc; exact h
  | rcInitEnc => obtain ⟨-, rfl⟩ := hc; exact h.of_coder Coder.startEncode_sound rfl rfl rfl
  | rcEncode a b c =>
    obtain ⟨-, hm, -, hfit, hr⟩ := hc
    obtain ⟨h1, hle⟩ := intervalFits_iff.mp hfit
    rcases rcEncode_sound (h.coder (fault_clear hf rfl)) hm c.isLt h1 hle with ⟨t, ht, hcoder, hframe⟩ | ⟨t, ht⟩
    · rw [hr] at ht; cases ht
      exact h.of_coder hcoder hframe.model hframe.setup hframe.fault
    · rw [hr] at ht; cases ht
  | rcFlush =>
    obtain ⟨hm, v, hr, -, rfl⟩ := hc
    have hframe := (shiftLowTimes_frame 5).of_ok hr
    have hidle := hframe.dpend.trans ((h.coder (fault_clear hf rfl)).encReady hm).1
    exact h.of_coder (Coder.sound_of_idle rfl hidle) hframe.model hframe.setup hframe.fault
  | rcInitDec =>
    rw [body_rcInitDec_ok hrun]
    exact h.of_coder s.decodeStarted_ready.sound rfl rfl rfl
  | rcGetFreq c =>
    obtain ⟨hm, hd, hc0, v, -, hr⟩ := hc
    have hready := (h.coder (fault_clear hf rfl)).decReady hm hd
    have hpos := operand_pos hc0
    rw [(rcGetFreq_ready hready hpos c.isLt).1] at hr
    cases hr
    exact h.of_coder (hready.queried_sound hpos c.isLt) rfl rfl rfl
  | rcUpdate a b =>
    obtain ⟨-, hm, hp, hfit, hin, hr⟩ := hc
    rcases rcUpdate_sound (h.coder (fault_clear hf rfl)) hp hfit hin with ⟨t, ht, hcoder, hframe⟩ | ⟨t, ht⟩
    · rw [hr] at ht; cases ht
      exact h.of_coder hcoder hframe.model hframe.setup hframe.fault
    · rw [hr] at ht; cases ht
  | cmReset => obtain ⟨-, ho, rfl⟩ := hc; exact h.of_model rfl (rooted_inv_sound _ h.setup ho) rfl rfl
  | cmStartEnc =>
    obtain ⟨-, hm, rfl⟩ := hc
    exact h.of_model rfl (h.model.start (hm.imp_right .inl) .enc (.inl rfl)) rfl rfl
  | cmStartDec =>
    obtain ⟨-, hm, rfl⟩ := hc
    exact h.of_model rfl (h.model.start (hm.imp_right .inr) .dec (.inr rfl)) rfl rfl
  | cmEncode sym =>
    obtain ⟨-, hm, hc, a, v, -, hr, hd⟩ := hc
    rcases modelEncode_sound h (fault_clear hf rfl) hm hc a with ⟨t, ht, hcoder, hmodel, hmode, hsetup, hfault⟩ | ⟨t, ht⟩
    · rw [hr] at ht; cases ht
      exact symbolDone_inv h hd hcoder hmodel (by rw [hmode]; decide) hsetup hfault
    · rw [hr] at ht; cases ht
  | cmDecode =>
    obtain ⟨hm, hc, hp, n, v, -, hr, hd⟩ := hc
    have hsound := modelDecode_sound h (fault_clear hf rfl) hm hc hp
    rw [hr] at hsound
    obtain ⟨hsetup, hmodel, hmode, hcoder, hfault⟩ := hsound
    exact symbolDone_inv h hd hcoder hmodel (by rw [hmode]; decide) hsetup hfault

/-- No command stops the model (40_rangecoder.md R116, 10_state.md R34, R43). -/
theorem body_no_fault {i : Instr} {s u : State} {f : Fault} (h : s.Inv)
    (hf : s.fault.raised = true → neverBlocked i.opcode = true) : (body i).run s ≠ .error (.fault f) u := by
  intro hrun
  have hstop := body_fault hrun
  cases i with
  | dbgRd c o =>
    obtain ⟨hlt, hnone⟩ := hstop
    have hsome := (h.model.listed_iff _).mpr hlt
    rw [hnone] at hsome
    cases hsome
  | rcEncode a b c =>
    obtain ⟨hm, hfit, v, hr⟩ := hstop
    obtain ⟨h1, hle⟩ := intervalFits_iff.mp hfit
    rcases rcEncode_sound (h.coder (fault_clear hf rfl)) hm c.isLt h1 hle with ⟨t, ht, -⟩ | ⟨t, ht⟩ <;>
      (rw [hr] at ht; cases ht)
  | rcFlush =>
    obtain ⟨hm, v, hr⟩ := hstop
    obtain ⟨-, hrange, hcarry⟩ := (h.coder (fault_clear hf rfl)).encReady hm
    rcases shiftLowTimes_carry hcarry hrange with ⟨t, ht⟩ | ⟨t, ht⟩ <;> (rw [hr] at ht; cases ht)
  | rcGetFreq c =>
    obtain ⟨hm, hd, hc0, v, hr⟩ := hstop
    have hpos := operand_pos hc0
    rw [(rcGetFreq_ready ((h.coder (fault_clear hf rfl)).decReady hm hd) hpos c.isLt).1] at hr
    cases hr
  | rcUpdate a b =>
    obtain ⟨hm, hp, hfit, hin, v, hr⟩ := hstop
    rcases rcUpdate_sound (h.coder (fault_clear hf rfl)) hp hfit hin with ⟨t, ht, -⟩ | ⟨t, ht⟩ <;> (rw [hr] at ht; cases ht)
  | cmEncode sym =>
    obtain ⟨hm, hc, a, v, hr⟩ := hstop
    rcases modelEncode_sound h (fault_clear hf rfl) hm hc a with ⟨t, ht, -⟩ | ⟨t, ht⟩ <;> (rw [hr] at ht; cases ht)
  | cmDecode =>
    obtain ⟨hm, hc, hp, v, hr⟩ := hstop
    have hsound := modelDecode_sound h (fault_clear hf rfl) hm hc hp
    rw [hr] at hsound
    exact hsound f rfl
  | _ => exact hstop

/-! ### Fault entry (60_exceptions.md R204, R206) -/

/-- Every error but `E_BLOCKED` is one that the fault record can hold (60_exceptions.md R201, R208). -/
theorem ErrCode.number_recordable {e : ErrCode} (he : e ≠ .blocked) : 1 ≤ e.number.toNat ∧ e.number.toNat ≤ 7 := by
  cases e with
  | blocked => exact absurd rfl he
  | _ => decide

/-- Fault entry keeps the invariant, whatever the coder was left in. -/
theorem State.faultEntry_inv {s : State} (hu : s.setup.Sound) (hm : s.model.Sound s.setup) (hf : s.fault.Sound) {e : ErrCode}
    (he : e ≠ .blocked) (opc : OpcodeField) : (s.faultEntry e opc).Inv := by
  have hfault := s.faultEntry_fault e opc
  refine ⟨by rwa [State.faultEntry_setup], by rwa [State.faultEntry_model, State.faultEntry_setup], ?_, fun hclear => ?_⟩
  · rw [hfault]
    split
    · exact hf
    · exact ⟨nofun, fun _ => ErrCode.number_recordable he⟩
  · rw [hfault] at hclear
    split at hclear
    · rename_i hr; rw [hr] at hclear; cases hclear
    · cases hclear

/-! ### Words, the host and steps -/

/-- A command, however it ends. -/
theorem exec_inv (i : Instr) {s : State} (h : s.Inv) : ∃ t, exec i s = .next t ∧ t.Inv := by
  rw [exec_eq]
  split
  · exact ⟨_, rfl, h.of_registers rfl rfl rfl rfl⟩
  · rename_i hb
    have hf : s.fault.raised = true → neverBlocked i.opcode = true := fun hr => by simpa [hr] using hb
    cases hrun : (body i).run s with
    | ok d u => exact ⟨_, runCommand_ok hrun, (body_ok_inv h hf hrun).of_registers rfl rfl rfl rfl⟩
    | error e u =>
      cases e with
      | hold => exact ⟨s, runCommand_hold hrun, h⟩
      | fault f => exact absurd hrun (body_no_fault h hf)
      | raise e =>
        obtain ⟨hframe, -, he⟩ := body_raise hrun
        have hmodel := (h.model.escaped (body_raise_escaped hrun)).1
        exact ⟨_, runCommand_raise hrun, State.faultEntry_inv (hframe.setup ▸ h.setup) (hframe.setup ▸ hmodel)
          (hframe.fault ▸ h.fault) he _⟩

theorem illegalWord_inv (w : Word64) {s : State} (h : s.Inv) : ∃ t, illegalWord w s = .next t ∧ t.Inv := by
  unfold illegalWord
  split
  · exact ⟨_, rfl, h.of_registers rfl rfl rfl rfl⟩
  · exact ⟨_, rfl, State.faultEntry_inv h.setup h.model h.fault (by decide) _⟩

theorem runWord_inv (w : Word64) {s : State} (h : s.Inv) : ∃ t, runWord w s = .next t ∧ t.Inv := by
  unfold runWord
  split
  · exact exec_inv _ h
  · exact illegalWord_inv w h

/-- The host resets RCCM, or changes nothing but the ports. -/
theorem hostMove_inv {s : State} (h : s.Inv) : (hostMove s).Inv := by
  rcases hostMove_cases s with ⟨rest, -, hreset⟩ | ⟨-, p, hports, -⟩
  · rw [hreset]
    exact resetInv.of_registers rfl rfl rfl rfl
  · rw [hports]
    exact h.of_registers rfl rfl rfl rfl

/-- Settles O55: the host's actions keep the invariant, and so does every word, which always answers a next state. -/
theorem stepKeepsInv : Obligations.StepKeepsInv := by
  intro s h
  cases hr : s.rstAsserted with
  | true => exact ⟨_, step_rst hr, hostMove_inv h⟩
  | false =>
    cases hf : fetch s with
    | none => exact ⟨_, step_idle hf, hostMove_inv h⟩
    | some w =>
      obtain ⟨t, ht, hinv⟩ := runWord_inv w h
      rw [step_word hf hr, ht]
      refine ⟨_, rfl, ?_⟩
      split
      · exact hostMove_inv hinv
      · exact hinv

end Sys2Proof.Machine
end

section
/-! PROOFS. Decoding what was encoded (40_rangecoder.md R121, R122): the bytes that an encode sends spell a number inside every
interval on the way, and the decoder holds the distance of that number from the encoder's. -/

namespace Sys2Proof.Machine

/-! ### Runs of commands (70_reset_and_hazards.md R257) -/

theorem execAll_cons {i : Instr} {l : List Instr} {s t : State} :
    execAll (i :: l) s = .next t ↔ ∃ u, exec i s = .next u ∧ execAll l u = .next t := by
  rw [execAll]
  cases exec i s <;> simp

/-- A run of commands that a fault blocks, ending with none recorded, started with none recorded (60_exceptions.md R207). -/
theorem execAll_unfaulted {l : List Instr} (hl : ∀ i ∈ l, neverBlocked i.opcode = false) {s t : State}
    (h : execAll l s = .next t) (ht : t.fault.raised = false) : s.fault.raised = false := by
  induction l generalizing s with
  | nil => cases h; exact ht
  | cons i l ih =>
    obtain ⟨u, hu, hrest⟩ := execAll_cons.mp h
    have hclear := ih (fun j hj => hl j (List.mem_cons_of_mem i hj)) hrest
    by_contra hr
    rw [exec_eq, hl i List.mem_cons_self, Bool.not_false, Bool.and_true, if_pos (by simpa using hr)] at hu
    cases hu
    exact hr hclear

/-! ### The encode side -/

/-- The encode side between two intervals, with no fault recorded. -/
structure State.Encoding (s : State) : Prop where
  clear : s.fault.raised = false
  mode : s.coder.mode = .enc
  range_ge : Config.thresh ≤ s.coder.range.toNat
  carrySafe : s.coder.CarrySafe

/-- The command that encodes an interval. -/
abbrev Interval.encode (v : Interval) : Instr := .rcEncode v.start v.size v.total

theorem Interval.Valid.fits {v : Interval} (h : v.Valid) :
    intervalFits v.start.toNat v.size.toNat v.total.toNat = true := intervalFits_iff.mpr h

/-- An encode that raises nothing narrows the interval. -/
theorem State.Encoding.encode {s u : State} (h : s.Encoding) {v : Interval} (hv : v.Valid) (hexec : exec v.encode s = .next u)
    (hu : u.fault.raised = false) :
    u.Encoding ∧ ∃ k, k ≤ 3 ∧ Narrowed s u v.start.toNat v.size.toNat v.total.toNat k := by
  rcases exec_unfaulted hexec hu h.clear with ⟨d, w, hw, rfl⟩ | ⟨w, hw, -⟩
  · obtain ⟨-, -, -, -, hrun⟩ := body_ok hw
    obtain ⟨k, hk, hn⟩ := rcEncode_narrowed h.carrySafe h.range_ge v.total.isLt hv.1 hv.2 hrun
    have hframe := (rcEncode_frame _ _ _).of_ok hrun
    exact ⟨⟨hu, hframe.mode.trans h.mode, hn.widened.enough, hn.carrySafe⟩, k, hk,
      ⟨hn.number, hn.width, hn.widened, hn.carrySafe, hn.byteCount⟩⟩
  · have hno := body_stops v.encode s _ w hw
    simp [mayStop, Stop.encoding] at hno

/-- A flush that raises nothing sends the whole number. -/
theorem State.Encoding.flush {s t : State} (h : s.Encoding) (hexec : exec .rcFlush s = .next t) (ht : t.fault.raised = false) :
    bytesNumber t.ports.output = s.codeNumber ∧ t.ports.output.length = s.byteCount + 4 := by
  rcases exec_unfaulted hexec ht h.clear with ⟨d, u, hu, rfl⟩ | ⟨u, hu, -⟩
  · obtain ⟨-, v, hrun, -, rfl⟩ := body_ok hu
    exact flushed_bytes (v := v) (h.carrySafe.fits (Nat.le_trans (by decide) h.range_ge)) hrun
  · have hno := body_stops .rcFlush s _ u hu
    simp [mayStop, Stop.encoding] at hno

/-- `RC_INIT_ENC` starts with an empty number behind the bytes sent before. -/
theorem State.encodeStarted {s u : State} (hs : s.fault.raised = false) (h : exec .rcInitEnc s = .next u) :
    u.Encoding ∧ u.codeNumber = bytesNumber s.ports.output * 2 ^ 32 ∧ u.byteCount = s.ports.output.length ∧
      u.coder.range = Config.rangeInit := by
  rw [exec_rcInitEnc hs] at h
  cases h
  refine ⟨⟨hs, rfl, (by decide : Config.thresh ≤ Config.rangeInit.toNat), Coder.startEncode_sound.carry rfl⟩, ?_, rfl, rfl⟩
  show (bytesNumber s.ports.output * 256 ^ 0 + 0) * 2 ^ 32 + 0 = _
  omega

/-! ### The number stays inside the interval (40_rangecoder.md R121) -/

/-- The bytes sent in the end, `t`'s output, spell a number inside the interval that the coder holds in `s`, on the scale of the `k`
shifts that follow `s` before the flush. -/
structure CodedWithin (s t : State) (k : Nat) : Prop where
  length : t.ports.output.length = s.byteCount + k + 4
  lower : s.codeNumber * 256 ^ k ≤ bytesNumber t.ports.output
  upper : bytesNumber t.ports.output < (s.codeNumber + s.coder.range.toNat) * 256 ^ k

/-- An interval lies inside the whole range (40_rangecoder.md R105). -/
theorem subinterval_le {start size total range : Nat} (hfit : start + size ≤ total) :
    start * (range / total) + range / total * size ≤ range :=
  calc start * (range / total) + range / total * size
      = (start + size) * (range / total) := by ring
    _ ≤ total * (range / total) := Nat.mul_le_mul_right _ hfit
    _ ≤ range := Nat.mul_div_le _ _

/-- The final number seen from before an encode: it lies in the interval encoded. -/
theorem Narrowed.coded_bounds {s u t : State} {start size total k j : Nat} (hn : Narrowed s u start size total k)
    (h : CodedWithin u t j) :
    (s.codeNumber + start * (s.coder.range.toNat / total)) * 256 ^ (k + j) ≤ bytesNumber t.ports.output ∧
    bytesNumber t.ports.output <
      (s.codeNumber + start * (s.coder.range.toNat / total) + s.coder.range.toNat / total * size) * 256 ^ (k + j) := by
  have hlower := h.lower
  have hupper := h.upper
  rw [hn.number] at hlower hupper
  rw [hn.width, ← Nat.add_mul] at hupper
  rw [Nat.pow_add, ← Nat.mul_assoc, ← Nat.mul_assoc]
  exact ⟨hlower, hupper⟩

/-- A number inside the narrowed interval is inside the interval before. -/
theorem Narrowed.codedWithin {s u t : State} {start size total k j : Nat} (hn : Narrowed s u start size total k)
    (hfit : start + size ≤ total) (h : CodedWithin u t j) : CodedWithin s t (k + j) := by
  obtain ⟨hlower, hupper⟩ := hn.coded_bounds h
  have hlength := h.length
  rw [hn.byteCount] at hlength
  have hle := subinterval_le (range := s.coder.range.toNat) hfit
  refine ⟨by omega, Nat.le_trans (Nat.mul_le_mul_right _ (by omega)) hlower, Nat.lt_of_lt_of_le hupper ?_⟩
  exact Nat.mul_le_mul_right _ (by omega)

/-- The commands that end a list of intervals. -/
def encodeTail (vs : List Interval) : List Instr := vs.map Interval.encode ++ [.rcFlush]

theorem encodeTail_blocked (vs : List Interval) : ∀ i ∈ encodeTail vs, neverBlocked i.opcode = false := by
  intro i hi
  rcases List.mem_append.mp hi with hi | hi
  · obtain ⟨v, -, rfl⟩ := List.mem_map.mp hi
    rfl
  · rw [List.mem_singleton.mp hi]
    rfl

/-- The first encode of a run that ends with no fault recorded, and what is left of the run. -/
theorem State.Encoding.encode_first {s t : State} (h : s.Encoding) {v : Interval} {vs : List Interval} (hv : v.Valid)
    (hrun : execAll (encodeTail (v :: vs)) s = .next t) (ht : t.fault.raised = false) :
    ∃ u k, u.Encoding ∧ Narrowed s u v.start.toNat v.size.toNat v.total.toNat k ∧ execAll (encodeTail vs) u = .next t := by
  obtain ⟨u, hu, hrest⟩ := execAll_cons.mp hrun
  obtain ⟨henc, k, -, hn⟩ := h.encode hv hu (execAll_unfaulted (encodeTail_blocked vs) hrest ht)
  exact ⟨u, k, henc, hn, hrest⟩

theorem State.Encoding.flush_last {s t : State} (h : s.Encoding) (hrun : execAll (encodeTail []) s = .next t)
    (ht : t.fault.raised = false) : bytesNumber t.ports.output = s.codeNumber ∧ t.ports.output.length = s.byteCount + 4 := by
  obtain ⟨u, hu, hrest⟩ := execAll_cons.mp hrun
  cases hrest
  exact h.flush hu ht

/-- Wherever the encode stands, its interval contains the number that is sent in the end. -/
theorem encodeTail_codedWithin (vs : List Interval) (hvs : ∀ v ∈ vs, v.Valid) {s t : State} (h : s.Encoding)
    (hrun : execAll (encodeTail vs) s = .next t) (ht : t.fault.raised = false) : ∃ k, CodedWithin s t k := by
  induction vs generalizing s with
  | nil =>
    obtain ⟨hnumber, hlength⟩ := h.flush_last hrun ht
    have hpos : 1 ≤ s.coder.range.toNat := Nat.le_trans (by decide) h.range_ge
    exact ⟨0, by omega, by rw [hnumber, Nat.pow_zero, Nat.mul_one], by rw [hnumber, Nat.pow_zero, Nat.mul_one]; omega⟩
  | cons v vs ih =>
    have hv := hvs v List.mem_cons_self
    obtain ⟨u, k, hu, hn, hrest⟩ := h.encode_first hv hrun ht
    obtain ⟨j, hj⟩ := ih (fun w hw => hvs w (List.mem_cons_of_mem v hw)) hu hrest
    exact ⟨k + j, hn.codedWithin hv.2 hj⟩

/-! ### The decode side follows (40_rangecoder.md R119, R121) -/

/-- The decoder `d` stands where the encoder stood in `s`, with the bytes `tail` of the stream still to read and `rest` behind them:
its `RANGE` is the encoder's, and its `CODE` is how far the number sent in the end, `t`'s output, lies above the encoder's number. -/
structure Tracks (s t d : State) (tail rest : List Byte) : Prop where
  ready : d.coder.DecReady
  eod : d.ports.eod = true
  input : d.ports.input = tail ++ rest
  range : d.coder.range.toNat = s.coder.range.toNat
  length : t.ports.output.length = s.byteCount + tail.length + 4
  number : bytesNumber t.ports.output = (s.codeNumber + d.coder.code.toNat) * 256 ^ tail.length + bytesNumber tail
  zfill : d.events.zfill = false
  cntZfill : d.events.cntZfill = 0

/-- The code point lies in the interval that the encoder coded next. -/
theorem Tracks.code_inside {s u t d : State} {tail rest : List Byte} (h : Tracks s t d tail rest) {start size total k j : Nat}
    (hn : Narrowed s u start size total k) (hu : CodedWithin u t j) :
    tail.length = k + j ∧ start * (d.coder.range.toNat / total) ≤ d.coder.code.toNat ∧
      d.coder.code.toNat < (start + size) * (d.coder.range.toNat / total) := by
  have hlength := hu.length
  rw [hn.byteCount, h.length] at hlength
  have hsplit : tail.length = k + j := by omega
  obtain ⟨hlower, hupper⟩ := hn.coded_bounds hu
  have htail := bytesNumber_lt tail
  have hpos : 0 < 256 ^ tail.length := Nat.pow_pos (by decide)
  rw [← hsplit, h.number] at hlower hupper
  rw [h.range]
  refine ⟨hsplit, ?_, ?_⟩
  · have hlt : (s.codeNumber + start * (s.coder.range.toNat / total)) * 256 ^ tail.length <
        (s.codeNumber + d.coder.code.toNat + 1) * 256 ^ tail.length := by
      rw [Nat.add_mul _ 1, Nat.one_mul]
      omega
    have := Nat.lt_of_mul_lt_mul_right hlt
    omega
  · have hlt : (s.codeNumber + d.coder.code.toNat) * 256 ^ tail.length <
        (s.codeNumber + start * (s.coder.range.toNat / total) + s.coder.range.toNat / total * size) * 256 ^ tail.length := by
      omega
    have := Nat.lt_of_mul_lt_mul_right hlt
    rw [Nat.add_mul, Nat.mul_comm size]
    omega

/-- The value that a query answers lies in the interval. -/
theorem Tracks.value_inside {s u t d : State} {tail rest : List Byte} (h : Tracks s t d tail rest) {start size total k j : Nat}
    (h1 : 1 ≤ total) (ht : total < 2 ^ 17) (hn : Narrowed s u start size total k) (hu : CodedWithin u t j) :
    start ≤ d.valueAt total ∧ d.valueAt total < start + size := by
  obtain ⟨-, hlo, hhi⟩ := h.code_inside hn hu
  have hunit : 0 < d.coder.range.toNat / total :=
    Nat.lt_of_lt_of_le (by decide) (unit_pos h.ready.range_ge ht (Nat.le_refl 1) h1).1
  exact ⟨(Nat.le_div_iff_mul_le hunit).mpr hlo, (Nat.div_lt_iff_lt_mul hunit).mpr hhi⟩

/-- The bytes at the front of the input port are what the reads return. -/
theorem State.nextBytes_of_input {d : State} {tail rest : List Byte} (h : d.ports.input = tail ++ rest) {k : Nat}
    (hk : k ≤ tail.length) : d.nextBytes k = tail.take k := by
  have hmissing : k - (tail ++ rest).length = 0 := by
    rw [List.length_append]
    omega
  rw [State.nextBytes, h, hmissing, List.replicate_zero, List.append_nil, List.take_append_of_le_length hk]

/-- Reads of bytes that are there fill in no zero. -/
theorem State.afterReads_unstarved {d : State} {k : Nat} (hk : k ≤ d.ports.input.length) (hz : d.events.zfill = false)
    (hc : d.events.cntZfill = 0) : (d.afterReads k).events.zfill = false ∧ (d.afterReads k).events.cntZfill = 0 := by
  have hmissing : k - d.ports.input.length = 0 := by omega
  refine ⟨?_, ?_⟩
  · show (d.events.zfill || decide (d.ports.input.length < k)) = false
    rw [hz, Bool.false_or, decide_eq_false (by omega)]
  · show d.events.cntZfill + BitVec.ofNat 32 (k - d.ports.input.length) = 0
    rw [hc, hmissing]
    rfl

theorem bytesNumber_take_drop (l : List Byte) (k : Nat) :
    bytesNumber l = bytesNumber (l.take k) * 256 ^ (l.drop k).length + bytesNumber (l.drop k) := by
  rw [← bytesNumber_append, List.take_append_drop]

/-- The update of the interval that was encoded reads as many bytes as the encode has shifted out, and the decoder stands where the
encoder stood after it. The state `q` after the query may differ from `d` in the model and in what the host sees. -/
theorem Tracks.updated {s u t d q : State} {tail rest : List Byte} (h : Tracks s t d tail rest) {start size total k j : Nat}
    (hn : Narrowed s u start size total k) (hu : CodedWithin u t j) (hcoder : q.coder = d.coder.queried total)
    (hports : q.ports.input = d.ports.input) (heod : q.ports.eod = d.ports.eod) (hevents : q.events.zfill = d.events.zfill)
    (hcount : q.events.cntZfill = d.events.cntZfill) (hready : (q.updated start size k).coder.DecReady) :
    Tracks u t (q.updated start size k) (tail.drop k) rest := by
  obtain ⟨hsplit, hlo, hhi⟩ := h.code_inside hn hu
  have hrange : q.coder.range.toNat = s.coder.range.toNat / total := by
    rw [hcoder, Coder.queried_range, h.range]
  have hcode : q.coder.code = d.coder.code := by rw [hcoder]; rfl
  have hinput : q.ports.input = tail ++ rest := hports.trans h.input
  have hdrop : (tail.drop k).length = j := by
    rw [List.length_drop]
    omega
  have hwidth : q.coder.range.toNat * size * 256 ^ k < 2 ^ 32 := by
    rw [hrange, ← hn.width]
    exact BitVec.isLt _
  rw [h.range, ← hrange, ← hcode] at hlo hhi
  obtain ⟨hnewRange, hnewCode⟩ := State.updated_coder hwidth hlo hhi
  obtain ⟨hz, hc⟩ := State.afterReads_unstarved (d := q) (k := k) (by rw [hinput, List.length_append]; omega)
    (hevents.trans h.zfill) (hcount.trans h.cntZfill)
  refine ⟨hready, heod.trans h.eod, ?_, ?_, ?_, ?_, hz, hc⟩
  · show q.ports.input.drop k = _
    rw [hinput, List.drop_append_of_le_length (by omega)]
  · rw [hnewRange, hrange, hn.width]
  · rw [hdrop, hu.length]
  · rw [hnewCode, State.nextBytes_of_input hinput (by omega), hcode, h.number, hn.number, bytesNumber_take_drop tail k, hdrop,
      hsplit, Nat.pow_add, hrange]
    rw [hrange, hcode] at hlo
    obtain ⟨x, hx⟩ := Nat.exists_eq_add_of_le hlo
    rw [hx, Nat.add_sub_cancel_left]
    ring

/-! ### The two runs -/

/-- The commands that decode an interval. -/
abbrev Interval.decode (v : Interval) : List Instr := [.rcGetFreq v.total, .rcUpdate v.start v.size]

/-- A value answered for an interval, and the response to its update. -/
abbrev valueResponses (v : Nat) : List Word64 := [responseWord false 0 (BitVec.ofNat 32 v), 0]

/-- The run of the decode commands from `d`: it ends with no fault, answers a value in every interval, and leaves `rest` with nothing
zero-filled. -/
structure DecodeRun (vs : List Interval) (d e : State) (values : List Nat) (rest : List Byte) : Prop where
  run : execAll (vs.flatMap Interval.decode) d = .next e
  clear : e.fault.raised = false
  length : values.length = vs.length
  inside : ∀ p ∈ vs.zip values, p.1.start.toNat ≤ p.2 ∧ p.2 < p.1.start.toNat + p.1.size.toNat
  responses : e.ports.responses = d.ports.responses ++ values.flatMap valueResponses
  input : e.ports.input = rest
  zfill : e.events.zfill = false
  cntZfill : e.events.cntZfill = 0

/-- One interval: the query answers a value in it, and after the update the decoder follows the encoder still. -/
theorem Tracks.decode {s u t d : State} {tail rest : List Byte} (h : Tracks s t d tail rest) (hd : d.fault.raised = false)
    {v : Interval} (hv : v.Valid) {k j : Nat} (hn : Narrowed s u v.start.toNat v.size.toNat v.total.toNat k)
    (hu : CodedWithin u t j) :
    ∃ q e value, exec (.rcGetFreq v.total) d = .next q ∧ exec (.rcUpdate v.start v.size) q = .next e ∧
      v.start.toNat ≤ value ∧ value < v.start.toNat + v.size.toNat ∧
      e.ports.responses = d.ports.responses ++ valueResponses value ∧ e.fault.raised = false ∧
      Tracks u t e (tail.drop k) rest := by
  have hpos : 1 ≤ v.total.toNat := by
    have := hv.1
    have := hv.2
    omega
  obtain ⟨hlo, hhi⟩ := h.value_inside hpos v.total.isLt hn hu
  obtain ⟨hquery, k', -, hwide, hok, -, hrun⟩ := exec_query_update hd h.ready hv.1 hv.2 hlo hhi
  have hwide' := hn.widened
  rw [hn.width, ← h.range] at hwide'
  obtain rfl := hwide.rounds_unique hwide'
  have hinput : d.inputReady k' := .inl h.eod
  have hready := ((hrun (d.queriedAt v.total.toNat) rfl rfl rfl).1 hinput).2
  refine ⟨_, _, d.valueAt v.total.toNat, hquery, hok hinput, hlo, hhi, List.append_assoc _ _ _, hd, ?_⟩
  have htracks := h.updated (q := d.queriedAt v.total.toNat) hn hu rfl rfl rfl rfl rfl hready
  exact ⟨htracks.ready, htracks.eod, htracks.input, htracks.range, htracks.length, htracks.number, htracks.zfill,
    htracks.cntZfill⟩

/-- The decoder follows the encoder through the whole list; at the flush nothing of the stream is left. -/
theorem Tracks.decodeRun (vs : List Interval) (hvs : ∀ v ∈ vs, v.Valid) {s t d : State} {tail rest : List Byte}
    (hs : s.Encoding) (hrun : execAll (encodeTail vs) s = .next t) (ht : t.fault.raised = false)
    (h : Tracks s t d tail rest) (hd : d.fault.raised = false) : ∃ e values, DecodeRun vs d e values rest := by
  induction vs generalizing s d tail with
  | nil =>
    obtain ⟨-, hlength⟩ := hs.flush_last hrun ht
    have hempty : tail = [] := List.eq_nil_of_length_eq_zero (by have := h.length; omega)
    refine ⟨d, [], rfl, hd, rfl, nofun, (List.append_nil _).symm, ?_, h.zfill, h.cntZfill⟩
    rw [h.input, hempty, List.nil_append]
  | cons v vs ih =>
    have hv := hvs v List.mem_cons_self
    have hvs' := fun w hw => hvs w (List.mem_cons_of_mem v hw)
    obtain ⟨u, k, hu, hn, hrest⟩ := hs.encode_first hv hrun ht
    obtain ⟨j, hwithin⟩ := encodeTail_codedWithin vs hvs' hu hrest ht
    obtain ⟨q, e, value, hquery, hupdate, hlo, hhi, hresp, he, htracks⟩ := h.decode hd hv hn hwithin
    obtain ⟨f, values, hf⟩ := ih hvs' hu hrest htracks he
    refine ⟨f, value :: values, ?_, hf.clear, congrArg (· + 1) hf.length, ?_, ?_, hf.input, hf.zfill, hf.cntZfill⟩
    · exact execAll_cons.mpr ⟨q, hquery, execAll_cons.mpr ⟨e, hupdate, hf.run⟩⟩
    · intro p hp
      rcases List.mem_cons.mp hp with rfl | hp
      · exact ⟨hlo, hhi⟩
      · exact hf.inside p hp
    · rw [hf.responses, hresp, List.append_assoc]
      rfl

/-- `CODE` after `RC_INIT_DEC` is the number that the first 4 bytes spell (40_rangecoder.md R112). -/
theorem State.decodeStarted_code (d : State) : d.decodeStarted.coder.code.toNat = bytesNumber (d.nextBytes 4) := by
  have hlt := bytesNumber_lt (d.nextBytes 4)
  rw [State.nextBytes_length] at hlt
  show (BitVec.ofNat 32 (0 * 256 ^ (d.nextBytes 4).length + bytesNumber (d.nextBytes 4))).toNat = _
  rw [BitVec.toNat_ofNat, Nat.zero_mul, Nat.zero_add]
  exact Nat.mod_eq_of_lt hlt

/-- After `RC_INIT_ENC` and `RC_INIT_DEC` the decoder stands where the encoder stood. -/
theorem decodeStarted_tracks {s u t d : State} {stream rest : List Byte} {k : Nat}
    (hnumber : u.codeNumber = bytesNumber s.ports.output * 2 ^ 32) (hcount : u.byteCount = s.ports.output.length)
    (hrange : u.coder.range = Config.rangeInit) (hu : CodedWithin u t k)
    (hout : t.ports.output = s.ports.output ++ stream) (heod : d.ports.eod = true) (hinput : d.ports.input = stream ++ rest) :
    Tracks u t (d.decodeStarted.respond 0) (stream.drop 4) rest := by
  have hlength := hu.length
  rw [hout, List.length_append, hcount] at hlength
  obtain ⟨-, hleft, hevents⟩ := rcInitDec_ok_counts (body_rcInitDec_ready (s := d) (.inl heod))
  have hfour : 4 ≤ d.ports.input.length := by
    rw [hinput, List.length_append]
    omega
  have hmissing : 4 - d.ports.input.length = 0 := by omega
  refine ⟨d.decodeStarted_ready, heod, ?_, congrArg BitVec.toNat hrange.symm, ?_, ?_, ?_, ?_⟩
  · rw [State.respond_ports]
    show d.decodeStarted.ports.input = _
    rw [hleft, hinput, List.drop_append_of_le_length (by omega)]
  · rw [hout, List.length_append, hcount, List.length_drop]
    omega
  · rw [State.respond_coder, State.decodeStarted_code, State.nextBytes_of_input hinput (by omega), hnumber, hout,
      bytesNumber_append, bytesNumber_take_drop stream 4]
    have hlen : stream.length = (stream.drop 4).length + 4 := by
      rw [List.length_drop]
      omega
    rw [hlen, Nat.pow_add]
    ring
  · rw [State.respond_events, hevents]
    exact decide_eq_false (by omega)
  · rw [State.respond_events, hevents]
    show BitVec.ofNat 32 (4 - d.ports.input.length) = 0
    rw [hmissing]
    rfl

/-- Settles O59: the decoder is set up where the encoder was, and follows it. -/
theorem coderRoundTrip : Obligations.CoderRoundTrip := by
  intro vs s t d stream rest hvs hs hencode ht hout hd heod hinput
  obtain ⟨u, hu, hrest⟩ := execAll_cons.mp hencode
  obtain ⟨henc, hnumber, hcount, hrange⟩ := State.encodeStarted hs hu
  obtain ⟨k, hwithin⟩ := encodeTail_codedWithin vs hvs henc hrest ht
  have htracks := decodeStarted_tracks hnumber hcount hrange hwithin hout heod hinput
  obtain ⟨e, values, he⟩ := htracks.decodeRun vs hvs henc hrest ht hd
  refine ⟨e, values, execAll_cons.mpr ⟨_, exec_rcInitDec_ready hd (.inl heod), he.run⟩, he.clear, he.length, he.inside, ?_,
    he.input, he.zfill, he.cntZfill⟩
  rw [he.responses]
  exact List.append_assoc _ _ _

end Sys2Proof.Machine
end

section
/-! PROOFS. Context records: the fresh record, rescale, the count of a hit, and the scan (41_contextmodel.md R141 to R145, R153). -/

namespace Sys2Proof.Machine

/-! ### The fresh record (41_contextmodel.md R141) -/

theorem Context.fresh_freq (k : Order) (s : Sym) : (Context.fresh k).freq[s] = 1 := by simp [Context.fresh]

theorem Context.fresh_succ (k : Order) (s : Sym) : (Context.fresh k).succ[s] = 0 := by simp [Context.fresh]

/-- Settles O44: `init_ctx` is one write of the arena. -/
theorem freshRecord : Obligations.FreshRecord := by
  intro k
  refine ⟨fun n s => ⟨_, writeCtx_run n (Context.fresh k) s, rfl, ?_, fun m hm => ?_⟩,
    fun s => ⟨Context.fresh_freq k s, Context.fresh_succ k s⟩, rfl, rfl, rfl, Context.fresh_sound⟩
  · exact Memory.read_write_same _ n _
  · exact Memory.read_write_other _ _ hm

/-! ### Rescale (41_contextmodel.md R144) -/

/-- Half of at most 257 counts rounds up, so a table of at most 0x8000 fits 16 bits when halved. -/
theorem Context.rescale_counts_le (x : Context) (h : x.counts.sum ≤ 0x8000) : x.rescale.counts.sum ≤ 16512 := by
  have hhalf := sum_halved_le x.counts
  rw [← x.rescale_counts, x.counts_length] at hhalf
  omega

theorem Context.rescale_sum_toNat (x : Context) (h : x.counts.sum ≤ 0x8000) : x.rescale.sum.toNat = x.rescale.counts.sum := by
  have hle := x.rescale_counts_le h
  rw [Context.rescale_sum, BitVec.toNat_ofNat, Nat.mod_eq_of_lt (by omega)]

/-- A table entry is 0 exactly where its number is. -/
theorem Context.freq_ne_zero_iff (x : Context) (s : Sym) : x.freq[s] ≠ 0 ↔ (x.freq[s]).toNat ≠ 0 :=
  not_congr BitVec.toNat_inj.symm

/-- Settles O45: each count is halved on its own, and halving keeps the order of numbers and what is not 0. -/
theorem rescaleRule : Obligations.RescaleRule := by
  intro x
  have hfreq : ∀ s : Sym, (x.rescale.freq[s]).toNat = ((x.freq[s]).toNat + 1) / 2 := fun s => x.rescale_freq s.isLt
  refine ⟨hfreq, x.rescale_esc, x.rescale_sum, fun h => ?_, x.rescale_succ, x.rescale_order, fun s hs => ?_, fun s t hst => ?_⟩
  · have hsum := x.rescale_sum_toNat h
    exact ⟨hsum, hsum ▸ x.rescale_counts_le h⟩
  · rw [Context.freq_ne_zero_iff] at hs ⊢
    rw [hfreq]
    omega
  · rw [hfreq, hfreq]
    omega

/-! ### A hit (41_contextmodel.md R145) -/

/-- Below the limit a hit is counted and nothing is halved. -/
theorem Context.hit_below {x : Context} (h : x.Sound) (hlt : x.sum.toNat < 0x7FFF) (s : Sym) : x.hit s = x.counted s := by
  obtain ⟨hsum, -⟩ := Context.counted_sum_toNat h s
  rw [← h.sum_eq] at hsum
  rw [Context.hit_eq, if_neg (by show ¬ 0x7FFF < _; omega)]

/-- At the limit the counted record is halved. -/
theorem Context.hit_at_limit {x : Context} (h : x.Sound) (heq : x.sum.toNat = 0x7FFF) (s : Sym) :
    x.hit s = (x.counted s).rescale := by
  obtain ⟨hsum, -⟩ := Context.counted_sum_toNat h s
  rw [← h.sum_eq] at hsum
  rw [Context.hit_eq, if_pos (by show 0x7FFF < _; omega)]

/-- No count of a sound record is full. -/
theorem Context.counted_freq_same {x : Context} (h : x.Sound) (s : Sym) :
    ((x.counted s).freq[s]).toNat = (x.freq[s]).toNat + 1 := by
  have hfreq := x.freq_le_sum s
  have hsum := h.sum_toNat_lt
  have hcount : (x.counted s).freq[s] = x.freq[s] + 1 := (x.counted_freq s s.isLt).trans (if_pos rfl)
  rw [hcount, BitVec.toNat_add, show (1 : Count).toNat = 1 from rfl, Nat.mod_eq_of_lt (by omega)]

theorem Context.counted_freq_other (x : Context) {s t : Sym} (h : t ≠ s) : (x.counted s).freq[t] = x.freq[t] :=
  (x.counted_freq s t.isLt).trans (if_neg fun hval => h (Fin.ext hval.symm))

/-- Settles O46: a hit counts the symbol, and halves the counted record where `sum` was at the limit. -/
theorem hitCount : Obligations.HitCount := by
  intro x s h
  refine ⟨Context.hit_sound h s, x.hit_succ s, x.hit_order s, fun hlt => ?_, fun heq => ?_⟩
  · obtain ⟨hsum, -⟩ := Context.counted_sum_toNat h s
    rw [Context.hit_below h hlt]
    exact ⟨Context.counted_freq_same h s, by rw [hsum, h.sum_eq], rfl, fun t ht => x.counted_freq_other ht⟩
  · have hhalf : ∀ t : Sym, ((x.counted s).rescale.freq[t]).toNat = (((x.counted s).freq[t]).toNat + 1) / 2 :=
      fun t => (x.counted s).rescale_freq t.isLt
    rw [Context.hit_at_limit h heq]
    refine ⟨by rw [hhalf, Context.counted_freq_same h], (x.counted s).rescale_esc, fun t ht => ?_⟩
    rw [hhalf, x.counted_freq_other ht]

/-! ### The scan (41_contextmodel.md R142, R153) -/

/-- The largest total of a coding step (41_contextmodel.md R167). -/
theorem Context.Sound.total_le {x : Context} (h : x.Sound) : x.total ≤ 0x17FFF := by
  have hsum : x.sum.toNat ≤ 0x7FFF := h.sum_le
  have hesc := x.esc.isLt
  unfold Context.total
  omega

/-- Settles O47: `cum` grows by one entry at a time, and the scan answers the first interval that reaches above the value. -/
theorem scanFinds : Obligations.ScanFinds := by
  intro x h
  refine ⟨⟨x.cum_zero, fun s => ⟨x.cum_succ s.isLt, h.freq_pos s⟩, x.cum_all.trans h.sum_eq.symm, rfl, h.total_le⟩,
    fun v hv => ?_⟩
  obtain ⟨s, hs⟩ := Context.scan_isSome (h.sum_eq ▸ hv)
  obtain ⟨hlo, hhi⟩ := Context.scan_some hs
  exact ⟨s, hs, hlo, hhi, fun t htlo hthi => Context.interval_unique ⟨htlo, hthi⟩ ⟨hlo, hhi⟩⟩

end Sys2Proof.Machine
end

section
/-! PROOFS. The context model's commands: where each completes, where its checks refuse it, and what that leaves in `CM_MODE`
(41_contextmodel.md R152, R156 to R161). -/

namespace Sys2Proof.Machine

/-! ### The checks (60_exceptions.md R203) -/

/-- `CM_RESET`'s check (R156). -/
theorem body_cmReset_refused {s : State} (h : s.setup.modelOrder = 0) : (body .cmReset).run s = .error (.raise .seq) s := by
  rw [body, get_bind_run, check_bind_run, if_neg (by simp [h])]

/-- `CM_START_ENC`'s check (R157). -/
theorem body_cmStartEnc_refused {s : State} (h : ¬ (s.model.mode = .fresh ∨ s.model.mode = .enc)) :
    (body .cmStartEnc).run s = .error (.raise .seq) s := by
  rw [body, get_bind_run, check_bind_run, if_neg (by simpa using h)]

/-- `CM_START_DEC`'s check (R158). -/
theorem body_cmStartDec_refused {s : State} (h : ¬ (s.model.mode = .fresh ∨ s.model.mode = .dec)) :
    (body .cmStartDec).run s = .error (.raise .seq) s := by
  rw [body, get_bind_run, check_bind_run, if_neg (by simpa using h)]

/-- `CM_ENCODE`'s check of the two modes (R159). -/
theorem body_cmEncode_refused {s : State} (sym : Operand) (h : s.model.mode ≠ .enc ∨ s.coder.mode ≠ .enc) :
    (body (.cmEncode sym)).run s = .error (.raise .seq) s := by
  rw [body, get_bind_run, check_bind_run, if_neg]
  rw [Bool.and_eq_true, beq_iff_eq, beq_iff_eq]
  tauto

/-- `CM_ENCODE`'s check of the symbol (R159). -/
theorem body_cmEncode_badSymbol {s : State} {sym : Operand} (hm : s.model.mode = .enc) (hc : s.coder.mode = .enc)
    (hsym : 256 < sym.toNat) : (body (.cmEncode sym)).run s = .error (.raise .arg) s := by
  have hnone : symOperand sym = none := dif_neg (by omega)
  rw [body, get_bind_run, check_bind_run, if_pos (by rw [hm, hc]; rfl), hnone]
  rfl

/-- `CM_DECODE`'s check of the two modes and of the pending query (R160). -/
theorem body_cmDecode_refused {s : State} (h : s.model.mode ≠ .dec ∨ s.coder.mode ≠ .dec ∨ s.coder.dpend = true) :
    (body .cmDecode).run s = .error (.raise .seq) s := by
  rw [body, get_bind_run, check_bind_run, if_neg]
  rw [Bool.and_eq_true, Bool.and_eq_true, beq_iff_eq, beq_iff_eq, Bool.not_eq_true', ← Bool.not_eq_true]
  tauto

/-! ### CM_RESET and the two starts (R156 to R158) -/

theorem exec_cmReset_ok {s : State} (hs : s.fault.raised = false) (ho : s.setup.modelOrder ≠ 0) :
    exec .cmReset s = .next (((s.withModel fun _ =>
      { mode := .fresh, active := 0, ctxCount := 1, arena := [(0, Context.fresh 0)] }).withEvents
        fun v => { v with cntSym := 0 }).respond 0) := by
  rw [exec_clear hs]
  apply runCommand_ok
  rw [body, get_bind_run, check_bind_run, if_pos (bne_iff_ne.mpr ho)]
  rfl

theorem exec_cmStartEnc_ok {s : State} (hs : s.fault.raised = false) (hm : s.model.mode = .fresh ∨ s.model.mode = .enc) :
    exec .cmStartEnc s = .next ((s.withModel fun m => { m with active := 0, mode := .enc }).respond 0) := by
  rw [exec_clear hs]
  apply runCommand_ok
  rw [body, get_bind_run, check_bind_run, if_pos (by simpa using hm)]
  rfl

theorem exec_cmStartDec_ok {s : State} (hs : s.fault.raised = false) (hm : s.model.mode = .fresh ∨ s.model.mode = .dec) :
    exec .cmStartDec s = .next ((s.withModel fun m => { m with active := 0, mode := .dec }).respond 0) := by
  rw [exec_clear hs]
  apply runCommand_ok
  rw [body, get_bind_run, check_bind_run, if_pos (by simpa using hm)]
  rfl

/-- Settles O48: past its check `CM_RESET` only writes. -/
theorem modelResetResult : Obligations.ModelResetResult := fun _ hs =>
  ⟨exec_cmReset_ok hs, fun ho => exec_refused hs (body_cmReset_refused ho)⟩

/-- Settles O49: past their checks the starts only write `ACTIVE` and the mode. -/
theorem startResults : Obligations.StartResults := fun _ hs =>
  ⟨exec_cmStartEnc_ok hs, fun hf he => exec_refused hs (body_cmStartEnc_refused (not_or.mpr ⟨hf, he⟩)),
    exec_cmStartDec_ok hs, fun hf hd => exec_refused hs (body_cmStartDec_refused (not_or.mpr ⟨hf, hd⟩))⟩

/-! ### Where the symbol commands trap (R152, R159, R160) -/

/-- A value of `total` or more at the first context tried: `E_DESYNC`, with the query pending. -/
theorem modelDecodeFrom_desync {s : State} {c : Nat} {x : Context} {lower : List Nat} (h : s.coder.DecReady)
    (hx : s.model.arena.read c = some x) (hs : x.Sound) (hv : x.total ≤ s.valueAt x.total) :
    (modelDecodeFrom (c :: lower)).run s = .error (.raise .desync) (s.withCoder (Coder.queried x.total)) := by
  simp only [modelDecodeFrom, EStateM.run_bind, readCtx_some hx,
    (rcGetFreq_ready h (by unfold Context.total; omega) hs.total_lt).1, decide_eq_false (Nat.not_lt.mpr hv), check_false]

/-- Settles O53: the checks come before any write, and the query before the value is looked at. -/
theorem symbolTraps : Obligations.SymbolTraps := by
  intro sym s hs
  refine ⟨fun h => exec_refused hs (body_cmEncode_refused sym h),
    fun hm hc hsym => exec_refused hs (body_cmEncode_badSymbol hm hc hsym),
    fun h => exec_refused hs (body_cmDecode_refused h), fun hinv hm hc hd => ?_⟩
  have hdec := hinv.decoding hs hm hc hd
  obtain ⟨x, hx⟩ := hinv.model.activeRecord (by rw [hm]; decide)
  have hsound := hinv.model.records _ x hx
  refine ⟨x, hx, fun hv => ⟨(s.coder.queried x.total).range, (s.coder.queried x.total).dtot, Coder.queried_range, ?_, ?_⟩⟩
  · exact (BitVec.toNat_ofNat _ _).trans (Nat.mod_eq_of_lt hsound.total_lt)
  · obtain ⟨lower, hladder⟩ := s.model.ladder_head
    exact exec_cmDecode_raise hdec ((modelDecode_run hladder).trans (modelDecodeFrom_desync hdec.coder hx hsound hv))

/-! ### The state machine (R161) -/

/-- What a completed command that responds `d` may leave in `CM_MODE`: the table of R161. -/
def cmModeAfter : Instr → State → Word32 → CmMode → Prop
  | .blkReset, _, _, m => m = .idle
  | .cmReset, s, _, m => s.setup.modelOrder ≠ 0 ∧ m = .fresh
  | .cmStartEnc, s, _, m => (s.model.mode = .fresh ∨ s.model.mode = .enc) ∧ m = .enc
  | .cmStartDec, s, _, m => (s.model.mode = .fresh ∨ s.model.mode = .dec) ∧ m = .dec
  | .cmEncode sym, s, _, m => s.model.mode = .enc ∧ (m = .enc ∨ sym = 256 ∧ m = .term)
  | .cmDecode, s, d, m => s.model.mode = .dec ∧ (m = .dec ∨ d = 256 ∧ m = .term)
  | _, s, _, m => m = s.model.mode

/-- The end of a symbol leaves the mode, or ends the chunk after the terminator (R159, R160). -/
theorem symbolDone_mode {n : Nat} {v u : State} (h : (symbolDone n).run v = .ok () u) :
    u.model.mode = v.model.mode ∨ n = 256 ∧ u.model.mode = .term := by
  rw [symbolDone_run] at h
  cases h
  by_cases hn : n = 256
  · exact .inr ⟨hn, if_pos hn⟩
  · exact .inl (if_neg hn)

/-- What a completed command leaves in `CM_MODE`. -/
theorem body_ok_cmMode {i : Instr} {s u : State} {d : Word32} (h : (body i).run s = .ok d u) :
    cmModeAfter i s d u.model.mode := by
  have hc := body_ok h
  cases i with
  | nop => obtain ⟨-, rfl⟩ := hc; rfl
  | blkReset => obtain ⟨-, rfl⟩ := hc; rfl
  | csrRd c => obtain ⟨-, -, -, rfl⟩ := hc; rfl
  | csrWr c d => obtain ⟨-, ⟨-, -, rfl⟩ | ⟨-, -, ⟨-, -, -, rfl⟩ | ⟨-, -, -, rfl⟩⟩⟩ := hc <;> rfl
  | dbgRd c o => obtain ⟨-, -, -, -, rfl⟩ := hc; rfl
  | rcInitEnc => obtain ⟨-, rfl⟩ := hc; rfl
  | rcEncode a b c =>
    obtain ⟨-, -, -, -, hr⟩ := hc
    exact congrArg Model.mode ((rcEncode_frame _ _ _).of_ok hr).model
  | rcFlush =>
    obtain ⟨-, v, hr, -, rfl⟩ := hc
    exact congrArg Model.mode ((shiftLowTimes_frame 5).of_ok hr).model
  | rcInitDec => rw [body_rcInitDec_ok h]; rfl
  | rcGetFreq c =>
    obtain ⟨-, -, -, v, -, hr⟩ := hc
    exact congrArg Model.mode ((rcGetFreq_frame _).of_ok hr).model
  | rcUpdate a b =>
    obtain ⟨-, -, -, -, -, hr⟩ := hc
    exact congrArg Model.mode ((rcUpdate_frame _ _).of_ok hr).model
  | cmReset => obtain ⟨-, ho, rfl⟩ := hc; exact ⟨ho, rfl⟩
  | cmStartEnc => obtain ⟨-, hm, rfl⟩ := hc; exact ⟨hm, rfl⟩
  | cmStartDec => obtain ⟨-, hm, rfl⟩ := hc; exact ⟨hm, rfl⟩
  | cmEncode sym =>
    obtain ⟨-, hm, -, a, v, hsym, hr, hd⟩ := hc
    refine ⟨hm, (symbolDone_mode hd).imp (fun hmode => ?_) fun ⟨ha, hterm⟩ => ⟨?_, hterm⟩⟩
    · exact hmode.trans ((modelEncode_ok_frame hr).2.1.trans hm)
    · exact BitVec.eq_of_toNat_eq (hsym.trans ha)
  | cmDecode =>
    obtain ⟨hm, -, -, n, v, rfl, hr, hd⟩ := hc
    refine ⟨hm, (symbolDone_mode hd).imp (fun hmode => ?_) fun ⟨hn, hterm⟩ => ⟨by rw [hn]; rfl, hterm⟩⟩
    exact hmode.trans ((modelDecode_ok_frame hr).2.1.trans hm)

/-- Settles O20: a command that does not complete keeps the mode, and one that does moves it by the table. -/
theorem cmModeMachine : Obligations.CmModeMachine := by
  refine ⟨fun i s t h hne => ?_, fun i s hs hi => exec_refused hs ?_⟩
  · rcases exec_ends h with ⟨d, u, hu, ht, hresp⟩ | ⟨u, hu, ht, -⟩
    · have hmode := body_ok_cmMode hu
      rw [← ht.model] at hmode
      cases i with
      | blkReset => exact .inl ⟨rfl, hmode⟩
      | cmReset => exact .inr (.inl ⟨rfl, hmode⟩)
      | cmStartEnc => exact .inr (.inr (.inl ⟨rfl, hmode⟩))
      | cmStartDec => exact .inr (.inr (.inr (.inl ⟨rfl, hmode⟩)))
      | cmEncode sym =>
        obtain ⟨hm, hsame | ⟨rfl, hterm⟩⟩ := hmode
        · exact absurd (hsame.trans hm.symm) hne
        · exact .inr (.inr (.inr (.inr (.inl ⟨rfl, hm, hterm⟩))))
      | cmDecode =>
        obtain ⟨hm, hsame | ⟨rfl, hterm⟩⟩ := hmode
        · exact absurd (hsame.trans hm.symm) hne
        · exact .inr (.inr (.inr (.inr (.inr ⟨rfl, hm, hterm, hresp⟩))))
      | _ => exact absurd hmode hne
    · rw [ht.model] at hne
      exact absurd (uncompleted_frame hu).1.model.1.1 hne
  · cases i with
    | cmReset => exact body_cmReset_refused hi
    | cmStartEnc => exact body_cmStartEnc_refused (by rcases hi with h | h | h <;> simp [h])
    | cmStartDec => exact body_cmStartDec_refused (by rcases hi with h | h | h <;> simp [h])
    | cmEncode sym => exact body_cmEncode_refused sym hi
    | cmDecode => exact body_cmDecode_refused hi
    | _ => exact hi.elim

end Sys2Proof.Machine
end

section
/-! PROOFS. The successor links: every step keeps them a tree, and between resets they are only added to (41_contextmodel.md
R164). -/

namespace Sys2Proof.Machine

/-! ### What a command can do to the arena (41_contextmodel.md R145, R147) -/

/-- The arena `n` is that of the model `m` after escapes, and after a hit if there was one. -/
def Model.ArenaMoved (u : Setup) (m : Model) (n : Memory) : Prop :=
  ∃ e, m.Escaped e ∧ (n = e.arena ∨
    ∃ (c : Nat) (x : Context) (a : Sym), e.arena.read c = some x ∧ n = (e.afterHit u c x a).arena)

theorem Model.ArenaMoved.same {u : Setup} {m : Model} {n : Memory} (h : n = m.arena) : m.ArenaMoved u n :=
  ⟨m, .refl, .inl h⟩

theorem Model.Symboled.arenaMoved {u : Setup} {m n : Model} (h : m.Symboled u n) : m.ArenaMoved u n.arena := by
  obtain ⟨e, he, rfl | ⟨c, x, a, hx, rfl⟩⟩ := h
  · exact ⟨e, he, .inl rfl⟩
  · exact ⟨e, he, .inr ⟨c, x, a, hx, rfl⟩⟩

/-- However a command ends: the two resets drop the records, and every other command moves the arena by escapes and one hit. -/
theorem exec_arena {i : Instr} {s t : State} (h : exec i s = .next t) :
    (i = .blkReset ∧ t.model.arena = []) ∨ (i = .cmReset ∧ t.model.arena = [(0, Context.fresh 0)]) ∨
    s.model.ArenaMoved s.setup t.model.arena := by
  rcases exec_ends h with ⟨d, u, hu, ht, -⟩ | ⟨u, rfl | ⟨e, hu⟩, ht, -⟩ <;> rw [ht.model]
  · rcases body_ok_moves hu with hempty | hroot | hsame | ⟨hmoves, -⟩
    · exact .inl hempty
    · exact .inr (.inl hroot)
    · exact .inr (.inr (.same hsame))
    · exact .inr (.inr hmoves.arenaMoved)
  · exact .inr (.inr (.same rfl))
  · exact .inr (.inr ⟨u.model, body_raise_escaped hu, .inl rfl⟩)

/-! ### The tree -/

/-- What the link tree's two properties do from one arena to the next. -/
structure Memory.KeepsTree (m n : Memory) : Prop where
  injective : m.LinksInjective → n.LinksInjective
  cover : m.LinksCover → n.LinksCover

theorem Memory.KeepsTree.refl (m : Memory) : m.KeepsTree m := ⟨id, id⟩

theorem Memory.KeepsTree.trans {m n k : Memory} (h : m.KeepsTree n) (h' : n.KeepsTree k) : m.KeepsTree k :=
  ⟨h'.injective ∘ h.injective, h'.cover ∘ h.cover⟩

theorem Memory.KeepsTree.of_tree {m n : Memory} (hi : n.LinksInjective) (hc : n.LinksCover) : m.KeepsTree n :=
  ⟨fun _ => hi, fun _ => hc⟩

theorem Memory.linksInjective_nil : Memory.LinksInjective [] := fun _ _ _ _ _ _ hx => nomatch hx

theorem Memory.linksCover_nil : Memory.LinksCover [] := fun _ _ hy => nomatch hy

/-- The arena after `CM_RESET` reads as the fresh root alone. -/
theorem Memory.read_root {c : Nat} {x : Context} (h : Memory.read [(0, Context.fresh 0)] c = some x) :
    c = 0 ∧ x = Context.fresh 0 := by
  rw [Memory.read_cons] at h
  split at h
  · cases h
    exact ⟨Eq.symm ‹_›, rfl⟩
  · cases h

theorem Memory.linksInjective_root : Memory.LinksInjective [(0, Context.fresh 0)] := by
  intro c d x y s t hx hy hne
  obtain ⟨-, rfl⟩ := Memory.read_root hx
  exact absurd (Context.fresh_succ 0 s) hne

theorem Memory.linksCover_root : Memory.LinksCover [(0, Context.fresh 0)] :=
  fun _ _ hy hc => absurd (Memory.read_root hy).1 hc

/-- Escapes keep every link, and a hit links at most the new record. -/
theorem Model.Sound.arenaMoved_keepsTree {u : Setup} (hu : u.Sound) {m : Model} (h : m.Sound u) {n : Memory}
    (hn : m.ArenaMoved u n) : m.arena.KeepsTree n := by
  obtain ⟨e, he, hn⟩ := hn
  have hescaped : m.arena.KeepsTree e.arena := ⟨fun hi => hi.of_links he.links, fun hc => hc.of_links he.links⟩
  have hsound := (h.escaped he).1
  rcases hn with rfl | ⟨c, x, a, hx, rfl⟩
  · exact hescaped
  · exact hescaped.trans ⟨hsound.afterHit_injective hu hx a, hsound.afterHit_cover hu hx a⟩

theorem exec_keepsTree {i : Instr} {s t : State} (hinv : s.Inv) (h : exec i s = .next t) :
    s.model.arena.KeepsTree t.model.arena := by
  rcases exec_arena h with ⟨-, hempty⟩ | ⟨-, hroot⟩ | hmoved
  · rw [hempty]; exact .of_tree Memory.linksInjective_nil Memory.linksCover_nil
  · rw [hroot]; exact .of_tree Memory.linksInjective_root Memory.linksCover_root
  · exact Model.Sound.arenaMoved_keepsTree hinv.setup hinv.model hmoved

theorem runWord_keepsTree {w : Word64} {s t : State} (hinv : s.Inv) (h : runWord w s = .next t) :
    s.model.arena.KeepsTree t.model.arena := by
  unfold runWord at h
  split at h
  · exact exec_keepsTree hinv h
  · rw [illegalWord_model h]; exact .refl _

/-- The host resets RCCM or leaves the arena. -/
theorem hostMove_keepsTree (s : State) : s.model.arena.KeepsTree (hostMove s).model.arena := by
  rcases hostMove_cases s with ⟨rest, -, hreset⟩ | ⟨-, p, hports, -⟩
  · rw [hreset]; exact .of_tree Memory.linksInjective_nil Memory.linksCover_nil
  · rw [hports]; exact .refl _

/-- Settles O57: the host, a command and an illegal word each keep the tree. -/
theorem stepKeepsLinkTree : Obligations.StepKeepsLinkTree := by
  refine ⟨fun s t hinv h => ?_, Memory.linksInjective_nil, Memory.linksCover_nil⟩
  suffices hkeeps : s.model.arena.KeepsTree t.model.arena from ⟨hkeeps.injective, hkeeps.cover⟩
  rcases step_cases h with ⟨-, rfl⟩ | ⟨w, u, -, -, hu, rfl⟩
  · exact hostMove_keepsTree s
  · have hword := runWord_keepsTree hinv hu
    split
    · exact hword.trans (hostMove_keepsTree u)
    · exact hword

/-! ### Links are only added -/

/-- The record `y` has the order of `x` and every link that `x` has. -/
def Context.Extends (x y : Context) : Prop := y.order = x.order ∧ ∀ a : Sym, x.succ[a] ≠ 0 → y.succ[a] = x.succ[a]

/-- Every record of `m` is a record of `n`, with its order and its links. -/
def Memory.Extends (m n : Memory) : Prop := ∀ c x, m.read c = some x → ∃ y, n.read c = some y ∧ x.Extends y

theorem Context.Extends.of_same {x y : Context} (ho : y.order = x.order) (hs : y.succ = x.succ) : x.Extends y :=
  ⟨ho, fun a _ => by rw [hs]⟩

theorem Context.Extends.trans {x y z : Context} (h : x.Extends y) (h' : y.Extends z) : x.Extends z := by
  refine ⟨h'.1.trans h.1, fun a ha => ?_⟩
  have hy := h.2 a ha
  rw [h'.2 a (hy ▸ ha), hy]

/-- A link is set where there was none. -/
theorem Context.extends_link {x : Context} {a : Sym} (h : x.succ[a] = 0) (n : CtxIndex) :
    x.Extends { x with succ := x.succ.set a n } := by
  refine ⟨rfl, fun b hb => ?_⟩
  have hne : a.val ≠ b.val := fun hval => hb (Fin.ext hval ▸ h)
  exact Vector.getElem_set_ne a.isLt b.isLt hne

theorem Memory.Extends.refl (m : Memory) : m.Extends m := fun _ x hx => ⟨x, hx, .of_same rfl rfl⟩

theorem Memory.Extends.trans {m n k : Memory} (h : m.Extends n) (h' : n.Extends k) : m.Extends k := by
  intro c x hx
  obtain ⟨y, hy, hxy⟩ := h c x hx
  obtain ⟨z, hz, hyz⟩ := h' c y hy
  exact ⟨z, hz, hxy.trans hyz⟩

/-- A record written back with its order and its links. -/
theorem Memory.extends_rewrite {m : Memory} {c : Nat} {x y : Context} (hx : m.read c = some x) (h : x.Extends y) :
    m.Extends (m.write c y) := by
  intro d z hz
  by_cases hd : d = c
  · subst hd
    rw [hx] at hz
    cases hz
    exact ⟨y, Memory.read_write_same _ _ _, h⟩
  · exact ⟨z, (Memory.read_write_other _ _ hd).trans hz, .of_same rfl rfl⟩

/-- A record written where there was none. -/
theorem Memory.extends_new {m : Memory} {c : Nat} (h : m.read c = none) (y : Context) : m.Extends (m.write c y) := by
  intro d z hz
  have hd : d ≠ c := by
    rintro rfl
    rw [h] at hz
    cases hz
  exact ⟨z, (Memory.read_write_other _ _ hd).trans hz, .of_same rfl rfl⟩

theorem Model.Escaped.arena_extends {m n : Model} (h : m.Escaped n) : m.arena.Extends n.arena := by
  induction h with
  | refl => exact .refl _
  | step _ hx ih => exact ih.trans (Memory.extends_rewrite hx (.of_same rfl rfl))

/-- The next free index holds no record (10_state.md R34). -/
theorem Model.Sound.read_ctxCount {m : Model} {u : Setup} (h : m.Sound u) : m.arena.read m.ctxCount.toNat = none := by
  rw [← Option.not_isSome_iff_eq_none, h.listed_iff]
  exact Nat.lt_irrefl _

/-- `update_model` writes a link only where the symbol had none. -/
theorem Model.Sound.afterHit_extends {m : Model} {u : Setup} (h : m.Sound u) {c : Nat} {x : Context}
    (hx : m.arena.read c = some x) (a : Sym) : m.arena.Extends (m.afterHit u c x a).arena := by
  have hcounted := Memory.extends_rewrite hx (.of_same (x.hit_order a) (x.hit_succ a))
  unfold Model.afterHit
  split
  · exact hcounted
  · rename_i hlink
    split
    · have hne : c ≠ m.ctxCount.toNat := Nat.ne_of_lt (Memory.read_lt_of_some h hx)
      have hfree : (m.arena.write c (x.hit a)).read m.ctxCount.toNat = none :=
        (Memory.read_write_other _ _ hne.symm).trans h.read_ctxCount
      have hread : ((m.arena.write c (x.hit a)).write m.ctxCount.toNat (Context.fresh (x.order + 1))).read c =
          some (x.hit a) := (Memory.read_write_other _ _ hne).trans (Memory.read_write_same _ _ _)
      exact (hcounted.trans (Memory.extends_new hfree _)).trans
        (Memory.extends_rewrite hread (Context.extends_link (not_not.mp hlink) _))
    · exact hcounted

/-- Settles O58: escapes keep the links, and a hit adds at most one. -/
theorem linksAppendOnly : Obligations.LinksAppendOnly := by
  intro i s t c x hinv h hreset hblk hx
  rcases exec_arena h with ⟨rfl, -⟩ | ⟨rfl, -⟩ | ⟨e, he, hmoved⟩
  · exact absurd rfl hblk
  · exact absurd rfl hreset
  · suffices hext : s.model.arena.Extends t.model.arena from hext c x hx
    rcases hmoved with hsame | ⟨d, y, a, hy, hhit⟩
    · rw [hsame]; exact he.arena_extends
    · rw [hhit]; exact he.arena_extends.trans ((hinv.model.escaped he).1.afterHit_extends hy a)

end Sys2Proof.Machine
end

section
/-! PROOFS. `CM_ENCODE` that completes: the symbol's interval at the active record, then `update_model` (41_contextmodel.md R151,
R159). -/

namespace Sys2Proof.Machine

/-- What `CM_ENCODE` adds where its `rc_encode` has left `v`: a hit at the active record, one more symbol, and the mode after it. -/
def State.symbolEncoded (x : Context) (a : Sym) (v : State) : State :=
  (((v.withModel (Model.afterHit v.setup v.model.active.toNat x a)).withEvents fun e =>
    { e with cntSym := e.cntSym + 1 }).withModel fun m => { m with mode := if a.val = 256 then .term else m.mode }).respond 0

@[simp] theorem State.symbolEncoded_coder (x : Context) (a : Sym) (v : State) : (v.symbolEncoded x a).coder = v.coder := by
  simp only [State.symbolEncoded, State.respond_coder, State.withModel_coder, State.withEvents_coder]

@[simp] theorem State.symbolEncoded_setup (x : Context) (a : Sym) (v : State) : (v.symbolEncoded x a).setup = v.setup := by
  simp only [State.symbolEncoded, State.respond_setup, State.withModel_setup, State.withEvents_setup]

@[simp] theorem State.symbolEncoded_fault (x : Context) (a : Sym) (v : State) : (v.symbolEncoded x a).fault = v.fault := by
  simp only [State.symbolEncoded, State.respond_fault, State.withModel_fault, State.withEvents_fault]

@[simp] theorem State.symbolEncoded_ports (x : Context) (a : Sym) (v : State) :
    (v.symbolEncoded x a).ports = (v.respond 0).ports := by
  simp only [State.symbolEncoded, State.respond_ports, State.withModel_ports, State.withEvents_ports]

/-- `CM_ENCODE` of a symbol that the active record codes, where its `rc_encode` completes (R151, R159). -/
theorem exec_cmEncode_ok {sym : Operand} {a : Sym} {x : Context} {s v : State} (hs : s.fault.raised = false)
    (hm : s.model.mode = .enc) (hc : s.coder.mode = .enc) (hsym : sym.toNat = a.val)
    (hx : s.model.arena.read s.model.active.toNat = some x) (hfreq : x.freq[a] ≠ 0)
    (h : (rcEncode (x.cum a.val) (x.freq[a]).toNat x.total).run s = .ok () v) :
    exec (.cmEncode sym) s = .next (v.symbolEncoded x a) := by
  have hframe := (rcEncode_frame _ _ _).of_ok h
  have hencode := modelEncode_run hx hfreq
  rw [h, ← hframe.setup, ← hframe.model] at hencode
  rw [exec_clear hs]
  apply runCommand_ok
  rw [body, get_bind_run, check_bind_run, if_pos (by rw [hm, hc]; rfl), symOperand_some.mpr hsym]
  exact (act_bind_of_ok hencode).trans (act_bind_of_ok (symbolDone_run a.val _))

/-- The model after an encoded symbol is that of the record counted, with the mode of R159. -/
theorem State.symbolEncoded_model {x : Context} {a : Sym} {s v : State} (hm : s.model.mode = .enc) (hmodel : v.model = s.model)
    (hsetup : v.setup = s.setup) :
    (v.symbolEncoded x a).model =
      { s.model.afterHit s.setup s.model.active.toNat x a with mode := if a.val = 256 then .term else .enc } := by
  have hmode := (Model.afterHit_coded s.setup s.model.active.toNat x a s.model).1
  rw [hm] at hmode
  rw [← hmode, ← hmodel, ← hsetup]
  rfl

/-- The terminator's operand is 256. -/
theorem operand_eq_term {sym : Operand} {a : Sym} (h : sym.toNat = a.val) : sym = 256 ↔ a.val = 256 := by
  rw [← BitVec.toNat_inj, h]
  rfl

/-- Settles O50: a sound record codes every symbol, and with room for 3 more held bytes `rc_encode` completes. -/
theorem modelEncodeResult : Obligations.ModelEncodeResult := by
  intro sym a s hinv hs hm hc hsym hroom
  obtain ⟨x, hx⟩ := hinv.model.activeRecord (by rw [hm]; decide)
  have hsound := hinv.model.records _ x hx
  have hfit := hsound.hit_fits a
  have hpos := hsound.freq_pos a
  have htotal := hsound.total_lt
  obtain ⟨start, hstart⟩ := Operand.exists_toNat (n := x.cum a.val) (by omega)
  obtain ⟨size, hsize⟩ := Operand.exists_toNat (n := (x.freq[a]).toNat) (by omega)
  obtain ⟨total, htot⟩ := Operand.exists_toNat htotal
  obtain ⟨-, hrange, hcarry⟩ := (hinv.coder hs).encReady hc
  rcases rcEncode_spec hcarry hrange htotal hpos hfit with ⟨k, v, -, hrun, -⟩ | ⟨hfull, -⟩
  · have hframe := (rcEncode_frame _ _ _).of_ok hrun
    have hmodel := State.symbolEncoded_model (x := x) (a := a) hm hframe.model hframe.setup
    refine ⟨x, start, size, total, v.respond 0, v.symbolEncoded x a, hx, hstart, hsize, htot, ?_,
      exec_cmEncode_ok hs hm hc hsym hx (hsound.freq_ne_zero a) hrun, v.symbolEncoded_coder x a,
      (v.symbolEncoded_setup x a).trans hframe.setup, (v.symbolEncoded_fault x a).trans hframe.fault,
      v.symbolEncoded_ports x a, ?_, ?_, ?_⟩
    · refine exec_rcEncode_ok hs hc (intervalFits_iff.mpr ?_) ?_
      · rw [hstart, hsize, htot]; exact ⟨hpos, hfit⟩
      · rw [hstart, hsize, htot]; exact hrun
    · rw [← hframe.cntSym]
      rfl
    · simp only [hmodel, operand_eq_term hsym]
    · rw [hmodel]
      exact (Model.afterHit_hitUpdate hinv.setup hinv.model hx a).withMode _
  · exact absurd hroom hfull

end Sys2Proof.Machine
end

section
/-! PROOFS. Decompressing what was compressed (41_contextmodel.md R168, 70_reset_and_hazards.md R245, R247): the decoder's model is the
encoder's before every symbol, so the value decoded lies in the interval of the symbol encoded. -/

namespace Sys2Proof.Machine

/-! ### One symbol encoded (41_contextmodel.md R159) -/

/-- A machine in the middle of compressing a chunk. -/
structure State.Compressing (s : State) : Prop where
  inv : s.Inv
  clear : s.fault.raised = false
  mode : s.model.mode = .enc
  coder : s.coder.mode = .enc

/-- `CM_ENCODE` of the symbol `a` led from `s` to `u`: `x` is the record that coded it, and `k` the number of the coder's shifts. -/
structure SymbolStep (s u : State) (a : Sym) (x : Context) (k : Nat) : Prop where
  record : s.model.arena.read s.model.active.toNat = some x
  sound : x.Sound
  narrowed : Narrowed s u (x.cum a.val) (x.freq[a]).toNat x.total k
  inv : u.Inv
  clear : u.fault.raised = false
  coder : u.coder.mode = .enc
  setup : u.setup = s.setup
  model : u.model = { s.model.afterHit s.setup s.model.active.toNat x a with mode := if a.val = 256 then .term else .enc }

/-- What an encode does to the coder's number does not depend on what follows it in the model, the counters and the answer. -/
theorem Narrowed.of_same {s u v : State} {start size total k : Nat} (h : Narrowed s v start size total k)
    (hcoder : u.coder = v.coder) (houtput : u.ports.output = v.ports.output) : Narrowed s u start size total k where
  number := by rw [State.codeNumber, hcoder, houtput]; exact h.number
  width := hcoder ▸ h.width
  widened := hcoder ▸ h.widened
  carrySafe := hcoder ▸ h.carrySafe
  byteCount := by rw [State.byteCount, hcoder, houtput]; exact h.byteCount

/-- Fault entry leaves a fault recorded (60_exceptions.md R204). -/
theorem State.faultEntry_raised (e : ErrCode) (opc : OpcodeField) (s : State) : (s.faultEntry e opc).fault.raised = true := by
  rw [State.faultEntry_fault]
  split
  · assumption
  · rfl

/-- A symbol that is encoded with no fault recorded narrows the interval to that of the symbol at the active record. -/
theorem State.Compressing.encode {s u : State} (h : s.Compressing) {sym : Operand} {a : Sym} (hsym : sym.toNat = a.val)
    (hexec : exec (.cmEncode sym) s = .next u) (hu : u.fault.raised = false) : ∃ x k, SymbolStep s u a x k := by
  obtain ⟨x, hx⟩ := h.inv.model.activeRecord (by rw [h.mode]; decide)
  have hsound := h.inv.model.records _ x hx
  have hfreq := hsound.freq_ne_zero a
  rcases rcEncode_sound (h.inv.coder h.clear) h.coder hsound.total_lt (hsound.freq_pos a) (hsound.hit_fits a) with
    ⟨v, hv, -, hframe⟩ | ⟨v, hv⟩
  · obtain ⟨-, hrange, hcarry⟩ := (h.inv.coder h.clear).encReady h.coder
    obtain ⟨k, -, hn⟩ := rcEncode_narrowed hcarry hrange hsound.total_lt (hsound.freq_pos a) (hsound.hit_fits a) hv
    obtain ⟨w, hw, hinv⟩ := exec_inv (.cmEncode sym) h.inv
    rw [hexec] at hw
    cases hw
    rw [exec_cmEncode_ok h.clear h.mode h.coder hsym hx hfreq hv] at hexec
    cases hexec
    have hmodel := State.symbolEncoded_model (x := x) (a := a) h.mode hframe.model hframe.setup
    have houtput : (v.symbolEncoded x a).ports.output = v.ports.output := by
      rw [State.symbolEncoded_ports, State.respond_ports]
    exact ⟨x, k, hx, hsound, hn.of_same (v.symbolEncoded_coder x a) houtput, hinv, hu,
      by rw [State.symbolEncoded_coder, hframe.mode, h.coder], (v.symbolEncoded_setup x a).trans hframe.setup, hmodel⟩
  · rw [exec_cmEncode_raise h.clear h.mode h.coder hsym hx hfreq hv] at hexec
    cases hexec
    rw [State.faultEntry_raised] at hu
    cases hu

theorem SymbolStep.encoding {s u : State} {a : Sym} {x : Context} {k : Nat} (h : SymbolStep s u a x k) : u.Encoding := by
  obtain ⟨-, hrange, hcarry⟩ := (h.inv.coder h.clear).encReady h.coder
  exact ⟨h.clear, h.coder, hrange, hcarry⟩

/-- After a byte the compression goes on. -/
theorem SymbolStep.compressing {s u : State} {a : Sym} {x : Context} {k : Nat} (h : SymbolStep s u a x k) (ha : a.val ≠ 256) :
    u.Compressing := by
  refine ⟨h.inv, h.clear, ?_, h.coder⟩
  rw [h.model]
  exact if_neg ha

/-! ### The symbols of a chunk (70_reset_and_hazards.md R245) -/

/-- A byte as a symbol. -/
def byteSym (b : Byte) : Sym := ⟨b.toNat, by have := b.isLt; omega⟩

theorem byteSym_operand (b : Byte) : (b.setWidth 17 : Operand).toNat = (byteSym b).val := by
  have hb := b.isLt
  rw [BitVec.toNat_setWidth, Nat.mod_eq_of_lt (by omega)]
  rfl

theorem byteSym_ne_term (b : Byte) : (byteSym b).val ≠ 256 := Nat.ne_of_lt b.isLt

/-- The commands that compress the bytes that remain, and end the chunk. -/
def compressTail (bytes : List Byte) : List Instr := (bytes.map fun b => .cmEncode (b.setWidth 17)) ++ [.cmEncode 256, .rcFlush]

theorem compressTail_blocked (bytes : List Byte) : ∀ i ∈ compressTail bytes, neverBlocked i.opcode = false := by
  intro i hi
  rcases List.mem_append.mp hi with hi | hi
  · obtain ⟨b, -, rfl⟩ := List.mem_map.mp hi
    rfl
  · rcases List.mem_pair.mp hi with rfl | rfl <;> rfl

/-- The next byte of a compression that ends with no fault recorded, and what is left of the compression. -/
theorem State.Compressing.encode_byte {s t : State} (h : s.Compressing) {b : Byte} {bytes : List Byte}
    (hrun : execAll (compressTail (b :: bytes)) s = .next t) (ht : t.fault.raised = false) :
    ∃ u x k, SymbolStep s u (byteSym b) x k ∧ u.Compressing ∧ execAll (compressTail bytes) u = .next t := by
  obtain ⟨u, hu, hrest⟩ := execAll_cons.mp hrun
  obtain ⟨x, k, hstep⟩ := h.encode (byteSym_operand b) hu (execAll_unfaulted (compressTail_blocked bytes) hrest ht)
  exact ⟨u, x, k, hstep, hstep.compressing (byteSym_ne_term b), hrest⟩

/-- The terminator of such a compression, and its flush. -/
theorem State.Compressing.encode_term {s t : State} (h : s.Compressing) (hrun : execAll (compressTail []) s = .next t)
    (ht : t.fault.raised = false) :
    ∃ u x k, SymbolStep s u Config.term x k ∧ execAll (encodeTail []) u = .next t := by
  obtain ⟨u, hu, hflush⟩ := execAll_cons.mp hrun
  obtain ⟨x, k, hstep⟩ := h.encode (sym := 256) (a := Config.term) rfl hu (execAll_unfaulted (encodeTail_blocked []) hflush ht)
  exact ⟨u, x, k, hstep, hflush⟩

/-- Wherever the compression stands, its interval contains the number that is sent in the end. -/
theorem compressTail_codedWithin (bytes : List Byte) {s t : State} (h : s.Compressing)
    (hrun : execAll (compressTail bytes) s = .next t) (ht : t.fault.raised = false) : ∃ k, CodedWithin s t k := by
  induction bytes generalizing s with
  | nil =>
    obtain ⟨u, x, k, hstep, hflush⟩ := h.encode_term hrun ht
    obtain ⟨j, hj⟩ := encodeTail_codedWithin [] nofun hstep.encoding hflush ht
    exact ⟨k + j, hstep.narrowed.codedWithin (hstep.sound.hit_fits _) hj⟩
  | cons b bytes ih =>
    obtain ⟨u, x, k, hstep, hu, hrest⟩ := h.encode_byte hrun ht
    obtain ⟨j, hj⟩ := ih hu hrest
    exact ⟨k + j, hstep.narrowed.codedWithin (hstep.sound.hit_fits _) hj⟩

/-- A flush leaves the model (40_rangecoder.md R111). -/
theorem State.Encoding.flush_model {s t : State} (h : s.Encoding) (hrun : execAll (encodeTail []) s = .next t)
    (ht : t.fault.raised = false) : t.model = s.model := by
  obtain ⟨u, hu, hrest⟩ := execAll_cons.mp hrun
  cases hrest
  rcases exec_unfaulted hu ht h.clear with ⟨d, v, hv, rfl⟩ | ⟨v, -, rfl⟩
  · obtain ⟨-, w, hw, -, rfl⟩ := body_ok hv
    exact ((shiftLowTimes_frame 5).of_ok hw).model
  · rfl

/-! ### The decoder follows (41_contextmodel.md R168) -/

/-- The decoder's place in the stream depends on its coder, its input and its count of zeros alone. -/
theorem Tracks.of_same {s t d e : State} {tail rest : List Byte} (h : Tracks s t d tail rest) (hcoder : e.coder = d.coder)
    (heod : e.ports.eod = d.ports.eod) (hinput : e.ports.input = d.ports.input) (hzfill : e.events.zfill = d.events.zfill)
    (hcount : e.events.cntZfill = d.events.cntZfill) : Tracks s t e tail rest where
  ready := hcoder ▸ h.ready
  eod := heod.trans h.eod
  input := hinput.trans h.input
  range := hcoder ▸ h.range
  length := h.length
  number := hcoder ▸ h.number
  zfill := hzfill.trans h.zfill
  cntZfill := hcount.trans h.cntZfill

/-- The decoder `d` stands where the encoder stood in `s`, with the same statistics. -/
structure Follows (s t d : State) (tail rest : List Byte) : Prop where
  tracks : Tracks s t d tail rest
  clear : d.fault.raised = false
  setup : d.setup = s.setup
  model : d.model = { s.model with mode := .dec }

theorem Follows.decoding {s t d : State} {tail rest : List Byte} (h : Follows s t d tail rest) : d.Decoding :=
  ⟨h.clear, by rw [h.model], h.tracks.ready⟩

/-- `update_model` does not look at the mode. -/
theorem Model.afterHit_withMode (u : Setup) (c : Nat) (x : Context) (a : Sym) (m : Model) (mode : CmMode) :
    Model.afterHit u c x a { m with mode := mode } = { m.afterHit u c x a with mode := mode } := by
  unfold Model.afterHit
  split
  · rfl
  · split <;> rfl

/-- The symbol `a` decoded in `d`: what `CM_DECODE` leaves in `e`, where the encoder went on to `u`. -/
structure SymbolDecoded (u t d e : State) (a : Sym) (tail rest : List Byte) : Prop where
  run : exec .cmDecode d = .next e
  tracks : Tracks u t e tail rest
  clear : e.fault.raised = false
  setup : e.setup = u.setup
  model : e.model = { u.model with mode := if a.val = 256 then .term else .dec }
  responses : e.ports.responses = d.ports.responses ++ [responseWord false 0 (BitVec.ofNat 32 a.val)]

/-- A decoder that follows decodes the symbol that was encoded, at the same record, and follows still. -/
theorem Follows.decode {s u t d : State} {tail rest : List Byte} (h : Follows s t d tail rest) {a : Sym} {x : Context} {k j : Nat}
    (hstep : SymbolStep s u a x k) (hu : CodedWithin u t j) : ∃ e, SymbolDecoded u t d e a (tail.drop k) rest := by
  have hsound := hstep.sound
  have hready := h.tracks.ready
  have hx : d.model.arena.read d.model.active.toNat = some x := by rw [h.model]; exact hstep.record
  obtain ⟨hlo, hhi⟩ := h.tracks.value_inside (Nat.le_add_left 1 _) hsound.total_lt hstep.narrowed hu
  have hbelow : d.valueAt x.total < x.sum.toNat := by
    rw [hsound.sum_eq]
    exact Nat.lt_of_lt_of_le hhi (x.cum_add_le a)
  obtain ⟨k', -, hwide, hrun⟩ :=
    rcUpdate_explicit hready (hsound.freq_pos a) (hsound.hit_fits a) hsound.total_lt hlo hhi
  have hwide' := hstep.narrowed.widened
  rw [hstep.narrowed.width, ← h.tracks.range] at hwide'
  obtain rfl := hwide.rounds_unique hwide'
  obtain ⟨-, hok, -⟩ := hrun (d.withCoder (Coder.queried x.total)) rfl rfl rfl
  obtain ⟨hupdate, hdec⟩ := hok (.inl h.tracks.eod)
  obtain ⟨lower, hladder⟩ := d.model.ladder_head
  have hdecode := (modelDecode_run hladder).trans
    (modelDecodeFrom_hit_ok (lower := lower) hready hx hsound hbelow (Context.scan_of_inside ⟨hlo, hhi⟩) hupdate)
  have htracks := h.tracks.updated (q := d.withCoder (Coder.queried x.total)) hstep.narrowed hu rfl rfl rfl rfl rfl hdec
  refine ⟨_, exec_cmDecode_ok h.decoding hdecode, htracks.of_same rfl rfl rfl rfl rfl, h.clear,
    h.setup.trans hstep.setup.symm, ?_, rfl⟩
  have hhit : d.model.afterHit d.setup d.model.active.toNat x a =
      { s.model.afterHit s.setup s.model.active.toNat x a with mode := .dec } := by
    rw [h.model, h.setup]
    exact Model.afterHit_withMode _ _ _ _ _ _
  show { d.model.afterHit d.setup d.model.active.toNat x a with
    mode := if a.val = 256 then .term else (d.model.afterHit d.setup d.model.active.toNat x a).mode } = _
  rw [hhit, hstep.model]

/-- After a byte the decoder follows still. -/
theorem SymbolDecoded.follows {u t d e : State} {a : Sym} {tail rest : List Byte} (h : SymbolDecoded u t d e a tail rest)
    (ha : a.val ≠ 256) : Follows u t e tail rest := by
  refine ⟨h.tracks, h.clear, h.setup, ?_⟩
  rw [h.model, if_neg ha]

/-- The response to a byte decoded. -/
abbrev byteResponse (b : Byte) : Word64 := responseWord false 0 (b.setWidth 32)

theorem byteSym_response (b : Byte) : responseWord false 0 (BitVec.ofNat 32 (byteSym b).val) = byteResponse b := by
  rw [byteResponse, ← BitVec.ofNat_toNat]
  rfl

/-- The decoding of a chunk's remaining bytes and its terminator, from `d` to `e`: the encoder's model at the end is `m`. -/
structure ChunkDecoded (d e : State) (bytes rest : List Byte) (m : Model) : Prop where
  run : execAll (List.replicate (bytes.length + 1) .cmDecode) d = .next e
  clear : e.fault.raised = false
  responses : e.ports.responses = d.ports.responses ++ (bytes.map byteResponse ++ [responseWord false 0 256])
  input : e.ports.input = rest
  zfill : e.events.zfill = false
  model : e.model = m

/-- A decoder that follows at the terminator uses up the stream, and its model is then the encoder's. -/
theorem Follows.decode_term {s t d : State} {tail rest : List Byte} (h : Follows s t d tail rest) (hs : s.Compressing)
    (hrun : execAll (compressTail []) s = .next t) (ht : t.fault.raised = false) :
    ∃ e, ChunkDecoded d e [] rest t.model := by
  obtain ⟨u, x, k, hstep, hflush⟩ := hs.encode_term hrun ht
  obtain ⟨j, hj⟩ := encodeTail_codedWithin [] nofun hstep.encoding hflush ht
  obtain ⟨e, he⟩ := h.decode hstep hj
  obtain ⟨-, hlength⟩ := hstep.encoding.flush_last hflush ht
  have hempty : tail.drop k = [] := List.eq_nil_of_length_eq_zero (by have := he.tracks.length; omega)
  have hinput := he.tracks.input
  rw [hempty, List.nil_append] at hinput
  refine ⟨e, execAll_cons.mpr ⟨e, he.run, rfl⟩, he.clear, he.responses, hinput, he.tracks.zfill, ?_⟩
  rw [hstep.encoding.flush_model hflush ht, he.model, hstep.model]
  rfl

/-- The decoder follows the encoder through the whole chunk. -/
theorem Follows.decode_chunk (bytes : List Byte) {s t d : State} {tail rest : List Byte} (h : Follows s t d tail rest)
    (hs : s.Compressing) (hrun : execAll (compressTail bytes) s = .next t) (ht : t.fault.raised = false) :
    ∃ e, ChunkDecoded d e bytes rest t.model := by
  induction bytes generalizing s d tail with
  | nil => exact h.decode_term hs hrun ht
  | cons b bytes ih =>
    obtain ⟨u, x, k, hstep, hu, hrest⟩ := hs.encode_byte hrun ht
    obtain ⟨j, hj⟩ := compressTail_codedWithin bytes hu hrest ht
    obtain ⟨e, he⟩ := h.decode hstep hj
    obtain ⟨f, hf⟩ := ih (he.follows (byteSym_ne_term b)) hu hrest
    refine ⟨f, execAll_cons.mpr ⟨e, he.run, hf.run⟩, hf.clear, ?_, hf.input, hf.zfill, hf.model⟩
    rw [hf.responses, he.responses, byteSym_response, List.append_assoc]
    rfl

/-! ### The two starts (70_reset_and_hazards.md R245, R247) -/

/-- What `CM_RESET` and then a start leave: the root alone, active, in the mode of the start. -/
def State.chunkStarted (mode : CmMode) (s : State) : State :=
  ((((s.withModel fun _ => { mode := .fresh, active := 0, ctxCount := 1, arena := [(0, Context.fresh 0)] }).withEvents
    fun v => { v with cntSym := 0 }).respond 0).withModel fun m => { m with active := 0, mode := mode }).respond 0

theorem execAll_of_next {i : Instr} {l : List Instr} {s u : State} (h : exec i s = .next u) :
    execAll (i :: l) s = execAll l u := by
  rw [execAll, h]

theorem execAll_startEncode {s : State} (hs : s.fault.raised = false) (ho : s.setup.modelOrder ≠ 0) (l : List Instr) :
    execAll (.cmReset :: .cmStartEnc :: l) s = execAll l (s.chunkStarted .enc) :=
  (execAll_of_next (exec_cmReset_ok hs ho)).trans (execAll_of_next (exec_cmStartEnc_ok hs (.inl rfl)))

theorem execAll_startDecode {s : State} (hs : s.fault.raised = false) (ho : s.setup.modelOrder ≠ 0) (l : List Instr) :
    execAll (.cmReset :: .cmStartDec :: l) s = execAll l (s.chunkStarted .dec) :=
  (execAll_of_next (exec_cmReset_ok hs ho)).trans (execAll_of_next (exec_cmStartDec_ok hs (.inl rfl)))

/-- A machine that has started its range coder and its model to encode is compressing. -/
theorem State.Inv.chunkStarted {s : State} (h : s.Inv) (hs : s.fault.raised = false) (ho : s.setup.modelOrder ≠ 0)
    (hc : s.coder.mode = .enc) : (s.chunkStarted .enc).Compressing :=
  ⟨h.of_model rfl ((rooted_inv_sound s.setup h.setup ho).start (.inl rfl) .enc (.inl rfl)) rfl rfl, hs, rfl, hc⟩

/-- What the first three commands of a compression leave in `u`: the empty number behind the bytes that `s` had sent, the whole
range, and the root alone. -/
structure CompressStarted (s u : State) : Prop where
  compressing : u.Compressing
  number : u.codeNumber = bytesNumber s.ports.output * 2 ^ 32
  count : u.byteCount = s.ports.output.length
  range : u.coder.range = Config.rangeInit
  setup : u.setup = s.setup
  model : u.model = { mode := .enc, active := 0, ctxCount := 1, arena := [(0, Context.fresh 0)] }

theorem compress_start {bytes : List Byte} {s t : State} (hs : s.Inv) (hf : s.fault.raised = false)
    (ho : s.setup.modelOrder ≠ 0) (h : execAll (compressCommands bytes) s = .next t) :
    ∃ u, CompressStarted s u ∧ execAll (compressTail bytes) u = .next t := by
  have hinit := exec_rcInitEnc hf
  obtain ⟨henc, hnumber, hcount, hrange⟩ := State.encodeStarted hf hinit
  obtain ⟨v, hv, hinv⟩ := exec_inv .rcInitEnc hs
  rw [hinit] at hv
  cases hv
  refine ⟨_, ⟨hinv.chunkStarted hf ho rfl, hnumber, hcount, hrange, rfl, rfl⟩, ?_⟩
  rw [← h]
  exact ((execAll_of_next hinit).trans (execAll_startEncode henc.clear ho (compressTail bytes))).symm

/-- Settles O60: the decoder is set up where the encoder was, with the same model, and follows it. -/
theorem chunkRoundTrip : Obligations.ChunkRoundTrip := by
  intro bytes stream rest s t d hs _ hsf hdf hsetup ho hcompress ht hout heod hinput
  obtain ⟨u, hu, hrest⟩ := compress_start hs hsf ho hcompress
  obtain ⟨k, hwithin⟩ := compressTail_codedWithin bytes hu.compressing hrest ht
  have htracks := decodeStarted_tracks hu.number hu.count hu.range hwithin hout heod hinput
  have hfollows : Follows u t ((d.decodeStarted.respond 0).chunkStarted .dec) (stream.drop 4) rest :=
    ⟨htracks.of_same rfl rfl rfl rfl rfl, hdf, hsetup.symm.trans hu.setup.symm, by rw [hu.model]; rfl⟩
  obtain ⟨e, he⟩ := hfollows.decode_chunk bytes hu.compressing hrest ht
  have hod : d.setup.modelOrder ≠ 0 := hsetup ▸ ho
  refine ⟨e, ?_, he.clear, ?_, he.input, he.zfill, by rw [he.model], by rw [he.model], by rw [he.model]⟩
  · have hinit := execAll_of_next (exec_rcInitDec_ready hdf (.inl heod))
      (l := .cmReset :: .cmStartDec :: List.replicate (bytes.length + 1) .cmDecode)
    exact (hinit.trans (execAll_startDecode (s := d.decodeStarted.respond 0) hdf hod _)).trans he.run
  · have hstart : ((d.decodeStarted.respond 0).chunkStarted .dec).ports.responses = d.ports.responses ++ [0] ++ [0] ++ [0] := rfl
    rw [he.responses, hstart]
    simp only [List.append_assoc, List.cons_append, List.nil_append]

end Sys2Proof.Machine
end

section
/-! PROOFS. What may change the configuration registers (42_control.md R188, 10_state.md R35). -/

namespace Sys2Proof.Machine

theorem symbolDone_setup {n : Nat} {s u : State} (h : (symbolDone n).run s = .ok () u) : u.setup = s.setup := by
  rw [symbolDone_run] at h
  cases h
  rfl

/-- A completed command other than `CSR_WR` leaves the configuration. -/
theorem body_ok_setup {i : Instr} {s u : State} {d : Word32} (h : (body i).run s = .ok d u) (hi : ∀ c x, i ≠ .csrWr c x) :
    u.setup = s.setup := by
  have hc := body_ok h
  cases i with
  | nop => obtain ⟨-, rfl⟩ := hc; rfl
  | blkReset => obtain ⟨-, rfl⟩ := hc; rfl
  | csrRd c => obtain ⟨-, -, -, rfl⟩ := hc; rfl
  | csrWr c x => exact absurd rfl (hi c x)
  | dbgRd c o => obtain ⟨-, -, -, -, rfl⟩ := hc; rfl
  | rcInitEnc => obtain ⟨-, rfl⟩ := hc; rfl
  | rcEncode a b c => obtain ⟨-, -, -, -, hr⟩ := hc; exact ((rcEncode_frame _ _ _).of_ok hr).setup
  | rcFlush => obtain ⟨-, v, hr, -, rfl⟩ := hc; exact ((shiftLowTimes_frame 5).of_ok hr).setup
  | rcInitDec => rw [body_rcInitDec_ok h]; rfl
  | rcGetFreq c => obtain ⟨-, -, -, v, -, hr⟩ := hc; exact ((rcGetFreq_frame _).of_ok hr).setup
  | rcUpdate a b => obtain ⟨-, -, -, -, -, hr⟩ := hc; exact ((rcUpdate_frame _ _).of_ok hr).setup
  | cmReset => obtain ⟨-, -, rfl⟩ := hc; rfl
  | cmStartEnc => obtain ⟨-, -, rfl⟩ := hc; rfl
  | cmStartDec => obtain ⟨-, -, rfl⟩ := hc; rfl
  | cmEncode a =>
    obtain ⟨-, -, -, x, v, -, hr, hd⟩ := hc
    exact (symbolDone_setup hd).trans (modelEncode_ok_frame hr).1.setup
  | cmDecode =>
    obtain ⟨-, -, -, n, v, -, hr, hd⟩ := hc
    exact (symbolDone_setup hd).trans (modelDecode_ok_frame hr).1.setup

/-- A completed `CSR_WR` in the middle of a chunk's coding leaves `MODEL_ORDER` and `MAX_CTX`: it wrote `CTRL`. -/
theorem csrWr_ok_window {c : CsrIndex} {x d : Word32} {s u : State} (h : (body (.csrWr c x)).run s = .ok d u)
    (hne : u.setup.modelOrder ≠ s.setup.modelOrder ∨ u.setup.maxCtx ≠ s.setup.maxCtx) :
    s.model.mode ≠ .enc ∧ s.model.mode ≠ .dec := by
  obtain ⟨-, ⟨-, -, rfl⟩ | ⟨henc, hdec, -⟩⟩ := body_ok h
  · exact absurd hne (by simp)
  · exact ⟨henc, hdec⟩

/-- Settles O21: a command that is blocked, raises or holds leaves the configuration, and so does every one that completes but
`CSR_WR`, whose two checked writes lie outside a chunk's coding. -/
theorem configurationWindow : Obligations.ConfigurationWindow := by
  intro i s t h hne
  rcases exec_next h with ⟨-, -, rfl⟩ | ⟨hf, ⟨d, u, hu, rfl⟩ | ⟨e, u, hu, rfl⟩ | ⟨u, -, rfl⟩⟩
  · exact absurd s.blocked_setup hne
  · by_cases hi : ∃ c x, i = .csrWr c x
    · obtain ⟨c, x, rfl⟩ := hi
      exact ⟨⟨c, x, rfl⟩, fault_clear hf rfl, fun hw => csrWr_ok_window hu hw⟩
    · exact absurd (body_ok_setup hu fun c x hcx => hi ⟨c, x, hcx⟩) hne
  · exact absurd ((u.faultEntry_setup e _).trans (body_raise hu).1.setup) hne
  · exact absurd rfl hne

end Sys2Proof.Machine
end

section
/-! PROOFS. The commands that run with or without a fault recorded: NOP, BLK_RESET, CSR_RD and DBG_RD (42_control.md R181 to R183,
R189, 60_exceptions.md R203 step 1). -/

namespace Sys2Proof.Machine

section NeverBlocked

variable {i : Instr} {s u : State}

theorem exec_neverBlocked (hi : neverBlocked i.opcode = true) (s : State) : exec i s = runCommand i.opcode (body i) s := by
  rw [exec_eq, hi, Bool.not_true, Bool.and_false]
  rfl

theorem exec_neverBlocked_ok {d : Word32} (hi : neverBlocked i.opcode = true) (h : (body i).run s = .ok d u) :
    exec i s = .next (u.respond d) := by
  rw [exec_neverBlocked hi]
  exact runCommand_ok h

theorem exec_neverBlocked_raise {e : ErrCode} (hi : neverBlocked i.opcode = true)
    (h : (body i).run s = .error (.raise e) u) : exec i s = .next (u.faultEntry e i.opcode) := by
  rw [exec_neverBlocked hi]
  exact runCommand_raise h

end NeverBlocked

/-! ### NOP and BLK_RESET (42_control.md R181, R182) -/

theorem exec_nop (s : State) : exec .nop s = .next (s.respond 0) := exec_neverBlocked_ok rfl rfl

theorem exec_blkReset (s : State) : exec .blkReset s = .next (s.softReset.respond 0) := exec_neverBlocked_ok rfl rfl

/-- A word with the opcode of `NOP` and any other bit set does not decode. -/
theorem decode_nop_stray {w : Word64} (h : fieldOpc w = Opc.nop) (hw : w ≠ 0) : decode w = .error (.strayBits Opc.nop) := by
  rw [decode_nop h, if_neg]
  exact hw

/-- Settles O25: the command does nothing, 0 is its word, and every other word of its opcode is illegal and never blocked. -/
theorem nopResult : Obligations.NopResult := by
  refine ⟨exec_nop, decode_encode .nop, fun w s hopc hw => ?_⟩
  have hnever : neverBlocked (fieldOpc w) = true := by rw [hopc]; rfl
  rw [runWord_error (decode_nop_stray hopc hw), illegalWord_runs (.inr hnever), hopc]

/-- Settles O26: the soft reset has no check before it. -/
theorem blkResetResult : Obligations.BlkResetResult := exec_blkReset

/-! ### CSR_RD (42_control.md R183, 10_state.md R44) -/

theorem exec_csrRd (c : Csr) (s : State) : exec (.csrRd c.index) s = .next (s.respond (s.csrValue c)) := by
  refine exec_neverBlocked_ok rfl ?_
  simp only [body, csrAt_index]
  rfl

/-- The CSRs in the order of the map of 10_state.md R44. -/
def csrMap : List Csr :=
  [.id, .status, .err, .ctrl, .modelOrder, .maxCtx, .ctxCount, .activeCtx, .rcLow, .rcLowHi, .rcRange, .rcCode, .rcCache,
    .rcCacheSize, .rcDtot, .cntOut, .cntIn, .cntSym, .cntZfill, .arenaCap]

/-- `RC_LOW_HI` shows the carry bit of `LOW`. -/
theorem ofBool_getLsbD {n : Nat} (x : BitVec n) (k : Nat) : BitVec.ofBool (x.getLsbD k) = x.extractLsb' k 1 := by
  refine BitVec.eq_of_getLsbD_eq fun j hj => ?_
  obtain rfl : j = 0 := by omega
  simp

/-- Settles O27: the listed pairs are each CSR's index with its value. -/
theorem csrReadResult : Obligations.CsrReadResult := by
  intro s p hp
  rw [ofBool_getLsbD] at hp
  obtain ⟨c, -, rfl⟩ := List.mem_map.mp (show p ∈ csrMap.map fun c => (c.index, s.csrValue c) from hp)
  exact exec_csrRd c s

/-! ### DBG_RD (42_control.md R189, 20_memory.md R65) -/

section Fields

variable (x : Context)

theorem Context.fieldAt_freq (a : Sym) : x.fieldAt a.val = some ((x.freq[a]).setWidth 32) := by
  rw [Context.fieldAt, dif_pos a.isLt]
  rfl

theorem Context.fieldAt_succ (a : Sym) : x.fieldAt (0x200 + a.val) = some ((x.succ[a]).setWidth 32) := by
  have ha := a.isLt
  rw [Context.fieldAt, dif_neg (by omega), if_neg (by omega), if_neg (by omega), if_neg (by omega), dif_pos (by omega)]
  simp

/-- The two gaps of the offsets. -/
theorem Context.fieldAt_unassigned {off : Nat} (h : (0x104 ≤ off ∧ off < 0x200) ∨ 0x301 ≤ off) : x.fieldAt off = none := by
  rw [Context.fieldAt, dif_neg (by omega), if_neg (by omega), if_neg (by omega), if_neg (by omega), dif_neg (by omega)]

end Fields

section DebugRead

variable {c off : Operand} {s : State}

/-- The body past its check, at an allocated record. -/
theorem body_dbgRd_run {x : Context} (hx : s.model.arena.read c.toNat = some x) (hc : c.toNat < s.model.ctxCount.toNat) :
    (body (.dbgRd c off)).run s = match x.fieldAt off.toNat with
      | none => .error (.raise .range) s
      | some v => .ok v s := by
  rw [body, get_bind_run, check_bind_run, if_pos (decide_eq_true hc), act_bind_of_ok (readCtx_some hx)]
  cases x.fieldAt off.toNat <;> rfl

theorem exec_dbgRd_ok {x : Context} {v : Word32} (hx : s.model.arena.read c.toNat = some x)
    (hc : c.toNat < s.model.ctxCount.toNat) (hv : x.fieldAt off.toNat = some v) :
    exec (.dbgRd c off) s = .next (s.respond v) :=
  exec_neverBlocked_ok rfl (by rw [body_dbgRd_run hx hc, hv])

theorem exec_dbgRd_unassigned {x : Context} (hx : s.model.arena.read c.toNat = some x)
    (hc : c.toNat < s.model.ctxCount.toNat) (hv : x.fieldAt off.toNat = none) :
    exec (.dbgRd c off) s = .next (s.faultEntry .range Opc.dbgRd) :=
  exec_neverBlocked_raise rfl (by rw [body_dbgRd_run hx hc, hv])

theorem exec_dbgRd_unallocated (hc : s.model.ctxCount.toNat ≤ c.toNat) :
    exec (.dbgRd c off) s = .next (s.faultEntry .range Opc.dbgRd) := by
  refine exec_neverBlocked_raise rfl ?_
  rw [body, get_bind_run, check_bind_run, if_neg (by simpa using hc)]

end DebugRead

/-- Settles O33: the index is checked first, and then the offset picks the field or none. -/
theorem debugReadResult : Obligations.DebugReadResult := by
  refine fun c off s => ⟨fun x hx hc => ⟨fun v hv => exec_dbgRd_ok hx hc ?_, fun hoff => ?_⟩, exec_dbgRd_unallocated⟩
  · rcases hv with ⟨a, ho, rfl⟩ | ⟨ho, rfl⟩ | ⟨ho, rfl⟩ | ⟨ho, rfl⟩ | ⟨a, ho, rfl⟩ <;> rw [ho]
    case inl => exact x.fieldAt_freq a
    case inr.inr.inr.inr => exact x.fieldAt_succ a
    all_goals rfl
  · exact exec_dbgRd_unassigned hx hc (x.fieldAt_unassigned hoff)

end Sys2Proof.Machine
end

section
/-! PROOFS. CSR_WR of the three writable registers (42_control.md R184 to R187). -/

namespace Sys2Proof.Machine

/-! ### The three writes -/

section Writes

variable (d : Word32) (s : State)

theorem writeModelOrder_run : (writeModelOrder d).run s =
    if s.model.mode ≠ .enc ∧ s.model.mode ≠ .dec ∧ 2 ≤ d.toNat ∧ d.toNat ≤ 16
      then .ok () (s.withSetup fun u => { u with modelOrder := d.setWidth 5 }) else .error (.raise .csr) s := by
  rw [writeModelOrder, get_bind_run, check_bind_run, check_bind_run, ← ite_and]
  exact if_congr (by simp [and_assoc]) rfl rfl

theorem writeMaxCtx_run : (writeMaxCtx d).run s =
    if s.model.mode ≠ .enc ∧ s.model.mode ≠ .dec ∧ 1 ≤ d.toNat ∧ d.toNat ≤ Config.arenaCtx
      then .ok () (s.withSetup fun u => { u with maxCtx := d.setWidth 18 }) else .error (.raise .csr) s := by
  rw [writeMaxCtx, get_bind_run, check_bind_run, check_bind_run, ← ite_and]
  exact if_congr (by simp [and_assoc]) rfl rfl

/-- Bits [31:1] are 0 in the values 0 and 1 alone. -/
theorem upperBits_eq_zero_iff : d.extractLsb' 1 31 = 0 ↔ d = 0 ∨ d = 1 := by
  have hfield : (d.extractLsb' 1 31).toNat = d.toNat / 2 := by
    rw [BitVec.extractLsb'_toNat, Nat.shiftRight_eq_div_pow]
    omega
  rw [← BitVec.toNat_inj, ← BitVec.toNat_inj, ← BitVec.toNat_inj, hfield]
  show d.toNat / 2 = 0 ↔ d.toNat = 0 ∨ d.toNat = 1
  omega

theorem writeCtrl_run : (writeCtrl d).run s =
    if d = 0 ∨ d = 1 then .ok () (s.withSetup fun u => { u with faultIE := d == 1 }) else .error (.raise .csr) s := by
  rw [writeCtrl, check_bind_run]
  by_cases h : d = 0 ∨ d = 1
  · rw [if_pos (beq_iff_eq.mpr ((upperBits_eq_zero_iff d).mpr h)), if_pos h]
    rcases h with rfl | rfl <;> rfl
  · rw [if_neg (fun hb => h ((upperBits_eq_zero_iff d).mp (beq_iff_eq.mp hb))), if_neg h]

end Writes

/-! ### The command -/

section Command

variable {c : CsrIndex} {d : Word32} {s t : State} {write : Act Unit}

/-- A `CSR_WR` whose register's write completes. -/
theorem exec_csrWr_ok (hs : s.fault.raised = false) (hbody : body (.csrWr c d) = (do write; return 0))
    (h : write.run s = .ok () t) : exec (.csrWr c d) s = .next (t.respond 0) := by
  rw [exec_clear hs]
  apply runCommand_ok
  rw [hbody, act_bind_of_ok h]
  rfl

/-- A `CSR_WR` whose register's write is refused. -/
theorem exec_csrWr_refused (hs : s.fault.raised = false) (hbody : body (.csrWr c d) = (do write; return 0))
    (h : write.run s = .error (.raise .csr) s) : exec (.csrWr c d) s = .next (s.faultEntry .csr Opc.csrWr) :=
  exec_refused hs (by rw [hbody, act_bind_of_error h])

end Command

theorem body_csrWr_ctrl (d : Word32) : body (.csrWr 0x003 d) = (do writeCtrl d; return 0) := rfl

theorem body_csrWr_modelOrder (d : Word32) : body (.csrWr 0x004 d) = (do writeModelOrder d; return 0) := rfl

theorem body_csrWr_maxCtx (d : Word32) : body (.csrWr 0x005 d) = (do writeMaxCtx d; return 0) := rfl

end Sys2Proof.Machine

namespace Sys2Proof

open Machine (exec_csrWr_ok exec_csrWr_refused)

/-- Settles O30: the write's two checks are the statement's condition, and a value up to 16 fits 5 bits. -/
theorem writeModelOrder : Obligations.WriteModelOrder := by
  refine fun d s hs => ⟨fun h => ⟨d.setWidth 5, ?_, ?_⟩, fun h => ?_⟩
  · obtain ⟨-, -, -, hmax⟩ := h
    rw [BitVec.toNat_setWidth, Nat.mod_eq_of_lt (by omega)]
  · exact exec_csrWr_ok hs (Machine.body_csrWr_modelOrder d) ((Machine.writeModelOrder_run d s).trans (if_pos h))
  · exact exec_csrWr_refused hs (Machine.body_csrWr_modelOrder d) ((Machine.writeModelOrder_run d s).trans
      (if_neg (by simpa only [not_and_or, not_not, not_le] using h)))

/-- Settles O31: the write's two checks are the statement's condition, and a value up to `ARENA_CTX` fits 18 bits. -/
theorem writeMaxCtx : Obligations.WriteMaxCtx := by
  refine fun d s hs => ⟨fun h => ⟨d.setWidth 18, ?_, ?_⟩, fun h => ?_⟩
  · obtain ⟨-, -, -, hmax⟩ := h
    have hcap := Machine.Config.arenaCtx_le
    rw [BitVec.toNat_setWidth, Nat.mod_eq_of_lt (by omega)]
  · exact exec_csrWr_ok hs (Machine.body_csrWr_maxCtx d) ((Machine.writeMaxCtx_run d s).trans (if_pos h))
  · exact exec_csrWr_refused hs (Machine.body_csrWr_maxCtx d) ((Machine.writeMaxCtx_run d s).trans
      (if_neg (by simpa only [not_and_or, not_not, not_le] using h)))

/-- Settles O32: the write's one check asks for 0 or 1, in every mode. -/
theorem writeCtrl : Obligations.WriteCtrl := by
  refine fun d s => ⟨fun hs h => ?_, fun hs h => ?_, fun hs => Machine.runUnlessBlocked_fault hs⟩
  · exact exec_csrWr_ok hs (Machine.body_csrWr_ctrl d) ((Machine.writeCtrl_run d s).trans (if_pos h))
  · exact exec_csrWr_refused hs (Machine.body_csrWr_ctrl d) ((Machine.writeCtrl_run d s).trans (if_neg (not_or.mpr h)))

end Sys2Proof
end

section
/-! PROOFS. Errors: fault entry, what a raise leaves, the fault state and the interrupt line (60_exceptions.md R203 to R209). -/

namespace Sys2Proof.Machine

/-! ### A word whose response is an error (60_exceptions.md R204, R206) -/

theorem ErrCode.number_inj {e e' : ErrCode} (h : e.number = e'.number) : e = e' := by
  cases e <;> cases e' <;> revert h <;> decide

/-- Two responses with different codes differ. -/
theorem responseWord_code_inj {err err' : Bool} {code code' : BitVec 8} {d d' : Word32}
    (h : responseWord err code d = responseWord err' code' d') : code = code' := by
  rw [← responseWord_code err code d, h, responseWord_code]

/-- The code of an error response, where the response is known to be `r`. -/
theorem error_code_of_response {l : List Word64} {code code' : BitVec 8}
    (h : l ++ [responseWord true code' 0] = l ++ [responseWord true code 0]) : code = code' :=
  responseWord_code_inj (List.singleton_inj.mp (List.append_cancel_left h.symm))

/-- All that a command whose response is an error can have done: it was blocked, or its body raised that error. -/
theorem exec_error {i : Instr} {s t : State} {code : BitVec 8} (h : exec i s = .next t)
    (hresp : t.ports.responses = s.ports.responses ++ [responseWord true code 0]) :
    (s.fault.raised = true ∧ code = ErrCode.blocked.number ∧ t = s.blocked) ∨
    ∃ e u, (body i).run s = .error (.raise e) u ∧ code = e.number ∧ t = u.faultEntry e i.opcode := by
  rcases exec_next h with ⟨hr, -, rfl⟩ | ⟨-, ⟨d, u, hu, rfl⟩ | ⟨e, u, hu, rfl⟩ | ⟨u, -, rfl⟩⟩
  · exact .inl ⟨hr, error_code_of_response hresp, rfl⟩
  · rw [State.respond_ports, body_ok_responses hu] at hresp
    exact absurd (List.singleton_inj.mp (List.append_cancel_left hresp)).symm (responseWord_error_ne _ _ _ _)
  · rw [State.faultEntry_ports, (body_raise hu).1.responses] at hresp
    exact .inr ⟨e, u, hu, error_code_of_response hresp, rfl⟩
  · simp at hresp

/-- What stands whatever a command has written before it raises (60_exceptions.md R206). -/
structure State.KeptByRaise (s u : State) : Prop where
  rcMode : u.coder.mode = s.coder.mode
  model : s.model.SameRegisters u.model
  fault : u.fault = s.fault
  cntSym : u.events.cntSym = s.events.cntSym

theorem RaiseFrame.kept {i : Instr} {s u : State} (h : RaiseFrame i s u) : s.KeptByRaise u :=
  ⟨h.mode, h.model.1, h.fault, h.cntSym⟩

/-- All that a word whose response is an error can have done: it was blocked, or it ended in fault entry with its own opcode
field, as a command that raised or as an illegal word. -/
theorem runWord_error_response {w : Word64} {s t : State} {code : BitVec 8} (h : runWord w s = .next t)
    (hresp : t.ports.responses = s.ports.responses ++ [responseWord true code 0]) :
    (s.fault.raised = true ∧ code = ErrCode.blocked.number ∧ t = s.blocked) ∨
    ∃ e u, s.KeptByRaise u ∧ e ≠ .blocked ∧ code = e.number ∧ t = u.faultEntry e (fieldOpc w) := by
  cases hd : decode w with
  | ok i =>
    obtain rfl := (decode_ok_iff w i).mp hd
    rw [runWord_ok hd] at h
    refine (exec_error h hresp).imp_right ?_
    rintro ⟨e, u, hu, hcode, rfl⟩
    obtain ⟨hframe, -, he⟩ := body_raise hu
    exact ⟨e, u, hframe.kept, he, hcode, by rw [fieldOpc_encode]⟩
  | error x =>
    rw [runWord_error hd, illegalWord] at h
    split at h
    · rename_i hb
      cases h
      exact .inl ⟨(Bool.and_eq_true_iff.mp hb).1, error_code_of_response hresp, rfl⟩
    · cases h
      rw [State.faultEntry_ports] at hresp
      exact .inr ⟨.illegal, s, (RaiseFrame.refl .nop s).kept, nofun, error_code_of_response hresp, rfl⟩

/-- Settles O14: the operation's updates, field by field, and a word's error with a code of its own is its fault entry. -/
theorem faultEntry : Obligations.FaultEntry := by
  refine ⟨fun e opc s => ?_, fun w s t e h hresp he => ?_⟩
  · rw [← responseWord_error]
    apply State.eq_of_parts <;> simp
  · rcases runWord_error_response h hresp with ⟨-, hcode, -⟩ | ⟨e', u, hkept, -, hcode, rfl⟩
    · exact absurd (ErrCode.number_inj hcode) he
    · obtain rfl := ErrCode.number_inj hcode
      obtain ⟨hmode, -, -⟩ := hkept.model
      rw [State.faultEntry_fault, State.faultEntry_coder, State.faultEntry_model, hkept.fault]
      exact ⟨rfl, hkept.rcMode, hmode⟩

/-- Settles O17: a blocked word leaves every register, and what raises has kept these five. -/
theorem faultKeepsModes : Obligations.FaultKeepsModes := by
  intro w s t code h hresp
  rcases runWord_error_response h hresp with ⟨-, -, rfl⟩ | ⟨e, u, hkept, -, -, rfl⟩
  · exact ⟨rfl, rfl, rfl, rfl, rfl⟩
  · obtain ⟨hmode, hactive, hcount⟩ := hkept.model
    rw [State.faultEntry_events, State.faultEntry_model, State.faultEntry_coder]
    exact ⟨hkept.cntSym, hactive, hcount, hmode, hkept.rcMode⟩

/-! ### The fault state (60_exceptions.md R207 to R209) -/

/-- The commands that run while `FAULT` = 1 and only read. -/
def inspects : Instr → Prop
  | .nop | .csrRd _ | .dbgRd _ _ => True
  | _ => False

theorem blkReset_or_inspects {i : Instr} (h : neverBlocked i.opcode = true) : i = .blkReset ∨ inspects i := by
  cases i with
  | blkReset => exact .inl rfl
  | nop => exact .inr trivial
  | csrRd c => exact .inr trivial
  | dbgRd c o => exact .inr trivial
  | _ => cases h

theorem neverBlocked_of_inspects {i : Instr} (h : inspects i) : neverBlocked i.opcode = true := by
  cases i with
  | nop => rfl
  | csrRd c => rfl
  | dbgRd c o => rfl
  | _ => exact h.elim

/-- A command that calls no procedure of the coder or the model stops at a check, before it has written anything. -/
theorem body_fails_unchanged {i : Instr} (hsends : ¬ sends i) (htakes : ¬ takes i) (hquery : ∀ a, i ≠ .rcGetFreq a) :
    (body i).Fails fun s u => u = s := by
  refine body_fails_of (R := fun s u => u = s) (fun _ => rfl) i ?_ ?_ ?_ ?_ ?_ ?_ ?_
  · rintro rfl; exact absurd trivial htakes
  · rintro _ _ _ _ _ _ rfl; exact absurd trivial hsends
  · rintro _ rfl; exact absurd trivial hsends
  · rintro a _ rfl; exact absurd rfl (hquery a)
  · rintro _ _ _ _ rfl; exact absurd trivial htakes
  · rintro _ _ rfl; exact absurd trivial hsends
  · rintro rfl; exact absurd trivial htakes

theorem body_inspects_ok {i : Instr} (hi : inspects i) {s u : State} {d : Word32} (h : (body i).run s = .ok d u) : u = s := by
  have hc := body_ok h
  cases i with
  | nop => obtain ⟨-, hu⟩ := hc; exact hu
  | csrRd c => obtain ⟨-, -, -, hu⟩ := hc; exact hu
  | dbgRd c o => obtain ⟨-, -, -, -, hu⟩ := hc; exact hu
  | _ => exact hi.elim

theorem body_inspects_fails {i : Instr} (hi : inspects i) : (body i).Fails fun s u => u = s := by
  cases i with
  | nop => exact body_fails_unchanged nofun nofun nofun
  | csrRd c => exact body_fails_unchanged nofun nofun nofun
  | dbgRd c o => exact body_fails_unchanged nofun nofun nofun
  | _ => exact hi.elim

/-- With a fault recorded, fault entry is its response alone (60_exceptions.md R208). -/
theorem State.faultEntry_of_raised {s : State} (h : s.fault.raised = true) (e : ErrCode) (opc : OpcodeField) :
    s.faultEntry e opc = s.endCommand (responseWord true e.number 0) := by
  rw [State.faultEntry, if_pos h]

/-- While `FAULT` = 1 an inspection command gives its own response, and changes nothing else. -/
theorem exec_inspects {i : Instr} (hi : inspects i) {s t : State} (hs : s.fault.raised = true) (h : exec i s = .next t) :
    ∃ err code data, code ≠ ErrCode.blocked.number ∧ t = s.endCommand (responseWord err code data) := by
  rcases exec_next h with ⟨-, hb, -⟩ | ⟨-, ⟨d, u, hu, rfl⟩ | ⟨e, u, hu, rfl⟩ | ⟨u, hu, -⟩⟩
  · rw [neverBlocked_of_inspects hi] at hb
    cases hb
  · obtain rfl := body_inspects_ok hi hu
    exact ⟨false, 0, d, by decide, rfl⟩
  · obtain rfl := body_inspects_fails hi s _ u hu
    exact ⟨true, e.number, 0, fun he => (body_raise hu).2.2 (ErrCode.number_inj he), State.faultEntry_of_raised hs e _⟩
  · rcases (body_hold hu).2 with rfl | ⟨a, b, rfl⟩ | rfl <;> exact hi.elim

/-- While `FAULT` = 1 every command but `BLK_RESET` answers, and changes nothing else. -/
theorem exec_faulted {i : Instr} (hi : i ≠ .blkReset) {s t : State} (hs : s.fault.raised = true) (h : exec i s = .next t) :
    ∃ r, t = s.endCommand r := by
  cases hb : neverBlocked i.opcode with
  | true =>
    obtain ⟨err, code, data, -, ht⟩ := exec_inspects ((blkReset_or_inspects hb).resolve_left hi) hs h
    exact ⟨_, ht⟩
  | false =>
    rw [exec_eq, hs, hb] at h
    cases h
    exact ⟨_, rfl⟩

/-- The same for every word but that of `BLK_RESET`. -/
theorem runWord_faulted {w : Word64} (hw : w ≠ encode .blkReset) {s t : State} (hs : s.fault.raised = true)
    (h : runWord w s = .next t) : ∃ r, t = s.endCommand r := by
  cases hd : decode w with
  | ok i =>
    rw [runWord_ok hd] at h
    refine exec_faulted ?_ hs h
    rintro rfl
    exact hw ((decode_ok_iff w _).mp hd)
  | error e =>
    rw [runWord_error hd, illegalWord] at h
    split at h <;> cases h
    · exact ⟨_, rfl⟩
    · exact ⟨_, State.faultEntry_of_raised hs _ _⟩

/-- While `FAULT` = 1 a word of a blocked opcode is refused, whatever its other bits (60_exceptions.md R203 step 1). -/
theorem runWord_blocked {w : Word64} {s : State} (hs : s.fault.raised = true) (hn : neverBlocked (fieldOpc w) = false) :
    runWord w s = .next s.blocked := by
  cases hd : decode w with
  | ok i =>
    obtain rfl := (decode_ok_iff w i).mp hd
    rw [fieldOpc_encode] at hn
    rw [runWord_ok hd, exec_eq, hs, hn]
    rfl
  | error e => rw [runWord_error hd, illegalWord_blocked hs hn]

/-- Settles O11: a blocked word, an inspection command, which from the invariant does not stop the model, and the soft reset. -/
theorem blockedWhileFault : Obligations.BlockedWhileFault := by
  refine ⟨fun w s hs h0 h1 h2 h4 => ?_, fun i s hinv hs hi => ?_, fun s _ => ⟨_, exec_blkReset s, rfl, rfl⟩⟩
  · refine runWord_blocked hs (Bool.eq_false_iff.mpr fun hn => ?_)
    rcases (neverBlocked_iff _).mp hn with h | h | h | h
    exacts [h0 h, h1 h, h2 h, h4 h]
  · have hinspects : inspects i := by
      rcases hi with rfl | ⟨c, rfl⟩ | ⟨c, o, rfl⟩ <;> trivial
    obtain ⟨t, ht, -⟩ := exec_inv i hinv
    obtain ⟨err, code, data, hcode, rfl⟩ := exec_inspects hinspects hs ht
    exact ⟨err, code, data, hcode, ht⟩

/-- Settles O15: in the fault state a word only answers; outside it no word is blocked; and an unassigned CSR is refused with its
own error. -/
theorem firstFaultKept : Obligations.FirstFaultKept := by
  refine ⟨fun w s t hs h hw => ?_, fun w s t hs h hresp => ?_, fun c s hs hc => ?_⟩
  · obtain ⟨r, rfl⟩ := runWord_faulted hw hs h
    rfl
  · rcases runWord_error_response h hresp with ⟨hr, -⟩ | ⟨e, u, -, he, hcode, -⟩
    · rw [hs] at hr
      cases hr
    · exact he (ErrCode.number_inj hcode.symm)
  · refine ⟨_, csrRd_refused (csrAt_unassigned hc) s, ?_⟩
    rw [State.faultEntry_of_raised hs]
    exact ⟨rfl, rfl⟩

/-- Settles O18: the line is up in the fault state only, where a command other than `BLK_RESET` changes no register. -/
theorem interruptLine : Obligations.InterruptLine := by
  refine ⟨fun s => rfl, fun i s t h hirq hi => ?_⟩
  have hraised : s.fault.raised = true := (Bool.and_eq_true_iff.mp hirq).1
  obtain ⟨r, rfl⟩ := exec_faulted hi hraised h
  exact hirq

/-! ### Precise faults (60_exceptions.md R203, R206) -/

/-- Before actions that cannot stop, the first part stopped. -/
theorem stop_of_then_total {α β : Type} {x : Act α} {k : α → Act β} (hk : ∀ a, (k a).Stops fun _ => False) {s u : State}
    {e : Stop} (h : (x >>= k).run s = .error e u) : x.run s = .error e u := by
  rcases act_bind_error.mp h with h | ⟨a, v, -, h⟩
  · exact h
  · exact (hk a v _ u h).elim

theorem Stop.encoding_raise {e : ErrCode} (h : Stop.encoding (.raise e)) : e = .ovf := by
  rcases h with h | ⟨f, h⟩ <;> cases h
  rfl

theorem Stop.decoding_raise {e : ErrCode} (h : Stop.decoding (.raise e)) : False := by
  rcases h with h | ⟨f, h⟩ <;> cases h

section Raise

variable {s u : State} {e : ErrCode}

theorem rcEncode_raise_unchanged {start size total : Operand}
    (h : (body (.rcEncode start size total)).run s = .error (.raise e) u) : u = s ∨ e = .ovf := by
  rw [body_rcEncode_run] at h
  split_ifs at h
  · exact .inr (Stop.encoding_raise (rcEncode_stops _ _ _ s _ u (stop_of_then_total (fun _ => stops_pure _) h)))
  all_goals cases h; exact .inl rfl

theorem rcFlush_raise_unchanged (h : (body .rcFlush).run s = .error (.raise e) u) : u = s ∨ e = .ovf := by
  rw [body_rcFlush_run] at h
  split_ifs at h
  · exact .inr (Stop.encoding_raise (shiftLowTimes_stops 5 s _ u (stop_of_then_total
      (fun _ => (stops_modify _).bind fun _ => stops_get.bind fun _ => stops_pure _) h)))
  · cases h; exact .inl rfl

theorem rcGetFreq_raise_unchanged {total : Operand} (h : (body (.rcGetFreq total)).run s = .error (.raise e) u) : u = s := by
  rw [body_rcGetFreq_run] at h
  split_ifs at h
  · cases h; rfl
  · obtain ⟨f, hf⟩ := rcGetFreq_stops _ s _ u (stop_of_then_total (fun _ => stops_pure _) h)
    cases hf
  · cases h; rfl

theorem rcUpdate_raise_unchanged {start size : Operand} (h : (body (.rcUpdate start size)).run s = .error (.raise e) u) :
    u = s := by
  rw [body_rcUpdate_run] at h
  split_ifs at h
  · exact (Stop.decoding_raise (rcUpdate_stops _ _ s _ u (stop_of_then_total (fun _ => stops_pure _) h))).elim
  all_goals cases h; rfl

/-- At sound records no symbol reaches order -1, so `CM_ENCODE` raises `E_ARG` at its check of the operand alone
(41_contextmodel.md R163). -/
theorem cmEncode_raise_unchanged (hinv : s.Inv) (hs : s.fault.raised = false) {sym : Operand}
    (h : (body (.cmEncode sym)).run s = .error (.raise e) u) : u = s ∨ e = .ovf := by
  rw [body, get_bind_run, check_bind_run] at h
  split at h
  · rename_i hmodes
    rw [Bool.and_eq_true, beq_iff_eq, beq_iff_eq] at hmodes
    cases hsym : symOperand sym with
    | none => rw [hsym] at h; cases h; exact .inl rfl
    | some a =>
      rw [hsym] at h
      have hrun := stop_of_then_total (fun _ => (symbolDone_total _).bind fun _ => stops_pure _) h
      rcases modelEncode_sound hinv hs hmodes.1 hmodes.2 a with ⟨t, ht, -⟩ | ⟨t, ht⟩ <;> rw [hrun] at ht <;> cases ht
      exact .inr rfl
  · cases h; exact .inl rfl

theorem cmDecode_raise_unchanged (h : (body .cmDecode).run s = .error (.raise e) u) : u = s ∨ e = .desync := by
  rw [body, get_bind_run, check_bind_run] at h
  split at h
  · rcases modelDecode_stops s _ u (stop_of_then_total (fun _ => (symbolDone_total _).bind fun _ => stops_pure _) h) with he | he
    · cases he; exact .inr rfl
    · exact (Stop.decoding_raise he).elim
  · cases h; exact .inl rfl

/-- A raise has left the state as it was, but for the `E_OVF` of the encode side and the `E_DESYNC` of `CM_DECODE`. -/
theorem body_raise_unchanged {i : Instr} (hinv : s.Inv) (hs : s.fault.raised = false)
    (h : (body i).run s = .error (.raise e) u) : u = s ∨ e = .ovf ∨ (e = .desync ∧ i = .cmDecode) := by
  cases i with
  | rcEncode a b c => exact (rcEncode_raise_unchanged h).imp_right .inl
  | rcFlush => exact (rcFlush_raise_unchanged h).imp_right .inl
  | rcInitDec => exact absurd (body_raise h).2.1 nofun
  | rcGetFreq c => exact .inl (rcGetFreq_raise_unchanged h)
  | rcUpdate a b => exact .inl (rcUpdate_raise_unchanged h)
  | cmEncode a => exact (cmEncode_raise_unchanged hinv hs h).imp_right .inl
  | cmDecode => exact (cmDecode_raise_unchanged h).imp_right fun he => .inr ⟨he, rfl⟩
  | _ => refine .inl (body_fails_unchanged ?_ ?_ ?_ s _ u h) <;> exact nofun

end Raise

/-- Settles O16: with no fault recorded the error is one the body raised, and a precise one is raised before any write. -/
theorem preciseFaults : Obligations.PreciseFaults := by
  intro i s t e hinv hs h hresp he
  rcases exec_error h hresp with ⟨hr, -⟩ | ⟨e', u, hu, hcode, rfl⟩
  · rw [hs] at hr
    cases hr
  · obtain rfl := ErrCode.number_inj hcode
    rcases body_raise_unchanged hinv hs hu with rfl | rfl | ⟨rfl, rfl⟩
    · rfl
    · simp at he
    · simp at he

end Sys2Proof.Machine
end
